-- ==== Sys2Proof/Word.lean ====
section
/-! DEFINITION. The words of the station: bytes, times, numbers on the line, and the small ranges its records use. -/

namespace Sys2Proof

/-- A byte of the line or of the host port. -/
abbrev Byte := BitVec 8

/-- A 32-bit count of ticks that wraps modulo 2^32 (00_scope.md, *Line time*). -/
abbrev Time := BitVec 32

/-- A cycle number, 16 bits, wrapping (00_scope.md, *Cycle number*). -/
abbrev CycleNumber := BitVec 16

/-- A request number, 12 bits, wrapping (R85). -/
abbrev RequestNumber := BitVec 12

/-- A broadcast event number, 8 bits, wrapping (R69). -/
abbrev EventNumber := BitVec 8

/-- A station number 0..15. -/
abbrev Station := Fin 16

/-- An input 0..15: pins IN0 to IN7, then host marks M8 to M15 (R69). -/
abbrev Input := Fin 16

/-- A capture pin IN0 to IN7. -/
abbrev Pin := Fin 8

/-- An output channel 0..11. -/
abbrev ChannelNumber := Fin 12

/-- A place of the Order Table, 0..47 (R107). -/
abbrev Index := Fin 48

end Sys2Proof
end

