-- ==== Sys2Proof/Config.lean ====
section
/-! DEFINITION. The constants the spec fixes for every station. The spec leaves no value of a result open, so there is no
free value here. -/

namespace Sys2Proof.Config

/-- The sync window: a deviation is in-window when its magnitude is at most 32 ticks (00_scope.md, *Sync window and clamp*). -/
abbrev syncWindow : Int := 32

/-- The correction clamp, 16 ticks (00_scope.md, R11). -/
abbrev clamp : Int := 16

/-- The maximum lead, 2^30 ticks (00_scope.md, *Maximum lead*). -/
abbrev maximumLead : Nat := 2 ^ 30

/-- The largest delay a due time may lie ahead of its processing instant, 2^24 ticks (R112). -/
abbrev maximumDelay : Nat := 2 ^ 24

/-- The minimum lead after reset (R93). -/
abbrev resetMinimumLead : BitVec 16 := 1000

/-- The send queue holds at most 24 items (R153). -/
abbrev sendCapacity : Nat := 24

/-- The reply queue holds at most 16 items (R153). -/
abbrev replyCapacity : Nat := 16

/-- The Pending list holds at most 16 records (R161). -/
abbrev requestCapacity : Nat := 16

/-- At most 8 Pending records are addressed to one target (R161). -/
abbrev requestsPerTarget : Nat := 8

/-- The reply cache holds at most 8 records per origin (R99). -/
abbrev cacheCapacity : Nat := 8

/-- The Order Table has 48 places (R107). -/
abbrev tableCapacity : Nat := 48

/-- The notice queue holds at most 32 notices (R188). -/
abbrev noticeCapacity : Nat := 32

/-- The lost count is a 64-bit saturating count (R188). -/
abbrev lostMaximum : Nat := 2 ^ 64 - 1

/-- The greatest value an OVERFLOW notice carries, 2^31 - 1 (R189). -/
abbrev overflowMaximum : Nat := 2 ^ 31 - 1

/-- The Membership counters saturate at 65535 (R55). -/
abbrev counterMaximum : Nat := 65535

/-- A frame's payload is at most 64 bytes (R38). -/
abbrev payloadMaximum : Nat := 64

/-- A header is 8 bytes (R40). -/
abbrev headerLength : Nat := 8

/-- A reply-cache record expires, and a request's send limit lies, 8 cycles on (R97, R163). -/
abbrev cacheLife : CycleNumber := 8

/-- A try's deadline lies 2 cycles after the cycle it went out in (R163). -/
abbrev retryDelay : CycleNumber := 2

/-- The slot length L in ticks for each rate code (R3). -/
def slotLength : Fin 4 → Nat
  | 0 => 2816
  | 1 => 1408
  | 2 => 704
  | 3 => 352

/-- The send offset O in ticks for each rate code (R3). -/
def sendOffset : Fin 4 → Nat
  | 0 => 64
  | 1 => 32
  | 2 => 16
  | 3 => 8

/-- The ticks of a number of bit times at each rate code; at code 3 a bit is half a tick (R3, R38). -/
def ticksOfBits (rate : Fin 4) (bits : Nat) : Nat :=
  match rate with
  | 0 => bits * 4
  | 1 => bits * 2
  | 2 => bits
  | 3 => bits / 2

end Sys2Proof.Config
end

