-- ==== Sys2Proof/Syntax.lean ====
section
/-! DEFINITION. The commands of the station: one constructor per row of spec/opcode_table.json, with its operands. -/

namespace Sys2Proof

/-- The level of a pin or of the line. -/
inductive Level where
  | low
  | high
  deriving DecidableEq, Repr

/-- The strap pins as they are latched: station number, station count less one, rate code (R3). -/
structure Straps where
  id : Station
  cnt : Fin 16
  rate : Fin 4
  deriving DecidableEq, Repr

/-- Where a slot end and the build of the own frame fall on one slot start, which of the two is taken first: they are
separate happenings of one instant (R168, section 11.4). -/
inductive SlotOrder where
  | slotEndFirst
  | buildFirst
  deriving DecidableEq, Repr

/-- A command: something the outside world or the station's own clock brings about. One constructor per row of the table.
The host's commands carry the bytes that follow the command code (INIT: the section code), as received. -/
inductive Instr where
  /-- RESETN_ASSERTED (R37). -/
  | resetnAsserted
  /-- POWER_UP (R37). -/
  | powerUp
  /-- RESET_END (R3): the strap pins as they stand, and the levels of IN0 to IN7 (bit n is INn, 1 is HIGH). -/
  | resetEnd (straps : Straps) (pins : BitVec 8)
  /-- LISTEN_TIMER_EXPIRY (R20). -/
  | listenTimerExpiry
  /-- SLOT_START (R5). -/
  | slotStart (order : SlotOrder)
  /-- SEND_INSTANT (R30). -/
  | sendInstant
  /-- FRAME_END (R32): whether the mark read back differed from the mark sent, and the bytes read back. -/
  | frameEnd (markDiffers : Bool) (readBack : List Byte)
  /-- MARK_DETECTED (R48), at the present line time. -/
  | markDetected
  /-- FRAME_CHECKS_END (R51): the bytes received after the mark. -/
  | frameChecksEnd (received : List Byte)
  /-- CYCLE_END (R12). -/
  | cycleEnd
  /-- PIN_TRANSITION (R71): the pin and the level of its sample at this tick. -/
  | pinTransition (pin : Pin) (level : Level)
  /-- EDGE_RECOGNISED (R72). -/
  | edgeRecognised (pin : Pin)
  /-- START_EDGE (R116), of the entry at this index. -/
  | startEdge (index : Index)
  /-- TRAIN_PHASE_START (R142), of the entry at this index. -/
  | trainPhaseStart (index : Index)
  /-- END_EDGE (R118), of the entry at this index. -/
  | endEdge (index : Index)
  /-- EXPIRY (R115), of the entry at this index. -/
  | expiry (index : Index)
  /-- ARM_TIME_AGEING (R114), of the entry at this index. -/
  | armTimeAgeing (index : Index)
  /-- HOLD_AGED (R124), of the entry at this index. -/
  | holdAged (index : Index)
  /-- NOP (R173). -/
  | nop
  /-- RESET (R179). -/
  | reset
  /-- INIT_PERMIT (R88). -/
  | initPermit (args : List Byte)
  /-- INIT_INPUT (R70). -/
  | initInput (args : List Byte)
  /-- INIT_IDLE (R137). -/
  | initIdle (args : List Byte)
  /-- INIT_LEAD (R93). -/
  | initLead (args : List Byte)
  /-- START (R19). -/
  | start
  /-- STOP (R35). -/
  | stop
  /-- SUBMIT_LOCAL (R101): the bytes of the request item. -/
  | submitLocal (item : List Byte)
  /-- SUBMIT_PEER (R103): the bytes of the request item. -/
  | submitPeer (item : List Byte)
  /-- MARK (R74). -/
  | mark (args : List Byte)
  /-- NOTICE (R189). -/
  | notice
  /-- STATUS (R183). -/
  | status
  /-- PEER (R60). -/
  | peer (args : List Byte)
  /-- ENTRY (R133). -/
  | entry (args : List Byte)
  /-- TIME (R184). -/
  | time
  /-- CAPTURE (R184). -/
  | capture (args : List Byte)
  /-- UNKNOWN_COMMAND (R174): a command code outside the table, or an INIT whose section code is none of 1..4. -/
  | unknownCommand (code : Byte) (args : List Byte)
  /-- EMPTY_TRANSACTION (R172). -/
  | emptyTransaction
  /-- EXPIRY_NOTED_AS_REACHED (R115), of the entry at this index. -/
  | expiryNotedAsReached (index : Index)
  /-- CSN_FALLING_EDGE (R172). -/
  | csnFallingEdge
  deriving DecidableEq, Repr

end Sys2Proof
end

