-- ==== Sys2Proof/Decode.lean ====
section
/-! DEFINITION. Commands from bits. No row of spec/opcode_table.json gives bits, so no word spells a command; the host port's
own byte layouts (R172, R174, R175) are read here. -/

namespace Sys2Proof

/-- The command a word spells by the table's bits: the table gives no row any bits. -/
def decodeTableWord (_nbits _w : Nat) : Option Instr := none

/-- Eight bits as a byte, most significant bit first (R172). -/
def byteOfBits (bits : List Bool) : Byte := BitVec.ofNat 8 (bits.foldl (fun n b => 2 * n + b.toNat) 0)

/-- The whole bytes of the bits shifted in during a transaction; a final byte of fewer than 8 bits is discarded (R172). -/
def wholeBytes : List Bool → List Byte
  | b7 :: b6 :: b5 :: b4 :: b3 :: b2 :: b1 :: b0 :: rest =>
    byteOfBits [b7, b6, b5, b4, b3, b2, b1, b0] :: wholeBytes rest
  | _ => []

/-- The row of an INIT by its section code (R175, R177). -/
def initRow (args : List Byte) : Instr :=
  match args with
  | [] => .unknownCommand 0x02 []
  | part :: body =>
    match part.toNat with
    | 1 => .initPermit body
    | 2 => .initInput body
    | 3 => .initIdle body
    | 4 => .initLead body
    | _ => .unknownCommand 0x02 args

/-- The row of a SUBMIT: the target is bits 3..0 of the item's first byte (R180). -/
def submitRow (own : Station) (item : List Byte) : Instr :=
  match item with
  | [] => .submitPeer []
  | b :: _ => if (b.extractLsb' 0 4).toNat = own.val then .submitLocal item else .submitPeer item

/-- The row that the bytes of a transaction of station `own` make (R172, R174, R175). -/
def commandOfBytes (own : Station) : List Byte → Instr
  | [] => .emptyTransaction
  | code :: args =>
    match code.toNat with
    | 0x00 => .nop
    | 0x01 => .reset
    | 0x02 => initRow args
    | 0x03 => .start
    | 0x04 => .stop
    | 0x05 => submitRow own args
    | 0x06 => .mark args
    | 0x07 => .notice
    | 0x08 => .status
    | 0x09 => .peer args
    | 0x0A => .entry args
    | 0x0B => .time
    | 0x0C => .capture args
    | _ => .unknownCommand code args

/-- The bytes a controller shifts in to bring about a host row of station `own` (R174, R175), or none for a row that no
transaction makes. A SUBMIT item names its row by its target. -/
def hostBytes (own : Station) : Instr → Option (List Byte)
  | .nop => some [0x00]
  | .reset => some [0x01]
  | .initPermit args => some (0x02 :: 0x01 :: args)
  | .initInput args => some (0x02 :: 0x02 :: args)
  | .initIdle args => some (0x02 :: 0x03 :: args)
  | .initLead args => some (0x02 :: 0x04 :: args)
  | .submitLocal item => if submitRow own item = .submitLocal item then some (0x05 :: item) else none
  | .submitPeer item => if submitRow own item = .submitPeer item then some (0x05 :: item) else none
  | .mark args => some (0x06 :: args)
  | .peer args => some (0x09 :: args)
  | .entry args => some (0x0A :: args)
  | .capture args => some (0x0C :: args)
  | .unknownCommand code args => some (code :: args)
  | .emptyTransaction => some []
  | .start => some [0x03]
  | .stop => some [0x04]
  | .notice => some [0x07]
  | .status => some [0x08]
  | .time => some [0x0B]
  | .resetnAsserted | .powerUp | .resetEnd _ _ | .listenTimerExpiry | .slotStart _ | .sendInstant => none
  | .frameEnd _ _ | .markDetected | .frameChecksEnd _ | .cycleEnd | .pinTransition _ _ | .edgeRecognised _ => none
  | .startEdge _ | .trainPhaseStart _ | .endEdge _ | .expiry _ | .armTimeAgeing _ | .holdAged _ => none
  | .expiryNotedAsReached _ | .csnFallingEdge => none

end Sys2Proof
end

