-- ==== Sys2Proof/Machine/State.lean ====
section
/-! DEFINITION. Everything the spec gives the station to hold, block by block, as plain data, and its values after reset. -/

namespace Sys2Proof.Machine

/-! ### Cycle Unit -/

/-- One deviation sample of the present cycle (R10). -/
structure Sample where
  station : Station
  deviation : Int
  deriving DecidableEq, Repr

/-- Line time and the cycle grid (R1, R4, R10). -/
structure CycleUnit where
  /-- Line time (R1). -/
  lineTime : Time
  /-- The running flag of the grid (R4). -/
  running : Bool
  /-- The line time at which the present cycle began (R4). -/
  cycleStart : Time
  /-- The cycle number (R6). -/
  cycleNumber : CycleNumber
  /-- The slot that has most recently begun, or none (R5). -/
  slotIndex : Option Station
  /-- Set from a cycle end with a negative step until line time reaches the new cycle start (R12 step 8, R13). -/
  slotZeroAwaited : Bool
  /-- The sample store, in arrival order (R10). -/
  samples : List Sample
  deriving DecidableEq, Repr

/-- The link states (R17). -/
inductive LinkState where
  | off
  | listen
  | integrate
  | coldstart
  | synced
  deriving DecidableEq, Repr

/-- The reasons of a LINK notice (R18). -/
inductive LinkReason where
  | start
  | heard
  | timeout
  | joined
  | unheard
  | ownSlot
  | confirmed
  | yield
  | silence
  | collision
  | stop
  deriving DecidableEq, Repr

/-- The link state machine of the Cycle Unit (section 2.1, R17), and the frozen flag of the configuration (R177). -/
structure LinkUnit where
  state : LinkState
  /-- Ticks of silence still to wait in LISTEN, or stopped (R20). -/
  listenTimer : Option Nat
  integrationCount : Nat
  confirmationCount : Nat
  silenceCount : Nat
  collisionCount : Nat
  newCountdown : Nat
  announced : Bool
  /-- The configuration is frozen (R19, R177). -/
  frozen : Bool
  deriving DecidableEq, Repr

/-! ### Line Port -/

/-- The own frame from its build to its end (R30, R54). -/
structure OwnFrame where
  /-- Header, payload and frame check, as they go out after the mark (R38). -/
  content : List Byte
  /-- The frame carries the NEW flag (R31). -/
  carriesNew : Bool
  /-- The numbers of the requests whose items it carries (R160). -/
  requests : List RequestNumber
  /-- none until the send instant; then the ticks left until the last bit has gone out (R30). -/
  remaining : Option Nat
  deriving DecidableEq, Repr

/-- What is known of the own slot (R32, R33). -/
inductive OwnSlot where
  /-- Nothing seen in it yet. -/
  | unjudged
  /-- A mark not the station's own was detected in it before the send instant. -/
  | foreignMark
  /-- Judged clean at the frame end; the collision count before that judgement (R33). -/
  | clean (countBefore : Nat)
  /-- Judged collided. -/
  | collided
  deriving DecidableEq, Repr

/-- The cycle and the slot a mark time lies in, fixed when the mark is detected (R8, R10). -/
structure Attribution where
  cycleStart : Time
  cycleNumber : CycleNumber
  slot : Station
  deriving DecidableEq, Repr

/-- The receive frame buffer from the mark on (R48): the mark time, and where the mark lies if the grid ran. -/
structure Reception where
  markTime : Time
  attribution : Option Attribution
  deriving DecidableEq, Repr

/-- The Line Port (R30, R32, R48). -/
structure LinePort where
  frame : Option OwnFrame
  ownSlot : OwnSlot
  reception : Option Reception
  /-- The reception that the own slot start of this very instant took from the buffer: its checks may still end at this
  instant, the build taken first (R48, R105). -/
  ending : Option Reception
  deriving DecidableEq, Repr

/-! ### Membership Table -/

/-- The presence states of a record other than SELF (R55). -/
inductive PeerState where
  | unknown
  | present
  | missing
  | lost
  deriving DecidableEq, Repr

/-- One Membership record (R55). -/
structure PeerRecord where
  state : PeerState
  misses : Nat
  lastDeviation : Option Int
  slotNote : Option Int
  newSeen : Bool
  goodFrames : Nat
  checkErrors : Nat
  timingErrors : Nat
  intrusions : Nat
  expectedEvent : Option EventNumber
  deriving DecidableEq, Repr

/-! ### Capture Unit -/

/-- A signal edge (00_scope.md). -/
inductive Edge where
  | rise
  | fall
  deriving DecidableEq, Repr

/-- The edge select of a pin (R69). -/
inductive EdgeSelect where
  | none
  | rise
  | fall
  | both
  deriving DecidableEq, Repr

/-- A hold in progress: hold start and hold count, which are set and cleared together (R69, R71). -/
structure Hold where
  start : Time
  count : Nat
  deriving DecidableEq, Repr

/-- What belongs to a pin alone (R69). -/
structure PinRecord where
  /-- The level of the input pin at its latest sample (R71). -/
  level : Level
  edgeSelect : EdgeSelect
  filter : BitVec 8
  settled : Level
  hold : Option Hold
  deriving DecidableEq, Repr

/-- What every input 0..15 has (R69). -/
structure InputRecord where
  broadcast : Bool
  lastStamp : Option Time
  lastEdge : Option Edge
  edgeCount : BitVec 16
  deriving DecidableEq, Repr

/-- The Capture Unit (R69). -/
structure CaptureUnit where
  pins : Vector PinRecord 8
  inputs : Vector InputRecord 16
  eventNumber : EventNumber
  deriving DecidableEq, Repr

/-! ### Request Exchange -/

/-- A level of the permit map (R88). -/
inductive PermitLevel where
  | deny
  | place
  | preempt
  deriving DecidableEq, Repr

/-- The reply codes (R46). -/
inductive ReplyCode where
  | accepted
  | denied
  | full
  | late
  | far
  | badField
  | notFound
  deriving DecidableEq, Repr

/-- The outcomes with which an entry leaves the table (R47, R127). -/
inductive EntryOutcome where
  | completed
  | cancelled
  | preempted
  | collided
  | expired
  | late
  | timebaseStep
  | originLost
  | sourceLost
  | stopped
  deriving DecidableEq, Repr

/-- The reasons for which a Pending record fails (R167). -/
inductive FailReason where
  | noAnswer
  | peerLost
  | peerRestarted
  | stopped
  deriving DecidableEq, Repr

/-- An item of the send queue (R153): an event with its input, edge, number and stamp, or a copy of a Pending record's
item with the record's number. -/
inductive SendItem where
  | event (input : Input) (edge : Edge) (number : EventNumber) (stamp : Time)
  | request (number : RequestNumber) (bytes : List Byte)
  deriving DecidableEq, Repr

/-- An item of the reply queue (R153). -/
inductive ReplyItem where
  | reply (origin : Station) (number : RequestNumber) (code : ReplyCode)
  | result (origin : Station) (number : RequestNumber) (outcome : EntryOutcome) (lastStart : Option Time)
  deriving DecidableEq, Repr

/-- A record of the Pending list (R161). -/
structure RequestRecord where
  number : RequestNumber
  target : Station
  tries : Nat
  sent : Bool
  deadline : Option CycleNumber
  sendLimit : Option CycleNumber
  item : List Byte
  deriving DecidableEq, Repr

/-- A record of the reply cache (R99). -/
structure CacheRecord where
  number : RequestNumber
  code : ReplyCode
  expiry : CycleNumber
  deriving DecidableEq, Repr

/-- The Request Exchange (R85, R88, R93, R99, R153, R161). -/
structure RequestExchange where
  /-- The request number counter (R85). -/
  counter : RequestNumber
  /-- The permit map: a row per station, a level per channel (R88). -/
  permit : Vector (Vector PermitLevel 12) 16
  /-- The minimum lead (R93). -/
  minLead : BitVec 16
  sendQueue : List SendItem
  replyQueue : List ReplyItem
  /-- The Pending list, in the order of the SUBMITs (R161). -/
  requests : List RequestRecord
  /-- The reply cache, a list per origin, oldest first (R99). -/
  cache : Vector (List CacheRecord) 16
  deriving DecidableEq, Repr

/-! ### Order Table -/

/-- The edge of a trigger (R43, R44). -/
inductive TriggerEdge where
  | rise
  | fall
  | either
  deriving DecidableEq, Repr

/-- The late policies (R43, R113). -/
inductive LatePolicy where
  | drop
  | startNow
  | rearm
  deriving DecidableEq, Repr

/-- The states of an entry (R108). -/
inductive EntryState where
  | armed
  | scheduled
  | running
  deriving DecidableEq, Repr

/-- The fields R108 keeps for a TRAIN. -/
structure TrainPart where
  period : BitVec 24
  count : BitVec 16
  countRemaining : BitVec 16
  followingStart : Option Time
  deriving DecidableEq, Repr

/-- The fields R108 keeps for an entry of EVENT basis. -/
structure EventPart where
  triggerStation : Station
  triggerInput : Input
  triggerEdge : TriggerEdge
  delay : BitVec 24
  /-- Fires remaining; 0 is unbounded. -/
  fires : BitVec 8
  expiry : Option Time
  /-- The table has noted the expiry as reached (R115). -/
  expiryReached : Bool
  latePolicy : LatePolicy
  armTime : Time
  deriving DecidableEq, Repr

/-- An entry of the Order Table (R108). Its action is TRAIN exactly when it has a train part, its basis EVENT exactly when
it has an event part. -/
structure Entry where
  index : Index
  origin : Station
  number : RequestNumber
  channel : ChannelNumber
  state : EntryState
  active : Bool
  nextEdge : Option Time
  width : BitVec 24
  train : Option TrainPart
  event : Option EventPart
  preempt : Bool
  bound : Bool
  report : Bool
  lastStart : Option Time
  /-- The table has noted a running hold as aged (R124). -/
  aged : Bool
  deriving DecidableEq, Repr

/-! ### Channel Unit -/

/-- The phase of a channel (R134). -/
inductive Phase where
  | active
  | inactive
  deriving DecidableEq, Repr

/-- A channel record (R134). -/
structure Channel where
  idle : Level
  owner : Option Index
  phase : Phase
  deriving DecidableEq, Repr

/-! ### Host Port -/

/-- The kinds of notice (R187). -/
inductive NoticeKind where
  | answered
  | failed
  | result
  | link
  | peer
  | gap
  | dropped
  | intrusion
  | collision
  | step
  | overflow
  deriving DecidableEq, Repr

/-- A notice (R186). The number is held in the 12 bits of a request number; an event number is its low 8 bits. -/
structure Notice where
  kind : NoticeKind
  time : Time
  station : Option Station
  number : Option RequestNumber
  code : Byte
  value : Option (BitVec 32)
  deriving DecidableEq, Repr

/-- The interval during which CSn is low (R172). -/
inductive Transaction where
  /-- CSn is high. -/
  | idle
  /-- CSn fell after the end of the latest reset: a command may be taken at its rise. -/
  | live
  /-- CSn fell before the end of the latest reset: nothing is taken at its rise. -/
  | barred
  deriving DecidableEq, Repr

/-- The Host Port (R172, R173, R188). -/
structure HostPort where
  transaction : Transaction
  /-- The held response (R173). -/
  held : List Byte
  /-- The notice queue (R188). -/
  notices : List Notice
  /-- The lost count (R188). -/
  lost : Nat
  deriving DecidableEq, Repr

/-! ### The station -/

/-- The whole station, and the queue of the commands that wait. -/
structure State where
  /-- The commands that wait, first in first out (the model's own). -/
  pending : List Instr
  /-- A reset has begun and has not ended (R1, R37). -/
  inReset : Bool
  straps : Straps
  cycle : CycleUnit
  link : LinkUnit
  line : LinePort
  /-- The Membership Table; the record at the own number is SELF and is never read or written (R55). -/
  members : Vector PeerRecord 16
  capture : CaptureUnit
  exchange : RequestExchange
  /-- The entries of the Order Table, in acceptance order (R107). -/
  table : List Entry
  channels : Vector Channel 12
  /-- The levels of OUT0..OUT11: of each channel, the level left when its latest instant ended (R136). -/
  outputs : Vector Level 12
  host : HostPort
  deriving DecidableEq, Repr

/-- The faults of the block: none. The spec gives no happening that stops the station (see NOTES.md, Stops). -/
inductive Fault where
  deriving DecidableEq, Repr

/-- What the model may refuse. -/
inductive Refusal where
  /-- Raised by an arm of exec whose command has no meaning yet; no arm raises it. Safe: the machine stops. -/
  | notModelled (mnemonic : String)
  deriving DecidableEq, Repr

/-! ### Reset values -/

/-- R1, R4: line time 0, the grid stopped. -/
def CycleUnit.reset : CycleUnit :=
  { lineTime := 0, running := false, cycleStart := 0, cycleNumber := 0, slotIndex := none, slotZeroAwaited := false,
    samples := [] }

/-- R17, R192: OFF, the timer stopped, every count 0, nothing announced, the configuration unfrozen. -/
def LinkUnit.reset : LinkUnit :=
  { state := .off, listenTimer := none, integrationCount := 0, confirmationCount := 0, silenceCount := 0,
    collisionCount := 0, newCountdown := 0, announced := false, frozen := false }

/-- R37, R48, R170: no frame in flight, no frame in the buffer. -/
def LinePort.reset : LinePort :=
  { frame := none, ownSlot := .unjudged, reception := none, ending := none }

/-- R55. -/
def PeerRecord.reset : PeerRecord :=
  { state := .unknown, misses := 0, lastDeviation := none, slotNote := none, newSeen := false, goodFrames := 0,
    checkErrors := 0, timingErrors := 0, intrusions := 0, expectedEvent := none }

/-- R69. DESIGN CHOICE, unsafe (log entry 2): the pin reads LOW until the reset ends and samples it. -/
def PinRecord.reset : PinRecord :=
  { level := .low, edgeSelect := .none, filter := 0, settled := .low, hold := none }

/-- R69. -/
def InputRecord.reset : InputRecord :=
  { broadcast := false, lastStamp := none, lastEdge := none, edgeCount := 0 }

/-- R69. -/
def CaptureUnit.reset : CaptureUnit :=
  { pins := Vector.replicate 8 PinRecord.reset, inputs := Vector.replicate 16 InputRecord.reset, eventNumber := 0 }

/-- R85, R88, R93, R99, R153, R161. -/
def RequestExchange.reset : RequestExchange :=
  { counter := 0, permit := Vector.replicate 16 (Vector.replicate 12 PermitLevel.deny),
    minLead := Config.resetMinimumLead, sendQueue := [], replyQueue := [], requests := [],
    cache := Vector.replicate 16 [] }

/-- R134. -/
def Channel.reset : Channel :=
  { idle := .low, owner := none, phase := .inactive }

/-- The response of RESET with code OK (R173, R192). -/
def resetResponse : List Byte := [0x01, 0x00]

/-- R192. DESIGN CHOICE, unsafe (log entry 2): CSn is high. -/
def HostPort.reset : HostPort :=
  { transaction := .idle, held := resetResponse, notices := [], lost := 0 }

/-- The station right after a reset has begun, before RESET_END latches the straps (R3, R37).
DESIGN CHOICE, unsafe (log entry 1): the straps read 0 until they are latched. -/
def State.reset : State :=
  { pending := [], inReset := true, straps := { id := 0, cnt := 0, rate := 0 }, cycle := CycleUnit.reset,
    link := LinkUnit.reset, line := LinePort.reset, members := Vector.replicate 16 PeerRecord.reset,
    capture := CaptureUnit.reset, exchange := RequestExchange.reset, table := [],
    channels := Vector.replicate 12 Channel.reset, outputs := Vector.replicate 12 .low, host := HostPort.reset }

end Sys2Proof.Machine
end

