-- ==== Sys2Proof/Machine/Ops.lean ====
section
/-! DEFINITION. The operations every block uses: writing one block of the state, comparing times, the slot geometry, and
queueing a notice. -/

namespace Sys2Proof.Machine

/-! ### Writing one block -/

def State.setPending (s : State) (q : List Instr) : State := { s with pending := q }
def State.setCycle (s : State) (c : CycleUnit) : State := { s with cycle := c }
def State.setLink (s : State) (l : LinkUnit) : State := { s with link := l }
def State.setLine (s : State) (l : LinePort) : State := { s with line := l }
def State.setMembers (s : State) (m : Vector PeerRecord 16) : State := { s with members := m }
def State.setCapture (s : State) (c : CaptureUnit) : State := { s with capture := c }
def State.setExchange (s : State) (x : RequestExchange) : State := { s with exchange := x }
def State.setTable (s : State) (t : List Entry) : State := { s with table := t }
def State.setChannels (s : State) (c : Vector Channel 12) : State := { s with channels := c }
def State.setOutputs (s : State) (o : Vector Level 12) : State := { s with outputs := o }
def State.setHost (s : State) (h : HostPort) : State := { s with host := h }

/-! ### Comparing times (R2) -/

/-- Time `a` is at or after time `b` (R2). -/
def atOrAfter (a b : Time) : Bool := decide ((a - b).toNat < 2 ^ 31)

/-- Time `a` is after time `b`: at or after it and not equal to it. -/
def afterTime (a b : Time) : Bool := atOrAfter a b && a != b

/-- A time is passed when it is at or before the present line time; it is in the future otherwise. -/
def passed (x now : Time) : Bool := !afterTime x now

/-- How far time `x` lies ahead of `now`, modulo 2^32 (the *d* of R93). -/
abbrev ahead (x now : Time) : Nat := (x - now).toNat

/-- Cycle number `c` has been reached at cycle number `present` (R6). -/
def cycleReached (present c : CycleNumber) : Bool := decide ((present - c).toNat < 2 ^ 15)

/-! ### Straps and geometry (R3, R5) -/

/-- The own station number. -/
def State.own (s : State) : Station := s.straps.id

/-- The present line time. -/
def State.now (s : State) : Time := s.cycle.lineTime

/-- The station count N, 1..16 (R3). -/
def State.stationCount (s : State) : Nat := s.straps.cnt.val + 1

/-- The slot length L in ticks (R3). -/
def State.slotLength (s : State) : Nat := Config.slotLength s.straps.rate

/-- The cycle length N × L in ticks (R3). -/
def State.cycleLength (s : State) : Nat := s.stationCount * s.slotLength

/-- The straps allow a START: N in 2..16 and the own number below N (R19). -/
def State.legalStraps (s : State) : Bool :=
  decide (2 ≤ s.stationCount) && decide (s.own.val < s.stationCount)

/-- The line time at which slot `k` of a cycle that began at `cycleStart` begins (R5). -/
def State.slotStartFrom (s : State) (cycleStart : Time) (k : Nat) : Time :=
  cycleStart + BitVec.ofNat 32 (k * s.slotLength)

/-- The line time at which slot `k` of the present cycle begins (R5). -/
def State.slotStartTime (s : State) (k : Nat) : Time := s.slotStartFrom s.cycle.cycleStart k

/-- The line time at which the mark of slot `k` is due (R5, R8). -/
def State.markDue (s : State) (cycleStart : Time) (k : Nat) : Time :=
  s.slotStartFrom cycleStart k + BitVec.ofNat 32 (Config.sendOffset s.straps.rate)

/-- COLDSTART and SYNCED are the transmitting states (R17). -/
def LinkState.transmits : LinkState → Bool
  | .coldstart | .synced => true
  | .off | .listen | .integrate => false

/-! ### Records by number -/

/-- The same function of every record of a register file. -/
def mapVector {α β : Type} {n : Nat} (f : α → β) (v : Vector α n) : Vector β n :=
  Vector.mk (v.toList.map f).toArray (by simp)

/-- The Membership record of a station. -/
def State.peer (s : State) (k : Station) : PeerRecord := s.members.get k

/-- Write the Membership record of a station. -/
def State.setPeer (s : State) (k : Station) (r : PeerRecord) : State :=
  s.setMembers (s.members.set k.val r k.isLt)

/-- The record of a channel. -/
def State.channel (s : State) (c : ChannelNumber) : Channel := s.channels.get c

/-- Write the record of a channel. -/
def State.setChannel (s : State) (c : ChannelNumber) (r : Channel) : State :=
  s.setChannels (s.channels.set c.val r c.isLt)

/-! ### Notices (R186 to R188) -/

/-- The code of a notice kind in the NOTICE response (R187). -/
def NoticeKind.code : NoticeKind → Byte
  | .answered => 1
  | .failed => 2
  | .result => 3
  | .link => 4
  | .peer => 5
  | .gap => 6
  | .dropped => 7
  | .intrusion => 8
  | .collision => 9
  | .step => 10
  | .overflow => 11

/-- Queue a notice: it joins the tail where the queue holds fewer than 32; else it is discarded and counted (R188). -/
def queueNotice (n : Notice) (s : State) : State :=
  if s.host.notices.length < Config.noticeCapacity then
    s.setHost { s.host with notices := s.host.notices ++ [n] }
  else
    s.setHost { s.host with lost := min Config.lostMaximum (s.host.lost + 1) }

/-- A notice at the present line time with these fields (R186). -/
def State.noticeNow (s : State) (kind : NoticeKind) (station : Option Station) (number : Option RequestNumber)
    (code : Byte) (value : Option (BitVec 32)) : Notice :=
  { kind := kind, time := s.now, station := station, number := number, code := code, value := value }

/-- One more, stopping at the counter's maximum (R55). -/
def saturate (n : Nat) : Nat := min Config.counterMaximum (n + 1)

end Sys2Proof.Machine
end

