-- ==== Sys2Proof/Machine/Operands.lean ====
section
/-! DEFINITION. The layouts of Chapter 3: byte order, the frame check, the header, the items and their parse, and the form of
a frame on the line. -/

namespace Sys2Proof.Machine

/-! ### Byte order: most significant byte first (R38, R172) -/

def bytes16 (x : BitVec 16) : List Byte := [x.extractLsb' 8 8, x.extractLsb' 0 8]
def bytes24 (x : BitVec 24) : List Byte := [x.extractLsb' 16 8, x.extractLsb' 8 8, x.extractLsb' 0 8]
def bytes32 (x : BitVec 32) : List Byte :=
  [x.extractLsb' 24 8, x.extractLsb' 16 8, x.extractLsb' 8 8, x.extractLsb' 0 8]
def bytes64 (x : BitVec 64) : List Byte := bytes32 (x.extractLsb' 32 32) ++ bytes32 (x.extractLsb' 0 32)

def word16 (a b : Byte) : BitVec 16 := a ++ b
def word24 (a b c : Byte) : BitVec 24 := (a ++ b) ++ c
def word32 (a b c d : Byte) : BitVec 32 := ((a ++ b) ++ c) ++ d

/-- Bits 7..4 and 3..0 of a byte as numbers. -/
def highNibble (b : Byte) : Fin 16 := Fin.ofNat 16 (b.extractLsb' 4 4).toNat
def lowNibble (b : Byte) : Fin 16 := Fin.ofNat 16 (b.extractLsb' 0 4).toNat

/-- A byte with these two numbers in bits 7..4 and 3..0. -/
def nibbles (high low : Fin 16) : Byte := BitVec.ofNat 4 high.val ++ BitVec.ofNat 4 low.val

/-- Two bytes with a request number in bits 15..4 and a nibble in bits 3..0 (R43 to R47). -/
def numberBytes (number : RequestNumber) (low : BitVec 4) : List Byte := bytes16 (number ++ low)

/-- Bits 15..4 of two bytes. -/
def numberOf (a b : Byte) : RequestNumber := (word16 a b).extractLsb' 4 12

/-- Bits 3..0 of a byte. -/
def lowBits (b : Byte) : BitVec 4 := b.extractLsb' 0 4

/-! ### The frame check (R39) -/

/-- One bit enters the check register: generator x^16 + x^12 + x^5 + 1. -/
def crcBit (r : BitVec 16) (bit : Bool) : BitVec 16 :=
  if (r.getLsbD 15 != bit) then (r <<< 1) ^^^ 0x1021 else r <<< 1

/-- A byte enters most significant bit first. -/
def crcByte (r : BitVec 16) (b : Byte) : BitVec 16 :=
  [7, 6, 5, 4, 3, 2, 1, 0].foldl (fun r i => crcBit r (b.getLsbD i)) r

/-- The frame check over these bytes: the register starts at 0xFFFF and is not inverted. -/
def frameCheck (bytes : List Byte) : BitVec 16 := bytes.foldl crcByte 0xFFFF

/-! ### Codes on the line -/

/-- R46. -/
def ReplyCode.code : ReplyCode → BitVec 4
  | .accepted => 0
  | .denied => 1
  | .full => 2
  | .late => 3
  | .far => 4
  | .badField => 5
  | .notFound => 6

/-- R46: a reply code field of 7..15 fails the parse. -/
def ReplyCode.ofCode (c : BitVec 4) : Option ReplyCode :=
  match c.toNat with
  | 0 => some .accepted
  | 1 => some .denied
  | 2 => some .full
  | 3 => some .late
  | 4 => some .far
  | 5 => some .badField
  | 6 => some .notFound
  | _ => none

/-- R47. -/
def EntryOutcome.code : EntryOutcome → BitVec 4
  | .completed => 0
  | .cancelled => 1
  | .preempted => 2
  | .collided => 3
  | .expired => 4
  | .late => 5
  | .timebaseStep => 6
  | .originLost => 7
  | .sourceLost => 8
  | .stopped => 9

/-- R47: an outcome field of 10..15 fails the parse. -/
def EntryOutcome.ofCode (c : BitVec 4) : Option EntryOutcome :=
  match c.toNat with
  | 0 => some .completed
  | 1 => some .cancelled
  | 2 => some .preempted
  | 3 => some .collided
  | 4 => some .expired
  | 5 => some .late
  | 6 => some .timebaseStep
  | 7 => some .originLost
  | 8 => some .sourceLost
  | 9 => some .stopped
  | _ => none

/-- The edge bit of an EVENT: 0 RISE, 1 FALL (R42). -/
def Edge.bit : Edge → Bool
  | .rise => false
  | .fall => true

/-- R42. -/
def Edge.ofBit : Bool → Edge
  | false => .rise
  | true => .fall

/-! ### Requests and items -/

/-- The train part of an ORDER (R44). -/
structure TrainFields where
  period : BitVec 24
  count : BitVec 16
  deriving DecidableEq, Repr

/-- The trigger and expiry parts of an ORDER, with its late policy, as sent: an edge or a policy of 3 is undefined and is
judged at acceptance (R43, R44, R86). -/
structure EventFields where
  latePolicy : BitVec 2
  station : Station
  input : Input
  edge : BitVec 2
  delay : BitVec 24
  fires : BitVec 8
  expiry : Option Time
  deriving DecidableEq, Repr

/-- The basis of an ORDER with the part that goes with it (R44). -/
inductive BasisFields where
  | absolute (due : Time)
  | event (fields : EventFields)
  deriving DecidableEq, Repr

/-- The fields of an ORDER as sent (R43, R44). -/
structure OrderFields where
  channel : Fin 16
  preempt : Bool
  bound : Bool
  report : Bool
  width : BitVec 24
  train : Option TrainFields
  basis : BasisFields
  deriving DecidableEq, Repr

/-- The three kinds of request (R84); a delta is signed, two's complement (R45). -/
inductive Request where
  | order (fields : OrderFields)
  | amend (subject : RequestNumber) (delta : BitVec 24)
  | cancel (subject : RequestNumber)
  deriving DecidableEq, Repr

/-- An item of a payload (R41 to R47). -/
inductive Item where
  | event (input : Input) (edge : Edge) (number : EventNumber) (stamp : Time)
  | request (target : Station) (number : RequestNumber) (request : Request)
  | reply (origin : Station) (number : RequestNumber) (code : ReplyCode)
  | result (origin : Station) (number : RequestNumber) (outcome : EntryOutcome) (lastStart : Option Time)
  deriving DecidableEq, Repr

/-- The train part of an ORDER: period and count (R44). -/
def encodeTrain : Option TrainFields → List Byte
  | none => []
  | some t => bytes24 t.period ++ bytes16 t.count

/-- The expiry part of an ORDER (R44). -/
def encodeExpiry : Option Time → List Byte
  | none => []
  | some x => bytes32 x

/-- The basis bit, the late policy and the expiry-present bit of byte 3 of an ORDER: bits 6 and 2..0 (R43). -/
def BasisFields.bits : BasisFields → Bool × BitVec 2 × Bool
  | .absolute _ => (false, 0, false)
  | .event e => (true, e.latePolicy, e.expiry.isSome)

/-- The due part, or the trigger and expiry parts, of an ORDER (R44). -/
def encodeBasis : BasisFields → List Byte
  | .absolute due => bytes32 due
  | .event e =>
    [nibbles e.station e.input, e.edge ++ (0 : BitVec 6)] ++ bytes24 e.delay ++ [e.fires] ++ encodeExpiry e.expiry

/-- One bit as a bit vector. -/
def bit (b : Bool) : BitVec 1 := BitVec.ofBool b

/-- Byte 3 of an ORDER (R43). -/
def orderFlags (o : OrderFields) : Byte :=
  bit o.train.isSome ++ bit o.basis.bits.1 ++ bit o.preempt ++ bit o.bound ++ bit o.report ++ o.basis.bits.2.1 ++
    bit o.basis.bits.2.2

/-- The bytes of a request item (R43 to R45). -/
def encodeRequest (target : Station) (number : RequestNumber) : Request → List Byte
  | .order o =>
    [nibbles 2 target] ++ numberBytes number (BitVec.ofNat 4 o.channel.val) ++ [orderFlags o] ++ bytes24 o.width ++
      encodeTrain o.train ++ encodeBasis o.basis
  | .amend subject delta => [nibbles 3 target] ++ numberBytes number 0 ++ numberBytes subject 0 ++ bytes24 delta
  | .cancel subject => [nibbles 4 target] ++ numberBytes number 0 ++ numberBytes subject 0

/-- The bytes of an EVENT item (R42). -/
def encodeEvent (input : Input) (edge : Edge) (number : EventNumber) (stamp : Time) : List Byte :=
  [nibbles 1 input, bit edge.bit ++ (0 : BitVec 7), number] ++ bytes32 stamp

/-- The bytes of a REPLY item (R46). -/
def encodeReply (origin : Station) (number : RequestNumber) (code : ReplyCode) : List Byte :=
  [nibbles 5 origin] ++ numberBytes number code.code

/-- The bytes of a RESULT item (R47). -/
def encodeResult (origin : Station) (number : RequestNumber) (outcome : EntryOutcome) : Option Time → List Byte
  | none => [nibbles 6 origin] ++ numberBytes number outcome.code ++ [0x00]
  | some t => [nibbles 6 origin] ++ numberBytes number outcome.code ++ [0x80] ++ bytes32 t

/-- The bytes of an item (R41). -/
def encodeItem : Item → List Byte
  | .event input edge number stamp => encodeEvent input edge number stamp
  | .request target number request => encodeRequest target number request
  | .reply origin number code => encodeReply origin number code
  | .result origin number outcome lastStart => encodeResult origin number outcome lastStart

/-! ### The parse (R41): an item and the bytes after it, or none -/

/-- The train part, where byte 3 has action TRAIN (R44). -/
def parseTrain (present : Bool) (bs : List Byte) : Option (Option TrainFields × List Byte) :=
  if present then
    match bs with
    | p2 :: p1 :: p0 :: c1 :: c0 :: rest => some (some { period := word24 p2 p1 p0, count := word16 c1 c0 }, rest)
    | _ => none
  else some (none, bs)

/-- The expiry part, where byte 3 says it is present (R44). -/
def parseExpiry (present : Bool) (bs : List Byte) : Option (Option Time × List Byte) :=
  if present then
    match bs with
    | a :: b :: c :: d :: rest => some (some (word32 a b c d), rest)
    | _ => none
  else some (none, bs)

/-- The due part, or the trigger and expiry parts; in an ABSOLUTE ORDER bits 2..0 of byte 3 are 0 (R43, R44). -/
def parseBasis (flags : Byte) (bs : List Byte) : Option (BasisFields × List Byte) :=
  if flags.getLsbD 6 then
    match bs with
    | who :: edge :: d2 :: d1 :: d0 :: fires :: rest =>
      if edge.extractLsb' 0 6 = 0 then
        match parseExpiry (flags.getLsbD 0) rest with
        | some (expiry, rest) =>
          some (.event { latePolicy := flags.extractLsb' 1 2, station := highNibble who, input := lowNibble who,
                         edge := edge.extractLsb' 6 2, delay := word24 d2 d1 d0, fires := fires, expiry := expiry }, rest)
        | none => none
      else none
    | _ => none
  else if flags.extractLsb' 0 3 = 0 then
    match bs with
    | a :: b :: c :: d :: rest => some (.absolute (word32 a b c d), rest)
    | _ => none
  else none

/-- An ORDER after its first byte (R43, R44). -/
def parseOrder (target : Station) : List Byte → Option (Item × List Byte)
  | n1 :: n0 :: flags :: w2 :: w1 :: w0 :: rest =>
    match parseTrain (flags.getLsbD 7) rest with
    | some (train, rest) =>
      match parseBasis flags rest with
      | some (basis, rest) =>
        some (.request target (numberOf n1 n0)
          (.order { channel := lowNibble n0, preempt := flags.getLsbD 5, bound := flags.getLsbD 4,
                    report := flags.getLsbD 3, width := word24 w2 w1 w0, train := train, basis := basis }), rest)
      | none => none
    | none => none
  | _ => none

/-- An AMEND after its first byte (R45). -/
def parseAmend (target : Station) : List Byte → Option (Item × List Byte)
  | n1 :: n0 :: s1 :: s0 :: d2 :: d1 :: d0 :: rest =>
    if lowBits n0 = 0 ∧ lowBits s0 = 0 then
      some (.request target (numberOf n1 n0) (.amend (numberOf s1 s0) (word24 d2 d1 d0)), rest)
    else none
  | _ => none

/-- A CANCEL after its first byte (R45). -/
def parseCancel (target : Station) : List Byte → Option (Item × List Byte)
  | n1 :: n0 :: s1 :: s0 :: rest =>
    if lowBits n0 = 0 ∧ lowBits s0 = 0 then
      some (.request target (numberOf n1 n0) (.cancel (numberOf s1 s0)), rest)
    else none
  | _ => none

/-- An EVENT after its first byte (R42). -/
def parseEvent (input : Input) : List Byte → Option (Item × List Byte)
  | edge :: number :: a :: b :: c :: d :: rest =>
    if edge.extractLsb' 0 7 = 0 then
      some (.event input (Edge.ofBit (edge.getLsbD 7)) number (word32 a b c d), rest)
    else none
  | _ => none

/-- A REPLY after its first byte (R46). -/
def parseReply (origin : Station) : List Byte → Option (Item × List Byte)
  | n1 :: n0 :: rest =>
    match ReplyCode.ofCode (lowBits n0) with
    | some code => some (.reply origin (numberOf n1 n0) code, rest)
    | none => none
  | _ => none

/-- A RESULT after its first byte (R47). -/
def parseResult (origin : Station) : List Byte → Option (Item × List Byte)
  | n1 :: n0 :: presence :: rest =>
    match EntryOutcome.ofCode (lowBits n0) with
    | some outcome =>
      if presence.extractLsb' 0 7 = 0 then
        match parseExpiry (presence.getLsbD 7) rest with
        | some (lastStart, rest) => some (.result origin (numberOf n1 n0) outcome lastStart, rest)
        | none => none
      else none
    | none => none
  | _ => none

/-- One item: the kind code stands in bits 7..4 of its first byte; 0 and 7..15 fail (R41). -/
def parseItem : List Byte → Option (Item × List Byte)
  | [] => none
  | b :: rest =>
    match (highNibble b).val with
    | 1 => parseEvent (lowNibble b) rest
    | 2 => parseOrder (lowNibble b) rest
    | 3 => parseAmend (lowNibble b) rest
    | 4 => parseCancel (lowNibble b) rest
    | 5 => parseReply (lowNibble b) rest
    | 6 => parseResult (lowNibble b) rest
    | _ => none

/-- A run of whole items that ends exactly at the end of the bytes. The fuel bounds the number of items. -/
def parseItems : Nat → List Byte → Option (List Item)
  | _, [] => some []
  | 0, _ :: _ => none
  | fuel + 1, b :: bs =>
    match parseItem (b :: bs) with
    | some (item, rest) =>
      match parseItems fuel rest with
      | some items => some (item :: items)
      | none => none
    | none => none

/-- The parse of a payload (R41); every item takes at least one byte. -/
def parsePayload (bs : List Byte) : Option (List Item) := parseItems bs.length bs

/-! ### The header (R40) -/

/-- The header of a frame. -/
structure Header where
  station : Station
  coldstart : Bool
  isNew : Bool
  cycleNumber : CycleNumber
  cycleStart : Time
  length : Byte
  deriving DecidableEq, Repr

/-- R40. -/
def encodeHeader (h : Header) : List Byte :=
  [BitVec.ofNat 4 h.station.val ++ bit h.coldstart ++ bit h.isNew ++ (0 : BitVec 2)] ++ bytes16 h.cycleNumber ++
    bytes32 h.cycleStart ++ [h.length]

/-- The header of a reception, whether its two bits shown as 0 are 0, and the bytes after it. -/
def parseHeader : List Byte → Option (Header × Bool × List Byte)
  | b0 :: c1 :: c0 :: s3 :: s2 :: s1 :: s0 :: len :: rest =>
    some ({ station := highNibble b0, coldstart := b0.getLsbD 3, isNew := b0.getLsbD 2, cycleNumber := word16 c1 c0,
            cycleStart := word32 s3 s2 s1 s0, length := len }, decide (b0.extractLsb' 0 2 = 0), rest)
  | _ => none

/-! ### What a reception holds (R48, R49) -/

/-- The length check and the frame check of a reception, then its header and the outcome of its parse. -/
inductive Received where
  /-- The payload length field is above 64. -/
  | badLength
  /-- The frame check does not hold, or fewer bytes than a frame's came. -/
  | badCheck
  /-- Both hold; the items, or none where the parse fails. -/
  | intact (header : Header) (items : Option (List Item))
  deriving DecidableEq, Repr

/-- Read a reception. A frame cut short leaves the line idle and fails the frame check (R48); bytes beyond the stated length
belong to no reception. DEDUCED (log entry 21): the two header bits shown as 0 are checked with the parse (R41). -/
def readReception (bs : List Byte) : Received :=
  match parseHeader bs with
  | none => .badCheck
  | some (h, clean, rest) =>
    let payload := rest.take h.length.toNat
    if h.length.toNat > Config.payloadMaximum then .badLength
    else if payload.length = h.length.toNat
        ∧ (rest.drop h.length.toNat).take 2 = bytes16 (frameCheck (bs.take Config.headerLength ++ payload)) then
      .intact h (if clean then parsePayload payload else none)
    else .badCheck

/-! ### The frame on the line (R38) -/

/-- The start-of-frame mark, in half-bit times: high for three, low for three, five times high and low. -/
def markHalfBits : List Level :=
  [.high, .high, .high, .low, .low, .low, .high, .low, .high, .low, .high, .low, .high, .low, .high, .low]

/-- A data bit, in half-bit times: a 1 goes from low to high at its middle, a 0 from high to low. -/
def bitHalves : Bool → List Level
  | true => [.low, .high]
  | false => [.high, .low]

/-- A byte, most significant bit first. -/
def byteHalfBits (b : Byte) : List Level := [7, 6, 5, 4, 3, 2, 1, 0].flatMap fun i => bitHalves (b.getLsbD i)

/-- What an own frame puts on the line. -/
def frameHalfBits (content : List Byte) : List Level := markHalfBits ++ content.flatMap byteHalfBits

/-- The bit times a frame lasts: 8 for the mark, 8 for each byte after it. -/
def frameBits (content : List Byte) : Nat := 8 + 8 * content.length

/-! ### Items of the queues -/

/-- The bytes of a send queue item (R154: a request item enters as the bytes of its record). -/
def SendItem.encode : SendItem → List Byte
  | .event input edge number stamp => encodeEvent input edge number stamp
  | .request _ bytes => bytes

/-- The bytes of a reply queue item. -/
def ReplyItem.encode : ReplyItem → List Byte
  | .reply origin number code => encodeReply origin number code
  | .result origin number outcome lastStart => encodeResult origin number outcome lastStart

end Sys2Proof.Machine
end

