-- ==== Sys2Proof/Machine/Table.lean ====
section
/-! DEFINITION. The Order Table and the Channel Unit (Chapters 7 and 8): entries, edges, starts, ends, matching, amends,
cancels, leaving, and the pass over the edges of a step. -/

namespace Sys2Proof.Machine

/-! ### Entries by index -/

/-- The entry at an index, if the place is occupied (R107). -/
def State.entryAt (s : State) (i : Index) : Option Entry := s.table.find? fun e => e.index == i

/-- The entry of this origin and number, if it is in the table (R95, R107). -/
def State.entryNamed (s : State) (origin : Station) (number : RequestNumber) : Option Entry :=
  s.table.find? fun e => e.origin == origin && e.number == number

/-- Put an entry in the place of the one that has its index. -/
def replaceEntry (e : Entry) (s : State) : State :=
  s.setTable (s.table.map fun x => if x.index = e.index then e else x)

/-- Free an index: its entry is no longer in the table (R127). -/
def dropEntry (i : Index) (s : State) : State :=
  s.setTable (s.table.filter fun e => e.index != i)

/-- The indices 0..47, lowest first. -/
def allIndices : List Index := List.finRange 48

/-- The lowest free index (R107). -/
def State.freeIndex (s : State) : Option Index := allIndices.find? fun i => (s.entryAt i).isNone

/-! ### The collections, computed from the table (R109) -/

/-- The watch list: the ARMED entries, in acceptance order. -/
def State.watchList (s : State) : List Entry := s.table.filter fun e => e.state == .armed

/-- `a` stands before `b` in the time queue at line time `now`: by next edge, holds last; equal edges keep acceptance
order (R109). -/
def edgeBefore (now : Time) (a b : Entry) : Bool :=
  match a.nextEdge, b.nextEdge with
  | some x, some y => decide ((x - now).toInt < (y - now).toInt)
  | some _, none => true
  | none, _ => false

/-- Insert an entry behind every entry it does not stand before. -/
def insertByEdge (now : Time) (e : Entry) : List Entry → List Entry
  | [] => [e]
  | x :: rest => if edgeBefore now e x then e :: x :: rest else x :: insertByEdge now e rest

/-- The time queue: the SCHEDULED and RUNNING entries, in the order of R109. -/
def State.timeQueue (s : State) : List Entry :=
  (s.table.filter fun e => e.state != .armed).foldl (fun q e => insertByEdge s.now e q) []

/-! ### Channels (R134 to R146) -/

/-- The opposite level. -/
def flipLevel : Level → Level
  | .low => .high
  | .high => .low

/-- The level a channel gives its line: the active level in the active phase, the idle level otherwise (R135). -/
def Channel.out (c : Channel) : Level :=
  match c.phase with
  | .active => flipLevel c.idle
  | .inactive => c.idle

/-- The entry becomes owner in the active phase (R139, R141). -/
def takeChannel (c : ChannelNumber) (i : Index) (s : State) : State :=
  s.setChannel c { s.channel c with owner := some i, phase := .active }

/-- The phase changes, the owner stays (R142, R145). -/
def setPhase (c : ChannelNumber) (p : Phase) (s : State) : State :=
  s.setChannel c { s.channel c with phase := p }

/-- The channel becomes free and inactive if this entry owns it; an entry that owns nothing changes no channel (R146). -/
def releaseChannel (c : ChannelNumber) (i : Index) (s : State) : State :=
  if (s.channel c).owner = some i then s.setChannel c { s.channel c with owner := none, phase := .inactive } else s

/-! ### Results and leaving (R127, R128) -/

/-- The outcomes the table of R127 reports. -/
def EntryOutcome.reported : EntryOutcome → Bool
  | .originLost | .stopped => false
  | .completed | .cancelled | .preempted | .collided | .expired | .late | .timebaseStep | .sourceLost => true

/-- Four bits as a byte. -/
def codeByte (c : BitVec 4) : Byte := c.setWidth 8

/-- An item joins the reply queue where it holds fewer than 16 items; otherwise it is discarded (R155). -/
def queueReplyItem (item : ReplyItem) (s : State) : State :=
  if s.exchange.replyQueue.length < Config.replyCapacity then
    s.setExchange { s.exchange with replyQueue := s.exchange.replyQueue ++ [item] }
  else s

/-- The result of an entry that leaves with REPORT set and a reported outcome: a RESULT notice for a local origin, a RESULT
item for a peer origin (R128). -/
def produceResult (e : Entry) (o : EntryOutcome) (s : State) : State :=
  if e.report && o.reported then
    if e.origin = s.own then
      queueNotice (s.noticeNow .result (some s.own) (some e.number) (codeByte o.code) e.lastStart) s
    else queueReplyItem (.result e.origin e.number o e.lastStart) s
  else s

/-- An entry leaves the table with its outcome; its channel is not touched (R121, R127). -/
def depart (e : Entry) (o : EntryOutcome) (s : State) : State := produceResult e o (dropEntry e.index s)

/-- An entry leaves the table and its channel is released (R126, R146). -/
def leave (e : Entry) (o : EntryOutcome) (s : State) : State :=
  depart e o (releaseChannel e.channel e.index s)

/-- As `leave`, without a result. -/
def leaveSilently (e : Entry) (s : State) : State := dropEntry e.index (releaseChannel e.channel e.index s)

/-- These entries leave, one after another, in acceptance order. -/
def leaveEach (es : List Entry) (leaves : Entry → State → State) (s : State) : State :=
  es.foldl (fun s e => leaves e s) s

/-! ### Returning to ARMED (R114, R115) -/

/-- The entry as it stands after a return to ARMED at time `t` (R114, R120). -/
def Entry.armedAt (e : Entry) (t : Time) : Entry :=
  { e with
    state := .armed, active := false, nextEdge := none, aged := false
    train := e.train.map fun tr => { tr with followingStart := none }
    event := e.event.map fun ev => { ev with armTime := t } }

/-- The entry's expiry has been noted as reached or is passed at time `t` (R115). -/
def Entry.expiredAt (e : Entry) (t : Time) : Bool :=
  match e.event with
  | none => false
  | some ev => ev.expiryReached || (match ev.expiry with | none => false | some x => passed x t)

/-- A return to ARMED at time `t`, subject to the expiry (R114, R115). -/
def returnToArmed (e : Entry) (t : Time) (s : State) : State :=
  if e.expiredAt t then depart e .expired s else replaceEntry (e.armedAt t) s

/-- Fires remaining after a run has been consumed; 0 is unbounded (R113, R117, R120). -/
def firesAfter (fires : BitVec 8) : BitVec 8 := if fires = 0 then 0 else fires - 1

/-- A run has been consumed at time `t`: an ABSOLUTE entry, or an EVENT entry with one fire remaining, leaves with the
outcome; any other returns to ARMED (R113, R117, R120). -/
def finishRun (e : Entry) (o : EntryOutcome) (t : Time) (s : State) : State :=
  match e.event with
  | none => depart e o s
  | some ev =>
    if ev.fires = 1 then depart e o s
    else returnToArmed { e with event := some { ev with fires := firesAfter ev.fires } } t s

/-! ### Starts and ends (R116 to R121, R138 to R145) -/

/-- What a granted start at time `t` does to a TRAIN's counts (R119). -/
def TrainPart.startAt (tr : TrainPart) (t : Time) : TrainPart :=
  if tr.count = 0 then { tr with followingStart := some (t + tr.period.setWidth 32) }
  else if tr.countRemaining ≤ 1 then { tr with countRemaining := 0, followingStart := none }
  else { tr with countRemaining := tr.countRemaining - 1, followingStart := some (t + tr.period.setWidth 32) }

/-- The entry as it stands after a granted start, or a TRAIN's phase start, at time `t` (R116, R119). -/
def Entry.startedAt (e : Entry) (t : Time) : Entry :=
  { e with
    state := .running, active := true, lastStart := some t, aged := false
    nextEdge := if e.width = 0 then none else some (t + e.width.setWidth 32)
    train := e.train.map fun tr => tr.startAt t }

/-- A granted start at time `t` (R116, R139). -/
def grantStart (e : Entry) (t : Time) (s : State) : State :=
  takeChannel e.channel e.index (replaceEntry (e.startedAt t) s)

/-- The owner that a granted start preempts leaves PREEMPTED; its end is not handed to the channel (R121, R141). -/
def preemptOwner (owner : Index) (s : State) : State :=
  match s.entryAt owner with
  | none => s
  | some o => depart o .preempted s

/-- A start of the entry at this index, at time `t`, judged by the Channel Unit (R116, R138 to R141). -/
def requestStart (i : Index) (t : Time) (s : State) : State :=
  match s.entryAt i with
  | none => s
  | some e =>
    match (s.channel e.channel).owner with
    | none => grantStart e t s
    | some owner =>
      if e.preempt then grantStart e t (preemptOwner owner s)
      else finishRun e .collided t s

/-- The next phase of a running TRAIN starts at time `t`, unjudged (R119, R142). -/
def startPhase (i : Index) (t : Time) (s : State) : State :=
  match s.entryAt i with
  | none => s
  | some e => setPhase e.channel .active (replaceEntry (e.startedAt t) s)

/-- The following start of a TRAIN, where it has one. -/
def Entry.followingStart (e : Entry) : Option Time := e.train.bind fun tr => tr.followingStart

/-- The entry as it stands between two phases of a TRAIN: the following start is the next edge (R119). -/
def Entry.betweenPhases (e : Entry) (start : Time) : Entry :=
  { e with
    active := false, nextEdge := some start
    train := e.train.map fun tr => { tr with followingStart := none } }

/-- The end of the active phase of the entry at this index is taken at time `t` (R118, R119, R120, R145). -/
def takeEnd (i : Index) (t : Time) (s : State) : State :=
  match s.entryAt i with
  | none => s
  | some e =>
    match e.followingStart with
    | some start => setPhase e.channel .inactive (replaceEntry (e.betweenPhases start) s)
    | none => finishRun e .completed t (releaseChannel e.channel e.index s)

/-- The expiry of the entry at this index is taken (R115). -/
def takeExpiry (i : Index) (s : State) : State :=
  match s.entryAt i with
  | none => s
  | some e => depart e .expired s

/-! ### Pending edges and their order (R110, R14) -/

/-- The kinds of a pending edge. -/
inductive EdgeKind where
  /-- The end of an active phase. -/
  | finish
  /-- The expiry of an ARMED entry. -/
  | expiry
  /-- The start of a SCHEDULED entry. -/
  | start
  /-- The next phase start of a running TRAIN. -/
  | phase
  deriving DecidableEq, Repr

/-- Ends come first, then expiries, then starts (R110). -/
def EdgeKind.rank : EdgeKind → Nat
  | .finish => 0
  | .expiry => 1
  | .start | .phase => 2

/-- A pending edge: whose it is, what it is, and its time. -/
structure PendingEdge where
  index : Index
  kind : EdgeKind
  time : Time
  deriving DecidableEq, Repr

/-- The one edge an entry has pending, if any (R109, section 7.2). -/
def Entry.pendingEdge (e : Entry) : Option PendingEdge :=
  match e.state with
  | .armed => (e.event.bind fun ev => ev.expiry).map fun x => { index := e.index, kind := .expiry, time := x }
  | .scheduled => e.nextEdge.map fun x => { index := e.index, kind := .start, time := x }
  | .running =>
    e.nextEdge.map fun x => { index := e.index, kind := if e.active then .finish else .phase, time := x }

/-- The edge is taken before the other: the earlier time first, then the order of kinds; on a full tie the one found first,
which is earlier in acceptance order (R14, R110). -/
def PendingEdge.before (now : Time) (a b : PendingEdge) : Bool :=
  decide (ahead now b.time < ahead now a.time) ||
    (decide (ahead now a.time = ahead now b.time) && decide (a.kind.rank < b.kind.rank))

/-- The earlier taken of an edge found so far and an entry's edge, if that is reached at `limit`. -/
def earlierEdge (limit : Time) (found : Option PendingEdge) (e : Entry) : Option PendingEdge :=
  match e.pendingEdge with
  | none => found
  | some d =>
    if passed d.time limit then
      match found with
      | none => some d
      | some f => if d.before limit f then some d else some f
    else found

/-- The next edge to take among those reached at line time `limit` (R110). -/
def State.nextDueEdge (s : State) (limit : Time) : Option PendingEdge :=
  s.table.foldl (earlierEdge limit) none

/-- Take a pending edge at its own time (R110, R14). -/
def takeEdge (d : PendingEdge) (s : State) : State :=
  match d.kind with
  | .finish => takeEnd d.index d.time s
  | .expiry => takeExpiry d.index s
  | .start => requestStart d.index d.time s
  | .phase => startPhase d.index d.time s

/-- Take the edges reached at `limit` one after another, each with its successors in their place (R14). -/
def takeEdges (limit : Time) : Nat → State → State
  | 0, s => s
  | fuel + 1, s =>
    match s.nextDueEdge limit with
    | none => s
    | some d => takeEdges limit fuel (takeEdge d s)

/-! ### What the table notes by time (R114, R115, R124) -/

/-- Line time `now` is at or after `x` plus 2^30, by R2. -/
def agedBy (now x : Time) : Bool := atOrAfter now (x + BitVec.ofNat 32 Config.maximumLead)

/-- The oldest arm time at line time `now` (R114). -/
def oldestArmTime (now : Time) : Time := now - BitVec.ofNat 32 Config.maximumLead

/-- An ARMED entry whose arm time is due to be set by ageing (R114). -/
def Entry.armTimeDue (now : Time) (e : Entry) : Bool :=
  match e.state, e.event with
  | .armed, some ev => agedBy now ev.armTime && ev.armTime != oldestArmTime now
  | _, _ => false

/-- The arm time is set to line time minus 2^30 (R114). -/
def Entry.ageArmTime (now : Time) (e : Entry) : Entry :=
  { e with event := e.event.map fun ev => { ev with armTime := oldestArmTime now } }

/-- A SCHEDULED or RUNNING entry whose expiry is reached and not yet noted (R115). -/
def Entry.expiryToNote (now : Time) (e : Entry) : Bool :=
  match e.state, e.event with
  | .armed, _ => false
  | _, none => false
  | _, some ev => !ev.expiryReached && (match ev.expiry with | none => false | some x => passed x now)

/-- The expiry is noted as reached (R115). -/
def Entry.noteExpiry (e : Entry) : Entry :=
  { e with event := e.event.map fun ev => { ev with expiryReached := true } }

/-- A running hold that is due to be noted as aged (R124): RUNNING, with no end edge. -/
def Entry.holdToAge (now : Time) (e : Entry) : Bool :=
  match e.state, e.nextEdge, e.lastStart with
  | .running, none, some t => !e.aged && agedBy now t
  | _, _, _ => false

/-- The hold is noted as aged (R124). -/
def Entry.noteAged (e : Entry) : Entry := { e with aged := true }

/-- Apply a change to every entry for which it is due. -/
def whereDue (due : Entry → Bool) (change : Entry → Entry) (s : State) : State :=
  s.setTable (s.table.map fun e => if due e then change e else e)

/-- The arm times are aged against line time `now` (R114). -/
def ageArmTimes (now : Time) (s : State) : State := whereDue (Entry.armTimeDue now) (Entry.ageArmTime now) s

/-- All that the table notes by time, at line time `now` (R114, R115, R124). -/
def noteTimes (now : Time) (s : State) : State :=
  ageArmTimes now (whereDue (Entry.holdToAge now) Entry.noteAged (whereDue (Entry.expiryToNote now) Entry.noteExpiry s))

/-! ### A step of line time at the table (R14, R15, R129, R130) -/

/-- Enough passes for every edge a step of this magnitude can reach: an entry takes at most three in a tick. -/
def edgeFuel (s : State) (σ : Time) : Nat := s.table.length * (3 * (σ.toInt.natAbs + 2))

/-- The edges pending with a time equal to `v`, in the order in which they are taken: ends, expiries, starts, each kind in
acceptance order (R15, R110). -/
def State.edgesAt (s : State) (v : Time) : List PendingEdge :=
  let reached := (s.table.filterMap Entry.pendingEdge).filter fun d => d.time == v
  [0, 1, 2].flatMap fun rank => reached.filter fun d => d.kind.rank == rank

/-- Take an edge if it is still the one its entry has pending: an edge before it, or an item of an adopted frame, may have
removed the entry or moved it on (R15, log entry 18). -/
def takeIfPending (s : State) (d : PendingEdge) : State :=
  if (s.entryAt d.index).bind Entry.pendingEdge = some d then takeEdge d s else s

/-- The table acts on a step from `v`, of which `left` are the edges that were reached at `v` and not taken before the step:
line time is already stepped. A positive step takes every edge up to the stepped line time, those of `left` among them; a
negative one takes no edge but those of `left` (R14, R15). -/
def tableStep (v σ : Time) (left : List PendingEdge) (s : State) : State :=
  if 0 < σ.toInt then noteTimes (v + σ) (takeEdges (v + σ) (edgeFuel s σ) s)
  else left.foldl takeIfPending s

/-- Every entry leaves with TIMEBASE_STEP, in acceptance order (R130). -/
def abandonTable (s : State) : State := leaveEach s.table (fun e s => leave e .timebaseStep s) s

/-! ### Matching an event (R111 to R113) -/

/-- An event at the watch list: where it happened, its edge and its stamp. -/
structure Event where
  station : Station
  input : Input
  edge : Edge
  stamp : Time
  deriving DecidableEq, Repr

/-- The trigger edge admits the event's edge (R111). -/
def TriggerEdge.admits : TriggerEdge → Edge → Bool
  | .either, _ => true
  | .rise, .rise => true
  | .fall, .fall => true
  | .rise, .fall => false
  | .fall, .rise => false

/-- The conditions of R111 on an entry of EVENT basis. -/
def EventPart.matchesEvent (p : EventPart) (ev : Event) : Bool :=
  p.triggerStation == ev.station && p.triggerInput == ev.input && p.triggerEdge.admits ev.edge &&
    atOrAfter ev.stamp p.armTime

/-- A run begins: a TRAIN's count remaining is set to its count (R112, R113). -/
def Entry.withFullCount (e : Entry) : Entry :=
  { e with train := e.train.map fun tr => { tr with countRemaining := tr.count } }

/-- The due time lies ahead of the processing instant and no more than 2^24 ticks ahead (R112). -/
def dueAhead (due now : Time) : Bool := afterTime due now && decide (ahead due now ≤ Config.maximumDelay)

/-- The entry becomes SCHEDULED with the due time as its next edge (R112). -/
def scheduleEntry (e : Entry) (due : Time) (s : State) : State :=
  replaceEntry { e.withFullCount with state := .scheduled, nextEdge := some due, active := false } s

/-- The late policy of a matching entry whose due time is passed (R113). -/
def lateMatch (e : Entry) (p : EventPart) (s : State) : State :=
  match p.latePolicy with
  | .drop => finishRun e .late s.now s
  | .startNow => requestStart e.index s.now (replaceEntry e.withFullCount s)
  | .rearm => s

/-- A matching entry is handled (R112, R113). -/
def matchEntry (e : Entry) (p : EventPart) (ev : Event) (s : State) : State :=
  let due := ev.stamp + p.delay.setWidth 32
  if dueAhead due s.now then scheduleEntry e due s else lateMatch e p s

/-- The entry at this index meets the event (R111). -/
def meetEvent (ev : Event) (i : Index) (s : State) : State :=
  match s.entryAt i with
  | none => s
  | some e =>
    match e.state, e.event with
    | .armed, some p => if p.matchesEvent ev then matchEntry e p ev s else s
    | _, _ => s

/-- The event is matched against the watch list as it stands, one entry at a time, in acceptance order (R111). -/
def matchEvent (ev : Event) (s : State) : State :=
  (s.watchList.map fun e => e.index).foldl (fun s i => meetEvent ev i s) s

/-! ### AMEND and CANCEL (R122 to R126) -/

/-- A delta as a number of ticks modulo 2^32. -/
def deltaTicks (delta : BitVec 24) : Time := delta.signExtend 32

/-- The times an AMEND of this entry would give the edges it moves (R95, R123 to R125). -/
def Entry.shiftedEdges (e : Entry) (delta : BitVec 24) : List Time :=
  match e.state with
  | .armed => []
  | .scheduled | .running =>
    (e.nextEdge.toList ++ e.followingStart.toList).map fun x => x + deltaTicks delta

/-- A shifted edge lies more than 2^30 + 2^24 ticks after the processing instant (R95). -/
def tooFar (now x : Time) : Bool :=
  afterTime x now && decide (ahead x now > Config.maximumLead + Config.maximumDelay)

/-- The delay of an ARMED entry after an AMEND, as an exact number (R95, R122). -/
def shiftedDelay (p : EventPart) (delta : BitVec 24) : Int := (p.delay.toNat : Int) + delta.toInt

/-- An AMEND of an ARMED entry adds the delta to its delay (R122). -/
def amendArmed (e : Entry) (delta : BitVec 24) (s : State) : State :=
  replaceEntry { e with event := e.event.map fun p => { p with delay := p.delay + delta } } s

/-- An AMEND of a SCHEDULED entry moves its start; a start that is then passed is taken now (R123). -/
def amendScheduled (e : Entry) (delta : BitVec 24) (s : State) : State :=
  match e.nextEdge with
  | none => s
  | some x =>
    let start := x + deltaTicks delta
    let moved := replaceEntry { e with nextEdge := some start } s
    if passed start s.now then requestStart e.index s.now moved else moved

/-- The end that an AMEND gives a running hold, or none where the end is taken now whatever it is (R124). -/
def Entry.holdEnd (e : Entry) (delta : BitVec 24) : Option Time :=
  if e.aged || decide (delta.toInt ≤ 0) then none else e.lastStart.map fun t => t + deltaTicks delta

/-- An AMEND of a RUNNING PULSE shifts its end, or gives a hold one (R124). -/
def amendPulse (e : Entry) (delta : BitVec 24) (s : State) : State :=
  let newEnd := match e.nextEdge with
    | some x => some (x + deltaTicks delta)
    | none => e.holdEnd delta
  match newEnd with
  | none => takeEnd e.index s.now s
  | some x =>
    if passed x s.now then takeEnd e.index s.now s else replaceEntry { e with nextEdge := some x } s

/-- Every edge a RUNNING TRAIN has still to take moves by the delta (R125). -/
def Entry.shiftedTrain (e : Entry) (delta : BitVec 24) : Entry :=
  { e with
    nextEdge := e.nextEdge.map fun x => x + deltaTicks delta
    train := e.train.map fun tr =>
      { tr with followingStart := tr.followingStart.map fun x => x + deltaTicks delta } }

/-- The next phase start of the TRAIN at this index is taken now if it is passed (R125). -/
def startPhaseIfPassed (i : Index) (s : State) : State :=
  match s.entryAt i with
  | some e =>
    match e.state, e.active, e.nextEdge with
    | .running, false, some x => if passed x s.now then startPhase i s.now s else s
    | _, _, _ => s
  | none => s

/-- An AMEND of a RUNNING TRAIN (R125). -/
def amendTrain (e : Entry) (delta : BitVec 24) (s : State) : State :=
  let moved := replaceEntry (e.shiftedTrain delta) s
  match (e.shiftedTrain delta).nextEdge with
  | none => moved
  | some x =>
    if passed x s.now then
      if e.active then startPhaseIfPassed e.index (takeEnd e.index s.now moved)
      else startPhase e.index s.now moved
    else moved

/-- An accepted AMEND, by the state of its subject (R122 to R125). -/
def amendEntry (e : Entry) (delta : BitVec 24) (s : State) : State :=
  match e.state with
  | .armed => amendArmed e delta s
  | .scheduled => amendScheduled e delta s
  | .running => if e.train.isSome then amendTrain e delta s else amendPulse e delta s

/-- An accepted CANCEL (R126). -/
def cancelEntry (e : Entry) (s : State) : State := leave e .cancelled s

/-! ### Losses and STOP (R131, R132) -/

/-- A BOUND entry of this origin (R131). -/
def Entry.boundTo (k : Station) (e : Entry) : Bool := e.origin == k && e.bound

/-- The BOUND entries of a lost or restarted origin leave with ORIGIN_LOST and no result (R131). -/
def removeBound (k : Station) (s : State) : State :=
  leaveEach (s.table.filter (Entry.boundTo k)) leaveSilently s

/-- An ARMED entry whose trigger station is this one (R131). -/
def Entry.watches (k : Station) (e : Entry) : Bool :=
  e.state == .armed && (match e.event with | none => false | some p => p.triggerStation == k)

/-- An entry leaves with SOURCE_LOST; there is no result where its origin is the lost station (R127, R131). -/
def leaveSourceLost (k : Station) (e : Entry) (s : State) : State :=
  if e.origin = k then leaveSilently e s else leave e .sourceLost s

/-- The ARMED entries that watch a lost station leave (R131). -/
def removeWatchers (k : Station) (s : State) : State :=
  leaveEach (s.table.filter (Entry.watches k)) (leaveSourceLost k) s

/-- The entries of peer origin leave with STOPPED and no result (R132). -/
def removePeerEntries (s : State) : State :=
  leaveEach (s.table.filter fun e => e.origin != s.own) leaveSilently s

end Sys2Proof.Machine
end

