-- ==== Sys2Proof/Machine/Exchange.lean ====
section
/-! DEFINITION. The Request Exchange (Chapters 6 and 9): the send queue, the Pending list, the build of the own frame,
acceptance at the target, the reply cache, local and peer requests, and replies at the origin. -/

namespace Sys2Proof.Machine

/-! ### The send queue and the Pending list (R153 to R162) -/

/-- The send queue holds fewer than 24 items (R154). -/
def State.sendRoom (s : State) : Bool := decide (s.exchange.sendQueue.length < Config.sendCapacity)

/-- An item joins the tail of the send queue. -/
def queueSendItem (item : SendItem) (s : State) : State :=
  s.setExchange { s.exchange with sendQueue := s.exchange.sendQueue ++ [item] }

/-- The item is a copy of this request. -/
def SendItem.isCopyOf (n : RequestNumber) : SendItem → Bool
  | .event _ _ _ _ => false
  | .request m _ => m == n

/-- A record leaves the Pending list, and its copy the send queue if it waits there (R104, R156, R167). -/
def removeRequest (n : RequestNumber) (s : State) : State :=
  s.setExchange { s.exchange with
    requests := s.exchange.requests.filter fun r => r.number != n
    sendQueue := s.exchange.sendQueue.filter fun i => !i.isCopyOf n }

/-- R187. -/
def FailReason.code : FailReason → Byte
  | .noAnswer => 0
  | .peerLost => 1
  | .peerRestarted => 2
  | .stopped => 3

/-- A Pending record fails: it is removed, and a FAILED notice is queued (R167). -/
def failRequest (reason : FailReason) (r : RequestRecord) (s : State) : State :=
  let s := removeRequest r.number s
  queueNotice (s.noticeNow .failed (some r.target) (some r.number) reason.code none) s

/-- These records fail, in Pending list order (R168). -/
def failEach (reason : FailReason) (rs : List RequestRecord) (s : State) : State :=
  rs.foldl (fun s r => failRequest reason r s) s

/-- The records addressed to this target. -/
def State.requestsTo (s : State) (target : Station) : List RequestRecord :=
  s.exchange.requests.filter fun r => r.target == target

/-- The Pending record of this number. -/
def State.requestNumbered (s : State) (n : RequestNumber) : Option RequestRecord :=
  s.exchange.requests.find? fun r => r.number == n

/-- A deadline or a limit that is present has been reached (R6). -/
def limitReached (present : CycleNumber) : Option CycleNumber → Bool
  | none => false
  | some c => cycleReached present c

/-- Change the record of this number. -/
def changeRequest (n : RequestNumber) (f : RequestRecord → RequestRecord) (s : State) : State :=
  s.setExchange { s.exchange with
    requests := s.exchange.requests.map fun r => if r.number = n then f r else r }

/-! ### The retry pass (R164) -/

/-- The record once a copy of its item has been queued (R164). -/
def RequestRecord.retried (r : RequestRecord) : RequestRecord :=
  { r with tries := r.tries + 1, sent := false, deadline := none }

/-- The retry pass at one record (R164). -/
def retryRequest (r : RequestRecord) (s : State) : State :=
  if r.sent && limitReached s.cycle.cycleNumber r.deadline then
    if decide (3 ≤ r.tries) || limitReached s.cycle.cycleNumber r.sendLimit then failRequest .noAnswer r s
    else if s.sendRoom then
      queueSendItem (.request r.number r.item) (changeRequest r.number RequestRecord.retried s)
    else s
  else s

/-- The retry pass, in Pending list order (R164). -/
def retryPass (s : State) : State := s.exchange.requests.foldl (fun s r => retryRequest r s) s

/-! ### The drains (R158, R165) -/

/-- The reply drain: the items taken, and those that stay (R158). -/
def drainReplies : Nat → List ReplyItem → List ReplyItem × List ReplyItem
  | _, [] => ([], [])
  | room, i :: q =>
    if i.encode.length ≤ room then
      let (taken, rest) := drainReplies (room - i.encode.length) q
      (i :: taken, rest)
    else ([], i :: q)

/-- The item is a request whose record's send limit has been reached (R165). -/
def overdueItem (present : CycleNumber) (requests : List RequestRecord) : SendItem → Bool
  | .event _ _ _ _ => false
  | .request n _ =>
    match requests.find? fun r => r.number == n with
    | none => false
    | some r => limitReached present r.sendLimit

/-- The send drain: the items taken, those removed because their send limit has been reached, and those that stay (R158,
R165). -/
def drainSends (overdue : SendItem → Bool) :
    Nat → List SendItem → List SendItem × List SendItem × List SendItem
  | _, [] => ([], [], [])
  | room, i :: q =>
    if overdue i then
      let (taken, removed, rest) := drainSends overdue room q
      (taken, i :: removed, rest)
    else if i.encode.length ≤ room then
      let (taken, removed, rest) := drainSends overdue (room - i.encode.length) q
      (i :: taken, removed, rest)
    else ([], [], i :: q)

/-- The request an item of the send queue belongs to. -/
def SendItem.requestNumber : SendItem → Option RequestNumber
  | .event _ _ _ _ => none
  | .request n _ => some n

/-- The record of an item that the drain removed fails NO_ANSWER (R165). -/
def failRemoved (item : SendItem) (s : State) : State :=
  match item.requestNumber with
  | none => s
  | some n =>
    match s.requestNumbered n with
    | none => s
    | some r => failRequest .noAnswer r s

/-! ### The build (R54, R157) -/

/-- The header of the own frame (R40). -/
def State.ownHeader (s : State) (length : Nat) : Header :=
  { station := s.own, coldstart := decide (s.link.state = .coldstart), isNew := decide (0 < s.link.newCountdown),
    cycleNumber := s.cycle.cycleNumber, cycleStart := s.cycle.cycleStart, length := BitVec.ofNat 8 length }

/-- The frame with this header and payload: its frame check is over both (R39). -/
def closeFrame (header payload : List Byte) : List Byte :=
  header ++ payload ++ bytes16 (frameCheck (header ++ payload))

/-- The build of the own frame: retry pass, reply drain, send drain, close (R157). -/
def buildFrame (s : State) : State :=
  let s := retryPass s
  let (replies, repliesLeft) := drainReplies Config.payloadMaximum s.exchange.replyQueue
  let replyBytes := replies.flatMap ReplyItem.encode
  let (sends, removed, sendsLeft) :=
    drainSends (overdueItem s.cycle.cycleNumber s.exchange.requests) (Config.payloadMaximum - replyBytes.length)
      s.exchange.sendQueue
  let s := s.setExchange { s.exchange with replyQueue := repliesLeft, sendQueue := sendsLeft }
  let s := removed.foldl (fun s i => failRemoved i s) s
  let payload := replyBytes ++ sends.flatMap SendItem.encode
  s.setLine { s.line with
    frame := some
      { content := closeFrame (encodeHeader (s.ownHeader payload.length)) payload
        carriesNew := decide (0 < s.link.newCountdown)
        requests := sends.filterMap SendItem.requestNumber
        remaining := none } }

/-- What becomes of a record whose item a frame carried, when the frame has ended in cycle `present` (R163). -/
def RequestRecord.wentOut (present : CycleNumber) (r : RequestRecord) : RequestRecord :=
  { r with
    sent := true, deadline := some (present + Config.retryDelay)
    sendLimit := match r.sendLimit with
      | some l => some l
      | none => some (present + Config.cacheLife) }

/-- The frame is reported sent: the records of its requests that are still pending are updated (R160, R163). -/
def reportSent (f : OwnFrame) (s : State) : State :=
  f.requests.foldl (fun s n => changeRequest n (RequestRecord.wentOut s.cycle.cycleNumber) s) s

/-! ### When the grid starts again, and at STOP (R100, R166, R169) -/

/-- The grid starts with a new cycle number: deadlines, send limits and expiry cycles move with it (R100, R166). -/
def moveCycles (shift : CycleNumber) (s : State) : State :=
  s.setExchange { s.exchange with
    requests := s.exchange.requests.map fun r =>
      { r with deadline := r.deadline.map (· + shift), sendLimit := r.sendLimit.map (· + shift) }
    cache := mapVector (fun l => l.map fun c => { c with expiry := c.expiry + shift }) s.exchange.cache }

/-- Cache records whose expiry cycle has been reached are removed (R100). -/
def expireCache (s : State) : State :=
  s.setExchange { s.exchange with
    cache := mapVector (fun l => l.filter fun c => !cycleReached s.cycle.cycleNumber c.expiry) s.exchange.cache }

/-- STOP at the Request Exchange: the queues are emptied, every Pending record fails, the cache is emptied (R36, R169). -/
def stopExchange (s : State) : State :=
  let s := s.setExchange { s.exchange with sendQueue := [], replyQueue := [] }
  let s := failEach .stopped s.exchange.requests s
  s.setExchange { s.exchange with cache := Vector.replicate 16 [] }

/-! ### Request numbers (R85) -/

/-- The first number from `c` on that no Pending record holds; at most 16 are passed over (R85). -/
def freeNumber (taken : List RequestNumber) : Nat → RequestNumber → RequestNumber
  | 0, c => c
  | fuel + 1, c => if taken.contains c then freeNumber taken fuel (c + 1) else c

/-- The number the next SUBMIT draws (R85). -/
def State.nextNumber (s : State) : RequestNumber :=
  let taken := s.exchange.requests.map fun r => r.number
  freeNumber taken taken.length s.exchange.counter

/-- The number is drawn: the counter advances past it (R85). -/
def drawNumber (s : State) : State :=
  s.setExchange { s.exchange with counter := s.nextNumber + 1 }

/-! ### Judging a request (R86 to R95) -/

/-- Conditions 1 to 5 of R86: the fields alone. -/
def badFields (s : State) (o : OrderFields) : Bool :=
  decide (12 ≤ o.channel.val) ||
    (match o.basis with
     | .absolute _ => false
     | .event e =>
       e.latePolicy == 3 || e.edge == 3 ||
         (decide (s.stationCount ≤ e.station.val) && decide (e.station ≠ s.own))) ||
    (match o.train with
     | none => false
     | some t => o.width == 0 || decide (t.period.toNat < 2) || decide (t.period.toNat ≤ o.width.toNat))

/-- The channel of an ORDER whose fields passed. -/
def OrderFields.channelNumber (o : OrderFields) : ChannelNumber := Fin.ofNat 12 o.channel.val

/-- The permit map lets this level of an ORDER pass (R88). -/
def PermitLevel.allows : PermitLevel → Bool → Bool
  | .deny, _ => false
  | .place, asked => !asked
  | .preempt, _ => true

/-- The permit of an ORDER; the permit step passes for every local ORDER (R88, R101). -/
def permitted (s : State) (origin : Station) (o : OrderFields) : Bool :=
  decide (origin = s.own) || ((s.exchange.permit.get origin).get o.channelNumber).allows o.preempt

/-- The timing checks of a time at distance `d`, with the least distance it must lie ahead (R93). -/
def judgeDistance (d least : Nat) : Option ReplyCode :=
  if d = 0 ∨ 2 ^ 31 ≤ d then some .late
  else if d < least then some .late
  else if Config.maximumLead < d then some .far
  else none

/-- The timing checks of an ORDER; none passes (R93). -/
def judgeTiming (s : State) (o : OrderFields) : Option ReplyCode :=
  match o.basis with
  | .absolute due => judgeDistance (ahead due s.now) s.exchange.minLead.toNat
  | .event e =>
    match e.expiry with
    | none => none
    | some x => judgeDistance (ahead x s.now) 0

/-- Steps 4 to 7 of R90 for an ORDER. -/
def judgeOrder (s : State) (origin : Station) (number : RequestNumber) (o : OrderFields) : ReplyCode :=
  if badFields s o || (s.entryNamed origin number).isSome then .badField
  else if !permitted s origin o then .denied
  else
    match judgeTiming s o with
    | some code => code
    | none => if Config.tableCapacity ≤ s.table.length then .full else .accepted

/-- Step 8 of R90 for an AMEND whose subject is found (R95). DEDUCED (log entry 31): a delta of 0 moves no edge (R87), so it
is never FAR, wherever a negative step has left the edge. -/
def judgeAmend (s : State) (e : Entry) (delta : BitVec 24) : ReplyCode :=
  match e.state, e.event with
  | .armed, some p =>
    if 0 ≤ shiftedDelay p delta ∧ shiftedDelay p delta < 2 ^ 24 then .accepted else .badField
  | _, _ => if delta ≠ 0 ∧ (e.shiftedEdges delta).any (tooFar s.now) = true then .far else .accepted

/-- Steps 4 to 8 of R90: the reply code of a request of this origin and number. -/
def judgeRequest (s : State) (origin : Station) (number : RequestNumber) : Request → ReplyCode
  | .order o => judgeOrder s origin number o
  | .amend subject delta =>
    match s.entryNamed origin subject with
    | none => .notFound
    | some e => judgeAmend s e delta
  | .cancel subject =>
    match s.entryNamed origin subject with
    | none => .notFound
    | some _ => .accepted

/-! ### Applying a request (R96) -/

/-- The trigger edge of an ORDER that was not refused; 3 never reaches here (R86). -/
def TriggerEdge.ofCode (c : BitVec 2) : TriggerEdge :=
  match c.toNat with
  | 0 => .rise
  | 1 => .fall
  | _ => .either

/-- The late policy of an ORDER that was not refused; 3 never reaches here (R86). -/
def LatePolicy.ofCode (c : BitVec 2) : LatePolicy :=
  match c.toNat with
  | 0 => .drop
  | 1 => .startNow
  | _ => .rearm

/-- The event part of a new entry (R96, R108, R114). -/
def EventFields.part (e : EventFields) (armTime : Time) : EventPart :=
  { triggerStation := e.station, triggerInput := e.input, triggerEdge := TriggerEdge.ofCode e.edge, delay := e.delay,
    fires := e.fires, expiry := e.expiry, expiryReached := false, latePolicy := LatePolicy.ofCode e.latePolicy,
    armTime := armTime }

/-- The train part of a new entry: an ABSOLUTE TRAIN has its count remaining at once (R96). -/
def TrainFields.part (t : TrainFields) (basis : BasisFields) : TrainPart :=
  { period := t.period, count := t.count,
    countRemaining := match basis with
      | .absolute _ => t.count
      | .event _ => 0
    followingStart := none }

/-- The entry an accepted ORDER makes at processing instant `now` (R96, R108). -/
def OrderFields.newEntry (o : OrderFields) (index : Index) (origin : Station) (number : RequestNumber) (now : Time) :
    Entry :=
  { index := index, origin := origin, number := number, channel := o.channelNumber
    state := match o.basis with
      | .absolute _ => .scheduled
      | .event _ => .armed
    active := false
    nextEdge := match o.basis with
      | .absolute due => some due
      | .event _ => none
    width := o.width, train := o.train.map fun t => t.part o.basis
    event := match o.basis with
      | .absolute _ => none
      | .event e => some (e.part now)
    preempt := o.preempt, bound := o.bound, report := o.report, lastStart := none, aged := false }

/-- The new entry goes to the lowest free index, last in acceptance order (R96, R107). -/
def placeOrder (origin : Station) (number : RequestNumber) (o : OrderFields) (s : State) : State :=
  match s.freeIndex with
  | none => s
  | some i => s.setTable (s.table ++ [o.newEntry i origin number s.now])

/-- Step 9 of R90: the effect of an accepted request (R96). -/
def applyRequest (origin : Station) (number : RequestNumber) : Request → State → State
  | .order o, s => placeOrder origin number o s
  | .amend subject delta, s =>
    match s.entryNamed origin subject with
    | none => s
    | some e => amendEntry e delta s
  | .cancel subject, s =>
    match s.entryNamed origin subject with
    | none => s
    | some e => cancelEntry e s

/-- The entry index an accepted local request reports: the new entry's, or its subject's (R101). -/
def requestIndex (s : State) (origin : Station) : Request → Option Index
  | .order _ => s.freeIndex
  | .amend subject _ => (s.entryNamed origin subject).map fun e => e.index
  | .cancel subject => (s.entryNamed origin subject).map fun e => e.index

/-! ### Acceptance at the target (R89 to R92, R97) -/

/-- The reply-cache records of an origin (R99). -/
def State.cacheOf (s : State) (origin : Station) : List CacheRecord := s.exchange.cache.get origin

/-- Write the reply-cache records of an origin. -/
def setCacheOf (origin : Station) (l : List CacheRecord) (s : State) : State :=
  s.setExchange { s.exchange with cache := s.exchange.cache.set origin.val l origin.isLt }

/-- The cached code of this origin's request, if a record holds its number (R92). -/
def State.cachedCode (s : State) (origin : Station) (number : RequestNumber) : Option ReplyCode :=
  ((s.cacheOf origin).find? fun r => r.number == number).map fun r => r.code

/-- Step 10 of R90: a cache record is written and the REPLY queued (R97). -/
def answerRequest (origin : Station) (number : RequestNumber) (code : ReplyCode) (s : State) : State :=
  queueReplyItem (.reply origin number code)
    (setCacheOf origin
      (s.cacheOf origin ++ [{ number := number, code := code, expiry := s.cycle.cycleNumber + Config.cacheLife }]) s)

/-- Steps 4 to 10 of R90. The REPLY takes its place before the effect of step 9, so that results stand behind it (R97). -/
def decideRequest (origin : Station) (number : RequestNumber) (r : Request) (s : State) : State :=
  let code := judgeRequest s origin number r
  let answered := answerRequest origin number code s
  if code = .accepted then applyRequest origin number r answered else answered

/-- A request item addressed to this station (R89 to R92): it is ignored with announced clear, with the reply queue full,
or at the cap; it is answered from the cache on a hit; else it is judged. -/
def acceptRequest (origin : Station) (number : RequestNumber) (r : Request) (s : State) : State :=
  if !s.link.announced then s
  else if Config.replyCapacity ≤ s.exchange.replyQueue.length then s
  else
    match s.cachedCode origin number with
    | some code => queueReplyItem (.reply origin number code) s
    | none =>
      if Config.cacheCapacity ≤ (s.cacheOf origin).length then s else decideRequest origin number r s

/-! ### Replies and results at the origin (R53, R104) -/

/-- A REPLY from `sender` that is addressed to this station (R104). -/
def takeReply (sender : Station) (number : RequestNumber) (code : ReplyCode) (s : State) : State :=
  match s.requestNumbered number with
  | none => s
  | some r =>
    if r.target = sender then
      let s := removeRequest number s
      queueNotice (s.noticeNow .answered (some sender) (some number) (codeByte code.code) none) s
    else s

/-- A RESULT from `sender` that is addressed to this station (R53). -/
def takeResult (sender : Station) (number : RequestNumber) (o : EntryOutcome) (lastStart : Option Time) (s : State) :
    State :=
  queueNotice (s.noticeNow .result (some sender) (some number) (codeByte o.code) lastStart) s

/-! ### SUBMIT (R101, R103, R162, R180) -/

/-- The response codes of the host port (R174). -/
inductive ResponseCode where
  | ok
  | state
  | arg
  | full
  | limit
  deriving DecidableEq, Repr

/-- R174. -/
def ResponseCode.byte : ResponseCode → Byte
  | .ok => 0
  | .state => 1
  | .arg => 2
  | .full => 3
  | .limit => 4

/-- The checks of R103 in their order; none passes. -/
def refusePeerSubmit (s : State) (target : Station) : Option ResponseCode :=
  if s.stationCount ≤ target.val then some .arg
  else if !s.link.state.transmits then some .state
  else if Config.requestCapacity ≤ s.exchange.requests.length then some .full
  else if Config.requestsPerTarget ≤ (s.requestsTo target).length then some .limit
  else if !s.sendRoom then some .full
  else none

/-- A peer request that passed: a Pending record with the item's bytes, and its first try in the send queue (R162). -/
def makeRequest (target : Station) (number : RequestNumber) (r : Request) (s : State) : State :=
  let item := encodeRequest target number r
  queueSendItem (.request number item)
    (s.setExchange { s.exchange with
      requests := s.exchange.requests ++
        [{ number := number, target := target, tries := 1, sent := false, deadline := none, sendLimit := none,
           item := item }] })

/-- Read the item of a SUBMIT: one well-formed request item, whose number field is not used; bytes after it are ignored
(R174, R180). -/
def parseSubmit (bs : List Byte) : Option (Station × Request) :=
  match parseItem bs with
  | some (.request target _ r, _) => some (target, r)
  | _ => none

end Sys2Proof.Machine
end

