-- ==== Sys2Proof/Machine/Members.lean ====
section
/-! DEFINITION. The Membership Table (Chapter 4): slot notes, slot ends, error counts, loss, restart, and STOP. -/

namespace Sys2Proof.Machine

/-- The code of a presence state (R175, R187). -/
def PeerState.code : PeerState → Byte
  | .unknown => 0
  | .present => 1
  | .missing => 2
  | .lost => 3

/-- The PEER notice of a change to this state (R58). -/
def peerNotice (k : Station) (st : PeerState) (s : State) : State :=
  queueNotice (s.noticeNow .peer (some k) none st.code none) s

/-! ### Slot ends (R57, R58) -/

/-- The record after a slot end that found an in-window frame with this deviation (R57). -/
def PeerRecord.heard (r : PeerRecord) (deviation : Int) : PeerRecord :=
  { r with state := .present, misses := 0, goodFrames := saturate r.goodFrames, lastDeviation := some deviation,
           slotNote := none }

/-- The record after a slot end that found none (R57). -/
def PeerRecord.missed (r : PeerRecord) : PeerRecord :=
  match r.state with
  | .unknown => { r with misses := 0 }
  | .present => { r with state := .missing, misses := 1 }
  | .missing => if 3 ≤ r.misses then { r with state := .lost, misses := 4 } else { r with misses := r.misses + 1 }
  | .lost => { r with misses := 4 }

/-- The record after its slot end (R57). -/
def PeerRecord.afterSlot (r : PeerRecord) : PeerRecord :=
  match r.slotNote with
  | some d => r.heard d
  | none => r.missed

/-- The loss of a peer, after its PEER notice (R61). -/
def loseCascade (k : Station) (s : State) : State :=
  let s := failEach .peerLost (s.requestsTo k) s
  let s := removeBound k s
  let s := removeWatchers k s
  s.setPeer k { s.peer k with expectedEvent := none }

/-- The end of slot `k` at the Membership Table (R57, R58, R61). -/
def slotEnd (k : Station) (s : State) : State :=
  if k = s.own then s
  else
    let before := s.peer k
    let after := before.afterSlot
    let s := s.setPeer k after
    if after.state = before.state then s
    else if after.state = .lost then loseCascade k (peerNotice k .lost s)
    else peerNotice k after.state s

/-! ### Error counts (R59) -/

/-- A frame discarded by the length, frame or parse check, against the slot's owner (R59). -/
def countCheckError (k : Station) (s : State) : State :=
  if k = s.own then s else s.setPeer k { s.peer k with checkErrors := saturate (s.peer k).checkErrors }

/-- A frame discarded by the slot-owner check (R59). -/
def countIntrusion (k : Station) (s : State) : State :=
  if k = s.own then s
  else
    let s := s.setPeer k { s.peer k with intrusions := saturate (s.peer k).intrusions }
    queueNotice (s.noticeNow .intrusion (some k) none 0 none) s

/-! ### Frame reports and restart detection (R56, R63, R64) -/

/-- A detected restart of station `k` (R64). -/
def restartCascade (k : Station) (s : State) : State :=
  let s := setCacheOf k [] s
  let s := failEach .peerRestarted (s.requestsTo k) s
  let s := removeBound k s
  s.setPeer k { s.peer k with expectedEvent := none }

/-- Restart detection on a valid frame of station `k` (R63). -/
def detectRestart (k : Station) (isNew : Bool) (s : State) : State :=
  let r := s.peer k
  if isNew then
    if r.newSeen then s
    else
      let s := if r.state = .unknown then s else restartCascade k s
      s.setPeer k { s.peer k with newSeen := true }
  else s.setPeer k { r with newSeen := false }

/-- The record takes the classification of a valid frame (R56). -/
def PeerRecord.noteFrame (r : PeerRecord) (inWindow : Bool) (deviation : Int) : PeerRecord :=
  if inWindow then
    { r with slotNote := match r.slotNote with
        | some d => some d
        | none => some deviation }
  else { r with timingErrors := saturate r.timingErrors }

/-- Membership takes a valid frame of station `k` (R56). -/
def reportFrame (k : Station) (inWindow : Bool) (deviation : Int) (isNew : Bool) (s : State) : State :=
  detectRestart k isNew (s.setPeer k ((s.peer k).noteFrame inWindow deviation))

/-! ### Leaving the line and STOP (R66, R67) -/

/-- Every slot note is set to none when the grid stops (R66). -/
def clearSlotNotes (s : State) : State := s.setMembers (mapVector (fun r => { r with slotNote := none }) s.members)

/-- The record after STOP (R67). -/
def PeerRecord.stopped (r : PeerRecord) : PeerRecord :=
  { r with state := .unknown, misses := 0, lastDeviation := none, slotNote := none, newSeen := false,
           expectedEvent := none }

/-- STOP at one record (R67). -/
def stopPeer (s : State) (k : Station) : State :=
  if k = s.own then s
  else
    let before := (s.peer k).state
    let s := s.setPeer k (s.peer k).stopped
    if before = .unknown then s else peerNotice k .unknown s

/-- The station numbers 0..15, in order. -/
def allStations : List Station := List.finRange 16

/-- STOP at the Membership Table, in station number order (R67). -/
def stopMembers (s : State) : State := allStations.foldl stopPeer s

/-- The clear option of PEER (R60). -/
def PeerRecord.cleared (r : PeerRecord) : PeerRecord :=
  { r with goodFrames := 0, checkErrors := 0, timingErrors := 0, intrusions := 0 }

end Sys2Proof.Machine
end

