-- ==== Sys2Proof/Machine/Events.lean ====
section
/-! DEFINITION. The Capture Unit (Chapter 5): sampling, recognition, events made here, numbering, and events from peers. -/

namespace Sys2Proof.Machine

/-! ### Records -/

def State.pin (s : State) (p : Pin) : PinRecord := s.capture.pins.get p

def State.setPin (s : State) (p : Pin) (r : PinRecord) : State :=
  s.setCapture { s.capture with pins := s.capture.pins.set p.val r p.isLt }

def State.inputRecord (s : State) (i : Input) : InputRecord := s.capture.inputs.get i

def State.setInputRecord (s : State) (i : Input) (r : InputRecord) : State :=
  s.setCapture { s.capture with inputs := s.capture.inputs.set i.val r i.isLt }

/-- The input number of a pin: IN0 to IN7 are inputs 0..7 (section 5.1). -/
def inputOfPin (p : Pin) : Input := Fin.castLE (by decide) p

/-! ### Events made at this station (R75 to R78) -/

/-- Step 1 of R75: the input's record. -/
def InputRecord.withEvent (r : InputRecord) (edge : Edge) (stamp : Time) : InputRecord :=
  { r with lastStamp := some stamp, lastEdge := some edge, edgeCount := r.edgeCount + 1 }

/-- What the line made of an event: the number it took, if any, and whether its item joined the send queue (R77, R78). -/
structure Numbering where
  number : Option EventNumber
  queued : Bool
  deriving DecidableEq, Repr

/-- What step 3 of R75 will make of an event of this input (R77, R78). -/
def State.numbering (s : State) (i : Input) : Numbering :=
  if (s.inputRecord i).broadcast && s.link.state.transmits then
    { number := some s.capture.eventNumber, queued := s.sendRoom }
  else { number := none, queued := false }

/-- Step 3 of R75: a broadcast event made while transmitting takes the next number and is queued or dropped (R77, R78). -/
def sendEvent (i : Input) (edge : Edge) (stamp : Time) (s : State) : State :=
  match (s.numbering i).number with
  | none => s
  | some n =>
    let queued := (s.numbering i).queued
    let s := s.setCapture { s.capture with eventNumber := n + 1 }
    if queued then queueSendItem (.event i edge n stamp) s
    else
      queueNotice
        (s.noticeNow .dropped none (some (n.setWidth 12)) (BitVec.ofNat 8 i.val) none) s

/-- An event is made (R75): record, local matching, then the line. -/
def makeEvent (i : Input) (edge : Edge) (stamp : Time) (s : State) : State :=
  let s := s.setInputRecord i ((s.inputRecord i).withEvent edge stamp)
  let s := matchEvent { station := s.own, input := i, edge := edge, stamp := stamp } s
  sendEvent i edge stamp s

/-! ### Sampling and recognition (R71 to R73) -/

/-- The record after a sample at line time `now` (R71). -/
def PinRecord.sample (r : PinRecord) (level : Level) (now : Time) : PinRecord :=
  if level = r.settled then { r with level := level, hold := none }
  else
    { r with
      level := level
      hold := match r.hold with
        | some h => some h
        | none => some { start := now, count := 0 } }

/-- The hold in progress has reached the filter: the edge is recognised now (R72). -/
def PinRecord.recognised (r : PinRecord) : Bool :=
  match r.hold with
  | none => false
  | some h => decide (r.filter.toNat ≤ h.count)

/-- The edge a recognition gives: RISE if the new level is HIGH (R72). -/
def PinRecord.newEdge (r : PinRecord) : Edge :=
  match r.settled with
  | .low => .rise
  | .high => .fall

/-- The edge select names the edge (R73). -/
def EdgeSelect.selects : EdgeSelect → Edge → Bool
  | .none, _ => false
  | .rise, .rise => true
  | .rise, .fall => false
  | .fall, .fall => true
  | .fall, .rise => false
  | .both, _ => true

/-- The record after a recognition (R72). -/
def PinRecord.settle (r : PinRecord) : PinRecord := { r with settled := flipLevel r.settled, hold := none }

/-- The stamp of an edge recognised at line time `now`: backdated by the filter (R72). -/
def PinRecord.stampAt (r : PinRecord) (now : Time) : Time := now - r.filter.setWidth 32

/-- An edge of this pin is recognised (R72, R73). -/
def recognise (p : Pin) (s : State) : State :=
  let r := s.pin p
  let s := s.setPin p r.settle
  if r.edgeSelect.selects r.newEdge then makeEvent (inputOfPin p) r.newEdge (r.stampAt s.now) s else s

/-- Recognise if the hold has reached the filter. -/
def recogniseIfDue (p : Pin) (s : State) : State := if (s.pin p).recognised then recognise p s else s

/-! ### Events from peers (R81, R82) -/

/-- The GAP notice for an item's number, where the expected number is present and differs (R82). -/
def checkGap (sender : Station) (n : EventNumber) (s : State) : State :=
  match (s.peer sender).expectedEvent with
  | none => s
  | some expected =>
    if expected = n then s
    else queueNotice (s.noticeNow .gap (some sender) none 0 (some ((n - expected).setWidth 32))) s

/-- An EVENT item in an in-window frame (R81, R83). -/
def takeEvent (sender : Station) (i : Input) (edge : Edge) (n : EventNumber) (stamp : Time) (s : State) : State :=
  let s := checkGap sender n s
  let s := s.setPeer sender { s.peer sender with expectedEvent := some (n + 1) }
  matchEvent { station := sender, input := i, edge := edge, stamp := stamp } s

end Sys2Proof.Machine
end

