-- ==== Sys2Proof/Machine/Cycle.lean ====
section
/-! DEFINITION. The Cycle Unit (Chapters 1 and 2): the grid, the correction, steps of line time, the link state machine, the
slot start and the cycle end. -/

namespace Sys2Proof.Machine

/-! ### LINK notices (R18, R187) -/

/-- R175: the codes STATUS and LINK notices use. -/
def LinkState.code : LinkState → Fin 16
  | .off => 0
  | .listen => 1
  | .integrate => 2
  | .coldstart => 3
  | .synced => 4

/-- R187. -/
def LinkReason.code : LinkReason → Fin 16
  | .start => 0
  | .heard => 1
  | .timeout => 2
  | .joined => 3
  | .unheard => 4
  | .ownSlot => 5
  | .confirmed => 6
  | .yield => 7
  | .silence => 8
  | .collision => 9
  | .stop => 10

/-- A LINK notice with the present link state, its reason, and the sender where a received frame caused the change (R18). -/
def linkNotice (reason : LinkReason) (sender : Option Station) (s : State) : State :=
  queueNotice (s.noticeNow .link sender none (nibbles s.link.state.code reason.code) none) s

/-! ### The grid (R4) -/

/-- The grid stops: no slot index, no samples; cycle start and cycle number keep their values (R4). -/
def stopGrid (s : State) : State :=
  s.setCycle { s.cycle with running := false, slotIndex := none, slotZeroAwaited := false, samples := [] }

/-- The grid starts with this cycle start, cycle number and slot; what the Request Exchange holds moves with the cycle
number (R4, R22, R25, R100, R166). -/
def startGrid (cycleStart : Time) (cycleNumber : CycleNumber) (slot : Station) (s : State) : State :=
  let s := moveCycles (cycleNumber - s.cycle.cycleNumber) s
  s.setCycle { s.cycle with
    running := true, cycleStart := cycleStart, cycleNumber := cycleNumber, slotIndex := some slot,
    slotZeroAwaited := false }

/-! ### Entering LISTEN (R20, R34) -/

/-- The listen timer on entry to LISTEN without the yield extension (R20). -/
def State.listenTime (s : State) : Nat := 2 * s.cycleLength + s.own.val * s.slotLength

/-- The station goes to LISTEN (R20): the grid stops, slot notes are cleared (R66), what belongs to the own slot is dropped,
and from a transmitting state the counts, NEW countdown and announced are cleared (R34). DESIGN CHOICE (log entry 35): a frame
built and not yet going out is dropped too, as by a yield taken after the own slot start of its instant; the Pending records
whose requests it carried stay as they are, sent clear and with no copy left to send, until a reply, a loss, a restart or STOP
removes them (R161, R164). -/
def enterListen (reason : LinkReason) (sender : Option Station) (extension : Nat) (s : State) : State :=
  let link := s.link
  let s := clearSlotNotes (stopGrid s)
  let s := s.setLine { s.line with frame := none, ownSlot := .unjudged, ending := none }
  let left :=
    if link.state.transmits then
      { link with announced := false, newCountdown := 0, confirmationCount := 0, silenceCount := 0, collisionCount := 0 }
    else link
  let s := s.setLink { left with state := .listen, listenTimer := some (s.listenTime + extension) }
  linkNotice reason sender s

/-! ### The correction (R11) -/

/-- Remove one occurrence of the first value that is extreme by this order: `worse a b` says `a` is more extreme. -/
def extreme (worse : Int → Int → Bool) : Int → List Int → Int
  | m, [] => m
  | m, x :: xs => extreme worse (if worse x m then x else m) xs

/-- The samples that enter the mean: from three on, one largest and one smallest are removed (R11). -/
def trimmed (ds : List Int) : List Int :=
  match ds with
  | [] => []
  | d :: rest =>
    if 3 ≤ ds.length then
      (ds.erase (extreme (fun a b => decide (b < a)) d rest)).erase (extreme (fun a b => decide (a < b)) d rest)
    else ds

/-- Sum divided by number, truncated toward zero; 0 of none (R11). -/
def truncatedMean (ds : List Int) : Int :=
  match ds with
  | [] => 0
  | _ => ds.sum.tdiv ds.length

/-- Clamp to -16..+16 (R11). -/
def clampCorrection (c : Int) : Int := max (-Config.clamp) (min Config.clamp c)

/-- The correction from the sample store (R11). -/
def correction (samples : List Sample) : Int :=
  clampCorrection (truncatedMean (trimmed (samples.map fun x => x.deviation)))

/-- The step of line time: the correction with its sign reversed (R11). -/
def cycleStep (samples : List Sample) : Int := -correction samples

/-! ### Steps of line time (R13) -/

/-- Line time is set to its old value plus σ (R13). -/
def stepLineTime (σ : Time) (s : State) : State := s.setCycle { s.cycle with lineTime := s.cycle.lineTime + σ }

/-- Line time takes a step: what it has reached by time is noted before it moves, and the arm times age with it at once
(R114: whenever line time is at or after). -/
def takeStep (σ : Time) (s : State) : State := ageArmTimes (s.now + σ) (stepLineTime σ (noteTimes s.now s))

/-- A step is taken: line time moves, and the Order Table acts on it (R13 to R15, R129). -/
def applyStep (σ : Time) (s : State) : State := tableStep s.now σ (s.edgesAt s.now) (takeStep σ s)

/-- A mark time equal to the cycle end that was detected before the cycle end was taken moves with the step (R8). -/
def moveMark (cycleStart σ : Time) (s : State) : State :=
  match s.line.reception with
  | none => s
  | some r =>
    match r.attribution with
    | none => s
    | some a =>
      if a.cycleStart = cycleStart then
        s.setLine { s.line with reception := some { r with markTime := r.markTime + σ } }
      else s

/-! ### Slot starts (R5, R48, R157) -/

/-- A reception still in progress is abandoned (R48). -/
def abandonReception (s : State) : State := s.setLine { s.line with reception := none }

/-- The own slot of a transmitting state begins: the buffer is free for a new mark. The reception in it is abandoned, unless
its checks end at this very instant (R48, R105, R168): it is kept apart until the instant is over. -/
def setReceptionApart (s : State) : State :=
  s.setLine { s.line with reception := none, ending := s.line.reception }

/-- The own slot has ended: nothing is known of the next one (R32). -/
def endOwnSlot (k : Station) (s : State) : State :=
  if k = s.own then s.setLine { s.line with ownSlot := .unjudged } else s

/-- The start of slot `k` is reported: in a transmitting state the own slot start builds the frame and abandons a reception
(R5, R48, R157). -/
def slotBegins (k : Station) (s : State) : State :=
  if k = s.own ∧ s.link.state.transmits = true then buildFrame (setReceptionApart s) else s

/-- Slot numbers that follow a slot, in 0..15. -/
def nextSlot (k : Station) : Station := k + 1

/-- The start of slot `k + 1` and with it the end of slot `k` (R5); they are separate happenings of one instant, and either
may be taken first (R168). -/
def advanceSlot (order : SlotOrder) (k : Station) (s : State) : State :=
  let s := s.setCycle { s.cycle with slotIndex := some (nextSlot k) }
  match order with
  | .slotEndFirst => slotBegins (nextSlot k) (endOwnSlot k (slotEnd k s))
  | .buildFirst => slotEnd k (slotBegins (nextSlot k) (endOwnSlot k s))

/-- What a slot start would begin at the present line time: slot 0 after a negative step, or the slot after the present one
(R5, R13). -/
inductive SlotDue where
  | zero
  | after (k : Station)
  deriving DecidableEq, Repr

/-- The slot start that is reached at the present line time, if any (R5, R13). -/
def State.slotDue (s : State) : Option SlotDue :=
  if s.cycle.running then
    if s.cycle.slotZeroAwaited then
      if passed s.cycle.cycleStart s.now then some .zero else none
    else
      match s.cycle.slotIndex with
      | none => none
      | some k =>
        if decide (k.val + 1 < s.stationCount) && passed (s.slotStartTime (k.val + 1)) s.now then some (.after k)
        else none
  else none

/-- Slot 0 begins after a negative step (R12 step 8, R13). -/
def beginSlotZero (s : State) : State := slotBegins 0 (s.setCycle { s.cycle with slotZeroAwaited := false })

/-- A slot start is taken (R5). -/
def takeSlotStart (order : SlotOrder) (s : State) : State :=
  match s.slotDue with
  | none => s
  | some .zero => beginSlotZero s
  | some (.after k) => advanceSlot order k s

/-! ### Link decisions at a cycle end (R24, R26, R28, R29) -/

/-- Entry to SYNCED from INTEGRATE (R24, R28, R31). -/
def joinLine (s : State) : State :=
  linkNotice .joined none
    (s.setLink { s.link with
      state := .synced, integrationCount := 0, silenceCount := 0, collisionCount := 0, newCountdown := 2,
      announced := false })

/-- The decision of INTEGRATE at a cycle end with `k` samples (R24). -/
def integrateAtCycleEnd (k : Nat) (s : State) : State :=
  if s.link.integrationCount = 0 then s.setLink { s.link with integrationCount := 1 }
  else if 1 ≤ k then joinLine s
  else enterListen .unheard none 0 (s.setLink { s.link with integrationCount := 0 })

/-- The confirmation count of COLDSTART at a cycle end with `k` samples (R26, R28). -/
def coldstartAtCycleEnd (k : Nat) (s : State) : State :=
  if k = 0 then s.setLink { s.link with confirmationCount := 0 }
  else if s.link.confirmationCount + 1 < 2 then
    s.setLink { s.link with confirmationCount := s.link.confirmationCount + 1 }
  else
    linkNotice .confirmed none (s.setLink { s.link with state := .synced, confirmationCount := 0, silenceCount := 0 })

/-- The silence count of SYNCED at a cycle end with `k` samples (R29). -/
def syncedAtCycleEnd (k : Nat) (s : State) : State :=
  if 1 ≤ k then s.setLink { s.link with silenceCount := 0 }
  else if s.link.silenceCount + 1 < 3 then s.setLink { s.link with silenceCount := s.link.silenceCount + 1 }
  else enterListen .silence none 0 s

/-- The link state machine at a cycle end with `k` samples noted (R12 step 7). -/
def linkAtCycleEnd (k : Nat) (s : State) : State :=
  match s.link.state with
  | .off | .listen => s
  | .integrate => integrateAtCycleEnd k s
  | .coldstart => coldstartAtCycleEnd k s
  | .synced => syncedAtCycleEnd k s

/-! ### The cycle end (R12) -/

/-- The last slot of a cycle. -/
def State.lastSlot (s : State) : Station := s.straps.cnt

/-- Line time has reached the cycle end while the grid runs in its last slot (R12). -/
def State.cycleEndDue (s : State) : Bool :=
  s.cycle.running && !s.cycle.slotZeroAwaited && decide (s.cycle.slotIndex = some s.lastSlot) &&
    passed (s.slotStartTime s.stationCount) s.now

/-- Steps 3 and 4 of R12: the new cycle. -/
def beginCycle (s : State) : State :=
  s.setCycle { s.cycle with
    cycleStart := s.slotStartTime s.stationCount, cycleNumber := s.cycle.cycleNumber + 1, slotIndex := some 0 }

/-- Step 5 of R12: a step of 0 changes nothing (R11). -/
def stepAtCycleEnd (σ : Int) (s : State) : State :=
  if σ = 0 then s
  else moveMark s.cycle.cycleStart (BitVec.ofInt 32 σ) (applyStep (BitVec.ofInt 32 σ) s)

/-- Step 6 of R12. -/
def emptySamples (s : State) : State := s.setCycle { s.cycle with samples := [] }

/-- Step 8 of R12: slot 0 of the new cycle begins at once, or is awaited after a negative step. -/
def beginCycleSlot (σ : Int) (s : State) : State :=
  if s.cycle.running then
    if 0 ≤ σ then slotBegins 0 s else s.setCycle { s.cycle with slotZeroAwaited := true }
  else s

/-- Steps 1 to 6 of R12: the last slot ends, the new cycle begins, line time takes the step, the samples are emptied. -/
def turnCycle (s : State) : State :=
  emptySamples (stepAtCycleEnd (cycleStep s.cycle.samples) (beginCycle (endOwnSlot s.lastSlot (slotEnd s.lastSlot s))))

/-- The cycle end, steps 1 to 8 of R12. -/
def takeCycleEnd (s : State) : State :=
  beginCycleSlot (cycleStep s.cycle.samples) (expireCache (linkAtCycleEnd s.cycle.samples.length (turnCycle s)))

/-! ### Cold start (R25) -/

/-- Line time 0 of the listen timer: the station starts a timeline of its own (R25, R31, R48). -/
def coldStart (s : State) : State :=
  let s := abandonReception (startGrid s.now 0 0 s)
  let s := s.setLine { s.line with ownSlot := .unjudged }
  let s := s.setLink { s.link with
    state := .coldstart, listenTimer := none, confirmationCount := 0, collisionCount := 0, silenceCount := 0,
    newCountdown := 2, announced := false }
  slotBegins 0 (linkNotice .timeout none s)

end Sys2Proof.Machine
end

