-- ==== Sys2Proof/Machine/Line.lean ====
section
/-! DEFINITION. The Line Port (Chapters 2 and 3): sending the own frame and its read-back, marks, receptions and their checks,
adoption, and the items of a frame. -/

namespace Sys2Proof.Machine

/-! ### Sending (R30 to R33, R160) -/

/-- Line time has reached the send instant of a frame that waits for it (R5, R30). -/
def State.sendDue (s : State) : Bool :=
  match s.line.frame with
  | none => false
  | some f =>
    s.link.state.transmits && s.cycle.running && !s.cycle.slotZeroAwaited && decide (s.cycle.slotIndex = some s.own) &&
      f.remaining.isNone && passed (s.markDue s.cycle.cycleStart s.own.val) s.now

/-- The frame starts going out: its mark, header, payload and frame check take this many ticks (R30, R38). -/
def startSending (f : OwnFrame) (s : State) : State :=
  s.setLine { s.line with
    frame := some { f with remaining := some (Config.ticksOfBits s.straps.rate (frameBits f.content)) } }

/-- The own frame's last bit has gone out (R30). -/
def State.frameEndDue (s : State) : Option OwnFrame :=
  match s.line.frame with
  | none => none
  | some f => if f.remaining = some 0 then some f else none

/-- A COLLISION notice (R33). -/
def collisionNotice (s : State) : State := queueNotice (s.noticeNow .collision none none 0 none) s

/-- The own slot is judged collided with this collision count before it: it is incremented, and at 2 the station goes to
LISTEN (R33). -/
def judgeCollided (countBefore : Nat) (s : State) : State :=
  let s := s.setLine { s.line with ownSlot := .collided }
  let s := collisionNotice (s.setLink { s.link with collisionCount := countBefore + 1 })
  if 2 ≤ countBefore + 1 then enterListen .collision none 0 s else s

/-- The own slot is judged clean (R33). -/
def judgeClean (s : State) : State :=
  let s := s.setLine { s.line with ownSlot := .clean s.link.collisionCount }
  s.setLink { s.link with collisionCount := 0 }

/-- The NEW countdown and announced at the end of an own frame (R31). -/
def LinkUnit.afterFrame (l : LinkUnit) (carriedNew : Bool) : LinkUnit :=
  { l with newCountdown := if carriedNew then l.newCountdown - 1 else l.newCountdown, announced := true }

/-- The own frame ends: LDE is released, the frame is reported sent, NEW countdown and announced are updated, and the slot
is judged once (R30 to R33, R160). DEDUCED (log entry 9): the judgement comes last, because a collision that ends the
transmitting state clears announced (R34). -/
def endFrame (f : OwnFrame) (differs : Bool) (s : State) : State :=
  let s := s.setLine { s.line with frame := none }
  let s := reportSent f s
  let s := s.setLink (s.link.afterFrame f.carriesNew)
  if differs || decide (s.line.ownSlot = .foreignMark) then judgeCollided s.link.collisionCount s else judgeClean s

/-! ### Marks (R7, R8, R32, R48) -/

/-- The receiver is on in every link state but OFF (R7, R17). -/
def LinkState.receives : LinkState → Bool
  | .off => false
  | .listen | .integrate | .coldstart | .synced => true

/-- The cycle and slot in which a mark time lies while the grid runs (R8): before the present cycle start, slot 0 of the
present cycle; at or after a cycle end not yet taken, slot 0 of the cycle that begins there. -/
def State.attribute (s : State) (mark : Time) : Attribution :=
  let d := ahead mark s.cycle.cycleStart
  if 2 ^ 31 ≤ d then { cycleStart := s.cycle.cycleStart, cycleNumber := s.cycle.cycleNumber, slot := 0 }
  else if d < s.cycleLength then
    { cycleStart := s.cycle.cycleStart, cycleNumber := s.cycle.cycleNumber, slot := Fin.ofNat 16 (d / s.slotLength) }
  else
    { cycleStart := s.slotStartTime s.stationCount, cycleNumber := s.cycle.cycleNumber + 1, slot := 0 }

/-- The own frame is going out (R30): LDE is asserted. -/
def State.isSending (s : State) : Bool :=
  match s.line.frame with
  | none => false
  | some f => f.remaining.isSome

/-- A mark not the station's own in its own slot: it counts before the send instant, and turns a clean judgement into
collided (R32, R33). -/
def foreignMark (s : State) : State :=
  match s.line.ownSlot with
  | .unjudged => s.setLine { s.line with ownSlot := .foreignMark }
  | .foreignMark | .collided => s
  | .clean countBefore => judgeCollided countBefore s

/-- The receiver starts a frame at a mark (R48). -/
def startReception (a : Option Attribution) (s : State) : State :=
  s.setLine { s.line with reception := some { markTime := s.now, attribution := a } }

/-- A mark is detected at the present line time (R7, R48). While a frame is received or sent no mark is searched for. In the
own slot a transmitting state serves read-back alone; INTEGRATE receives the frame too (R50). -/
def detectMark (s : State) : State :=
  if !s.link.state.receives || s.line.reception.isSome || s.isSending then s
  else if !s.cycle.running then startReception none s
  else
    let a := s.attribute s.now
    if a.slot = s.own then
      if s.link.state.transmits then foreignMark s
      else startReception (some a) (foreignMark s)
    else startReception (some a) s

/-! ### Items of a frame (R52) -/

/-- One item of an in-window frame from `sender` (R52). -/
def takeItem (sender : Station) (item : Item) (s : State) : State :=
  match item with
  | .event i edge n stamp => takeEvent sender i edge n stamp s
  | .request target n r => if target = s.own then acceptRequest sender n r s else s
  | .reply origin n code => if origin = s.own then takeReply sender n code s else s
  | .result origin n o t => if origin = s.own then takeResult sender n o t s else s

/-- The items in payload order, each whole before the next (R52). -/
def takeItems (sender : Station) (items : List Item) (s : State) : State :=
  items.foldl (fun s item => takeItem sender item s) s

/-! ### A valid frame while the grid runs (R8 to R10, R27, R51) -/

/-- The deviation of a mark from the instant the slot's mark was due, as a signed number (R8). -/
def State.deviation (s : State) (mark : Time) (a : Attribution) : Int :=
  (mark - s.markDue a.cycleStart a.slot.val).toInt

/-- The frame is in-window: its deviation is, and its cycle number is that of the cycle it was attributed to (R9). -/
def inWindow (deviation : Int) (a : Attribution) (cycleNumber : CycleNumber) : Bool :=
  decide (-Config.syncWindow ≤ deviation ∧ deviation ≤ Config.syncWindow) && cycleNumber == a.cycleNumber

/-- A sample is entered if its cycle has not ended and its station has none (R10). -/
def enterSample (k : Station) (deviation : Int) (a : Attribution) (s : State) : State :=
  if a.cycleStart = s.cycle.cycleStart ∧ a.cycleNumber = s.cycle.cycleNumber
      ∧ (s.cycle.samples.any fun x => x.station == k) = false then
    s.setCycle { s.cycle with samples := s.cycle.samples ++ [{ station := k, deviation := deviation }] }
  else s

/-- COLDSTART yields to an out-of-window frame without the COLDSTART flag, or of a lower number (R27). -/
def yieldTo (h : Header) (s : State) : State :=
  if s.link.state = .coldstart ∧ (h.coldstart = false ∨ h.station < s.own) then
    enterListen .yield (some h.station) s.cycleLength s
  else s

/-- Presence, link and items of a classified frame (R51 steps 2 to 4). -/
def handOn (h : Header) (items : List Item) (within : Bool) (deviation : Int) (s : State) : State :=
  let s := reportFrame h.station within deviation h.isNew s
  if within then takeItems h.station items s else yieldTo h s

/-- A valid frame is handed onward (R51). -/
def handFrame (h : Header) (items : List Item) (mark : Time) (a : Attribution) (s : State) : State :=
  let d := s.deviation mark a
  if inWindow d a h.cycleNumber then handOn h items true d (enterSample h.station d a s)
  else handOn h items false d s

/-- The checks of a frame outside the own slot while the grid runs: length, frame check, slot owner, parse (R49). -/
def checkFrame (received : Received) (mark : Time) (a : Attribution) (s : State) : State :=
  match received with
  | .badLength => countCheckError a.slot s
  | .badCheck => countCheckError a.slot s
  | .intact h items =>
    if h.station ≠ a.slot then countIntrusion a.slot s
    else
      match items with
      | none => countCheckError a.slot s
      | some items => handFrame h items mark a s

/-- A frame in the own slot: in INTEGRATE, a valid one with the own station number ends the integration (R24, R50); any other
is discarded and counted nowhere. -/
def checkOwnSlotFrame (received : Received) (s : State) : State :=
  match received with
  | .badLength | .badCheck => s
  | .intact h items =>
    if s.link.state = .integrate ∧ h.station = s.own ∧ items.isSome = true then enterListen .ownSlot none 0 s else s

/-! ### Frames in LISTEN, and adoption (R21 to R23) -/

/-- The listen timer restarts; the yield extension is not restored (R21). -/
def restartListenTimer (s : State) : State := s.setLink { s.link with listenTimer := some s.listenTime }

/-- The Order Table acts on the step of an adoption, by its magnitude (R23); `left` are the edges that were reached at `v` and
not taken before the step. -/
def adoptionStep (v σ : Time) (left : List PendingEdge) (s : State) : State :=
  if 32 < σ.toInt.natAbs then abandonTable s
  else if σ = 0 then s
  else tableStep v σ left s

/-- The step of an adoption: from the mark time to the line time at which the sender's mark was due (R22). -/
def State.adoptionOf (s : State) (h : Header) (mark : Time) : Time := s.markDue h.cycleStart h.station.val - mark

/-- INTEGRATE is entered (R22 step 3). -/
def enterIntegrate (s : State) : State :=
  s.setLink { s.link with state := .integrate, integrationCount := 0, listenTimer := none }

/-- These notices, and this many lost ones, stand behind the notices queued so far. -/
def queueBehind (notices : List Notice) (lost : Nat) (s : State) : State :=
  let s := notices.foldl (fun s n => queueNotice n s) s
  s.setHost { s.host with lost := min Config.lostMaximum (s.host.lost + lost) }

/-- The timing of a frame is adopted, steps 1 to 6 of R22, with R23. DEDUCED (log entry 11): the frame is handed onward in
step 4, and the notices it gives stand behind the LINK, RESULT and STEP notices of the adoption (R191). DEDUCED (log entry 18):
the arm times age as soon as line time is stepped, so the frame's events are matched against aged ones, whatever the magnitude
of the step; the edges left at `v` are those from before the frame's items are taken, so an edge that an item makes at or before
`v` waits after a negative step until line time reaches it by counting. -/
def adopt (h : Header) (items : List Item) (mark : Time) (s : State) : State :=
  let v := s.now
  let σ := s.adoptionOf h mark
  let left := s.edgesAt v
  let s := startGrid h.cycleStart h.cycleNumber h.station (takeStep σ s)
  let s := enterIntegrate (s.setLine { s.line with ownSlot := .unjudged })
  let s := s.setCycle { s.cycle with samples := [{ station := h.station, deviation := 0 }] }
  let heard := handOn h items true 0 (s.setHost { s.host with notices := [], lost := 0 })
  let s := adoptionStep v σ left (linkNotice .heard (some h.station) (heard.setHost s.host))
  let s := queueNotice (s.noticeNow .step none none 0 (some σ)) s
  queueBehind heard.host.notices heard.host.lost s

/-- A frame whose checks end in LISTEN: adopted, or it restarts the listen timer (R21). -/
def checkListenFrame (received : Received) (mark : Time) (s : State) : State :=
  match received with
  | .badLength | .badCheck => restartListenTimer s
  | .intact h items =>
    match items with
    | none => restartListenTimer s
    | some items =>
      if s.stationCount ≤ h.station.val ∨ h.station = s.own then restartListenTimer s
      else adopt h items mark s

/-! ### A frame's checks end (R48 to R51) -/

/-- What a frame does when its checks end, by the link state (R21, R49, R50, R51). -/
def settleFrame (r : Reception) (received : Received) (s : State) : State :=
  if s.link.state = .listen then checkListenFrame received r.markTime s
  else if s.cycle.running then
    match r.attribution with
    | none => s
    | some a => if a.slot = s.own then checkOwnSlotFrame received s else checkFrame received r.markTime a s
  else s

/-- The checks of the frame in the buffer end with these bytes; the buffer is emptied (R48). After an own slot start of the
same instant the frame is the one set apart there (R105, R168). -/
def endReception (received : List Byte) (s : State) : State :=
  match s.line.reception with
  | some r => settleFrame r (readReception received) (abandonReception s)
  | none =>
    match s.line.ending with
    | none => s
    | some r => settleFrame r (readReception received) (s.setLine { s.line with ending := none })

end Sys2Proof.Machine
end

