-- ==== Sys2Proof/Machine/Flags.lean ====
section
/-! DEFINITION. The flag bytes, presence bytes and code bytes of the host port's responses (R175), and the responses of the
reads (R183 to R186). -/

namespace Sys2Proof.Machine

/-! ### Bits and optional fields -/

/-- A byte of eight flags, bit 7 first. -/
def flagByte (b7 b6 b5 b4 b3 b2 b1 b0 : Bool) : Byte :=
  bit b7 ++ bit b6 ++ bit b5 ++ bit b4 ++ bit b3 ++ bit b2 ++ bit b1 ++ bit b0

/-- A count as one byte. -/
def countByte (n : Nat) : Byte := BitVec.ofNat 8 n

/-- A count as two bytes. -/
def count16 (n : Nat) : List Byte := bytes16 (BitVec.ofNat 16 n)

/-- A field whose presence bit is clear is sent as 0 (R175). -/
def optional32 (x : Option (BitVec 32)) : List Byte := bytes32 (x.getD 0)

/-- A request number in bits 11..0 of two bytes (R175). -/
def number16 (n : RequestNumber) : List Byte := bytes16 (n.setWidth 16)

/-! ### Responses (R174) -/

/-- A response: the command's code, the response code, and further bytes only when that is OK (R174). -/
def respond (command : Byte) (code : ResponseCode) (more : List Byte) : List Byte :=
  match code with
  | .ok => [command, code.byte] ++ more
  | .state | .arg | .full | .limit => [command, code.byte]

/-! ### STATUS (R175, R183) -/

/-- The STATUS flags: grid running, announced, configuration frozen. -/
def statusFlags (s : State) : Byte :=
  flagByte s.cycle.running s.link.announced s.link.frozen false false false false false

/-- The bytes of a STATUS response after its two code bytes. -/
def statusBytes (s : State) : List Byte :=
  [countByte s.link.state.code.val, nibbles s.straps.id s.straps.cnt, countByte s.straps.rate.val, statusFlags s] ++
    bytes32 s.now ++ bytes32 s.cycle.cycleStart ++ bytes16 s.cycle.cycleNumber ++
    [countByte s.table.length, countByte s.exchange.requests.length, countByte s.exchange.sendQueue.length,
     countByte s.exchange.replyQueue.length, countByte s.host.notices.length] ++
    bytes64 (BitVec.ofNat 64 s.host.lost)

/-! ### PEER (R60, R175, R185) -/

/-- The PEER flags: deviation present, new_seen, expected number present. -/
def peerFlags (r : PeerRecord) : Byte :=
  flagByte r.lastDeviation.isSome r.newSeen r.expectedEvent.isSome false false false false false

/-- The bytes of a PEER response: SELF and zeros for the own number, else the record. -/
def peerBytes (s : State) (k : Station) : List Byte :=
  if k = s.own then 4 :: List.replicate 12 0
  else
    let r := s.peer k
    [r.state.code, countByte r.misses, BitVec.ofInt 8 (r.lastDeviation.getD 0), peerFlags r] ++ count16 r.goodFrames ++
      count16 r.checkErrors ++ count16 r.timingErrors ++ count16 r.intrusions ++ [r.expectedEvent.getD 0]

/-! ### ENTRY (R133, R175, R185) -/

/-- R175: 0 ARMED, 1 SCHEDULED, 2 RUNNING. -/
def EntryState.code : EntryState → Byte
  | .armed => 0
  | .scheduled => 1
  | .running => 2

/-- R175: 0 DROP, 1 START_NOW, 2 REARM. -/
def LatePolicy.code : LatePolicy → Byte
  | .drop => 0
  | .startNow => 1
  | .rearm => 2

/-- R175: 0 RISE, 1 FALL, 2 EITHER. -/
def TriggerEdge.code : TriggerEdge → Byte
  | .rise => 0
  | .fall => 1
  | .either => 2

/-- The ENTRY flags: TRAIN, EVENT, PREEMPT, BOUND, REPORT, active. -/
def entryFlags (e : Entry) : Byte :=
  flagByte e.train.isSome e.event.isSome e.preempt e.bound e.report e.active false false

/-- The ENTRY presence bits: next edge, following start, expiry, last start. -/
def entryPresence (e : Entry) : Byte :=
  flagByte e.nextEdge.isSome e.followingStart.isSome (e.event.bind fun p => p.expiry).isSome e.lastStart.isSome
    false false false false

/-- The fields an ENTRY response gives for a TRAIN; 0 for a PULSE. -/
def trainBytes : Option TrainPart → List Byte
  | none => List.replicate 11 0
  | some t => bytes24 t.period ++ bytes16 t.count ++ bytes16 t.countRemaining ++ optional32 t.followingStart

/-- The fields an ENTRY response gives for EVENT basis; 0 for ABSOLUTE (R185). -/
def eventBytes : Option EventPart → List Byte
  | none => List.replicate 14 0
  | some p =>
    [nibbles p.triggerStation p.triggerInput, p.triggerEdge.code] ++ bytes24 p.delay ++ [p.fires] ++
      optional32 p.expiry ++ bytes32 p.armTime

/-- The late policy byte; 0 for ABSOLUTE. -/
def policyByte : Option EventPart → Byte
  | none => 0
  | some p => p.latePolicy.code

/-- The bytes of an ENTRY response: the place is empty, or the fields of R108. -/
def entryBytes : Option Entry → List Byte
  | none => [0]
  | some e =>
    [1, countByte e.origin.val] ++ number16 e.number ++
      [countByte e.channel.val, entryFlags e, e.state.code, policyByte e.event, entryPresence e] ++
      optional32 e.nextEdge ++ bytes24 e.width ++ trainBytes e.train ++ eventBytes e.event ++ optional32 e.lastStart

/-! ### CAPTURE (R175, R184) -/

/-- R175: 0 NONE, 1 RISE, 2 FALL, 3 BOTH. -/
def EdgeSelect.code : EdgeSelect → Byte
  | .none => 0
  | .rise => 1
  | .fall => 2
  | .both => 3

/-- The edge select of bits 7..6 of an INPUT section. -/
def EdgeSelect.ofCode (c : BitVec 2) : EdgeSelect :=
  match c.toNat with
  | 0 => .none
  | 1 => .rise
  | 2 => .fall
  | _ => .both

/-- R175: 0 RISE, 1 FALL. -/
def Edge.code : Edge → Byte
  | .rise => 0
  | .fall => 1

/-- The pin of an input, or none for a host mark (section 5.1). -/
def pinOfInput (i : Input) : Option Pin := if h : i.val < 8 then some ⟨i.val, h⟩ else none

/-- Edge select and filter of an input; NONE and 0 for a host mark (R184). -/
def captureSetting (s : State) (i : Input) : List Byte :=
  match pinOfInput i with
  | none => [EdgeSelect.none.code, 0]
  | some p => [(s.pin p).edgeSelect.code, (s.pin p).filter]

/-- The last edge byte; 0 when absent. -/
def edgeByte : Option Edge → Byte
  | none => 0
  | some e => e.code

/-- The bytes of a CAPTURE response. -/
def captureBytes (s : State) (i : Input) : List Byte :=
  let r := s.inputRecord i
  captureSetting s i ++ [flagByte r.broadcast r.lastStamp.isSome false false false false false false] ++
    optional32 r.lastStamp ++ [edgeByte r.lastEdge] ++ bytes16 r.edgeCount ++ [s.capture.eventNumber]

/-! ### NOTICE (R175, R186) -/

/-- The bytes of a NOTICE response: the notice popped, or kind 0 and zeros (R189). -/
def noticeBytes : Option Notice → List Byte
  | none => List.replicate 14 0
  | some n =>
    [n.kind.code,
     flagByte n.station.isSome n.number.isSome n.value.isSome false false false false false,
     countByte (n.station.getD 0).val, n.code] ++ number16 (n.number.getD 0) ++ bytes32 n.time ++ optional32 n.value

/-! ### MARK (R175, R182) -/

/-- The bytes of a MARK response: the stamp, the event number if numbered, and the numbered and queued flags. -/
def markBytes (stamp : Time) (n : Numbering) : List Byte :=
  bytes32 stamp ++ [n.number.getD 0, flagByte n.number.isSome n.queued false false false false false false]

end Sys2Proof.Machine
end

