-- ==== Sys2Proof/Machine/HostPort.lean ====
section
/-! DEFINITION. The Host Port (Chapter 10): transactions, what each host command does and answers, INIT, SUBMIT, START, STOP,
and reset. -/

namespace Sys2Proof.Machine

/-! ### Transactions (R172, R173) -/

/-- CSn falls: MISO is driven from the first bit of the held response. A command may be taken from this transaction unless it
began in a reset (R172). CSn falls only from high. -/
def fallCsn (s : State) : State :=
  match s.host.transaction with
  | .idle => s.setHost { s.host with transaction := if s.inReset then .barred else .live }
  | .live | .barred => s

/-- CSn rises: the transaction is over (R172). -/
def riseCsn (s : State) : State := s.setHost { s.host with transaction := .idle }

/-- A command may be taken at the CSn rise (R172, R179). -/
def State.takesCommands (s : State) : Bool := !s.inReset && decide (s.host.transaction = .live)

/-- The held response is replaced (R173). -/
def hold (response : List Byte) (s : State) : State := s.setHost { s.host with held := response }

/-- What a host command does and answers. -/
structure Answered where
  state : State
  response : List Byte

/-- CSn rises with a whole command: it is taken, and its response becomes the held one (R172, R173). From a transaction that
began before the end of a reset nothing is taken. -/
def takeCommand (command : State → Answered) (s : State) : State :=
  let risen := riseCsn s
  if s.takesCommands then hold (command risen).response (command risen).state else risen

/-- A command that is refused changes no state (R174). -/
def refuse (code : Byte) (why : ResponseCode) (s : State) : Answered := { state := s, response := respond code why [] }

/-- A command that is answered OK with these bytes. -/
def accept (code : Byte) (bytes : List Byte) (s : State) : Answered := { state := s, response := respond code .ok bytes }

/-! ### INIT (R70, R88, R137, R177) -/

/-- A level of the permit map from its two bits; 3 is refused (R177). -/
def PermitLevel.ofCode (c : BitVec 2) : Option PermitLevel :=
  match c.toNat with
  | 0 => some .deny
  | 1 => some .place
  | 2 => some .preempt
  | _ => none

/-- The four levels of a byte, first in bits 7..6 (R175). -/
def levelsOf (b : Byte) : List (BitVec 2) := [b.extractLsb' 6 2, b.extractLsb' 4 2, b.extractLsb' 2 2, b.extractLsb' 0 2]

/-- The twelve levels of a PERMIT section, or none where one is 3 (R175, R177). -/
def permitRow (a b c : Byte) : Option (List PermitLevel) := ((levelsOf a ++ levelsOf b) ++ levelsOf c).mapM PermitLevel.ofCode

/-- A row of the permit map from its levels. -/
def rowOf (levels : List PermitLevel) : Vector PermitLevel 12 :=
  levels.zipIdx.foldl (fun row x => row.setIfInBounds x.2 x.1) (Vector.replicate 12 .deny)

/-- Write one row of the permit map (R88). -/
def writePermit (k : Station) (row : Vector PermitLevel 12) (s : State) : State :=
  s.setExchange { s.exchange with permit := s.exchange.permit.set k.val row k.isLt }

/-- INIT PERMIT: form, then link state, then the row (R88, R177). -/
def initPermitSection (args : List Byte) (s : State) : Answered :=
  match args with
  | k :: a :: b :: c :: _ =>
    if h : k.toNat < 16 then
      if (⟨k.toNat, h⟩ : Station) = s.own then refuse 0x02 .arg s
      else
        match permitRow a b c with
        | none => refuse 0x02 .arg s
        | some levels =>
          if s.link.state = .off then accept 0x02 [] (writePermit ⟨k.toNat, h⟩ (rowOf levels) s)
          else refuse 0x02 .state s
    else refuse 0x02 .arg s
  | _ => refuse 0x02 .arg s

/-- The pin's new setting; its recognition restarts from the level sampled now (R70). -/
def PinRecord.configure (r : PinRecord) (select : EdgeSelect) (filter : Byte) : PinRecord :=
  { r with edgeSelect := select, filter := filter, settled := r.level, hold := none }

/-- Write the setting of one input; a host mark has the broadcast flag alone (R70). DEDUCED (log entry 30): the write of a pin's
setting restarts its recognition whatever it writes (R70), a setting equal to the one held too: that an equal value "changes
nothing" (R177) is read of the setting. -/
def writeInput (i : Input) (setting filter : Byte) (s : State) : State :=
  let written := s.setInputRecord i { s.inputRecord i with broadcast := setting.getLsbD 5 }
  match pinOfInput i with
  | none => written
  | some p => written.setPin p ((written.pin p).configure (EdgeSelect.ofCode (setting.extractLsb' 6 2)) filter)

/-- INIT INPUT (R70, R177). -/
def initInputSection (args : List Byte) (s : State) : Answered :=
  match args with
  | i :: setting :: filter :: _ =>
    if h : i.toNat < 16 then
      if s.link.state = .off then accept 0x02 [] (writeInput ⟨i.toNat, h⟩ setting filter s) else refuse 0x02 .state s
    else refuse 0x02 .arg s
  | _ => refuse 0x02 .arg s

/-- Bit n of an IDLE section is channel n: 1 HIGH, 0 LOW (R175). -/
def levelOfBit (b : Bool) : Level := if b then .high else .low

/-- An entry names a channel whose level the section would change (R137). -/
def idleBlocked (levels : BitVec 16) (s : State) : Bool :=
  s.table.any fun e => (s.channel e.channel).idle != levelOfBit (levels.getLsbD e.channel.val)

/-- The channel numbers 0..11. -/
def allChannels : List ChannelNumber := List.finRange 12

/-- Write one channel's idle level. -/
def writeIdle (levels : BitVec 16) (s : State) (c : ChannelNumber) : State :=
  s.setChannel c { s.channel c with idle := levelOfBit (levels.getLsbD c.val) }

/-- INIT IDLE: form, link state, table, then all twelve levels (R137, R177). -/
def initIdleSection (args : List Byte) (s : State) : Answered :=
  match args with
  | a :: b :: _ =>
    if (word16 a b).extractLsb' 12 4 ≠ 0 then refuse 0x02 .arg s
    else if s.link.state ≠ .off then refuse 0x02 .state s
    else if idleBlocked (word16 a b) s then refuse 0x02 .state s
    else accept 0x02 [] (allChannels.foldl (writeIdle (word16 a b)) s)
  | _ => refuse 0x02 .arg s

/-- INIT LEAD (R93, R177). -/
def initLeadSection (args : List Byte) (s : State) : Answered :=
  match args with
  | a :: b :: _ =>
    if s.link.state = .off then accept 0x02 [] (s.setExchange { s.exchange with minLead := word16 a b })
    else refuse 0x02 .state s
  | _ => refuse 0x02 .arg s

/-! ### START and STOP (R19, R35, R36, R178) -/

/-- START (R19, R178). -/
def startStation (s : State) : Answered :=
  if s.link.state = .off ∧ s.legalStraps = true then
    accept 0x03 [] (enterListen .start none 0 (s.setLink { s.link with frozen := true }))
  else refuse 0x03 .state s

/-- The link side of STOP (R35). -/
def stopLink (s : State) : State :=
  let s := stopGrid (s.setLine LinePort.reset)
  linkNotice .stop none (s.setLink LinkUnit.reset)

/-- STOP: the link side, then the other blocks in their order (R35, R36). -/
def stopAll (s : State) : State := stopMembers (removePeerEntries (stopExchange (stopLink s)))

/-- STOP (R35, R178). -/
def stopStation (s : State) : Answered :=
  if s.link.state = .off then refuse 0x04 .state s else accept 0x04 [] (stopAll s)

/-! ### SUBMIT (R101, R103, R180, R181) -/

/-- R175: the entry index byte, 0xFF unless ACCEPTED. -/
def indexByte : Option Index → Byte
  | none => 0xFF
  | some i => countByte i.val

/-- A local request: it draws a number and is judged and applied at once (R101). -/
def submitLocally (r : Request) (s : State) : Answered :=
  let number := s.nextNumber
  let drawn := drawNumber s
  let code := judgeRequest drawn s.own number r
  if code = .accepted then
    accept 0x05 (number16 number ++ [codeByte code.code, indexByte (requestIndex drawn s.own r)])
      (applyRequest s.own number r drawn)
  else accept 0x05 (number16 number ++ [codeByte code.code, 0xFF]) drawn

/-- A peer request: checked, numbered, and queued for its first try (R103, R162). -/
def submitToPeer (target : Station) (r : Request) (s : State) : Answered :=
  match refusePeerSubmit s target with
  | some why => refuse 0x05 why s
  | none => accept 0x05 (number16 s.nextNumber) (makeRequest target s.nextNumber r (drawNumber s))

/-- SUBMIT of these bytes: malformed is ARG; the target decides the path (R180). -/
def submit (item : List Byte) (s : State) : Answered :=
  match parseSubmit item with
  | none => refuse 0x05 .arg s
  | some (target, r) => if target = s.own then submitLocally r s else submitToPeer target r s

/-! ### MARK, NOTICE and the reads (R182 to R185, R189) -/

/-- MARK (R74, R182). -/
def markInput (args : List Byte) (s : State) : Answered :=
  match args with
  | [] => refuse 0x06 .arg s
  | i :: _ =>
    if h : 8 ≤ i.toNat ∧ i.toNat < 16 then
      accept 0x06 (markBytes s.now (s.numbering ⟨i.toNat, h.2⟩)) (makeEvent ⟨i.toNat, h.2⟩ .rise s.now s)
    else refuse 0x06 .arg s

/-- The value of an OVERFLOW notice: the lost count, or 2^31 - 1 (R189). -/
def overflowValue (lost : Nat) : Nat := min lost Config.overflowMaximum

/-- After a pop, the lost count becomes an OVERFLOW notice in the place freed (R189). -/
def queueOverflow (s : State) : State :=
  if 0 < s.host.lost then
    let n := s.noticeNow .overflow none none 0 (some (BitVec.ofNat 32 (overflowValue s.host.lost)))
    queueNotice n (s.setHost { s.host with lost := s.host.lost - overflowValue s.host.lost })
  else s

/-- NOTICE pops the head of the notice queue (R189). -/
def popNotice (s : State) : Answered :=
  match s.host.notices with
  | [] => accept 0x07 (noticeBytes none) s
  | n :: rest => accept 0x07 (noticeBytes (some n)) (queueOverflow (s.setHost { s.host with notices := rest }))

/-- STATUS (R183). -/
def readStatus (s : State) : Answered := accept 0x08 (statusBytes s) s

/-- PEER; the response is formed before the clear, which does nothing at the own number (R60, R185). -/
def readPeer (args : List Byte) (s : State) : Answered :=
  match args with
  | [] => refuse 0x09 .arg s
  | b :: _ =>
    let k := highNibble b
    if b.getLsbD 0 ∧ k ≠ s.own then accept 0x09 (peerBytes s k) (s.setPeer k (s.peer k).cleared)
    else accept 0x09 (peerBytes s k) s

/-- ENTRY (R133, R185). -/
def readEntry (args : List Byte) (s : State) : Answered :=
  match args with
  | [] => refuse 0x0A .arg s
  | b :: _ =>
    if h : b.toNat < 48 then accept 0x0A (entryBytes (s.entryAt ⟨b.toNat, h⟩)) s else refuse 0x0A .arg s

/-- TIME (R184). -/
def readTime (s : State) : Answered := accept 0x0B (bytes32 s.now) s

/-- CAPTURE (R184). -/
def readCapture (args : List Byte) (s : State) : Answered :=
  match args with
  | [] => refuse 0x0C .arg s
  | b :: _ => if h : b.toNat < 16 then accept 0x0C (captureBytes s ⟨b.toNat, h⟩) s else refuse 0x0C .arg s

/-! ### Reset (R1, R3, R37, R179, R192) -/

/-- A transaction in progress when a reset comes is one from which nothing is taken (R172). -/
def barTransaction : Transaction → Transaction
  | .idle => .idle
  | .live | .barred => .barred

/-- Every block takes its reset values (R37, R192). The queue of commands is the outside world's and stays. -/
def resetStation (s : State) : State :=
  { State.reset with
    pending := s.pending
    host := { HostPort.reset with transaction := barTransaction s.host.transaction } }

/-- A pin as it is sampled when a reset ends (R69). -/
def PinRecord.sampledAtReset (r : PinRecord) (level : Level) : PinRecord := { r with level := level, settled := level }

/-- Sample one pin at the end of a reset (R69). -/
def samplePinAtReset (pins : BitVec 8) (s : State) (p : Pin) : State :=
  s.setPin p ((s.pin p).sampledAtReset (levelOfBit (pins.getLsbD p.val)))

/-- The pins 0..7. -/
def allPins : List Pin := List.finRange 8

/-- A reset ends: the straps are latched, line time starts from 0 and each pin's settled level is sampled (R1, R3, R69). -/
def endReset (straps : Straps) (pins : BitVec 8) (s : State) : State :=
  if s.inReset then allPins.foldl (samplePinAtReset pins) { s with inReset := false, straps := straps } else s

end Sys2Proof.Machine
end

