-- ==== Sys2Proof/Machine/HostRows.lean ====
section
/-! DEFINITION. The meanings of the host port rows (Chapter 10). Each is CSn rising on that command; nothing is taken unless
a transaction that began after the end of reset is in progress (R172). -/

namespace Sys2Proof.Machine

/-- CSN_FALLING_EDGE (R172). -/
def execCsnFallingEdge (s : State) : Host.Outcome State Fault Refusal := .next (fallCsn s)

/-- EMPTY_TRANSACTION: CSn rises with no whole byte; the held response is kept (R172, R173). -/
def execEmptyTransaction (s : State) : Host.Outcome State Fault Refusal := .next (riseCsn s)

/-- NOP (R173). -/
def execNop (s : State) : Host.Outcome State Fault Refusal := .next (takeCommand (accept 0x00 []) s)

/-- RESET: its response is formed, then the station is reset as by the pin (R179). -/
def execReset (s : State) : Host.Outcome State Fault Refusal :=
  .next (takeCommand (fun s => accept 0x01 [] (resetStation s)) s)

/-- INIT_PERMIT (R88, R177). -/
def execInitPermit (args : List Byte) (s : State) : Host.Outcome State Fault Refusal :=
  .next (takeCommand (initPermitSection args) s)

/-- INIT_INPUT (R70, R177). -/
def execInitInput (args : List Byte) (s : State) : Host.Outcome State Fault Refusal :=
  .next (takeCommand (initInputSection args) s)

/-- INIT_IDLE (R137, R177). -/
def execInitIdle (args : List Byte) (s : State) : Host.Outcome State Fault Refusal :=
  .next (takeCommand (initIdleSection args) s)

/-- INIT_LEAD (R93, R177). -/
def execInitLead (args : List Byte) (s : State) : Host.Outcome State Fault Refusal :=
  .next (takeCommand (initLeadSection args) s)

/-- START (R19, R178). -/
def execStart (s : State) : Host.Outcome State Fault Refusal := .next (takeCommand startStation s)

/-- STOP (R35, R36, R178). -/
def execStop (s : State) : Host.Outcome State Fault Refusal := .next (takeCommand stopStation s)

/-- SUBMIT_LOCAL (R101, R180). The item's target decides the path (log entry 19). -/
def execSubmitLocal (item : List Byte) (s : State) : Host.Outcome State Fault Refusal :=
  .next (takeCommand (submit item) s)

/-- SUBMIT_PEER (R103, R162, R180). The item's target decides the path (log entry 19). -/
def execSubmitPeer (item : List Byte) (s : State) : Host.Outcome State Fault Refusal :=
  .next (takeCommand (submit item) s)

/-- MARK (R74, R182). -/
def execMark (args : List Byte) (s : State) : Host.Outcome State Fault Refusal := .next (takeCommand (markInput args) s)

/-- NOTICE (R189). -/
def execNotice (s : State) : Host.Outcome State Fault Refusal := .next (takeCommand popNotice s)

/-- STATUS (R183). -/
def execStatus (s : State) : Host.Outcome State Fault Refusal := .next (takeCommand readStatus s)

/-- PEER (R60, R185). -/
def execPeer (args : List Byte) (s : State) : Host.Outcome State Fault Refusal := .next (takeCommand (readPeer args) s)

/-- ENTRY (R133, R185). -/
def execEntry (args : List Byte) (s : State) : Host.Outcome State Fault Refusal := .next (takeCommand (readEntry args) s)

/-- TIME (R184). -/
def execTime (s : State) : Host.Outcome State Fault Refusal := .next (takeCommand readTime s)

/-- CAPTURE (R184). -/
def execCapture (args : List Byte) (s : State) : Host.Outcome State Fault Refusal :=
  .next (takeCommand (readCapture args) s)

/-- UNKNOWN_COMMAND: the code is echoed with ARG and nothing changes (R174, R177). -/
def execUnknownCommand (code : Byte) (s : State) : Host.Outcome State Fault Refusal :=
  .next (takeCommand (refuse code .arg) s)

end Sys2Proof.Machine
end

