-- ==== Sys2Proof/Machine/LinkRows.lean ====
section
/-! DEFINITION. The meanings of the reset rows and of the time-driven rows of the link, the cycle and the Line Port. A row
whose instant is not the present one is no happening and changes nothing (log entry 5). -/

namespace Sys2Proof.Machine

/-- RESETN_ASSERTED (R37, R152, R192). -/
def execResetnAsserted (s : State) : Host.Outcome State Fault Refusal := .next (resetStation s)

/-- POWER_UP: the same reset (R37). -/
def execPowerUp (s : State) : Host.Outcome State Fault Refusal := .next (resetStation s)

/-- RESET_END (R3, R69). -/
def execResetEnd (straps : Straps) (pins : BitVec 8) (s : State) : Host.Outcome State Fault Refusal :=
  .next (endReset straps pins s)

/-- The listen timer has reached 0 in LISTEN (R20). -/
def State.listenDue (s : State) : Bool :=
  decide (s.link.state = .listen) && decide (s.link.listenTimer = some 0)

/-- LISTEN_TIMER_EXPIRY (R20, R25). -/
def execListenTimerExpiry (s : State) : Host.Outcome State Fault Refusal :=
  if s.listenDue then .next (coldStart s) else .next s

/-- SLOT_START (R5, R57, R157). -/
def execSlotStart (order : SlotOrder) (s : State) : Host.Outcome State Fault Refusal := .next (takeSlotStart order s)

/-- SEND_INSTANT (R30, R38). -/
def execSendInstant (s : State) : Host.Outcome State Fault Refusal :=
  match s.line.frame with
  | none => .next s
  | some f => if s.sendDue then .next (startSending f s) else .next s

/-- The read-back differs: the mark did, or a byte did (R32). -/
def readBackDiffers (f : OwnFrame) (markDiffers : Bool) (readBack : List Byte) : Bool :=
  markDiffers || decide (readBack ≠ f.content)

/-- FRAME_END (R30 to R33, R160, R163). -/
def execFrameEnd (markDiffers : Bool) (readBack : List Byte) (s : State) : Host.Outcome State Fault Refusal :=
  match s.frameEndDue with
  | none => .next s
  | some f => .next (endFrame f (readBackDiffers f markDiffers readBack) s)

/-- MARK_DETECTED (R7, R32, R48). -/
def execMarkDetected (s : State) : Host.Outcome State Fault Refusal := .next (detectMark s)

/-- FRAME_CHECKS_END (R21, R49 to R52). -/
def execFrameChecksEnd (received : List Byte) (s : State) : Host.Outcome State Fault Refusal :=
  .next (endReception received s)

/-- CYCLE_END (R12). -/
def execCycleEnd (s : State) : Host.Outcome State Fault Refusal :=
  if s.cycleEndDue then .next (takeCycleEnd s) else .next s

end Sys2Proof.Machine
end

