-- ==== Sys2Proof/Machine/TableRows.lean ====
section
/-! DEFINITION. The meanings of the pin rows and of the time-driven rows of the Order Table. A row whose instant is not the
present one is no happening and changes nothing (log entry 5). -/

namespace Sys2Proof.Machine

/-- PIN_TRANSITION (R71). The hold count reaches the filter before the sample of its tick is judged (R72, section 5.8), so a
recognition that is due is taken first (log entry 14). While RESETn is low no pin is sampled. -/
def execPinTransition (p : Pin) (level : Level) (s : State) : Host.Outcome State Fault Refusal :=
  if s.inReset then .next s
  else
    let s := recogniseIfDue p s
    .next (s.setPin p ((s.pin p).sample level s.now))

/-- EDGE_RECOGNISED (R72, R73, R75). -/
def execEdgeRecognised (p : Pin) (s : State) : Host.Outcome State Fault Refusal := .next (recogniseIfDue p s)

/-- The next edge the table takes at the present line time, if it is this entry's and of this kind (R110). -/
def State.dueEdgeOf (s : State) (i : Index) (kind : EdgeKind) : Option PendingEdge :=
  (s.nextDueEdge s.now).filter fun d => d.index == i && d.kind == kind

/-- Take an entry's edge if it is the next one due (R110). -/
def takeDueEdge (i : Index) (kind : EdgeKind) (s : State) : State :=
  match s.dueEdgeOf i kind with
  | none => s
  | some d => takeEdge d s

/-- START_EDGE (R116, R138). -/
def execStartEdge (i : Index) (s : State) : Host.Outcome State Fault Refusal := .next (takeDueEdge i .start s)

/-- TRAIN_PHASE_START (R119, R142). -/
def execTrainPhaseStart (i : Index) (s : State) : Host.Outcome State Fault Refusal := .next (takeDueEdge i .phase s)

/-- END_EDGE (R118 to R120, R145). -/
def execEndEdge (i : Index) (s : State) : Host.Outcome State Fault Refusal := .next (takeDueEdge i .finish s)

/-- EXPIRY (R115). -/
def execExpiry (i : Index) (s : State) : Host.Outcome State Fault Refusal := .next (takeDueEdge i .expiry s)

/-- The entry at an index is changed if a change by time is due for it. -/
def noteAt (i : Index) (due : Entry → Bool) (change : Entry → Entry) (s : State) : State :=
  whereDue (fun e => e.index == i && due e) change s

/-- ARM_TIME_AGEING (R114). -/
def execArmTimeAgeing (i : Index) (s : State) : Host.Outcome State Fault Refusal :=
  .next (noteAt i (Entry.armTimeDue s.now) (Entry.ageArmTime s.now) s)

/-- HOLD_AGED (R124). -/
def execHoldAged (i : Index) (s : State) : Host.Outcome State Fault Refusal :=
  .next (noteAt i (Entry.holdToAge s.now) Entry.noteAged s)

/-- EXPIRY_NOTED_AS_REACHED (R115). -/
def execExpiryNotedAsReached (i : Index) (s : State) : Host.Outcome State Fault Refusal :=
  .next (noteAt i (Entry.expiryToNote s.now) Entry.noteExpiry s)

end Sys2Proof.Machine
end

