-- ==== Sys2Proof/Machine/Idle.lean ====
section
/-! DEFINITION. The station on its own: a tick, and which time-driven row is due at the present line time. DESIGN CHOICE (log
entry 4): on an empty queue the station takes what is due, one row a step, and then the next tick. -/

namespace Sys2Proof.Machine

/-! ### A tick (R1, R20, R71, R136) -/

/-- One tick of a hold: the hold count counts ticks as they pass (R71). -/
def PinRecord.tick (r : PinRecord) : PinRecord :=
  { r with hold := r.hold.map fun h => { h with count := h.count + 1 } }

/-- One tick of the listen timer (R20). -/
def LinkUnit.tick (l : LinkUnit) : LinkUnit := { l with listenTimer := l.listenTimer.map fun n => n - 1 }

/-- One tick of the Line Port: the own frame goes out (R30), and a reception that the own slot start abandoned is gone
(R48). -/
def LinePort.tick (l : LinePort) : LinePort :=
  { l with
    frame := l.frame.map fun f => { f with remaining := f.remaining.map fun n => n - 1 }
    ending := none }

/-- An instant ends: each pin takes the level its channel was left at (R136). -/
def showLevels (s : State) : State := s.setOutputs (mapVector Channel.out s.channels)

/-- One tick of the station: an instant ends and line time counts; in reset it is held at 0 (R1). -/
def tick (s : State) : State :=
  if s.inReset then s
  else
    let s := showLevels s
    let s := s.setCycle { s.cycle with lineTime := s.cycle.lineTime + 1 }
    let s := s.setLink s.link.tick
    let s := s.setLine s.line.tick
    s.setCapture { s.capture with pins := mapVector PinRecord.tick s.capture.pins }

/-! ### What is due -/

/-- The row that takes a pending edge. -/
def PendingEdge.row (d : PendingEdge) : Instr :=
  match d.kind with
  | .finish => .endEdge d.index
  | .expiry => .expiry d.index
  | .start => .startEdge d.index
  | .phase => .trainPhaseStart d.index

/-- The row that notes something by time at an entry, if one is due (R114, R115, R124). -/
def Entry.noteRow (now : Time) (e : Entry) : Option Instr :=
  if e.expiryToNote now then some (.expiryNotedAsReached e.index)
  else if e.holdToAge now then some (.holdAged e.index)
  else if e.armTimeDue now then some (.armTimeAgeing e.index)
  else none

/-- The first pin whose edge is recognised now (R72). -/
def State.recognitionDue (s : State) : Option Instr :=
  (allPins.find? fun p => (s.pin p).recognised).map fun p => .edgeRecognised p

/-- The end of the own frame, its read-back undisturbed. DESIGN CHOICE (log entry 9): what disturbs it comes as a command. -/
def State.frameEndRow (s : State) : Option Instr := s.frameEndDue.map fun f => .frameEnd false f.content

/-- The link's and the cycle's rows. -/
def State.gridRow (s : State) : Option Instr :=
  if s.listenDue then some .listenTimerExpiry
  else if s.cycleEndDue then some .cycleEnd
  else if s.slotDue.isSome then some (.slotStart .slotEndFirst)
  else if s.sendDue then some .sendInstant
  else none

/-- The next time-driven row that is due at the present line time: table edges, what the table notes, recognitions, the own
frame's end, then the grid (log entry 4). -/
def State.dueRow (s : State) : Option Instr :=
  ((s.nextDueEdge s.now).map PendingEdge.row).or
    ((s.table.findSome? (Entry.noteRow s.now)).or (s.recognitionDue.or (s.frameEndRow.or s.gridRow)))

end Sys2Proof.Machine
end

