-- ==== Sys2Proof/Machine/Outputs.lean ====
section
/-! DEFINITION. What the outside world sees of the station: its output pins and lines, computed from State. -/

namespace Sys2Proof.Machine

/-- The level of OUTn (R136, R152): where a channel changes more than once at one line time, the levels between do not
appear. -/
def State.out (s : State) (c : ChannelNumber) : Level := s.outputs.get c

/-- ATTN is high while the notice count is above 0 (R190). -/
def State.attn (s : State) : Level := if s.host.notices.isEmpty then .low else .high

/-- LDE is asserted while the own frame goes out (R30). -/
def State.lde (s : State) : Level := if s.isSending then .high else .low

/-- MISO is driven while CSn is low (R173), and not in a reset. DESIGN CHOICE (log entry 32): R179 says the latter of RESETn
held low; a reset by RESET or at power-up is taken in the same way. -/
def State.misoDriven (s : State) : Bool := !s.inReset && decide (s.host.transaction ≠ .idle)

/-- Byte `n` that MISO gives in the transaction: the held response, then 0x00 (R173). -/
def State.misoByte (s : State) (n : Nat) : Byte := s.host.held.getD n 0

/-- The first bit, presented when CSn falls; high impedance while CSn is high (R172, R173). -/
def State.misoFirstBit (s : State) : Option Bool := if s.misoDriven then some ((s.misoByte 0).getLsbD 7) else none

/-- The receiver is on (R17). -/
def State.receiverOn (s : State) : Bool := s.link.state.receives

/-- What the station puts on the line from the send instant on, in half-bit times (R38). -/
def State.lineHalfBits (s : State) : List Level :=
  match s.line.frame with
  | none => []
  | some f => if f.remaining.isSome then frameHalfBits f.content else []

end Sys2Proof.Machine
end

