-- ==== Sys2Proof/Machine/Dispatch.lean ====
section
/-! DEFINITION. One arm per command, each one direct call of its meaning. -/

namespace Sys2Proof.Machine

def exec (i : Instr) (s : State) : Host.Outcome State Fault Refusal :=
  match i with
  | .resetnAsserted => Sys2Proof.Machine.execResetnAsserted s
  | .powerUp => Sys2Proof.Machine.execPowerUp s
  | .resetEnd straps pins => Sys2Proof.Machine.execResetEnd straps pins s
  | .listenTimerExpiry => Sys2Proof.Machine.execListenTimerExpiry s
  | .slotStart order => Sys2Proof.Machine.execSlotStart order s
  | .sendInstant => Sys2Proof.Machine.execSendInstant s
  | .frameEnd markDiffers readBack => Sys2Proof.Machine.execFrameEnd markDiffers readBack s
  | .markDetected => Sys2Proof.Machine.execMarkDetected s
  | .frameChecksEnd received => Sys2Proof.Machine.execFrameChecksEnd received s
  | .cycleEnd => Sys2Proof.Machine.execCycleEnd s
  | .pinTransition pin level => Sys2Proof.Machine.execPinTransition pin level s
  | .edgeRecognised pin => Sys2Proof.Machine.execEdgeRecognised pin s
  | .startEdge index => Sys2Proof.Machine.execStartEdge index s
  | .trainPhaseStart index => Sys2Proof.Machine.execTrainPhaseStart index s
  | .endEdge index => Sys2Proof.Machine.execEndEdge index s
  | .expiry index => Sys2Proof.Machine.execExpiry index s
  | .armTimeAgeing index => Sys2Proof.Machine.execArmTimeAgeing index s
  | .holdAged index => Sys2Proof.Machine.execHoldAged index s
  | .nop => Sys2Proof.Machine.execNop s
  | .reset => Sys2Proof.Machine.execReset s
  | .initPermit args => Sys2Proof.Machine.execInitPermit args s
  | .initInput args => Sys2Proof.Machine.execInitInput args s
  | .initIdle args => Sys2Proof.Machine.execInitIdle args s
  | .initLead args => Sys2Proof.Machine.execInitLead args s
  | .start => Sys2Proof.Machine.execStart s
  | .stop => Sys2Proof.Machine.execStop s
  | .submitLocal item => Sys2Proof.Machine.execSubmitLocal item s
  | .submitPeer item => Sys2Proof.Machine.execSubmitPeer item s
  | .mark args => Sys2Proof.Machine.execMark args s
  | .notice => Sys2Proof.Machine.execNotice s
  | .status => Sys2Proof.Machine.execStatus s
  | .peer args => Sys2Proof.Machine.execPeer args s
  | .entry args => Sys2Proof.Machine.execEntry args s
  | .time => Sys2Proof.Machine.execTime s
  | .capture args => Sys2Proof.Machine.execCapture args s
  | .unknownCommand code _ => Sys2Proof.Machine.execUnknownCommand code s
  | .emptyTransaction => Sys2Proof.Machine.execEmptyTransaction s
  | .expiryNotedAsReached index => Sys2Proof.Machine.execExpiryNotedAsReached index s
  | .csnFallingEdge => Sys2Proof.Machine.execCsnFallingEdge s

end Sys2Proof.Machine
end

