-- ==== Sys2Proof/Machine/Step.lean ====
section
/-! DEFINITION. One step of the station: the command at the front of the queue, or, on an empty queue, the station's own clock. -/

namespace Sys2Proof.Machine

/-- The station on an empty queue: the row that is due, if any, else a tick. DESIGN CHOICE (log entry 4). -/
def idleStep (s : State) : Host.Outcome State Fault Refusal :=
  match s.dueRow with
  | some c => exec c s
  | none => .next (tick s)

/-- One step: the front command runs on the state with the queue's rest. -/
def step (s : State) : Host.Outcome State Fault Refusal :=
  match s.pending with
  | c :: rest => exec c (s.setPending rest)
  | [] => idleStep s

/-- The command a table word spells, put at the front of the queue; the state unchanged where it spells none. -/
def State.withFetchWord (s : State) (nbits w : Nat) : State :=
  match decodeTableWord nbits w with
  | some c => s.setPending (c :: s.pending)
  | none => s

end Sys2Proof.Machine
end

