-- ==== Sys2Proof/Safety.lean ====
section
/-! DEFINITION. The words the claims use: which blocks of the station a command may change, and what every state that a run
reaches satisfies. -/

namespace Sys2Proof.Machine

/-! ### What a command leaves alone -/

/-- The pieces of State. -/
inductive Block where
  | pending
  | inReset
  | straps
  | cycle
  | link
  | line
  | members
  | capture
  | exchange
  | table
  | channels
  | outputs
  | host
  deriving DecidableEq, Repr

/-- Two states hold the same in this block. -/
def State.agreesIn (s t : State) : Block → Prop
  | .pending => t.pending = s.pending
  | .inReset => t.inReset = s.inReset
  | .straps => t.straps = s.straps
  | .cycle => t.cycle = s.cycle
  | .link => t.link = s.link
  | .line => t.line = s.line
  | .members => t.members = s.members
  | .capture => t.capture = s.capture
  | .exchange => t.exchange = s.exchange
  | .table => t.table = s.table
  | .channels => t.channels = s.channels
  | .outputs => t.outputs = s.outputs
  | .host => t.host = s.host

/-- The second state differs from the first in these blocks at most. -/
def Changes (blocks : List Block) (s t : State) : Prop := ∀ b, b ∉ blocks → s.agreesIn t b

/-- The blocks that the removal of an entry may change: the table, its channel, and the queue of its result (R127). -/
abbrev Block.ofEntries : List Block := [.exchange, .table, .channels, .host]

/-- What a happening at the Membership Table may change, its cascades included (R61, R64). -/
abbrev Block.ofMembers : List Block := [.members, .exchange, .table, .channels, .host]

/-- What an event made here may change (R75). -/
abbrev Block.ofEvents : List Block := [.capture, .exchange, .table, .channels, .host]

/-- What a change of link state to LISTEN may change (R20, R34, R66). -/
abbrev Block.ofListen : List Block := [.cycle, .link, .line, .members, .host]

/-- What a slot start may change (R5). -/
abbrev Block.ofSlot : List Block := [.cycle, .line, .members, .exchange, .table, .channels, .host]

/-- What a cycle end or a frame's end of checks may change (R12, R51). -/
abbrev Block.ofGrid : List Block := [.cycle, .link, .line, .members, .exchange, .table, .channels, .host]

/-! ### The host port and the notice queue (R188, R189) -/

/-- The notice queue and the lost count are within their bounds, and notices have been lost only while the queue is full. -/
def NoticesOk (s : State) : Prop :=
  s.host.notices.length ≤ 32 ∧ s.host.lost ≤ Config.lostMaximum ∧ (s.host.lost = 0 ∨ s.host.notices.length = 32)

/-! ### The Request Exchange (R99, R153, R161) -/

/-- A Pending record: 1 to 3 tries, a deadline exactly while sent is set, a send limit once a try has gone out. -/
def RequestRecord.Ok (r : RequestRecord) : Prop :=
  1 ≤ r.tries ∧ r.tries ≤ 3 ∧ r.deadline.isSome = r.sent ∧ (r.sent = true → r.sendLimit.isSome = true)

/-- The queues, the Pending list and the reply cache are within their bounds, and no two Pending records, and no two cache
records of one origin, hold one number. -/
def ExchangeOk (s : State) : Prop :=
  s.exchange.sendQueue.length ≤ 24 ∧ s.exchange.replyQueue.length ≤ 16 ∧ s.exchange.requests.length ≤ 16 ∧
    (∀ k : Station, (s.requestsTo k).length ≤ 8) ∧ (s.exchange.requests.map fun r => r.number).Nodup ∧
    (∀ r ∈ s.exchange.requests, r.Ok) ∧
    ∀ k : Station, (s.cacheOf k).length ≤ 8 ∧ ((s.cacheOf k).map fun r => r.number).Nodup

/-! ### The Order Table and the channels (R107, R108, R134, R135) -/

/-- An entry's fields agree with its state (R108): which states have a next edge, are active, or have a following start. -/
def Entry.Ok (e : Entry) : Prop :=
  (e.state = .armed → e.nextEdge = none ∧ e.active = false ∧ e.event.isSome = true) ∧
    (e.state = .scheduled → e.nextEdge.isSome = true ∧ e.active = false) ∧
    (e.state = .running → e.lastStart.isSome = true ∧
      (e.active = false → e.nextEdge.isSome = true ∧ e.train.isSome = true)) ∧
    (e.followingStart.isSome = true → e.state = .running ∧ e.active = true) ∧
    (e.state = .running → e.nextEdge = none → e.width = 0) ∧
    ∀ t ∈ e.train, 0 < e.width.toNat ∧ e.width.toNat < t.period.toNat

/-- No two entries share an index or a name (R107), and every entry's fields agree. -/
def TableOk (s : State) : Prop :=
  (s.table.map fun e => e.index).Nodup ∧ (s.table.map fun e => (e.origin, e.number)).Nodup ∧ ∀ e ∈ s.table, e.Ok

/-- A RUNNING entry owns its channel, whose phase is its active field; an owner is a RUNNING entry of that channel; a free
channel is inactive (R134, R135). -/
def ChannelsOk (s : State) : Prop :=
  (∀ e ∈ s.table, e.state = .running →
      (s.channel e.channel).owner = some e.index ∧ ((s.channel e.channel).phase = .active ↔ e.active = true)) ∧
    (∀ (c : ChannelNumber) (i : Index), (s.channel c).owner = some i →
      ∃ e ∈ s.table, e.index = i ∧ e.state = .running ∧ e.channel = c) ∧
    ∀ c : ChannelNumber, (s.channel c).owner = none → (s.channel c).phase = .inactive

/-! ### The link and the grid (R4, R5, R17, R19, R20) -/

/-- The grid runs in INTEGRATE, COLDSTART and SYNCED (R4). -/
def LinkState.hasGrid : LinkState → Bool
  | .off | .listen => false
  | .integrate | .coldstart | .synced => true

/-- The longest listen timer (section 2.1). -/
abbrev listenMaximum : Nat := 177408

/-- The link unit's fields agree with its state and are in their ranges (section 2.1, R17, R20, R31). -/
def LinkUnit.Ok (l : LinkUnit) : Prop :=
  l.listenTimer.isSome = decide (l.state = .listen) ∧ (∀ n ∈ l.listenTimer, n ≤ listenMaximum) ∧
    l.frozen = decide (l.state ≠ .off) ∧ (l.announced = true → l.state.transmits = true) ∧ l.newCountdown ≤ 2 ∧
    (l.state.transmits = false → l.newCountdown = 0) ∧ l.integrationCount ≤ 1 ∧ l.confirmationCount ≤ 1 ∧
    l.silenceCount ≤ 2 ∧ l.collisionCount ≤ 1

/-- The grid agrees with the link state, and its slot is one of the N (R4, R5). -/
def GridOk (s : State) : Prop :=
  s.cycle.running = s.link.state.hasGrid ∧ s.cycle.slotIndex.isSome = s.cycle.running ∧
    (∀ k ∈ s.cycle.slotIndex, k.val < s.stationCount) ∧
    (s.cycle.running = false → s.cycle.samples = [] ∧ s.cycle.slotZeroAwaited = false) ∧
    (s.cycle.slotZeroAwaited = true → s.cycle.slotIndex = some 0)

/-- The sample store: one sample a station, none of the own, each in the sync window (R10). -/
def SamplesOk (s : State) : Prop :=
  (s.cycle.samples.map fun x => x.station).Nodup ∧
    ∀ x ∈ s.cycle.samples, x.station ≠ s.own ∧ -Config.syncWindow ≤ x.deviation ∧ x.deviation ≤ Config.syncWindow

/-- The Line Port agrees with the link state: a frame, and a reception set apart, only in a transmitting state, a reception
only with the receiver on (R30, R48). -/
def LineOk (s : State) : Prop :=
  (s.line.frame.isSome = true → s.link.state.transmits = true) ∧
    (s.line.ending.isSome = true → s.link.state.transmits = true) ∧
    (s.line.reception.isSome = true → s.link.state.receives = true) ∧
    ∀ n, s.line.ownSlot = .clean n → n ≤ 1 ∧ s.link.state.transmits = true

/-- The link, the grid, the samples and the Line Port together; the straps are legal wherever the station has started, and
in reset it has not (R19, R37). -/
def LinkOk (s : State) : Prop :=
  s.link.Ok ∧ GridOk s ∧ SamplesOk s ∧ LineOk s ∧ (s.link.state ≠ .off → s.legalStraps = true) ∧
    (s.inReset = true → s.link.state = .off)

/-! ### The pins (R69, R71, R72) -/

/-- A hold is in progress exactly while the pin differs from the settled level, and for no longer than the filter. -/
def PinRecord.Ok (r : PinRecord) : Prop :=
  (r.hold.isSome = true ↔ r.level ≠ r.settled) ∧ ∀ h ∈ r.hold, h.count ≤ r.filter.toNat

/-- Every pin's record is so, and no hold is in progress in a reset. -/
def PinsOk (s : State) : Prop :=
  (∀ p : Pin, (s.pin p).Ok) ∧ (s.inReset = true → ∀ p : Pin, (s.pin p).hold = none)

/-! ### Membership (R55, R57) -/

/-- The misses that go with a state (R57). -/
def PeerState.missesOk : PeerState → Nat → Prop
  | .unknown, m => m = 0
  | .present, m => m = 0
  | .missing, m => 1 ≤ m ∧ m ≤ 3
  | .lost, m => m = 4

/-- A deviation that is present lies in the sync window. -/
def deviationOk (d : Option Int) : Prop := ∀ x ∈ d, -Config.syncWindow ≤ x ∧ x ≤ Config.syncWindow

/-- The fields of a record are in their ranges (R55). -/
def PeerRecord.Ok (r : PeerRecord) : Prop :=
  r.state.missesOk r.misses ∧ deviationOk r.lastDeviation ∧ deviationOk r.slotNote ∧ r.goodFrames ≤ 65535 ∧
    r.checkErrors ≤ 65535 ∧ r.timingErrors ≤ 65535 ∧ r.intrusions ≤ 65535

/-- Every record is so. -/
def MembersOk (s : State) : Prop := ∀ k : Station, (s.peer k).Ok

end Sys2Proof.Machine
end

