-- ==== Sys2Proof/WellFormed.lean ====
section
/-! DEFINITION. Which terms of Instr are commands the outside world can bring about. -/

namespace Sys2Proof

/-- The longest frame after its mark: header, payload and frame check (R38). -/
def frameBytesMaximum : Nat := Config.headerLength + Config.payloadMaximum + 2

/-- A transaction that names no row of its own: a command code outside the table (R174), or INIT with its section code
missing or not 1..4 (R177). -/
def namesNoRow (code : Byte) (args : List Byte) : Bool :=
  decide (code.toNat ≥ 0x0D) ||
    (code == 0x02 &&
      match args with
      | [] => true
      | part :: _ => part == 0 || decide (part.toNat > 4))

/-- The checks: a reception and a read-back are no longer than the longest frame, and UNKNOWN_COMMAND names no other row. -/
def Instr.wellFormed : Instr → Bool
  | .resetnAsserted | .powerUp | .resetEnd _ _ => true
  | .listenTimerExpiry | .slotStart _ | .sendInstant => true
  | .frameEnd _ readBack => decide (readBack.length ≤ frameBytesMaximum)
  | .markDetected => true
  | .frameChecksEnd received => decide (received.length ≤ frameBytesMaximum)
  | .cycleEnd | .pinTransition _ _ | .edgeRecognised _ => true
  | .startEdge _ | .trainPhaseStart _ | .endEdge _ | .expiry _ => true
  | .armTimeAgeing _ | .holdAged _ | .expiryNotedAsReached _ => true
  | .nop | .reset | .initPermit _ | .initInput _ | .initIdle _ | .initLead _ => true
  | .start | .stop | .submitLocal _ | .submitPeer _ | .mark _ => true
  | .notice | .status | .peer _ | .entry _ | .time | .capture _ => true
  | .unknownCommand code args => namesNoRow code args
  | .emptyTransaction | .csnFallingEdge => true

/-- The rows that CSn rising on at least one whole byte makes (R172, R175). -/
def Instr.isHostCommand : Instr → Bool
  | .nop | .reset | .initPermit _ | .initInput _ | .initIdle _ | .initLead _ | .start | .stop => true
  | .submitLocal _ | .submitPeer _ | .mark _ | .notice | .status | .peer _ | .entry _ | .time | .capture _ => true
  | .unknownCommand _ _ => true
  | .resetnAsserted | .powerUp | .resetEnd _ _ | .listenTimerExpiry | .slotStart _ | .sendInstant => false
  | .frameEnd _ _ | .markDetected | .frameChecksEnd _ | .cycleEnd | .pinTransition _ _ | .edgeRecognised _ => false
  | .startEdge _ | .trainPhaseStart _ | .endEdge _ | .expiry _ | .armTimeAgeing _ | .holdAged _ => false
  | .expiryNotedAsReached _ | .emptyTransaction | .csnFallingEdge => false

end Sys2Proof
end

