-- ==== Sys2Proof/Certificates/Slice0/Obligations.lean ====
section
/-! DEFINITION. What the provers are asked to prove of the station. `Changes blocks s t` (Safety.lean) is each statement's
frame: every block that is not in the list is the same before and after. -/

section

open Sys2Proof Sys2Proof.Machine

/-! ### The machine -/

/-- The command at the front of the queue is executed on the state with the queue's rest. The queue is the model's (log
entry 3). -/
def Obligations.StepRunsTheFrontCommand : Prop :=
  ∀ (s : State) (c : Instr) (rest : List Instr), s.pending = c :: rest → step s = exec c (s.setPending rest)

/-- On an empty queue the station takes what is due, one row a step, and else a tick (the model's choice, log entry 4). What
is due, in that entry's order: the next edge of the table; the first entry of the table with something to note, an expiry
reached, a hold aged or an arm time to age (R114, R115, R124); the lowest pin whose hold has reached its filter (R72); the
own frame's end, read back undisturbed (log entry 9); the listen timer at 0 (R20); the cycle end (R12); a slot start, the
slot end first (R5, log entry 10); the send instant (R30). Nothing is due exactly where none of these is. A tick counts line
time, the listen timer, each hold and the running own frame once, shows on each pin the level its channel was left at (R136,
log entry 33), lets go of a reception that the own slot start set apart (log entry 34), and changes nothing else (R1, R20,
R71); in reset line time stands. -/
def Obligations.IdleStationTakesWhatIsDueOrTicks : Prop :=
  (∀ s : State, s.pending = [] →
    (∀ c, s.dueRow = some c → step s = exec c s) ∧
    (s.dueRow = none →
      (s.inReset = true → step s = .next s) ∧
      (s.inReset = false → ∃ t, step s = .next t ∧ t.cycle = { s.cycle with lineTime := s.cycle.lineTime + 1 } ∧
        t.link = { s.link with listenTimer := s.link.listenTimer.map fun n => n - 1 } ∧
        t.line = { s.line with
          frame := s.line.frame.map fun f => { f with remaining := f.remaining.map fun n => n - 1 }
          ending := none } ∧
        (∀ p : Pin, t.pin p =
          { s.pin p with hold := (s.pin p).hold.map fun h => { h with count := h.count + 1 } }) ∧
        t.capture.inputs = s.capture.inputs ∧ t.capture.eventNumber = s.capture.eventNumber ∧
        (∀ n : ChannelNumber, ((s.channel n).phase = .inactive → t.out n = (s.channel n).idle) ∧
          ((s.channel n).phase = .active → t.out n ≠ (s.channel n).idle)) ∧
        Changes [.cycle, .link, .line, .capture, .outputs] s t))) ∧
  ∀ (s : State) (edge recognising ending listening cycling slot sending quiet : Prop)
    (expiring holding ageing : Entry → Prop) (recognised : Pin → Prop),
    (edge ↔ ∃ e ∈ s.table, ∃ d, e.pendingEdge = some d ∧ passed d.time s.now = true) →
    (∀ e, expiring e ↔ e.state ≠ .armed ∧ ∃ p x, e.event = some p ∧ p.expiryReached = false ∧ p.expiry = some x ∧
      passed x s.now = true) →
    (∀ e, holding e ↔ e.state = .running ∧ e.nextEdge = none ∧ e.aged = false ∧ ∃ x, e.lastStart = some x ∧
      atOrAfter s.now (x + BitVec.ofNat 32 (2 ^ 30)) = true) →
    (∀ e, ageing e ↔ e.state = .armed ∧ ∃ p, e.event = some p ∧
      atOrAfter s.now (p.armTime + BitVec.ofNat 32 (2 ^ 30)) = true ∧ p.armTime ≠ s.now - BitVec.ofNat 32 (2 ^ 30)) →
    (∀ p, recognised p ↔ ∃ h, (s.pin p).hold = some h ∧ (s.pin p).filter.toNat ≤ h.count) →
    (recognising ↔ ∃ p, recognised p) →
    (ending ↔ ∃ f, s.line.frame = some f ∧ f.remaining = some 0) →
    (listening ↔ s.link.state = .listen ∧ s.link.listenTimer = some 0) →
    (cycling ↔ s.cycle.running = true ∧ s.cycle.slotZeroAwaited = false ∧ s.cycle.slotIndex = some s.straps.cnt ∧
      passed (s.cycle.cycleStart + BitVec.ofNat 32 (s.stationCount * s.slotLength)) s.now = true) →
    (slot ↔ s.cycle.running = true ∧
      ((s.cycle.slotZeroAwaited = true ∧ passed s.cycle.cycleStart s.now = true) ∨
        (s.cycle.slotZeroAwaited = false ∧ ∃ k : Station, s.cycle.slotIndex = some k ∧ k.val + 1 < s.stationCount ∧
          passed (s.cycle.cycleStart + BitVec.ofNat 32 ((k.val + 1) * s.slotLength)) s.now = true))) →
    (sending ↔ ∃ f, s.line.frame = some f ∧ f.remaining = none ∧ s.link.state.transmits = true ∧
      s.cycle.running = true ∧ s.cycle.slotZeroAwaited = false ∧ s.cycle.slotIndex = some s.own ∧
      passed (s.cycle.cycleStart + BitVec.ofNat 32 (s.own.val * s.slotLength) +
        BitVec.ofNat 32 (Config.sendOffset s.straps.rate)) s.now = true) →
    (quiet ↔ ¬edge ∧ (∀ e ∈ s.table, ¬expiring e ∧ ¬holding e ∧ ¬ageing e) ∧ ¬recognising ∧ ¬ending) →
    (edge ↔ ∃ d, s.nextDueEdge s.now = some d) ∧
    (∀ d, s.nextDueEdge s.now = some d →
      (d.kind = .finish → s.dueRow = some (.endEdge d.index)) ∧
      (d.kind = .expiry → s.dueRow = some (.expiry d.index)) ∧
      (d.kind = .start → s.dueRow = some (.startEdge d.index)) ∧
      (d.kind = .phase → s.dueRow = some (.trainPhaseStart d.index))) ∧
    (¬edge → ∀ earlier e later, s.table = earlier ++ e :: later →
      (∀ x ∈ earlier, ¬expiring x ∧ ¬holding x ∧ ¬ageing x) →
      (expiring e → s.dueRow = some (.expiryNotedAsReached e.index)) ∧
      (¬expiring e → holding e → s.dueRow = some (.holdAged e.index)) ∧
      (¬expiring e → ¬holding e → ageing e → s.dueRow = some (.armTimeAgeing e.index))) ∧
    (¬edge → (∀ e ∈ s.table, ¬expiring e ∧ ¬holding e ∧ ¬ageing e) →
      (∀ p, recognised p → (∀ q, q < p → ¬recognised q) → s.dueRow = some (.edgeRecognised p)) ∧
      (¬recognising → ∀ f, s.line.frame = some f → f.remaining = some 0 → s.dueRow = some (.frameEnd false f.content))) ∧
    (quiet → listening → s.dueRow = some .listenTimerExpiry) ∧
    (quiet → ¬listening → cycling → s.dueRow = some .cycleEnd) ∧
    (quiet → ¬listening → ¬cycling → slot → s.dueRow = some (.slotStart .slotEndFirst)) ∧
    (quiet → ¬listening → ¬cycling → ¬slot → sending → s.dueRow = some .sendInstant) ∧
    (s.dueRow = none ↔ quiet ∧ ¬listening ∧ ¬cycling ∧ ¬slot ∧ ¬sending)

/-- R1, R4, R17, R37, R48, R55, R69, R85, R88, R93, R99, R107, R134, R152, R153, R161, R192: the values reset leaves. Straps,
pin levels and CSn before RESET_END are the model's (log entries 1 and 2) and not claimed. -/
def Obligations.ResetLeavesTheStatedValues : Prop :=
  State.reset.cycle.lineTime = 0 ∧ State.reset.cycle.running = false ∧ State.reset.cycle.cycleStart = 0 ∧
    State.reset.cycle.cycleNumber = 0 ∧ State.reset.cycle.slotIndex = none ∧ State.reset.cycle.samples = [] ∧
    State.reset.link.state = .off ∧ State.reset.link.listenTimer = none ∧ State.reset.link.integrationCount = 0 ∧
    State.reset.link.confirmationCount = 0 ∧ State.reset.link.silenceCount = 0 ∧ State.reset.link.collisionCount = 0 ∧
    State.reset.link.newCountdown = 0 ∧ State.reset.link.announced = false ∧ State.reset.link.frozen = false ∧
    State.reset.line.frame = none ∧ State.reset.line.reception = none ∧ State.reset.line.ending = none ∧
    (∀ k : Station, State.reset.peer k =
      { state := .unknown, misses := 0, lastDeviation := none, slotNote := none, newSeen := false, goodFrames := 0,
        checkErrors := 0, timingErrors := 0, intrusions := 0, expectedEvent := none }) ∧
    (∀ p : Pin, (State.reset.pin p).edgeSelect = .none ∧ (State.reset.pin p).filter = 0 ∧
      (State.reset.pin p).hold = none) ∧
    (∀ i : Input, State.reset.inputRecord i =
      { broadcast := false, lastStamp := none, lastEdge := none, edgeCount := 0 }) ∧
    State.reset.capture.eventNumber = 0 ∧ State.reset.exchange.counter = 0 ∧
    (∀ (k : Station) (c : ChannelNumber), (State.reset.exchange.permit.get k).get c = .deny) ∧
    State.reset.exchange.minLead = 1000 ∧ State.reset.exchange.sendQueue = [] ∧ State.reset.exchange.replyQueue = [] ∧
    State.reset.exchange.requests = [] ∧ (∀ k : Station, State.reset.cacheOf k = []) ∧ State.reset.table = [] ∧
    (∀ c : ChannelNumber, State.reset.channel c = { idle := .low, owner := none, phase := .inactive }) ∧
    (∀ c : ChannelNumber, State.reset.out c = .low) ∧
    State.reset.host.held = [0x01, 0x00] ∧ State.reset.host.notices = [] ∧ State.reset.host.lost = 0

/-- R3, R37, R55, R69, R152, R170, R179, R192: RESETN_ASSERTED, POWER_UP and a taken RESET give every block its reset values,
drive every output LOW, and hold the response of RESET with code OK. When a reset ends the straps are latched and each pin's
settled level is the level sampled then; nothing else changes. That the queue of waiting commands stays (t.pending =
s.pending) is the model's own (log entry 3). -/
def Obligations.ResetsRestoreEveryBlockAndLatchTheStraps : Prop :=
  (∀ (s : State) (c : Instr),
    c = .resetnAsserted ∨ c = .powerUp ∨ (c = .reset ∧ s.takesCommands = true) →
    ∃ t, exec c s = .next t ∧ t.inReset = true ∧ t.cycle = CycleUnit.reset ∧ t.link = LinkUnit.reset ∧
      t.line = LinePort.reset ∧ (∀ k, t.peer k = PeerRecord.reset) ∧ (∀ i, t.inputRecord i = InputRecord.reset) ∧
      (∀ p, (t.pin p).edgeSelect = .none ∧ (t.pin p).filter = 0 ∧ (t.pin p).hold = none) ∧
      t.capture.eventNumber = 0 ∧ t.exchange = RequestExchange.reset ∧ t.table = [] ∧
      (∀ n, t.channel n = Channel.reset) ∧ (∀ n, t.out n = .low) ∧ t.lde = .low ∧ t.attn = .low ∧
      t.host.held = [0x01, 0x00] ∧ t.host.notices = [] ∧ t.host.lost = 0 ∧ t.pending = s.pending) ∧
  ∀ (s : State) (straps : Straps) (pins : BitVec 8), s.inReset = true →
    ∃ t, exec (.resetEnd straps pins) s = .next t ∧ t.inReset = false ∧ t.straps = straps ∧
      (∀ p : Pin, t.pin p =
        { s.pin p with
          level := if pins.getLsbD p.val then .high else .low
          settled := if pins.getLsbD p.val then .high else .low }) ∧
      t.capture.inputs = s.capture.inputs ∧ t.capture.eventNumber = s.capture.eventNumber ∧
      Changes [.inReset, .straps, .capture] s t

/-! ### Rules over every command -/

/-- No command ever stops the station (that exec answers on every term and every state is the model's, log entry 22), and
none touches the queue of those that wait (the queue is the model's, log entry 3). -/
def Obligations.EveryCommandAnswersANextState : Prop :=
  ∀ (c : Instr) (s : State), ∃ t, exec c s = .next t ∧ t.pending = s.pending

/-- R1, R3, R11, R13, R136: the straps change only at a reset and at the end of one, where they are latched. Apart from
counting, line time changes only by a cycle end's step of at most 16 ticks, by an adoption in LISTEN, and by a reset, which
sets it to 0. No command but a reset changes a pin within its instant: the pins follow their channels at the tick that ends
it (log entry 33). -/
def Obligations.StrapsPinsAndLineTimeChangeOnlyWhereStated : Prop :=
  ∀ (c : Instr) (s t : State), exec c s = .next t →
    (t.straps = s.straps ∨ c = .resetnAsserted ∨ c = .powerUp ∨ c = .reset ∨
      ∃ straps pins, c = .resetEnd straps pins ∧ t.straps = straps) ∧
    ((∀ n, t.out n = s.out n) ∨
      ((c = .resetnAsserted ∨ c = .powerUp ∨ c = .reset) ∧ ∀ n, t.out n = .low)) ∧
    (t.now = s.now ∨
      (c = .cycleEnd ∧ ∃ σ : Int, -16 ≤ σ ∧ σ ≤ 16 ∧ t.now = s.now + BitVec.ofInt 32 σ) ∨
      (s.link.state = .listen ∧ t.link.state = .integrate ∧ ∃ bytes, c = .frameChecksEnd bytes) ∨
      ((c = .resetnAsserted ∨ c = .powerUp ∨ c = .reset) ∧ t.now = 0))

/-- R19, R88, R137, R177: outside OFF no command but a reset changes the configuration: the permit map, the minimum lead, the
input setup and the idle levels. -/
def Obligations.ConfigurationIsFrozenOutsideOff : Prop :=
  ∀ (c : Instr) (s t : State), exec c s = .next t → s.link.state ≠ .off →
    c ≠ .resetnAsserted → c ≠ .powerUp → c ≠ .reset →
    t.exchange.permit = s.exchange.permit ∧ t.exchange.minLead = s.exchange.minLead ∧
      (∀ i : Input, (t.inputRecord i).broadcast = (s.inputRecord i).broadcast) ∧
      (∀ p : Pin, (t.pin p).edgeSelect = (s.pin p).edgeSelect ∧ (t.pin p).filter = (s.pin p).filter) ∧
      ∀ n : ChannelNumber, (t.channel n).idle = (s.channel n).idle

/-! ### The cycle and its slots -/

/-- R25, R31, R100, R166: the listen timer at 0 in LISTEN starts a timeline at the present line time. Deadlines, send limits
and expiry cycles that are present move by the new cycle number, which is 0, minus the old one. A station other than number
0 has then only queued its LINK notice; station 0 builds its frame from the state so reached. That the LINK notice stands
before the FAILED notices of that build is the model's reading (log entry 13, DEDUCED): R25 names the build first. -/
def Obligations.ColdStartBeginsATimeline : Prop :=
  ∀ (s : State) (shift : CycleNumber), s.link.state = .listen → s.link.listenTimer = some 0 →
    shift = 0 - s.cycle.cycleNumber →
    ∃ u, u.link = { s.link with
        state := .coldstart, listenTimer := none, confirmationCount := 0, silenceCount := 0, collisionCount := 0,
        newCountdown := 2, announced := false } ∧
      u.cycle = { s.cycle with
        running := true, cycleStart := s.now, cycleNumber := 0, slotIndex := some 0, slotZeroAwaited := false } ∧
      u.line = { s.line with reception := none, ownSlot := .unjudged } ∧
      u.exchange = { s.exchange with
        requests := s.exchange.requests.map fun r =>
          { r with deadline := r.deadline.map (· + shift), sendLimit := r.sendLimit.map (· + shift) }
        cache := u.exchange.cache } ∧
      (∀ k, u.cacheOf k = (s.cacheOf k).map fun c => { c with expiry := c.expiry + shift }) ∧
      u.host = (queueNotice { kind := .link, time := s.now, station := none, number := none, code := 0x32,
                              value := none } s).host ∧
      Changes [.cycle, .link, .line, .exchange, .host] s u ∧
      (s.own ≠ 0 → exec .listenTimerExpiry s = .next u) ∧
      (s.own = 0 → ∃ t f, exec .listenTimerExpiry s = .next t ∧ t = buildFrame (u.setLine { u.line with ending := none }) ∧
        t.line.frame = some f ∧ f.carriesNew = true ∧ f.remaining = none)

/-- R5, R13, R32, R48, R54, R105, R157, R168: when a slot start is due, and what it does. The end of the own slot forgets
what was known of it; the end of another slot is its slot end at the Membership Table; the own slot start of a transmitting
station frees the receive buffer and builds the frame, before or after the slot end of the same instant. A reception so
taken from the buffer is set apart until the instant is over (log entry 34). Slot 0 begins when line time has come back to
the cycle start that a negative step left ahead. A slot start that is not due is no happening (the model's, log entry 5). -/
def Obligations.SlotStartEndsOneSlotAndBeginsTheNext : Prop :=
  (∀ (s : State) (k : Station), s.slotDue = some (.after k) ↔
    s.cycle.running = true ∧ s.cycle.slotZeroAwaited = false ∧ s.cycle.slotIndex = some k ∧ k.val + 1 < s.stationCount ∧
      passed (s.cycle.cycleStart + BitVec.ofNat 32 ((k.val + 1) * s.slotLength)) s.now = true) ∧
  (∀ s : State, s.slotDue = some .zero ↔
    s.cycle.running = true ∧ s.cycle.slotZeroAwaited = true ∧ passed s.cycle.cycleStart s.now = true) ∧
  (∀ (s : State) (order : SlotOrder), s.slotDue = none → exec (.slotStart order) s = .next s) ∧
  (∀ (s u : State) (order : SlotOrder) (k : Station), s.slotDue = some (.after k) →
    u = s.setCycle { s.cycle with slotIndex := some (k + 1) } →
    (k = s.own → exec (.slotStart order) s = .next (u.setLine { u.line with ownSlot := .unjudged })) ∧
    (k ≠ s.own → (k + 1 ≠ s.own ∨ s.link.state.transmits = false) →
      exec (.slotStart order) s = .next (slotEnd k u)) ∧
    (k + 1 = s.own → s.link.state.transmits = true →
      exec (.slotStart .slotEndFirst) s = .next (buildFrame
        ((slotEnd k u).setLine { s.line with reception := none, ending := s.line.reception })) ∧
      exec (.slotStart .buildFirst) s = .next (slotEnd k (buildFrame
        (u.setLine { s.line with reception := none, ending := s.line.reception }))))) ∧
  ∀ (s u : State) (order : SlotOrder), s.slotDue = some .zero →
    u = s.setCycle { s.cycle with slotZeroAwaited := false } →
    (s.own ≠ 0 ∨ s.link.state.transmits = false → exec (.slotStart order) s = .next u) ∧
    (s.own = 0 → s.link.state.transmits = true → exec (.slotStart order) s = .next (buildFrame
      (u.setLine { s.line with reception := none, ending := s.line.reception })))

/-- R57, R58: at a slot end the record of the slot's owner follows the table of R57 (the loss of a peer is the next
statement), a change of its state queues a PEER notice, and nothing else changes. The end of the own slot changes nothing at
the Membership Table. -/
def Obligations.SlotEndUpdatesTheOwnersRecord : Prop :=
  (∀ s : State, slotEnd s.own s = s) ∧
  ∀ (s t : State) (k : Station), k ≠ s.own →
    ((s.peer k).slotNote ≠ none ∨ (s.peer k).state ≠ .missing ∨ (s.peer k).misses < 3) → t = slotEnd k s →
    (∀ d, (s.peer k).slotNote = some d →
      t.peer k = { s.peer k with
        state := .present, misses := 0, lastDeviation := some d, slotNote := none,
        goodFrames := min 65535 ((s.peer k).goodFrames + 1) }) ∧
    ((s.peer k).slotNote = none →
      ((s.peer k).state = .unknown → t.peer k = { s.peer k with misses := 0 }) ∧
      ((s.peer k).state = .present → t.peer k = { s.peer k with state := .missing, misses := 1 }) ∧
      ((s.peer k).state = .missing → t.peer k = { s.peer k with misses := (s.peer k).misses + 1 }) ∧
      ((s.peer k).state = .lost → t.peer k = { s.peer k with misses := 4 })) ∧
    (∀ j, j ≠ k → t.peer j = s.peer j) ∧
    ((t.peer k).state = (s.peer k).state → t.host = s.host) ∧
    ((t.peer k).state ≠ (s.peer k).state →
      t.host = (queueNotice { kind := .peer, time := s.now, station := some k, number := none,
                              code := (t.peer k).state.code, value := none } s).host) ∧
    Changes [.members, .host] s t

/-- R61, R131: the fourth silent slot end of a peer loses it. Its Pending records fail, its BOUND entries and the entries
that watch it leave, the channels of those that ran are released, its expected event number is absent; reply cache, other
records, other entries and other channels stay. The PEER notice comes first, then a FAILED (PEER_LOST) notice of each record,
whose waiting copy leaves the send queue (R167), in Pending order, then the results of the entries that watched it and are of
another origin, in acceptance order (watching); a BOUND entry of the peer and an entry of its origin give none. -/
def Obligations.FourthSilentSlotLosesThePeer : Prop :=
  ∀ (s t : State) (k : Station) (watching : List Entry), TableOk s → ExchangeOk s → k ≠ s.own →
    (s.peer k).slotNote = none → (s.peer k).state = .missing → 3 ≤ (s.peer k).misses →
    watching = (s.table.filter fun e => e.state == .armed && (e.event.any fun p => p.triggerStation == k) &&
      e.origin != k && e.report) →
    t = slotEnd k s →
    t.peer k = { s.peer k with state := .lost, misses := 4, expectedEvent := none } ∧
      (∀ j, j ≠ k → t.peer j = s.peer j) ∧
      t.exchange = { s.exchange with
        requests := s.exchange.requests.filter fun r => r.target != k
        sendQueue := s.exchange.sendQueue.filter fun i => (s.requestsTo k).all fun r => i.requestNumber != some r.number
        replyQueue := (s.exchange.replyQueue ++ (watching.filter fun e : Entry => e.origin != s.own).map fun e : Entry =>
          ReplyItem.result e.origin e.number .sourceLost e.lastStart).take 16 } ∧
      t.table = (s.table.filter fun e => !(e.origin == k && e.bound) &&
        !(e.state == .armed && (e.event.any fun p => p.triggerStation == k))) ∧
      (ChannelsOk s → ∀ c : ChannelNumber,
        ((∃ e ∈ s.table, e.origin = k ∧ e.bound = true ∧ e.state = .running ∧ e.channel = c) →
          t.channel c = { s.channel c with owner := none, phase := .inactive }) ∧
        ((∀ e ∈ s.table, e.origin = k → e.bound = true → e.state = .running → e.channel ≠ c) →
          t.channel c = s.channel c)) ∧
      t.host = ((watching.filter fun e => e.origin == s.own).foldl (fun u e => queueNotice
          { kind := .result, time := s.now, station := some s.own, number := some e.number, code := 8,
            value := e.lastStart } u)
        ((s.requestsTo k).foldl (fun u r => queueNotice
            { kind := .failed, time := s.now, station := some k, number := some r.number, code := 1, value := none } u)
          (queueNotice { kind := .peer, time := s.now, station := some k, number := none, code := 3, value := none }
            s))).host ∧
      Changes [.members, .exchange, .table, .channels, .host] s t

/-! ### The own frame -/

/-- R164: the retry pass looks at each Pending record as it stood, in the list's order. A record that is not sent, or whose
deadline has not been reached, is passed over. One with 3 tries, or with its send limit reached, fails NO_ANSWER. Any other
is queued again, its tries counted, sent clear and the deadline absent, or is left as it is while the send queue holds 24
items. The pass leaves no exhausted record and changes no record in another way. -/
def Obligations.RetryPassRetriesDefersOrFails : Prop :=
  (∀ s : State, retryPass s = s.exchange.requests.foldl (fun u r => retryRequest r u) s) ∧
  (∀ (s t : State) (r : RequestRecord) (due exhausted : Prop), t = retryRequest r s →
    (due ↔ r.sent = true ∧ ∃ d, r.deadline = some d ∧ (s.cycle.cycleNumber - d).toNat < 2 ^ 15) →
    (exhausted ↔ 3 ≤ r.tries ∨ ∃ l, r.sendLimit = some l ∧ (s.cycle.cycleNumber - l).toNat < 2 ^ 15) →
    (¬due → t = s) ∧
    (due → exhausted →
      t.exchange = { s.exchange with
          requests := s.exchange.requests.filter fun x => x.number != r.number
          sendQueue := s.exchange.sendQueue.filter fun i => i.requestNumber != some r.number } ∧
        t.host = (queueNotice { kind := .failed, time := s.now, station := some r.target, number := some r.number,
                                code := 0, value := none } s).host ∧
        Changes [.exchange, .host] s t) ∧
    (due → ¬exhausted → s.exchange.sendQueue.length < 24 →
      t.exchange = { s.exchange with
          requests := s.exchange.requests.map fun x =>
            if x.number = r.number then { x with tries := x.tries + 1, sent := false, deadline := none } else x
          sendQueue := s.exchange.sendQueue ++ [.request r.number r.item] } ∧
        Changes [.exchange] s t) ∧
    (due → ¬exhausted → 24 ≤ s.exchange.sendQueue.length → t = s)) ∧
  ∀ (s : State) (r : RequestRecord) (due exhausted : Prop), ExchangeOk s → r ∈ s.exchange.requests →
    (due ↔ r.sent = true ∧ ∃ d, r.deadline = some d ∧ (s.cycle.cycleNumber - d).toNat < 2 ^ 15) →
    (exhausted ↔ 3 ≤ r.tries ∨ ∃ l, r.sendLimit = some l ∧ (s.cycle.cycleNumber - l).toNat < 2 ^ 15) →
    (¬due → r ∈ (retryPass s).exchange.requests) ∧
    (due → exhausted → ∀ x ∈ (retryPass s).exchange.requests, x.number ≠ r.number) ∧
    (due → ¬exhausted → r ∈ (retryPass s).exchange.requests ∨
      { r with tries := r.tries + 1, sent := false, deadline := none } ∈ (retryPass s).exchange.requests) ∧
    Changes [.exchange, .host] s (retryPass s)

/-- R158, R165: the reply drain takes items from the head while they fit and stops at the first that does not; the send drain
does the same, passing over the copies whose send limit has been reached. -/
def Obligations.DrainsTakeFromTheHeadWhatFits : Prop :=
  (∀ (room : Nat) (q taken rest : List ReplyItem), drainReplies room q = (taken, rest) →
    q = taken ++ rest ∧ (taken.flatMap ReplyItem.encode).length ≤ room ∧
      ∀ i more, rest = i :: more → room < (taken.flatMap ReplyItem.encode).length + i.encode.length) ∧
  ∀ (overdue : SendItem → Bool) (room : Nat) (q taken removed rest : List SendItem),
    drainSends overdue room q = (taken, removed, rest) →
    ∃ passed, q = passed ++ rest ∧ taken = (passed.filter fun i => !overdue i) ∧ removed = passed.filter overdue ∧
      (taken.flatMap SendItem.encode).length ≤ room ∧
      ∀ i more, rest = i :: more →
        overdue i = false ∧ room < (taken.flatMap SendItem.encode).length + i.encode.length

/-- R38 to R40, R54, R157, R158, R165: the build runs the retry pass, drains the reply queue into 64 bytes and the send
queue into what is left, and closes the frame: the header the Cycle Unit supplies, the bytes of the items taken, and the
frame check over both. The queues keep the rest, the frame notes the numbers of the requests taken, and a request whose copy
has reached its send limit fails NO_ANSWER, in the drain's order. -/
def Obligations.BuildTakesItsItemsFromTheQueues : Prop :=
  ∀ (s p : State) (replies repliesLeft : List ReplyItem) (sends removed sendsLeft : List SendItem)
    (payload header : List Byte) (failed : List RequestNumber), p = retryPass s →
    drainReplies 64 p.exchange.replyQueue = (replies, repliesLeft) →
    drainSends
        (fun i => match i with
          | .event _ _ _ _ => false
          | .request n _ => (p.requestNumbered n).any fun r =>
              r.sendLimit.any fun l => decide ((s.cycle.cycleNumber - l).toNat < 2 ^ 15))
        (64 - (replies.flatMap ReplyItem.encode).length) p.exchange.sendQueue = (sends, removed, sendsLeft) →
    payload = replies.flatMap ReplyItem.encode ++ sends.flatMap SendItem.encode →
    header = encodeHeader { station := s.own, coldstart := decide (s.link.state = .coldstart),
                            isNew := decide (0 < s.link.newCountdown), cycleNumber := s.cycle.cycleNumber,
                            cycleStart := s.cycle.cycleStart, length := BitVec.ofNat 8 payload.length } →
    failed = removed.filterMap SendItem.requestNumber →
    payload.length ≤ 64 ∧
      (buildFrame s).line = { s.line with
        frame := some
          { content := header ++ payload ++ bytes16 (frameCheck (header ++ payload))
            carriesNew := decide (0 < s.link.newCountdown)
            requests := sends.filterMap SendItem.requestNumber
            remaining := none } } ∧
      (buildFrame s).exchange = { p.exchange with
        replyQueue := repliesLeft
        sendQueue := sendsLeft.filter fun i => i.requestNumber.all fun n => !failed.contains n
        requests := p.exchange.requests.filter fun r => !failed.contains r.number } ∧
      (failed.Nodup → (buildFrame s).host = (failed.foldl (fun u n => queueNotice
        { kind := .failed, time := s.now, station := (p.requestNumbered n).map fun r => r.target, number := some n,
          code := 0, value := none } u) p).host) ∧
      Changes [.line, .exchange, .host] s (buildFrame s)

/-- R11: the correction is the trimmed mean of the samples, clamped to 16 ticks either way, and the step is its opposite. A
step of 0 changes nothing. -/
def Obligations.CorrectionIsTheClampedTrimmedMean : Prop :=
  ∀ samples : List Sample,
    (samples.length = 0 → correction samples = 0) ∧
    (1 ≤ samples.length → samples.length ≤ 2 →
      correction samples =
        max (-16) (min 16 (((samples.map Sample.deviation).sum).tdiv (samples.length : Int)))) ∧
    (∀ (hi lo : Int) (rest : List Int), 3 ≤ samples.length →
      (samples.map Sample.deviation).Perm (hi :: lo :: rest) →
      (∀ x ∈ samples, lo ≤ x.deviation ∧ x.deviation ≤ hi) →
      correction samples = max (-16) (min 16 (rest.sum.tdiv ((samples.length : Int) - 2)))) ∧
    cycleStep samples = -correction samples ∧ -16 ≤ cycleStep samples ∧ cycleStep samples ≤ 16 ∧
    (cycleStep samples = 0 → ∀ s : State, stepAtCycleEnd (cycleStep samples) s = s)

/-- R8, R12, R13, R32, R48, R100, R105, R157, R168: a cycle end, in its steps. The last slot ends; the new cycle starts N ×
L ticks after the old one under the next number; line time takes the step, which acts on the table (u, w) and moves the time
of a mark that was attributed to the new cycle; the samples are emptied (w). Then the link decides, the expired cache
records go (y), and, if the grid still runs, slot 0 begins: at once, with the frame's build where it is the own slot of a
transmitting station, or, after a negative step, only when line time reaches the new cycle start again. Four clauses are the
model's readings: the notices of the last slot's end carry the line time before the step (log entry 17, DEDUCED); every mark
attributed to the new cycle moves (log entry 8, DEDUCED); what the table notes by time is noted at the old line time, and
the arm times age with the step before its pass (u; log entry 18, DEDUCED); and a reception that the build takes from the
buffer is not discarded at once (R48) but set apart until the instant is over, since its checks may end at it (R105, R168;
log entry 34, DEDUCED). What the step does at the table is the next statement. -/
def Obligations.CycleEndMovesTheGrid : Prop :=
  ∀ (s v u : State) (σ : Int) (start : Time), s.cycle.running = true → s.cycle.slotZeroAwaited = false →
    s.cycle.slotIndex = some s.straps.cnt →
    start = s.cycle.cycleStart + BitVec.ofNat 32 (s.stationCount * s.slotLength) → passed start s.now = true →
    σ = cycleStep s.cycle.samples → v = slotEnd s.straps.cnt s →
    u = ageArmTimes (s.now + BitVec.ofInt 32 σ) (((noteTimes s.now v).setLine
        { s.line with ownSlot := if s.own = s.straps.cnt then .unjudged else s.line.ownSlot }).setCycle
      { lineTime := s.now + BitVec.ofInt 32 σ, running := true, cycleStart := start,
        cycleNumber := s.cycle.cycleNumber + 1, slotIndex := some 0, slotZeroAwaited := false,
        samples := s.cycle.samples }) →
    ∃ w y,
      w.cycle = { u.cycle with samples := [] } ∧
      w.line = { u.line with
        reception := s.line.reception.map fun r =>
          if r.attribution.any (fun a => a.cycleStart == start) then
            { r with markTime := r.markTime + BitVec.ofInt 32 σ }
          else r } ∧
      w.members = v.members ∧
      (σ = 0 → w.exchange = v.exchange ∧ w.table = v.table ∧ w.channels = v.channels ∧ w.host = v.host) ∧
      (σ ≠ 0 → ∀ x, x = tableStep s.now (BitVec.ofInt 32 σ) (v.edgesAt s.now) u →
        w.exchange = x.exchange ∧ w.table = x.table ∧ w.channels = x.channels ∧ w.host = x.host) ∧
      Changes [.cycle, .line, .members, .exchange, .table, .channels, .host] s w ∧
      (∀ k, y.cacheOf k = ((linkAtCycleEnd s.cycle.samples.length w).cacheOf k).filter fun r =>
        !decide ((s.cycle.cycleNumber + 1 - r.expiry).toNat < 2 ^ 15)) ∧
      y = (linkAtCycleEnd s.cycle.samples.length w).setExchange
        { (linkAtCycleEnd s.cycle.samples.length w).exchange with cache := y.exchange.cache } ∧
      (y.cycle.running = false → exec .cycleEnd s = .next y) ∧
      (y.cycle.running = true → σ < 0 →
        exec .cycleEnd s = .next (y.setCycle { y.cycle with slotZeroAwaited := true })) ∧
      (y.cycle.running = true → 0 ≤ σ → s.own ≠ 0 ∨ y.link.state.transmits = false → exec .cycleEnd s = .next y) ∧
      (y.cycle.running = true → 0 ≤ σ → s.own = 0 → y.link.state.transmits = true → exec .cycleEnd s = .next (buildFrame
        (y.setLine { y.line with reception := none, ending := y.line.reception })))

/-- R14, R15, R129: a step of line time at the table, of a magnitude of at most 32 ticks. A positive one takes one after
another the edges reached up to the stepped line time. Each is the next due of those there then are, the successors of the
edges before it among them, and acts at its own time. Where no edge before the old line time was left untaken and each
TRAIN's following start lies after its end, none reached is left. A negative one takes no edge but those that were pending
with the old line time before it and still are: ends, then expiries, then starts, each kind in acceptance order. What the
table notes by time (R114, R115, R124) is noted at the old line time and, after a positive pass, at the new one (when, is
log entry 18). -/
def Obligations.StepTakesTheReachedEdgesInOrder : Prop :=
  (∀ (v σ : Time) (left : List PendingEdge) (s : State), 0 < σ.toInt → σ.toInt ≤ 32 →
    ∃ (n : Nat) (f : Nat → State), f 0 = s ∧
      (∀ m, m < n → ∃ d, (f m).nextDueEdge (v + σ) = some d ∧ f (m + 1) = takeEdge d (f m)) ∧
      tableStep v σ left s = noteTimes (v + σ) (f n) ∧
      (TableOk s → (∀ e ∈ s.table, ∀ d, e.pendingEdge = some d → passed d.time v = true → d.time = v) →
        (∀ e ∈ s.table, ∀ x y, e.nextEdge = some x → e.followingStart = some y → afterTime y x = true) →
        (f n).nextDueEdge (v + σ) = none)) ∧
  (∀ (v σ : Time) (left : List PendingEdge) (s : State), σ.toInt < 0 →
    tableStep v σ left s = left.foldl (fun u d =>
      if (u.entryAt d.index).bind Entry.pendingEdge = some d then takeEdge d u else u) s) ∧
  (∀ (v : Time) (s : State),
    (∀ d, d ∈ s.edgesAt v ↔ d.time = v ∧ ∃ e ∈ s.table, e.pendingEdge = some d) ∧
    (s.edgesAt v).Pairwise (fun a b => a.kind.rank ≤ b.kind.rank) ∧
    ∀ rank, ((s.edgesAt v).filter fun d => d.kind.rank == rank) =
      (s.table.filterMap Entry.pendingEdge).filter fun d => d.time == v && d.kind.rank == rank) ∧
  (∀ (s : State) (i : Index) (x : Time), takeEdge { index := i, kind := .finish, time := x } s = takeEnd i x s ∧
    takeEdge { index := i, kind := .expiry, time := x } s = takeExpiry i s ∧
    takeEdge { index := i, kind := .start, time := x } s = requestStart i x s ∧
    takeEdge { index := i, kind := .phase, time := x } s = startPhase i x s) ∧
  ∀ (now : Time) (s : State) (i : Index) (e : Entry), s.entryAt i = some e →
    (∀ p, e.state = .armed → e.event = some p →
      (noteTimes now s).entryAt i = (ageArmTimes now s).entryAt i ∧
      (ageArmTimes now s).entryAt i =
        if atOrAfter now (p.armTime + BitVec.ofNat 32 (2 ^ 30)) then
          some { e with event := some { p with armTime := now - BitVec.ofNat 32 (2 ^ 30) } }
        else some e) ∧
    (e.state ≠ .armed → (ageArmTimes now s).entryAt i = some e ∧ (noteTimes now s).entryAt i = some
      { e with
        aged := e.aged || (decide (e.state = .running ∧ e.nextEdge = none) &&
          e.lastStart.any fun x => atOrAfter now (x + BitVec.ofNat 32 (2 ^ 30)))
        event := e.event.map fun p =>
          { p with expiryReached := p.expiryReached || p.expiry.any fun x => passed x now } }) ∧
    Changes [.table] s (noteTimes now s) ∧ Changes [.table] s (ageArmTimes now s)

/-- R24, R26, R28, R29, R18: what the number of samples at a cycle end does in each link state, which LINK notice it queues,
and that a station that leaves the grid goes back to LISTEN with it stopped (R20, R34, R66). That a frame built and not yet
going out, and a reception set apart, go with the own slot is the model's (log entries 35 and 34). -/
def Obligations.CycleEndDecidesTheLink : Prop :=
  (∀ s : State, s.cycle.running = true → s.cycle.slotZeroAwaited = false → s.cycle.slotIndex = some s.straps.cnt →
    passed (s.cycle.cycleStart + BitVec.ofNat 32 (s.stationCount * s.slotLength)) s.now = true →
    ∃ t, exec .cycleEnd s = .next t ∧
      (s.link.state = .integrate →
        (s.link.integrationCount = 0 → t.link = { s.link with integrationCount := 1 }) ∧
        (s.link.integrationCount ≠ 0 → s.cycle.samples ≠ [] →
          t.link = { s.link with
            state := .synced, integrationCount := 0, silenceCount := 0, collisionCount := 0, newCountdown := 2,
            announced := false }) ∧
        (s.link.integrationCount ≠ 0 → s.cycle.samples = [] →
          t.link = { s.link with
            state := .listen, integrationCount := 0,
            listenTimer := some (2 * s.cycleLength + s.own.val * s.slotLength) })) ∧
      (s.link.state = .coldstart →
        (s.cycle.samples = [] → t.link = { s.link with confirmationCount := 0 }) ∧
        (s.cycle.samples ≠ [] → s.link.confirmationCount = 0 → t.link = { s.link with confirmationCount := 1 }) ∧
        (s.cycle.samples ≠ [] → 1 ≤ s.link.confirmationCount →
          t.link = { s.link with state := .synced, confirmationCount := 0, silenceCount := 0 })) ∧
      (s.link.state = .synced →
        (s.cycle.samples ≠ [] → t.link = { s.link with silenceCount := 0 }) ∧
        (s.cycle.samples = [] → s.link.silenceCount < 2 →
          t.link = { s.link with silenceCount := s.link.silenceCount + 1 }) ∧
        (s.cycle.samples = [] → 2 ≤ s.link.silenceCount →
          t.link = { s.link with
            state := .listen, listenTimer := some (2 * s.cycleLength + s.own.val * s.slotLength), announced := false,
            newCountdown := 0, confirmationCount := 0, silenceCount := 0, collisionCount := 0 }))) ∧
  ∀ (w t : State) (samples : Nat), t = linkAtCycleEnd samples w →
    (∀ code : Byte,
      (w.link.state = .integrate ∧ w.link.integrationCount ≠ 0 ∧ samples ≠ 0 ∧ code = 0x43) ∨
        (w.link.state = .integrate ∧ w.link.integrationCount ≠ 0 ∧ samples = 0 ∧ code = 0x14) ∨
        (w.link.state = .coldstart ∧ samples ≠ 0 ∧ 1 ≤ w.link.confirmationCount ∧ code = 0x46) ∨
        (w.link.state = .synced ∧ samples = 0 ∧ 2 ≤ w.link.silenceCount ∧ code = 0x18) →
      t.host = (queueNotice { kind := .link, time := w.now, station := none, number := none, code := code,
                              value := none } w).host) ∧
    (t.link.state = w.link.state → t.host = w.host) ∧
    (t.link.state ≠ .listen → Changes [.link, .host] w t) ∧
    (t.link.state = .listen → w.link.state ≠ .listen →
      t.cycle = { w.cycle with running := false, slotIndex := none, slotZeroAwaited := false, samples := [] } ∧
      t.line = { w.line with frame := none, ownSlot := .unjudged, ending := none } ∧
      (∀ j, t.peer j = { w.peer j with slotNote := none }) ∧ Changes [.cycle, .link, .line, .members, .host] w t)

/-- R5, R30 to R33, R38, R160, R163: at the send instant the built frame starts going out, for its 8 bit times of mark and 8
for each byte, and the line carries it: the mark's sixteen half-bit times, then each byte from its most significant bit on,
a 1 from low to high and a 0 from high to low. Before the send instant and after the end the station puts nothing on the
line. A frame that ends with nothing different read back and no foreign mark is clean; its requests go out with a deadline
and a send limit. What read-back showed is an operand of FRAME_END (log entry 9, DESIGN CHOICE). That the records marked
sent are those that have the numbers the frame carried is the model's reading (log entry 29, DEDUCED, unsafe): R160 and R163
speak of the record the copy was made from. -/
def Obligations.OwnFrameGoesOutAndEndsClean : Prop :=
  (∀ (s : State) (f : OwnFrame), s.line.frame = some f → f.remaining = none → s.link.state.transmits = true →
    s.cycle.running = true → s.cycle.slotZeroAwaited = false → s.cycle.slotIndex = some s.own →
    passed (s.slotStartTime s.own.val + BitVec.ofNat 32 (Config.sendOffset s.straps.rate)) s.now = true →
    ∃ t, exec .sendInstant s = .next t ∧
      t.line = { s.line with
        frame := some { f with remaining := some (Config.ticksOfBits s.straps.rate (8 + 8 * f.content.length)) } } ∧
      t.lde = .high ∧
      t.lineHalfBits = [.high, .high, .high, .low, .low, .low, .high, .low, .high, .low, .high, .low, .high, .low, .high,
          .low] ++ f.content.flatMap (fun b => [7, 6, 5, 4, 3, 2, 1, 0].flatMap fun i =>
        if b.getLsbD i then [.low, .high] else [.high, .low]) ∧
      t.lineHalfBits.length = 2 * (8 + 8 * f.content.length) ∧ s.lineHalfBits = [] ∧ Changes [.line] s t) ∧
  (∀ s : State, s.line.frame = none → s.lineHalfBits = [] ∧ s.lde = .low) ∧
  ∀ (s : State) (f : OwnFrame), s.line.frame = some f → f.remaining = some 0 → s.line.ownSlot ≠ .foreignMark →
    ∃ t, exec (.frameEnd false f.content) s = .next t ∧
      t.line = { s.line with frame := none, ownSlot := .clean s.link.collisionCount } ∧
      t.link = { s.link with
        newCountdown := if f.carriesNew then s.link.newCountdown - 1 else s.link.newCountdown
        announced := true, collisionCount := 0 } ∧
      t.exchange = { s.exchange with requests := s.exchange.requests.map fun r =>
        if r.number ∈ f.requests then
          { r with sent := true, deadline := some (s.cycle.cycleNumber + 2),
                   sendLimit := some (r.sendLimit.getD (s.cycle.cycleNumber + 8)) }
        else r } ∧
      t.lde = .low ∧ t.lineHalfBits = [] ∧ Changes [.link, .line, .exchange] s t

/-- R32 to R34: a frame end with a bit read back differently, or after a foreign mark, is collided. It counts and queues a
COLLISION notice, its requests go out all the same, and the second in a row sends the station to LISTEN. That a reception
set apart goes with the own slot is the model's (log entry 34, DEDUCED). Two more readings: the slot is judged after the
update of announced and NEW countdown, so that both are clear after the second collision (log entry 9, DEDUCED, unsafe); and
the records marked sent are those that have the numbers the frame carried (log entry 29, DEDUCED, unsafe), where R160 and
R163 speak of the record the copy was made from. What read-back showed is an operand of FRAME_END (log entry 9, DESIGN
CHOICE). -/
def Obligations.CollidedFrameEnd : Prop :=
  ∀ (s : State) (f : OwnFrame) (markDiffers : Bool) (readBack : List Byte), s.line.frame = some f →
    f.remaining = some 0 → s.link.state.transmits = true →
    (markDiffers = true ∨ readBack ≠ f.content ∨ s.line.ownSlot = .foreignMark) →
    ∃ t, exec (.frameEnd markDiffers readBack) s = .next t ∧ t.line.frame = none ∧
      t.exchange = { s.exchange with requests := s.exchange.requests.map fun r =>
        if r.number ∈ f.requests then
          { r with sent := true, deadline := some (s.cycle.cycleNumber + 2),
                   sendLimit := some (r.sendLimit.getD (s.cycle.cycleNumber + 8)) }
        else r } ∧
      (s.link.collisionCount = 0 →
        t.link = { s.link with
          newCountdown := if f.carriesNew then s.link.newCountdown - 1 else s.link.newCountdown
          announced := true, collisionCount := 1 } ∧
        t.line = { s.line with frame := none, ownSlot := .collided } ∧
        t.host = (queueNotice { kind := .collision, time := s.now, station := none, number := none, code := 0,
                                value := none } s).host ∧
        Changes [.link, .line, .exchange, .host] s t) ∧
      (1 ≤ s.link.collisionCount →
        t.link = { s.link with
          state := .listen, listenTimer := some (2 * s.cycleLength + s.own.val * s.slotLength), announced := false,
          newCountdown := 0, confirmationCount := 0, silenceCount := 0, collisionCount := 0 } ∧
        t.cycle = { s.cycle with running := false, slotIndex := none, slotZeroAwaited := false, samples := [] } ∧
        t.line = { s.line with frame := none, ownSlot := .unjudged, ending := none } ∧
        (∀ k, (t.peer k) = { s.peer k with slotNote := none }) ∧
        t.host = (queueNotice { kind := .link, time := s.now, station := none, number := none, code := 0x19,
                                value := none }
          (queueNotice { kind := .collision, time := s.now, station := none, number := none, code := 0,
                         value := none } s)).host ∧
        Changes [.cycle, .link, .line, .members, .exchange, .host] s t)

/-! ### Marks and frames -/

/-- R7, R8, R48: a mark starts a reception with the present line time as its mark time. While the grid runs it is attributed
to the slot it lies in; before the cycle start to slot 0; at or after a cycle end not yet taken to slot 0 of the next cycle.
That the attribution is fixed at the mark, and reaches past the cycle end, is the model's (log entry 8, DEDUCED): R8 speaks
of a valid frame and of a mark time equal to the cycle end. In INTEGRATE the own slot receives a frame too (R24, R50); that
the mark is then noted as a foreign one as well is the model's reading of R32 (log entry 12, DEDUCED). The own slot of a
transmitting station is the next statement. -/
def Obligations.MarkStartsAReception : Prop :=
  ∀ s : State, s.link.state ≠ .off → s.line.reception = none → s.lde = .low →
    (s.cycle.running = false →
      exec .markDetected s = .next (s.setLine { s.line with reception := some ⟨s.now, none⟩ })) ∧
    ∀ a : Attribution, s.cycle.running = true →
      (∃ k : Station, a = ⟨s.cycle.cycleStart, s.cycle.cycleNumber, k⟩ ∧ k.val < s.stationCount ∧
          k.val * s.slotLength ≤ (s.now - s.cycle.cycleStart).toNat ∧
          (s.now - s.cycle.cycleStart).toNat < (k.val + 1) * s.slotLength) ∨
        (a = ⟨s.cycle.cycleStart, s.cycle.cycleNumber, 0⟩ ∧ 2 ^ 31 ≤ (s.now - s.cycle.cycleStart).toNat) ∨
        (a = ⟨s.cycle.cycleStart + BitVec.ofNat 32 (s.stationCount * s.slotLength), s.cycle.cycleNumber + 1, 0⟩ ∧
          s.stationCount * s.slotLength ≤ (s.now - s.cycle.cycleStart).toNat ∧
          (s.now - s.cycle.cycleStart).toNat < 2 ^ 31) →
      (a.slot ≠ s.own →
        exec .markDetected s = .next (s.setLine { s.line with reception := some ⟨s.now, some a⟩ })) ∧
      (a.slot = s.own → s.link.state = .integrate → (∀ n, s.line.ownSlot ≠ .clean n) →
        exec .markDetected s = .next (s.setLine { s.line with
          ownSlot := if s.line.ownSlot = .unjudged then .foreignMark else s.line.ownSlot
          reception := some ⟨s.now, some a⟩ }))

/-- R32, R33: a foreign mark in the own slot of a transmitting state is noted before the send instant, turns a clean slot
into a collided one counted from the count before the clean judgement, and changes a collided slot no further. A mark before
the cycle start, and one at or after a cycle end not yet taken, lies in slot 0 (R8; log entry 8). -/
def Obligations.ForeignMarkInTheOwnSlot : Prop :=
  ∀ s : State, s.link.state.transmits = true → s.line.reception = none → s.lde = .low → s.cycle.running = true →
    (s.own.val < s.stationCount ∧ s.own.val * s.slotLength ≤ (s.now - s.cycle.cycleStart).toNat ∧
        (s.now - s.cycle.cycleStart).toNat < (s.own.val + 1) * s.slotLength) ∨
      (s.own = 0 ∧ s.stationCount * s.slotLength ≤ (s.now - s.cycle.cycleStart).toNat) →
    ∃ t, exec .markDetected s = .next t ∧
      (s.line.ownSlot = .unjudged → t = s.setLine { s.line with ownSlot := .foreignMark }) ∧
      (s.line.ownSlot = .foreignMark ∨ s.line.ownSlot = .collided → t = s) ∧
      (s.line.ownSlot = .clean 0 →
        t.link = { s.link with collisionCount := 1 } ∧ t.line = { s.line with ownSlot := .collided } ∧
        t.host = (queueNotice { kind := .collision, time := s.now, station := none, number := none, code := 0,
                                value := none } s).host ∧
        Changes [.link, .line, .host] s t) ∧
      (s.line.ownSlot = .clean 1 →
        t.link = { s.link with
          state := .listen, listenTimer := some (2 * s.cycleLength + s.own.val * s.slotLength), announced := false,
          newCountdown := 0, confirmationCount := 0, silenceCount := 0, collisionCount := 0 } ∧
        t.cycle.running = false ∧
        t.host = (queueNotice { kind := .link, time := s.now, station := none, number := none, code := 0x19,
                                value := none }
          (queueNotice { kind := .collision, time := s.now, station := none, number := none, code := 0,
                         value := none } s)).host ∧
        Changes [.cycle, .link, .line, .members, .host] s t)

/-- R49, R59: while the grid runs, a frame outside the own slot that fails the length, frame or parse check counts one check
error against the slot's owner, and one whose station field differs from the slot counts one intrusion, with an INTRUSION
notice; nothing else of it acts. R20, R21: in LISTEN a frame that fails a check, or is of the own number or of none of the N,
restarts the listen timer without the yield extension and does nothing more. -/
def Obligations.DiscardedFramesAreCountedOrRestartTheTimer : Prop :=
  (∀ (s : State) (received : List Byte) (mark : Time) (a : Attribution),
    s.line.reception = some { markTime := mark, attribution := some a } → s.link.state ≠ .listen →
    s.cycle.running = true → a.slot ≠ s.own →
    ((readReception received = .badLength ∨ readReception received = .badCheck ∨
        ∃ h, readReception received = .intact h none ∧ h.station = a.slot) →
      ∃ t, exec (.frameChecksEnd received) s = .next t ∧ t.line = { s.line with reception := none } ∧
        t.peer a.slot = { s.peer a.slot with checkErrors := min 65535 ((s.peer a.slot).checkErrors + 1) } ∧
        (∀ j, j ≠ a.slot → t.peer j = s.peer j) ∧ Changes [.line, .members] s t) ∧
    (∀ h items, readReception received = .intact h items → h.station ≠ a.slot →
      ∃ t, exec (.frameChecksEnd received) s = .next t ∧ t.line = { s.line with reception := none } ∧
        t.peer a.slot = { s.peer a.slot with intrusions := min 65535 ((s.peer a.slot).intrusions + 1) } ∧
        (∀ j, j ≠ a.slot → t.peer j = s.peer j) ∧
        t.host = (queueNotice { kind := .intrusion, time := s.now, station := some a.slot, number := none, code := 0,
                                value := none } s).host ∧
        Changes [.line, .members, .host] s t)) ∧
  ∀ (s : State) (received : List Byte) (r : Reception), s.line.reception = some r → s.link.state = .listen →
    (readReception received = .badLength ∨ readReception received = .badCheck ∨
      (∃ h, readReception received = .intact h none) ∨
      ∃ h items, readReception received = .intact h items ∧ (s.stationCount ≤ h.station.val ∨ h.station = s.own)) →
    ∃ t, exec (.frameChecksEnd received) s = .next t ∧
      t.link = { s.link with listenTimer := some (2 * s.cycleLength + s.own.val * s.slotLength) } ∧
      t.line = { s.line with reception := none } ∧ Changes [.link, .line] s t

/-- R24, R48, R50, R105, R168: in INTEGRATE a valid frame of the own number in the own slot sends the station back to LISTEN
with LINK OWN_SLOT; any other frame in the own slot, and any frame without grid outside LISTEN, only leaves the buffer. A
frame set apart by the own slot start of this instant is taken in the same way as one in the buffer (log entry 34), and
without either nothing happens (the model's, log entry 5). That an entry to LISTEN also drops a frame built and not yet
going out, and a reception set apart, is the model's (log entries 35 and 34). Two more readings: a frame whose mark came in
the own slot in INTEGRATE and whose checks end in SYNCED is discarded and counted nowhere (log entry 12, DEDUCED), and the
integration count is kept when a frame of the own number ends INTEGRATE (log entry 26, DEDUCED). -/
def Obligations.OwnSlotFramesAndFramesSetApart : Prop :=
  (∀ (s : State) (received : List Byte) (mark : Time) (a : Attribution),
    s.line.reception = some { markTime := mark, attribution := some a } → s.cycle.running = true → a.slot = s.own →
    (∀ h items, s.link.state = .integrate → readReception received = .intact h (some items) → h.station = s.own →
      ∃ t, exec (.frameChecksEnd received) s = .next t ∧
        t.link = { s.link with
          state := .listen, listenTimer := some (2 * s.cycleLength + s.own.val * s.slotLength) } ∧
        t.cycle = { s.cycle with running := false, slotIndex := none, slotZeroAwaited := false, samples := [] } ∧
        t.line = { frame := none, ownSlot := .unjudged, reception := none, ending := none } ∧
        (∀ j, t.peer j = { s.peer j with slotNote := none }) ∧
        t.host = (queueNotice { kind := .link, time := s.now, station := none, number := none, code := 0x15,
                                value := none } s).host ∧
        Changes [.cycle, .link, .line, .members, .host] s t) ∧
    (s.link.state ≠ .listen →
      (s.link.state ≠ .integrate ∨ readReception received = .badLength ∨ readReception received = .badCheck ∨
        (∃ h, readReception received = .intact h none) ∨
        ∃ h items, readReception received = .intact h items ∧ h.station ≠ s.own) →
      exec (.frameChecksEnd received) s = .next (s.setLine { s.line with reception := none }))) ∧
  (∀ (s : State) (received : List Byte) (r : Reception), s.line.reception = some r → s.cycle.running = false →
    s.link.state ≠ .listen → exec (.frameChecksEnd received) s = .next (s.setLine { s.line with reception := none })) ∧
  ∀ (s : State) (received : List Byte), s.line.reception = none →
    exec (.frameChecksEnd received) s =
        exec (.frameChecksEnd received) (s.setLine { s.line with reception := s.line.ending, ending := none }) ∧
      (s.line.ending = none → exec (.frameChecksEnd received) s = .next s)

/-- R8 to R10, R51, R56, R63: an in-window frame of the slot's owner enters a sample if its cycle still runs and the station
has none, sets the slot note if there is none, goes through restart detection, and then its items are taken from the state so
reached. -/
def Obligations.InWindowFrameIsHandedOn : Prop :=
  ∀ (s : State) (received : List Byte) (mark : Time) (a : Attribution) (h : Header) (items : List Item) (d : Int),
    s.line.reception = some { markTime := mark, attribution := some a } → s.link.state ≠ .listen →
    s.cycle.running = true → a.slot ≠ s.own → readReception received = .intact h (some items) → h.station = a.slot →
    d = (mark - (a.cycleStart + BitVec.ofNat 32 (a.slot.val * s.slotLength) +
      BitVec.ofNat 32 (Config.sendOffset s.straps.rate))).toInt →
    -32 ≤ d → d ≤ 32 → h.cycleNumber = a.cycleNumber →
    exec (.frameChecksEnd received) s = .next (takeItems a.slot items (detectRestart a.slot h.isNew
      (((s.setLine { s.line with reception := none }).setCycle { s.cycle with samples :=
        if a.cycleStart = s.cycle.cycleStart ∧ a.cycleNumber = s.cycle.cycleNumber ∧
            ∀ x ∈ s.cycle.samples, x.station ≠ a.slot then
          s.cycle.samples ++ [{ station := a.slot, deviation := d }]
        else s.cycle.samples }).setPeer a.slot
          { s.peer a.slot with slotNote := some ((s.peer a.slot).slotNote.getD d) })))

/-- R9, R27, R51, R56, R63: an out-of-window frame counts a timing error and goes through restart detection, and its items
are discarded unread. In COLDSTART it makes the station yield if it carries no COLDSTART flag or comes from a lower number.
A frame that the station has built and that is not yet going out, as there is where the frame taken was set apart by the own
slot start of this instant, is dropped at the yield, and the exchange stays as it is: the items the build took are in no
queue, and their Pending records stay with no copy. That is the model's choice (log entry 35, DESIGN CHOICE, unsafe): the
spec does not speak of that frame. -/
def Obligations.OutOfWindowFrameIsNotObeyed : Prop :=
  ∀ (s v : State) (received : List Byte) (mark : Time) (a : Attribution) (h : Header) (items : List Item) (d : Int),
    s.line.reception = some { markTime := mark, attribution := some a } → s.link.state ≠ .listen →
    s.cycle.running = true → a.slot ≠ s.own → readReception received = .intact h (some items) → h.station = a.slot →
    d = (mark - (a.cycleStart + BitVec.ofNat 32 (a.slot.val * s.slotLength) +
      BitVec.ofNat 32 (Config.sendOffset s.straps.rate))).toInt →
    (d < -32 ∨ 32 < d ∨ h.cycleNumber ≠ a.cycleNumber) →
    v = detectRestart a.slot h.isNew ((s.setLine { s.line with reception := none }).setPeer a.slot
      { s.peer a.slot with timingErrors := min 65535 ((s.peer a.slot).timingErrors + 1) }) →
    (s.link.state ≠ .coldstart ∨ (h.coldstart = true ∧ s.own < h.station) →
      exec (.frameChecksEnd received) s = .next v) ∧
    (s.link.state = .coldstart → (h.coldstart = false ∨ h.station < s.own) →
      ∃ t, exec (.frameChecksEnd received) s = .next t ∧
        t.link = { s.link with
          state := .listen, announced := false, newCountdown := 0, confirmationCount := 0, silenceCount := 0,
          collisionCount := 0,
          listenTimer := some (2 * s.cycleLength + s.own.val * s.slotLength + s.cycleLength) } ∧
        t.cycle = { s.cycle with running := false, slotIndex := none, slotZeroAwaited := false, samples := [] } ∧
        t.line = { frame := none, ownSlot := .unjudged, reception := none, ending := none } ∧
        (∀ j, t.peer j = { v.peer j with slotNote := none }) ∧
        t.host = (queueNotice { kind := .link, time := s.now, station := some h.station, number := none, code := 0x17,
                                value := none } v).host ∧
        Changes [.cycle, .link, .line, .members, .host] v t)

/-- R22, R23, R100, R114, R130, R166, R191: a valid frame of another station in LISTEN is adopted. Line time is stepped so
that its mark lay where the sender's header says, the grid starts in the sender's slot with a zero sample, deadlines, send
limits and expiry cycles move with the cycle number, and INTEGRATE is entered (g); what the table notes is noted before the
step, and the arm times age with it. The frame is then handed onward as an in-window one with deviation 0 (heard); after
that come LINK HEARD, the step at the table, and STEP, and the notices of the frame stand behind these (the model's order,
log entries 11 and 18). A step of more than 32 ticks empties the table, each entry with its result in acceptance order, and
frees every channel. -/
def Obligations.AdoptionTakesTheSendersTiming : Prop :=
  (∀ (s : State) (received : List Byte) (r : Reception) (h : Header) (items : List Item) (σ : Time) (shift : CycleNumber),
    s.line.reception = some r → s.link.state = .listen → readReception received = .intact h (some items) →
    h.station.val < s.stationCount → h.station ≠ s.own →
    σ = h.cycleStart + BitVec.ofNat 32 (h.station.val * s.slotLength) +
      BitVec.ofNat 32 (Config.sendOffset s.straps.rate) - r.markTime →
    shift = h.cycleNumber - s.cycle.cycleNumber →
    ∃ g heard,
      g.cycle = { lineTime := s.now + σ, running := true, cycleStart := h.cycleStart, cycleNumber := h.cycleNumber,
                  slotIndex := some h.station, slotZeroAwaited := false,
                  samples := [{ station := h.station, deviation := 0 }] } ∧
      g.link = { s.link with state := .integrate, integrationCount := 0, listenTimer := none } ∧
      g.line = { s.line with reception := none, ownSlot := .unjudged } ∧
      g.exchange = { s.exchange with
        requests := s.exchange.requests.map fun r =>
          { r with deadline := r.deadline.map (· + shift), sendLimit := r.sendLimit.map (· + shift) }
        cache := g.exchange.cache } ∧
      (∀ k, g.cacheOf k = (s.cacheOf k).map fun c => { c with expiry := c.expiry + shift }) ∧
      g.table = (ageArmTimes (s.now + σ) (noteTimes s.now s)).table ∧
      Changes [.cycle, .link, .line, .exchange, .table] s g ∧
      heard = takeItems h.station items (detectRestart h.station h.isNew
        ((g.setPeer h.station { s.peer h.station with slotNote := some ((s.peer h.station).slotNote.getD 0) }).setHost
          { s.host with notices := [], lost := 0 })) ∧
      exec (.frameChecksEnd received) s = .next (queueBehind heard.host.notices heard.host.lost
        (queueNotice { kind := .step, time := s.now + σ, station := none, number := none, code := 0, value := some σ }
          (adoptionStep s.now σ (s.edgesAt s.now)
            (queueNotice { kind := .link, time := s.now + σ, station := some h.station, number := none, code := 0x21,
                           value := none } (heard.setHost s.host)))))) ∧
  (∀ (v σ : Time) (left : List PendingEdge) (s t : State), t = adoptionStep v σ left s →
    (σ = 0 → t = s) ∧ (σ ≠ 0 → σ.toInt.natAbs ≤ 32 → t = tableStep v σ left s) ∧
    (32 < σ.toInt.natAbs → TableOk s → ChannelsOk s →
      t.host = (s.table.foldl (fun u e => produceResult e .timebaseStep u) s).host ∧
      t.exchange = (s.table.foldl (fun u e => produceResult e .timebaseStep u) s).exchange ∧
      t.table = [] ∧ (∀ c, t.channel c = { s.channel c with owner := none, phase := .inactive }) ∧
      Changes [.exchange, .table, .channels, .host] s t)) ∧
  ∀ (notices : List Notice) (lost : Nat) (s t : State), s.host.notices.length ≤ 32 → t = queueBehind notices lost s →
    t.host.notices = (s.host.notices ++ notices).take 32 ∧
      t.host.lost = min (2 ^ 64 - 1) (s.host.lost + (s.host.notices.length + notices.length - 32) + lost) ∧
      Changes [.host] s t

/-! ### Restarts and items of peers -/

/-- R63, R64: every valid frame, in-window or not, is looked at for a restart, before its items are taken. One is detected
where the NEW flag is set, newSeen is clear and the state is not UNKNOWN: the peer's cache records go, its Pending records
fail PEER_RESTARTED in order and their waiting copies leave the send queue (R167), its BOUND entries leave with no result and
free their channels, and its expected event number is absent. -/
def Obligations.NewFlagShowsARestart : Prop :=
  ∀ (s : State) (k : Station),
    (∀ (within isNew : Bool) (d : Int), reportFrame k within d isNew s =
      detectRestart k isNew (s.setPeer k ((s.peer k).noteFrame within d))) ∧
    (∀ (h : Header) (items : List Item) (d : Int),
      handOn h items true d s = takeItems h.station items (reportFrame h.station true d h.isNew s)) ∧
    detectRestart k false s = s.setPeer k { s.peer k with newSeen := false } ∧
    ((s.peer k).newSeen = true → detectRestart k true s = s) ∧
    ((s.peer k).newSeen = false → (s.peer k).state = .unknown →
      detectRestart k true s = s.setPeer k { s.peer k with newSeen := true }) ∧
    ((s.peer k).newSeen = false → (s.peer k).state ≠ .unknown → ExchangeOk s → TableOk s →
      ∃ t, detectRestart k true s = t ∧ t.peer k = { s.peer k with newSeen := true, expectedEvent := none } ∧
        (∀ j, j ≠ k → t.peer j = s.peer j) ∧ t.cacheOf k = [] ∧ (∀ j, j ≠ k → t.cacheOf j = s.cacheOf j) ∧
        t.exchange = { s.exchange with
          requests := s.exchange.requests.filter fun r => r.target != k
          sendQueue := s.exchange.sendQueue.filter fun i => (s.requestsTo k).all fun r => i.requestNumber != some r.number
          cache := t.exchange.cache } ∧
        t.host = ((s.requestsTo k).foldl (fun u r => queueNotice
          { kind := .failed, time := s.now, station := some k, number := some r.number, code := 2, value := none } u)
          s).host ∧
        t.table = (s.table.filter fun e => !(e.origin == k && e.bound)) ∧
        (ChannelsOk s → ∀ c : ChannelNumber,
          ((∃ e ∈ s.table, e.origin = k ∧ e.bound = true ∧ e.state = .running ∧ e.channel = c) →
            t.channel c = { s.channel c with owner := none, phase := .inactive }) ∧
          ((∀ e ∈ s.table, e.origin = k → e.bound = true → e.state = .running → e.channel ≠ c) →
            t.channel c = s.channel c)) ∧
        Changes Block.ofMembers s t)

/-- R52, R53, R81, R82, R104: the items of a frame are taken one after another. An EVENT queues a GAP notice of the missing
count where the expected number is present and differs, sets the expected number to its own plus 1, and is then matched. A
REPLY addressed here settles the Pending record of its number and sender: the record and its waiting copy go, and an ANSWERED
notice is queued; any other REPLY is ignored. A RESULT addressed here queues a RESULT notice. An item addressed elsewhere is
ignored. -/
def Obligations.ItemsOfAPeerAreTakenInOrder : Prop :=
  ∀ (s : State) (k : Station),
    takeItems k [] s = s ∧ (∀ i more, takeItems k (i :: more) s = takeItems k more (takeItem k i s)) ∧
    (∀ (i : Input) (edge : Edge) (n : EventNumber) (stamp : Time),
      ∃ u, takeItem k (.event i edge n stamp) s =
          matchEvent { station := k, input := i, edge := edge, stamp := stamp } u ∧
        u.peer k = { s.peer k with expectedEvent := some (n + 1) } ∧ (∀ j, j ≠ k → u.peer j = s.peer j) ∧
        ((∀ x, (s.peer k).expectedEvent = some x → x = n) → u.host = s.host) ∧
        (∀ x, (s.peer k).expectedEvent = some x → x ≠ n →
          u.host = (queueNotice { kind := .gap, time := s.now, station := some k, number := none, code := 0,
                                  value := some ((n - x).setWidth 32) } s).host) ∧
        Changes [.members, .host] s u) ∧
    (∀ (n : RequestNumber) (code : ReplyCode) (t : State), t = takeItem k (.reply s.own n code) s →
      (∀ r, s.requestNumbered n = some r → r.target = k →
        t.exchange = { s.exchange with
            requests := s.exchange.requests.filter fun x => x.number != n
            sendQueue := s.exchange.sendQueue.filter fun i => i.requestNumber != some n } ∧
          t.host = (queueNotice { kind := .answered, time := s.now, station := some k, number := some n,
                                  code := code.code.setWidth 8, value := none } s).host ∧
          Changes [.exchange, .host] s t) ∧
      ((∀ r, s.requestNumbered n = some r → r.target ≠ k) → t = s)) ∧
    (∀ (n : RequestNumber) (o : EntryOutcome) (lastStart : Option Time),
      takeItem k (.result s.own n o lastStart) s =
        queueNotice { kind := .result, time := s.now, station := some k, number := some n, code := o.code.setWidth 8,
                      value := lastStart } s) ∧
    ∀ other : Station, other ≠ s.own →
      (∀ n r, takeItem k (.request other n r) s = s) ∧ (∀ n code, takeItem k (.reply other n code) s = s) ∧
        ∀ n o lastStart, takeItem k (.result other n o lastStart) s = s

/-! ### The pins and the events made here -/

/-- R71, R72: a sample equal to the settled level ends the hold; one that differs starts a hold at this line time, or leaves
the hold that is in progress. Where a recognition is due at this tick it is taken first (log entry 14), and in a reset no
pin is sampled. -/
def Obligations.PinSampleStartsOrEndsAHold : Prop :=
  (∀ (s : State) (p : Pin) (level : Level), s.inReset = false → (s.pin p).recognised = false →
    ∃ t, exec (.pinTransition p level) s = .next t ∧
      (level = (s.pin p).settled → t.pin p = { s.pin p with level := level, hold := none }) ∧
      (level ≠ (s.pin p).settled → (s.pin p).hold = none →
        t.pin p = { s.pin p with level := level, hold := some { start := s.now, count := 0 } }) ∧
      (level ≠ (s.pin p).settled → (s.pin p).hold ≠ none → t.pin p = { s.pin p with level := level }) ∧
      (∀ q, q ≠ p → t.pin q = s.pin q) ∧ t.capture.inputs = s.capture.inputs ∧
      t.capture.eventNumber = s.capture.eventNumber ∧ Changes [.capture] s t) ∧
  (∀ (s u : State) (p : Pin) (level : Level), s.inReset = false → exec (.edgeRecognised p) s = .next u →
    (u.pin p).recognised = false ∧ exec (.pinTransition p level) s = exec (.pinTransition p level) u) ∧
  ∀ (s : State) (p : Pin) (level : Level), s.inReset = true → exec (.pinTransition p level) s = .next s

/-- R72, R73, R75 to R78: when a hold has lasted the filter the settled level becomes the new one. The edge is an event,
dated back by the filter, exactly where the edge select names it: it is written to the input's record, matched at the own
station (x), and, made on a broadcast input in a transmitting state, takes the next number and joins the send queue, or is
dropped with a notice where that is full. -/
def Obligations.RecognisedEdgeIsAnEventWhereSelected : Prop :=
  ∀ (s u : State) (p : Pin) (h : Hold) (edge : Edge) (stamp : Time), (s.pin p).hold = some h →
    (s.pin p).filter.toNat ≤ h.count → edge = (if (s.pin p).settled = .low then .rise else .fall) →
    stamp = s.now - (s.pin p).filter.setWidth 32 →
    u = s.setPin p { s.pin p with settled := if (s.pin p).settled = .low then .high else .low, hold := none } →
    ((s.pin p).edgeSelect = .none ∨ ((s.pin p).edgeSelect = .rise ∧ edge = .fall) ∨
        ((s.pin p).edgeSelect = .fall ∧ edge = .rise) →
      exec (.edgeRecognised p) s = .next u) ∧
    ((s.pin p).edgeSelect = .both ∨ ((s.pin p).edgeSelect = .rise ∧ edge = .rise) ∨
        ((s.pin p).edgeSelect = .fall ∧ edge = .fall) →
      ∀ x, x = matchEvent { station := s.own, input := inputOfPin p, edge := edge, stamp := stamp }
          (u.setInputRecord (inputOfPin p)
            { s.inputRecord (inputOfPin p) with
              lastStamp := some stamp, lastEdge := some edge
              edgeCount := (s.inputRecord (inputOfPin p)).edgeCount + 1 }) →
        ((s.inputRecord (inputOfPin p)).broadcast = false ∨ s.link.state.transmits = false →
          exec (.edgeRecognised p) s = .next x) ∧
        ((s.inputRecord (inputOfPin p)).broadcast = true → s.link.state.transmits = true →
          (s.exchange.sendQueue.length < 24 → exec (.edgeRecognised p) s = .next
            ((x.setCapture { x.capture with eventNumber := s.capture.eventNumber + 1 }).setExchange
              { x.exchange with sendQueue := s.exchange.sendQueue ++
                [.event (inputOfPin p) edge s.capture.eventNumber stamp] })) ∧
          (24 ≤ s.exchange.sendQueue.length → exec (.edgeRecognised p) s = .next
            (queueNotice { kind := .dropped, time := s.now, station := none,
                           number := some (s.capture.eventNumber.setWidth 12),
                           code := BitVec.ofNat 8 (inputOfPin p).val, value := none }
              (x.setCapture { x.capture with eventNumber := s.capture.eventNumber + 1 })))))

/-- R74 to R78, R182: MARK on an input 8..15 makes a RISE event stamped now: it is written to the input's record and matched
at the own station (x). A broadcast one made while transmitting takes the next number and joins the send queue, or is dropped
with a notice where that is full; the response says which. -/
def Obligations.MarkMakesANumberedEvent : Prop :=
  ∀ (s x y : State) (i : Input) (more : List Byte), s.takesCommands = true → 8 ≤ i.val →
    x = matchEvent { station := s.own, input := i, edge := .rise, stamp := s.now }
      ((s.setHost { s.host with transaction := .idle }).setInputRecord i
        { s.inputRecord i with
          lastStamp := some s.now, lastEdge := some .rise, edgeCount := (s.inputRecord i).edgeCount + 1 }) →
    y = x.setCapture { x.capture with eventNumber := s.capture.eventNumber + 1 } →
    ((s.inputRecord i).broadcast = false ∨ s.link.state.transmits = false →
      exec (.mark (BitVec.ofNat 8 i.val :: more)) s = .next (x.setHost { x.host with
        held := [0x06, 0x00] ++ bytes32 s.now ++ [0x00, 0x00] })) ∧
    ((s.inputRecord i).broadcast = true → s.link.state.transmits = true →
      (s.exchange.sendQueue.length < 24 →
        exec (.mark (BitVec.ofNat 8 i.val :: more)) s = .next ((y.setExchange { y.exchange with
            sendQueue := s.exchange.sendQueue ++ [.event i .rise s.capture.eventNumber s.now] }).setHost { y.host with
          held := [0x06, 0x00] ++ bytes32 s.now ++ [s.capture.eventNumber, 0xC0] })) ∧
      (24 ≤ s.exchange.sendQueue.length →
        ∃ z, z = queueNotice { kind := .dropped, time := s.now, station := none,
                               number := some (s.capture.eventNumber.setWidth 12), code := BitVec.ofNat 8 i.val,
                               value := none } y ∧
          exec (.mark (BitVec.ofNat 8 i.val :: more)) s = .next (z.setHost { z.host with
            held := [0x06, 0x00] ++ bytes32 s.now ++ [s.capture.eventNumber, 0x80] })))

/-! ### The Order Table and the channels -/

/-- R14, R110: the next edge is one that has been reached; none reached is earlier, or at the same time of an earlier kind,
or on a full tie of an entry accepted earlier. -/
def Obligations.EdgesAreTakenInTimeAndKindOrder : Prop :=
  ∀ (s : State) (limit : Time) (d : PendingEdge), s.nextDueEdge limit = some d →
    ∃ earlier e later, s.table = earlier ++ e :: later ∧ e.pendingEdge = some d ∧ passed d.time limit = true ∧
      (∀ x ∈ earlier, ∀ d', x.pendingEdge = some d' → passed d'.time limit = true →
        (limit - d'.time).toNat < (limit - d.time).toNat ∨
          ((limit - d'.time).toNat = (limit - d.time).toNat ∧ d.kind.rank < d'.kind.rank)) ∧
      ∀ x ∈ later, ∀ d', x.pendingEdge = some d' → passed d'.time limit = true →
        (limit - d'.time).toNat < (limit - d.time).toNat ∨
          ((limit - d'.time).toNat = (limit - d.time).toNat ∧ d.kind.rank ≤ d'.kind.rank)

/-- R127, R128, R155: an entry that leaves is no longer in the table, and every other stays. One with REPORT set gives a
result for every outcome but ORIGIN_LOST and STOPPED: at its own origin a RESULT notice with its number, the outcome's code
and its last start, and for a peer a RESULT item at the tail of the reply queue, or none where that holds 16. -/
def Obligations.ResultsGoToTheirOrigins : Prop :=
  (∀ (s t : State) (e : Entry) (o : EntryOutcome), t = depart e o s →
    t.entryAt e.index = none ∧ (∀ j, j ≠ e.index → t.entryAt j = s.entryAt j) ∧
      t.host = (produceResult e o s).host ∧ t.exchange = (produceResult e o s).exchange ∧
      Changes [.exchange, .table, .host] s t) ∧
  (∀ (s : State) (e : Entry) (o : EntryOutcome),
    (e.report = false ∨ o = .originLost ∨ o = .stopped → produceResult e o s = s) ∧
    (e.report = true → o ≠ .originLost → o ≠ .stopped →
      (e.origin = s.own → produceResult e o s = queueNotice
        { kind := .result, time := s.now, station := some s.own, number := some e.number, code := o.code.setWidth 8,
          value := e.lastStart } s) ∧
      (e.origin ≠ s.own → s.exchange.replyQueue.length < 16 → produceResult e o s = s.setExchange { s.exchange with
        replyQueue := s.exchange.replyQueue ++ [.result e.origin e.number o e.lastStart] }) ∧
      (e.origin ≠ s.own → 16 ≤ s.exchange.replyQueue.length → produceResult e o s = s))) ∧
  EntryOutcome.completed.code = 0 ∧ EntryOutcome.cancelled.code = 1 ∧ EntryOutcome.preempted.code = 2 ∧
    EntryOutcome.collided.code = 3 ∧ EntryOutcome.expired.code = 4 ∧ EntryOutcome.late.code = 5 ∧
    EntryOutcome.timebaseStep.code = 6 ∧ EntryOutcome.sourceLost.code = 8

/-- R116, R117, R121, R138 to R141: a start edge that is next due is a start at its own time. A start on a free channel is
granted. On an owned one without PREEMPT it is refused: an ABSOLUTE entry, or an EVENT entry at its last fire, leaves
COLLIDED, and another EVENT entry uses a fire and returns to ARMED at the start's time, unless its expiry is reached, when it
leaves EXPIRED. With PREEMPT the owner leaves PREEMPTED and the newcomer takes the channel. An entry that leaves gives its
result (R128), by the statement before. -/
def Obligations.StartEdgeIsJudgedByTheChannel : Prop :=
  (∀ (s : State) (i : Index) (x : Time), s.nextDueEdge s.now = some { index := i, kind := .start, time := x } →
    exec (.startEdge i) s = .next (requestStart i x s)) ∧
  ∀ (s t : State) (i : Index) (x : Time) (e : Entry), s.entryAt i = some e → t = requestStart i x s →
    ((s.channel e.channel).owner = none →
      t.entryAt i = some (e.startedAt x) ∧ (∀ j, j ≠ i → t.entryAt j = s.entryAt j) ∧
      t.channel e.channel = { s.channel e.channel with owner := some i, phase := .active } ∧
      (∀ n, n ≠ e.channel → t.channel n = s.channel n) ∧ Changes [.table, .channels] s t) ∧
    (∀ o, (s.channel e.channel).owner = some o → e.preempt = false →
      (e.event = none ∨ (∃ p, e.event = some p ∧ p.fires = 1) → t.entryAt i = none ∧
        t.host = (produceResult e .collided s).host ∧ t.exchange = (produceResult e .collided s).exchange) ∧
      (∀ p, e.event = some p → p.fires ≠ 1 →
        ((p.expiryReached = true ∨ ∃ y, p.expiry = some y ∧ passed y x = true) → t.entryAt i = none ∧
          t.host = (produceResult e .expired s).host ∧ t.exchange = (produceResult e .expired s).exchange) ∧
        (p.expiryReached = false → (∀ y, p.expiry = some y → passed y x = false) → t.host = s.host ∧
          t.exchange = s.exchange ∧ t.entryAt i = some
          { e with
            state := .armed, active := false, nextEdge := none, aged := false
            train := e.train.map fun tr => { tr with followingStart := none }
            event := some { p with fires := if p.fires = 0 then 0 else p.fires - 1, armTime := x } })) ∧
      (∀ j, j ≠ i → t.entryAt j = s.entryAt j) ∧ Changes [.exchange, .table, .host] s t) ∧
    (∀ o, (s.channel e.channel).owner = some o → o ≠ i → e.preempt = true →
      t.entryAt o = none ∧ t.entryAt i = some (e.startedAt x) ∧
      (∀ owner, s.entryAt o = some owner → t.host = (produceResult owner .preempted s).host ∧
        t.exchange = (produceResult owner .preempted s).exchange) ∧
      (∀ j, j ≠ i → j ≠ o → t.entryAt j = s.entryAt j) ∧
      t.channel e.channel = { s.channel e.channel with owner := some i, phase := .active } ∧
      (∀ n, n ≠ e.channel → t.channel n = s.channel n) ∧ Changes Block.ofEntries s t)

/-- R116, R119, R142, R145: a granted start or phase start sets the end a width later, none for a hold, and a TRAIN counts
the phase and has a following start a period later while phases are left. Between the phases the end drives the channel idle
and leaves it owned, and the next phase start drives it active unjudged. -/
def Obligations.TrainRunsPhaseByPhase : Prop :=
  (∀ (e : Entry) (x : Time),
    e.startedAt x = { e with
      state := .running, active := true, lastStart := some x, aged := false, nextEdge := (e.startedAt x).nextEdge
      train := (e.startedAt x).train } ∧
    (e.width = 0 → (e.startedAt x).nextEdge = none) ∧
    (e.width ≠ 0 → (e.startedAt x).nextEdge = some (x + e.width.setWidth 32)) ∧
    (e.train = none → (e.startedAt x).train = none) ∧
    ∀ tr, e.train = some tr →
      (tr.count = 0 → (e.startedAt x).train = some { tr with followingStart := some (x + tr.period.setWidth 32) }) ∧
      (tr.count ≠ 0 → tr.countRemaining = 1 →
        (e.startedAt x).train = some { tr with countRemaining := 0, followingStart := none }) ∧
      (tr.count ≠ 0 → 1 < tr.countRemaining.toNat →
        (e.startedAt x).train = some { tr with
          countRemaining := tr.countRemaining - 1, followingStart := some (x + tr.period.setWidth 32) })) ∧
  (∀ (s t : State) (i : Index) (e : Entry) (tr : TrainPart) (x y : Time), s.entryAt i = some e → e.train = some tr →
    tr.followingStart = some y → t = takeEnd i x s →
    t.entryAt i = some { e with active := false, nextEdge := some y, train := some { tr with followingStart := none } } ∧
      (∀ j, j ≠ i → t.entryAt j = s.entryAt j) ∧
      t.channel e.channel = { s.channel e.channel with phase := .inactive } ∧
      (∀ n, n ≠ e.channel → t.channel n = s.channel n) ∧ Changes [.table, .channels] s t) ∧
  (∀ (s : State) (i : Index) (x : Time), s.nextDueEdge s.now = some { index := i, kind := .phase, time := x } →
    exec (.trainPhaseStart i) s = .next (startPhase i x s)) ∧
  ∀ (s t : State) (i : Index) (e : Entry) (x : Time), s.entryAt i = some e → t = startPhase i x s →
    t.entryAt i = some (e.startedAt x) ∧ (∀ j, j ≠ i → t.entryAt j = s.entryAt j) ∧
      t.channel e.channel = { s.channel e.channel with phase := .active } ∧
      (∀ n, n ≠ e.channel → t.channel n = s.channel n) ∧ Changes [.table, .channels] s t

/-- R114, R115, R118, R120, R145: an end edge that is next due is an end at its own time. The end that closes a run frees
the channel. An ABSOLUTE entry, or an EVENT entry at its last fire, leaves COMPLETED; another EVENT entry uses a fire and
returns to ARMED with the end's time as its arm time, unless its expiry is reached, when it leaves EXPIRED. An entry that
leaves gives its result (R128), by ResultsGoToTheirOrigins. -/
def Obligations.ClosingEndCompletesTheRun : Prop :=
  (∀ (s : State) (i : Index) (x : Time), s.nextDueEdge s.now = some { index := i, kind := .finish, time := x } →
    exec (.endEdge i) s = .next (takeEnd i x s)) ∧
  ∀ (s t : State) (i : Index) (x : Time) (e : Entry), s.entryAt i = some e →
    (∀ tr, e.train = some tr → tr.followingStart = none) → (s.channel e.channel).owner = some i → t = takeEnd i x s →
      t.channel e.channel = { s.channel e.channel with owner := none, phase := .inactive } ∧
      (∀ n, n ≠ e.channel → t.channel n = s.channel n) ∧ (∀ j, j ≠ i → t.entryAt j = s.entryAt j) ∧
      (e.event = none ∨ (∃ p, e.event = some p ∧ p.fires = 1) → t.entryAt i = none ∧
        t.host = (produceResult e .completed s).host ∧ t.exchange = (produceResult e .completed s).exchange) ∧
      (∀ p, e.event = some p → p.fires ≠ 1 →
        ((p.expiryReached = true ∨ ∃ y, p.expiry = some y ∧ passed y x = true) → t.entryAt i = none ∧
          t.host = (produceResult e .expired s).host ∧ t.exchange = (produceResult e .expired s).exchange) ∧
        (p.expiryReached = false → (∀ y, p.expiry = some y → passed y x = false) → t.host = s.host ∧
          t.exchange = s.exchange ∧ t.entryAt i = some
          { e with
            state := .armed, active := false, nextEdge := none, aged := false
            train := e.train.map fun tr => { tr with followingStart := none }
            event := some { p with fires := if p.fires = 0 then 0 else p.fires - 1, armTime := x } })) ∧
      Changes Block.ofEntries s t

/-- R114, R115, R124, R127, R128: what time brings to an entry. An expiry that is next due removes its entry, with a result
where REPORT is set. An old arm time is moved up to 2^30 ticks ago, a hold is noted as aged, and an expiry reached while the
entry is not ARMED is noted. -/
def Obligations.TimeReachesTheEntries : Prop :=
  (∀ (s : State) (i : Index) (x : Time) (e : Entry),
    s.nextDueEdge s.now = some { index := i, kind := .expiry, time := x } → s.entryAt i = some e →
    ∃ t, exec (.expiry i) s = .next t ∧ t = takeExpiry i s ∧ t.entryAt i = none ∧
      (∀ j, j ≠ i → t.entryAt j = s.entryAt j) ∧
      (e.report = false → t.host = s.host ∧ t.exchange = s.exchange) ∧
      (e.report = true → e.origin = s.own → t.exchange = s.exchange ∧
        t.host = (queueNotice { kind := .result, time := s.now, station := some s.own, number := some e.number,
                                code := 4, value := e.lastStart } s).host) ∧
      (e.report = true → e.origin ≠ s.own → t.host = s.host ∧
        t.exchange = { s.exchange with replyQueue := if s.exchange.replyQueue.length < 16 then
          s.exchange.replyQueue ++ [.result e.origin e.number .expired e.lastStart] else s.exchange.replyQueue }) ∧
      Changes [.exchange, .table, .host] s t) ∧
  (∀ (s : State) (i : Index) (e : Entry) (p : EventPart), s.entryAt i = some e → e.state = .armed →
    e.event = some p → atOrAfter s.now (p.armTime + BitVec.ofNat 32 (2 ^ 30)) = true →
    ∃ t, exec (.armTimeAgeing i) s = .next t ∧
      t.entryAt i = some { e with event := some { p with armTime := s.now - BitVec.ofNat 32 (2 ^ 30) } } ∧
      (∀ j, j ≠ i → t.entryAt j = s.entryAt j) ∧ Changes [.table] s t) ∧
  (∀ (s : State) (i : Index) (e : Entry) (x : Time), s.entryAt i = some e → e.state = .running → e.nextEdge = none →
    e.lastStart = some x → atOrAfter s.now (x + BitVec.ofNat 32 (2 ^ 30)) = true →
    ∃ t, exec (.holdAged i) s = .next t ∧ t.entryAt i = some { e with aged := true } ∧
      (∀ j, j ≠ i → t.entryAt j = s.entryAt j) ∧ Changes [.table] s t) ∧
  ∀ (s : State) (i : Index) (e : Entry) (p : EventPart) (x : Time), s.entryAt i = some e → e.state ≠ .armed →
    e.event = some p → p.expiry = some x → passed x s.now = true →
    ∃ t, exec (.expiryNotedAsReached i) s = .next t ∧
      t.entryAt i = some { e with event := some { p with expiryReached := true } } ∧
      (∀ j, j ≠ i → t.entryAt j = s.entryAt j) ∧ Changes [.table] s t

/-- R111 to R113: an event meets the entries that are ARMED when it is made, one after another in acceptance order. An entry
that is no longer ARMED, or whose trigger, edge or arm time does not admit the event, is left as it is. Of one that matches,
a due time ahead makes it SCHEDULED; a passed one goes by its late policy, and an entry that leaves then, LATE or EXPIRED,
gives its result (R128), by ResultsGoToTheirOrigins. -/
def Obligations.EventMeetsTheWatchingEntries : Prop :=
  (∀ (s : State) (ev : Event), matchEvent ev s =
      ((s.table.filter fun e => e.state == .armed).map fun e => e.index).foldl (fun u i => meetEvent ev i u) s ∧
    Changes Block.ofEntries s (matchEvent ev s)) ∧
  (∀ (s : State) (ev : Event) (i : Index), (∀ e, s.entryAt i = some e → e.state ≠ .armed) → meetEvent ev i s = s) ∧
  ∀ (s t : State) (ev : Event) (i : Index) (e : Entry) (p : EventPart) (due : Time), s.entryAt i = some e →
    e.state = .armed → e.event = some p → due = ev.stamp + p.delay.setWidth 32 → t = meetEvent ev i s →
    (p.triggerStation ≠ ev.station ∨ p.triggerInput ≠ ev.input ∨ (p.triggerEdge = .rise ∧ ev.edge = .fall) ∨
      (p.triggerEdge = .fall ∧ ev.edge = .rise) ∨ 2 ^ 31 ≤ (ev.stamp - p.armTime).toNat → t = s) ∧
    (p.triggerStation = ev.station → p.triggerInput = ev.input →
      (p.triggerEdge = .either ∨ (p.triggerEdge = .rise ∧ ev.edge = .rise) ∨ (p.triggerEdge = .fall ∧ ev.edge = .fall)) →
      (ev.stamp - p.armTime).toNat < 2 ^ 31 →
      (0 < (due - s.now).toNat → (due - s.now).toNat ≤ 2 ^ 24 →
        t.entryAt i = some
            { e with state := .scheduled, nextEdge := some due, active := false,
                     train := e.train.map fun tr => { tr with countRemaining := tr.count } } ∧
          (∀ j, j ≠ i → t.entryAt j = s.entryAt j) ∧ Changes [.table] s t) ∧
      ((due - s.now).toNat = 0 ∨ 2 ^ 24 < (due - s.now).toNat →
        (p.latePolicy = .rearm → t = s) ∧
        (p.latePolicy = .drop →
          (p.fires = 1 → t.entryAt i = none ∧
            t.host = (produceResult e .late s).host ∧ t.exchange = (produceResult e .late s).exchange) ∧
          (p.fires ≠ 1 → (p.expiryReached = true ∨ ∃ y, p.expiry = some y ∧ passed y s.now = true) →
            t.entryAt i = none ∧
            t.host = (produceResult e .expired s).host ∧ t.exchange = (produceResult e .expired s).exchange) ∧
          (p.fires ≠ 1 → p.expiryReached = false → (∀ y, p.expiry = some y → passed y s.now = false) →
            t.host = s.host ∧ t.exchange = s.exchange ∧ t.entryAt i = some
              { e with
                active := false, nextEdge := none, aged := false
                train := e.train.map fun tr => { tr with followingStart := none }
                event := some { p with fires := if p.fires = 0 then 0 else p.fires - 1, armTime := s.now } }) ∧
          (∀ j, j ≠ i → t.entryAt j = s.entryAt j) ∧ Changes [.exchange, .table, .host] s t) ∧
        (p.latePolicy = .startNow → ∃ u, t = requestStart i s.now u ∧
          u.entryAt i = some { e with train := e.train.map fun tr => { tr with countRemaining := tr.count } } ∧
          (∀ j, j ≠ i → u.entryAt j = s.entryAt j) ∧ Changes [.table] s u)))

/-- R122 to R126, R146: an accepted AMEND by the state of its subject. ARMED: the delta is added to the delay and no edge is
taken. SCHEDULED: the start moves, and one that is then passed is a start now. A RUNNING PULSE: the end moves, and one that
is then passed is an end now; a hold gets an end a delta above 0 after its last start, and ends now where that is passed,
where the delta is 0 or below, or where it is aged. A RUNNING TRAIN: every edge it has to take moves; an end then passed is
taken now, and after it a following start then passed. A CANCEL removes its subject whatever its state, with outcome
CANCELLED and its result (R128, by ResultsGoToTheirOrigins), and releases the channel it owns. -/
def Obligations.AmendMovesEdgesAndCancelRemoves : Prop :=
  (∀ (s t : State) (e : Entry) (delta : BitVec 24) (δ : Time), s.entryAt e.index = some e → t = amendEntry e delta s →
    δ = delta.signExtend 32 →
    (∀ p, e.state = .armed → e.event = some p →
      t.entryAt e.index = some { e with event := some { p with delay := p.delay + delta } } ∧
        (∀ j, j ≠ e.index → t.entryAt j = s.entryAt j) ∧ Changes [.table] s t) ∧
    (∀ x, e.state = .scheduled → e.nextEdge = some x →
      ∃ u, u.entryAt e.index = some { e with nextEdge := some (x + δ) } ∧
        (∀ j, j ≠ e.index → u.entryAt j = s.entryAt j) ∧ Changes [.table] s u ∧
        (passed (x + δ) s.now = false → t = u) ∧ (passed (x + δ) s.now = true → t = requestStart e.index s.now u)) ∧
    (∀ newEnd, e.state = .running → e.train = none →
      ((∃ x, e.nextEdge = some x ∧ newEnd = x + δ) ∨
        (e.nextEdge = none ∧ e.aged = false ∧ 0 < delta.toInt ∧ ∃ x, e.lastStart = some x ∧ newEnd = x + δ)) →
      (passed newEnd s.now = true → t = takeEnd e.index s.now s) ∧
      (passed newEnd s.now = false → t.entryAt e.index = some { e with nextEdge := some newEnd } ∧
        (∀ j, j ≠ e.index → t.entryAt j = s.entryAt j) ∧ Changes [.table] s t)) ∧
    (e.state = .running → e.train = none → e.nextEdge = none → e.aged = true ∨ delta.toInt ≤ 0 →
      t = takeEnd e.index s.now s) ∧
    ∀ tr x, e.state = .running → e.train = some tr → e.nextEdge = some x →
      ∃ u, u.entryAt e.index = some { e with
          nextEdge := some (x + δ), train := some { tr with followingStart := tr.followingStart.map (· + δ) } } ∧
        (∀ j, j ≠ e.index → u.entryAt j = s.entryAt j) ∧ Changes [.table] s u ∧
        (passed (x + δ) s.now = false → t = u) ∧
        (passed (x + δ) s.now = true →
          (e.active = false → t = startPhase e.index s.now u) ∧
          (e.active = true → tr.followingStart = none → t = takeEnd e.index s.now u) ∧
          ∀ y, e.active = true → tr.followingStart = some y →
            t = if passed (y + δ) s.now then startPhase e.index s.now (takeEnd e.index s.now u)
              else takeEnd e.index s.now u)) ∧
  ∀ (s : State) (e : Entry), s.entryAt e.index = some e →
    (cancelEntry e s).entryAt e.index = none ∧ (∀ j, j ≠ e.index → (cancelEntry e s).entryAt j = s.entryAt j) ∧
      ((s.channel e.channel).owner = some e.index →
        (cancelEntry e s).channel e.channel = { s.channel e.channel with owner := none, phase := .inactive } ∧
        ∀ n, n ≠ e.channel → (cancelEntry e s).channel n = s.channel n) ∧
      ((s.channel e.channel).owner ≠ some e.index → (cancelEntry e s).channels = s.channels) ∧
      (cancelEntry e s).host = (produceResult e .cancelled s).host ∧
      (cancelEntry e s).exchange = (produceResult e .cancelled s).exchange ∧
      Changes Block.ofEntries s (cancelEntry e s)

/-! ### Requests -/

/-- R86 to R88, R90, R93 to R95, R101: how a request of this origin and number is judged. Of an ORDER the fields come first
(the six conditions of R86), then the permit, which every local ORDER has, then the timing, then the room in the table. An
AMEND or a CANCEL needs its subject, the origin's own entry of that number; an AMEND of an ARMED one must leave the delay in
its range, and one of a SCHEDULED or RUNNING one is FAR where it moves an edge to more than 2^30 + 2^24 ticks ahead (a delta
of 0 moves none: log entry 31). -/
def Obligations.RequestsAreJudgedInOrder : Prop :=
  ∀ (s : State) (k : Station) (n : RequestNumber),
    (∀ (o : OrderFields) (c : ChannelNumber) (bad denied : Prop),
      (bad ↔ 12 ≤ o.channel.val ∨
        (∃ e, o.basis = .event e ∧ (e.latePolicy = 3 ∨ e.edge = 3 ∨ (s.stationCount ≤ e.station.val ∧ e.station ≠ s.own))) ∨
        (∃ tr, o.train = some tr ∧ (o.width = 0 ∨ tr.period.toNat < 2 ∨ tr.period.toNat ≤ o.width.toNat)) ∨
        ∃ x ∈ s.table, x.origin = k ∧ x.number = n) →
      (denied ↔ k ≠ s.own ∧ ((s.exchange.permit.get k).get c = .deny ∨
        ((s.exchange.permit.get k).get c = .place ∧ o.preempt = true))) →
      (bad → judgeRequest s k n (.order o) = .badField) ∧
      (¬bad → c.val = o.channel.val →
        (denied → judgeRequest s k n (.order o) = .denied) ∧
        (¬denied →
          (∀ code, judgeTiming s o = some code → judgeRequest s k n (.order o) = code) ∧
          (judgeTiming s o = none → 48 ≤ s.table.length → judgeRequest s k n (.order o) = .full) ∧
          (judgeTiming s o = none → s.table.length < 48 → judgeRequest s k n (.order o) = .accepted)))) ∧
    (∀ (o : OrderFields) (due : Time) (d : Nat), o.basis = .absolute due → d = (due - s.now).toNat →
      (d = 0 ∨ 2 ^ 31 ≤ d ∨ d < s.exchange.minLead.toNat → judgeTiming s o = some .late) ∧
      (0 < d → s.exchange.minLead.toNat ≤ d → d ≤ 2 ^ 30 → judgeTiming s o = none) ∧
      (2 ^ 30 < d → d < 2 ^ 31 → judgeTiming s o = some .far)) ∧
    (∀ (o : OrderFields) (ev : EventFields), o.basis = .event ev →
      (ev.expiry = none → judgeTiming s o = none) ∧
      ∀ x d, ev.expiry = some x → d = (x - s.now).toNat →
        (d = 0 ∨ 2 ^ 31 ≤ d → judgeTiming s o = some .late) ∧ (0 < d → d ≤ 2 ^ 30 → judgeTiming s o = none) ∧
        (2 ^ 30 < d → d < 2 ^ 31 → judgeTiming s o = some .far)) ∧
    ∀ (subject : RequestNumber) (delta : BitVec 24),
      ((∀ e ∈ s.table, ¬(e.origin = k ∧ e.number = subject)) →
        judgeRequest s k n (.amend subject delta) = .notFound ∧ judgeRequest s k n (.cancel subject) = .notFound) ∧
      ∀ e, s.entryNamed k subject = some e →
        e ∈ s.table ∧ e.origin = k ∧ e.number = subject ∧ judgeRequest s k n (.cancel subject) = .accepted ∧
        (∀ p, e.state = .armed → e.event = some p →
          judgeRequest s k n (.amend subject delta) =
            if 0 ≤ (p.delay.toNat : Int) + delta.toInt ∧ (p.delay.toNat : Int) + delta.toInt ≤ 16777215 then .accepted
            else .badField) ∧
        ∀ far : Prop, e.state ≠ .armed →
          (far ↔ delta ≠ 0 ∧ ∃ x, (e.nextEdge = some x ∨ e.followingStart = some x) ∧
            2 ^ 30 + 2 ^ 24 < (x + delta.signExtend 32 - s.now).toNat ∧ (x + delta.signExtend 32 - s.now).toNat < 2 ^ 31) →
          (far → judgeRequest s k n (.amend subject delta) = .far) ∧
          (¬far → judgeRequest s k n (.amend subject delta) = .accepted)

/-- R89, R91, R92, R96, R97: a request item is ignored with announced clear, with the reply queue full, and at the origin's
cap of 8 records. A try whose number has a record is answered with that record's code and does nothing more. Any other is
judged once: a record is written and the REPLY queued (w), and then an accepted one takes its effect. An ORDER is placed at
the lowest free index, last in acceptance order; an AMEND or a CANCEL acts on its subject. -/
def Obligations.RequestIsAnsweredFromTheCacheOrTakesEffectOnce : Prop :=
  ∀ (s t : State) (k : Station) (n : RequestNumber) (r : Request), t = takeItem k (.request s.own n r) s →
    (s.link.announced = false ∨ 16 ≤ s.exchange.replyQueue.length → t = s) ∧
    (s.link.announced = true → s.exchange.replyQueue.length < 16 →
      (∀ code, s.cachedCode k n = some code →
        t.exchange = { s.exchange with replyQueue := s.exchange.replyQueue ++ [.reply k n code] } ∧
          Changes [.exchange] s t) ∧
      (s.cachedCode k n = none → 8 ≤ (s.cacheOf k).length → t = s) ∧
      (s.cachedCode k n = none → (s.cacheOf k).length < 8 → ∃ w,
        w.cacheOf k = s.cacheOf k ++
            [{ number := n, code := judgeRequest s k n r, expiry := s.cycle.cycleNumber + 8 }] ∧
        (∀ j, j ≠ k → w.cacheOf j = s.cacheOf j) ∧
        w.exchange = { s.exchange with
          replyQueue := s.exchange.replyQueue ++ [.reply k n (judgeRequest s k n r)], cache := w.exchange.cache } ∧
        Changes [.exchange] s w ∧
        (judgeRequest s k n r ≠ .accepted → t = w) ∧
        (judgeRequest s k n r = .accepted →
          (∀ o, r = .order o → ∃ i : Index, s.entryAt i = none ∧ (∀ j, j < i → s.entryAt j ≠ none) ∧
            t = w.setTable (s.table ++ [o.newEntry i k n s.now])) ∧
          (∀ subject delta, r = .amend subject delta →
            ∃ e, s.entryNamed k subject = some e ∧ t = amendEntry e delta w) ∧
          ∀ subject, r = .cancel subject → ∃ e, s.entryNamed k subject = some e ∧ t = cancelEntry e w)))

/-- R85, R96, R101, R107, R108, R114: a SUBMIT draws the counter's value, or the first number from it on that no Pending
record holds, and the counter is then one past it. A local request so numbered is judged at once. A refused one changes
nothing but the counter and the response. An accepted ORDER takes the lowest free index, last in acceptance order; an
accepted AMEND or CANCEL acts on its subject. The entry an ORDER makes has the ORDER's fields; an ABSOLUTE one is SCHEDULED
at its due time, an EVENT one ARMED with the present instant as its arm time. -/
def Obligations.LocalRequestIsJudgedAtOnce : Prop :=
  (∀ s : State, s.exchange.requests.length ≤ 16 →
    (∀ r ∈ s.exchange.requests, r.number ≠ s.nextNumber) ∧
      ∃ m : Nat, m ≤ 16 ∧ s.nextNumber = s.exchange.counter + BitVec.ofNat 12 m ∧
        ∀ j, j < m → ∃ r ∈ s.exchange.requests, r.number = s.exchange.counter + BitVec.ofNat 12 j) ∧
  (∀ (s u : State) (item : List Byte) (r : Request) (head : List Byte), s.takesCommands = true →
    parseSubmit item = some (s.own, r) →
    u = (s.setExchange { s.exchange with counter := s.nextNumber + 1 }).setHost { s.host with transaction := .idle } →
    head = [0x05, 0x00] ++ bytes16 (s.nextNumber.setWidth 16) →
    (judgeRequest s s.own s.nextNumber r ≠ .accepted →
      exec (.submitLocal item) s = .next (u.setHost { u.host with
        held := head ++ [(judgeRequest s s.own s.nextNumber r).code.setWidth 8, 0xFF] })) ∧
    (judgeRequest s s.own s.nextNumber r = .accepted →
      (∀ o, r = .order o → ∃ i : Index, s.entryAt i = none ∧ (∀ j, j < i → s.entryAt j ≠ none) ∧
        exec (.submitLocal item) s =
          .next ((u.setTable (s.table ++ [o.newEntry i s.own s.nextNumber s.now])).setHost { u.host with
            held := head ++ [0x00, BitVec.ofNat 8 i.val] })) ∧
      (∀ subject delta, r = .amend subject delta → ∃ e, s.entryNamed s.own subject = some e ∧
        exec (.submitLocal item) s =
          .next ((amendEntry e delta u).setHost { (amendEntry e delta u).host with
            held := head ++ [0x00, BitVec.ofNat 8 e.index.val] })) ∧
      ∀ subject, r = .cancel subject → ∃ e, s.entryNamed s.own subject = some e ∧
        exec (.submitLocal item) s =
          .next ((cancelEntry e u).setHost { (cancelEntry e u).host with
            held := head ++ [0x00, BitVec.ofNat 8 e.index.val] }))) ∧
  ∀ (o : OrderFields) (i : Index) (k : Station) (n : RequestNumber) (now : Time) (e : Entry),
    e = o.newEntry i k n now →
    e.index = i ∧ e.origin = k ∧ e.number = n ∧ (o.channel.val < 12 → e.channel.val = o.channel.val) ∧
      e.active = false ∧ e.width = o.width ∧ e.preempt = o.preempt ∧ e.bound = o.bound ∧ e.report = o.report ∧
      e.lastStart = none ∧ e.aged = false ∧
      (∀ due, o.basis = .absolute due → e.state = .scheduled ∧ e.nextEdge = some due ∧ e.event = none ∧
        e.train = o.train.map fun tr =>
          { period := tr.period, count := tr.count, countRemaining := tr.count, followingStart := none }) ∧
      ∀ ev, o.basis = .event ev → e.state = .armed ∧ e.nextEdge = none ∧
        (e.train = o.train.map fun tr =>
          { period := tr.period, count := tr.count, countRemaining := 0, followingStart := none }) ∧
        e.event = some
          { triggerStation := ev.station, triggerInput := ev.input
            triggerEdge := if ev.edge = 0 then .rise else if ev.edge = 1 then .fall else .either
            delay := ev.delay, fires := ev.fires, expiry := ev.expiry, expiryReached := false
            latePolicy := if ev.latePolicy = 0 then .drop else if ev.latePolicy = 1 then .startNow else .rearm
            armTime := now }

/-- R103, R162, R180: a peer SUBMIT is refused by the first check that fails and then changes nothing but the response; one
that passes makes a Pending record and queues its first try, which carries the drawn number (which number that is, says the
statement before, R85). -/
def Obligations.PeerSubmitMakesARecordAndItsFirstTry : Prop :=
  ∀ (s : State) (item : List Byte) (k : Station) (r : Request), s.takesCommands = true →
    parseSubmit item = some (k, r) → k ≠ s.own →
    ∃ t, exec (.submitPeer item) s = .next t ∧
      (s.stationCount ≤ k.val → t.exchange = s.exchange ∧ t.host.held = [0x05, 0x02]) ∧
      (k.val < s.stationCount → s.link.state.transmits = false → t.exchange = s.exchange ∧ t.host.held = [0x05, 0x01]) ∧
      (k.val < s.stationCount → s.link.state.transmits = true →
        (16 ≤ s.exchange.requests.length → t.exchange = s.exchange ∧ t.host.held = [0x05, 0x03]) ∧
        (s.exchange.requests.length < 16 → 8 ≤ (s.requestsTo k).length →
          t.exchange = s.exchange ∧ t.host.held = [0x05, 0x04]) ∧
        (s.exchange.requests.length < 16 → (s.requestsTo k).length < 8 → 24 ≤ s.exchange.sendQueue.length →
          t.exchange = s.exchange ∧ t.host.held = [0x05, 0x03]) ∧
        (s.exchange.requests.length < 16 → (s.requestsTo k).length < 8 → s.exchange.sendQueue.length < 24 →
          t.exchange = { s.exchange with
            counter := s.nextNumber + 1
            requests := s.exchange.requests ++
              [{ number := s.nextNumber, target := k, tries := 1, sent := false, deadline := none, sendLimit := none,
                 item := encodeRequest k s.nextNumber r }]
            sendQueue := s.exchange.sendQueue ++ [.request s.nextNumber (encodeRequest k s.nextNumber r)] } ∧
          t.host.held = [0x05, 0x00] ++ bytes16 (s.nextNumber.setWidth 16) ∧
          ∀ x ∈ s.exchange.requests, x.number ≠ s.nextNumber)) ∧
      t.host.notices = s.host.notices ∧ t.host.lost = s.host.lost ∧ Changes [.exchange, .host] s t

/-! ### The host port -/

/-- R172, R173, R179, R183 to R185: CSn falling after the end of reset opens a transaction from which a command may be
taken; an empty one keeps the held response; and a command that comes with no such transaction is not taken: that its row
then leaves CSn high and does nothing else is the model's reading (log entry 16, DEDUCED). NOP, TIME, STATUS, ENTRY and
CAPTURE change nothing but the held response, which reports the station as it stands when they are taken, in the layouts of
R175: ENTRY the fields of an occupied place, those that its action or basis does not keep as 0, or one 0 for a free one;
CAPTURE an input's record and the broadcast event number, with edge select NONE and filter 0 for a host mark. MISO is driven
while CSn is low, gives the bytes of the held response in order, and then 0x00 after its last byte; the first bit it
presents is bit 7 of the first byte; that it is not driven in a reset is R179's for RESETn, and the model's for the other
two causes (log entry 32). -/
def Obligations.TransactionsOpenCloseAndRead : Prop :=
  (∀ s : State,
    (s.host.transaction = .idle → s.inReset = false →
      exec .csnFallingEdge s = .next (s.setHost { s.host with transaction := .live })) ∧
    (s.host.transaction = .idle → s.inReset = true →
      exec .csnFallingEdge s = .next (s.setHost { s.host with transaction := .barred })) ∧
    exec .emptyTransaction s = .next (s.setHost { s.host with transaction := .idle }) ∧
    (∀ c : Instr, c.isHostCommand = true → s.takesCommands = false →
      exec c s = .next (s.setHost { s.host with transaction := .idle })) ∧
    (s.misoDriven = true ↔ s.inReset = false ∧ s.host.transaction ≠ .idle) ∧
    (∀ before b more, s.host.held = before ++ b :: more → s.misoByte before.length = b) ∧
    (∀ n, s.host.held.length ≤ n → s.misoByte n = 0x00) ∧
    (s.misoDriven = false → s.misoFirstBit = none) ∧
    ∀ b more, s.misoDriven = true → s.host.held = b :: more → s.misoFirstBit = some (b.getLsbD 7)) ∧
  ∀ s : State, s.takesCommands = true →
    exec .nop s = .next (s.setHost { s.host with transaction := .idle, held := [0x00, 0x00] }) ∧
    exec .time s = .next (s.setHost { s.host with transaction := .idle, held := [0x0B, 0x00] ++ bytes32 s.now }) ∧
    exec .status s = .next (s.setHost { s.host with
      transaction := .idle
      held := [0x08, 0x00, BitVec.ofNat 8 s.link.state.code.val, nibbles s.straps.id s.straps.cnt,
               BitVec.ofNat 8 s.straps.rate.val,
               flagByte s.cycle.running s.link.announced s.link.frozen false false false false false] ++
        bytes32 s.now ++ bytes32 s.cycle.cycleStart ++ bytes16 s.cycle.cycleNumber ++
        [BitVec.ofNat 8 s.table.length, BitVec.ofNat 8 s.exchange.requests.length,
         BitVec.ofNat 8 s.exchange.sendQueue.length, BitVec.ofNat 8 s.exchange.replyQueue.length,
         BitVec.ofNat 8 s.host.notices.length] ++ bytes64 (BitVec.ofNat 64 s.host.lost) }) ∧
    (∀ (i : Index) (more : List Byte),
      (s.entryAt i = none → exec (.entry (BitVec.ofNat 8 i.val :: more)) s =
        .next (s.setHost { s.host with transaction := .idle, held := [0x0A, 0x00, 0x00] })) ∧
      ∀ (e : Entry) (fixed train event : List Byte), s.entryAt i = some e →
        fixed = [BitVec.ofNat 8 e.channel.val,
          flagByte e.train.isSome e.event.isSome e.preempt e.bound e.report e.active false false,
          if e.state = .armed then 0 else if e.state = .scheduled then 1 else 2,
          e.event.elim 0 fun p => if p.latePolicy = .drop then 0 else if p.latePolicy = .startNow then 1 else 2,
          flagByte e.nextEdge.isSome (e.train.any fun tr => tr.followingStart.isSome)
            (e.event.any fun p => p.expiry.isSome) e.lastStart.isSome false false false false] →
        train = (e.train.elim (List.replicate 11 0) fun tr =>
          bytes24 tr.period ++ bytes16 tr.count ++ bytes16 tr.countRemaining ++ bytes32 (tr.followingStart.getD 0)) →
        event = (e.event.elim (List.replicate 14 0) fun p =>
          [nibbles p.triggerStation p.triggerInput,
           if p.triggerEdge = .rise then 0 else if p.triggerEdge = .fall then 1 else 2] ++
            bytes24 p.delay ++ [p.fires] ++ bytes32 (p.expiry.getD 0) ++ bytes32 p.armTime) →
        exec (.entry (BitVec.ofNat 8 i.val :: more)) s = .next (s.setHost { s.host with
          transaction := .idle
          held := [0x0A, 0x00, 0x01, BitVec.ofNat 8 e.origin.val] ++ bytes16 (e.number.setWidth 16) ++ fixed ++
            bytes32 (e.nextEdge.getD 0) ++ bytes24 e.width ++ train ++ event ++ bytes32 (e.lastStart.getD 0) })) ∧
    ∀ (i : Input) (more record : List Byte),
      record = [flagByte (s.inputRecord i).broadcast (s.inputRecord i).lastStamp.isSome false false false false false false] ++
        bytes32 ((s.inputRecord i).lastStamp.getD 0) ++ [if (s.inputRecord i).lastEdge = some .fall then 1 else 0] ++
        bytes16 (s.inputRecord i).edgeCount ++ [s.capture.eventNumber] →
      (∀ p : Pin, i = inputOfPin p → exec (.capture (BitVec.ofNat 8 i.val :: more)) s = .next (s.setHost { s.host with
        transaction := .idle
        held := [0x0C, 0x00,
          if (s.pin p).edgeSelect = .none then 0 else if (s.pin p).edgeSelect = .rise then 1
            else if (s.pin p).edgeSelect = .fall then 2 else 3,
          (s.pin p).filter] ++ record })) ∧
      (8 ≤ i.val → exec (.capture (BitVec.ofNat 8 i.val :: more)) s = .next (s.setHost { s.host with
        transaction := .idle, held := [0x0C, 0x00, 0x00, 0x00] ++ record }))

/-- R60, R185: PEER reports the record as it stands before the clear, and the clear sets the four counters to 0 and nothing
else; at the own number it reports SELF and clears nothing. -/
def Obligations.PeerReadReportsThenClears : Prop :=
  ∀ (s : State) (k : Station) (clear : Bool) (more : List Byte), s.takesCommands = true →
    ∃ t, exec (.peer ((BitVec.ofNat 4 k.val ++ (0 : BitVec 3) ++ BitVec.ofBool clear) :: more)) s = .next t ∧
      (k = s.own → t.host.held = [0x09, 0x00, 0x04] ++ List.replicate 12 0x00 ∧ t.members = s.members) ∧
      (k ≠ s.own → t.host.held = [0x09, 0x00, (s.peer k).state.code, BitVec.ofNat 8 (s.peer k).misses,
          BitVec.ofInt 8 ((s.peer k).lastDeviation.getD 0),
          flagByte (s.peer k).lastDeviation.isSome (s.peer k).newSeen (s.peer k).expectedEvent.isSome
            false false false false false] ++
        bytes16 (BitVec.ofNat 16 (s.peer k).goodFrames) ++ bytes16 (BitVec.ofNat 16 (s.peer k).checkErrors) ++
        bytes16 (BitVec.ofNat 16 (s.peer k).timingErrors) ++ bytes16 (BitVec.ofNat 16 (s.peer k).intrusions) ++
        [(s.peer k).expectedEvent.getD 0]) ∧
      (k ≠ s.own → clear = true → t.peer k = { s.peer k with
        goodFrames := 0, checkErrors := 0, timingErrors := 0, intrusions := 0 }) ∧
      (clear = false → t.members = s.members) ∧ (∀ j, j ≠ k → t.peer j = s.peer j) ∧
      t.host.notices = s.host.notices ∧ t.host.lost = s.host.lost ∧ Changes [.members, .host] s t

/-- R74, R88, R137, R174, R177, R180: a command with an unknown code, each command cut short, and a field out of its range
are answered ARG and change nothing else, whatever the link state: the section of INIT with too few bytes, with the own
station or one above 15, a permit level of 3, an input above 15, an IDLE section with one of bits 15..12 set; MARK of an
input that is none of 8..15; ENTRY of an index above 47; CAPTURE of an input above 15; and a SUBMIT whose bytes begin with
no well-formed request item. -/
def Obligations.MalformedCommandsAreRefused : Prop :=
  ∀ s : State, s.takesCommands = true →
    (∀ code args, exec (.unknownCommand code args) s =
      .next (s.setHost { s.host with transaction := .idle, held := [code, 0x02] })) ∧
    (∀ u, u = s.setHost { s.host with transaction := .idle, held := [0x02, 0x02] } →
      (∀ args : List Byte, args.length < 4 → exec (.initPermit args) s = .next u) ∧
      (∀ k a b c more, 16 ≤ k.toNat ∨ k.toNat = s.own.val ∨ (∃ x ∈ [a, b, c], x.extractLsb' 6 2 = 3#2 ∨
          x.extractLsb' 4 2 = 3#2 ∨ x.extractLsb' 2 2 = 3#2 ∨ x.extractLsb' 0 2 = 3#2) →
        exec (.initPermit (k :: a :: b :: c :: more)) s = .next u) ∧
      (∀ args : List Byte, args.length < 3 → exec (.initInput args) s = .next u) ∧
      (∀ i more, 16 ≤ i.toNat → exec (.initInput (i :: more)) s = .next u) ∧
      (∀ args : List Byte, args.length < 2 → exec (.initIdle args) s = .next u ∧ exec (.initLead args) s = .next u) ∧
      ∀ a b more, a.extractLsb' 4 4 ≠ 0#4 → exec (.initIdle (a :: b :: more)) s = .next u) ∧
    exec (.mark []) s = .next (s.setHost { s.host with transaction := .idle, held := [0x06, 0x02] }) ∧
    exec (.peer []) s = .next (s.setHost { s.host with transaction := .idle, held := [0x09, 0x02] }) ∧
    exec (.entry []) s = .next (s.setHost { s.host with transaction := .idle, held := [0x0A, 0x02] }) ∧
    exec (.capture []) s = .next (s.setHost { s.host with transaction := .idle, held := [0x0C, 0x02] }) ∧
    (∀ b more, 48 ≤ b.toNat →
      exec (.entry (b :: more)) s = .next (s.setHost { s.host with transaction := .idle, held := [0x0A, 0x02] })) ∧
    (∀ b more, 16 ≤ b.toNat →
      exec (.capture (b :: more)) s = .next (s.setHost { s.host with transaction := .idle, held := [0x0C, 0x02] })) ∧
    (∀ b more, b.toNat < 8 ∨ 16 ≤ b.toNat →
      exec (.mark (b :: more)) s = .next (s.setHost { s.host with transaction := .idle, held := [0x06, 0x02] })) ∧
    ∀ item, parseSubmit item = none →
      exec (.submitPeer item) s = .next (s.setHost { s.host with transaction := .idle, held := [0x05, 0x02] }) ∧
      exec (.submitLocal item) s = .next (s.setHost { s.host with transaction := .idle, held := [0x05, 0x02] })

/-- R70, R88, R93, R137, R176, R177: in OFF each section of INIT writes what it carries and nothing else, the notice queue
and the lost count neither; outside OFF it is answered STATE and writes nothing. The codes are those of R175: of the twelve
levels of PERMIT channel 0 has bits 7..6 of the first byte, 0 DENY, 1 PLACE, 2 PREEMPT; edge select is 0 NONE, 1 RISE, 2
FALL, 3 BOTH in bits 7..6. The write of a pin's setting restarts its recognition; that it does so too where the setting
equals the one held is the model's reading of R70 and R177 (log entry 30, DEDUCED). An IDLE section is refused where an
entry names a channel whose level would change. -/
def Obligations.InitWritesOneSectionInOff : Prop :=
  ∀ s : State, s.takesCommands = true →
    (s.link.state = .off →
      (∀ (k : Station) (a b c : Byte) (more : List Byte) (code : ChannelNumber → BitVec 2), k ≠ s.own →
        (∀ n, code n = (a ++ b ++ c).extractLsb' (22 - 2 * n.val) 2) → (∀ n, code n ≠ 3) →
        ∃ t, exec (.initPermit (BitVec.ofNat 8 k.val :: a :: b :: c :: more)) s = .next t ∧
          (∀ n, (t.exchange.permit.get k).get n =
            if code n = 0 then .deny else if code n = 1 then .place else .preempt) ∧
          (∀ j, j ≠ k → t.exchange.permit.get j = s.exchange.permit.get j) ∧
          t.exchange = { s.exchange with permit := t.exchange.permit } ∧
          t.host = { s.host with transaction := .idle, held := [0x02, 0x00] } ∧ Changes [.exchange, .host] s t) ∧
      (∀ (p : Pin) (setting filter : Byte) (more : List Byte),
        ∃ t, exec (.initInput (BitVec.ofNat 8 p.val :: setting :: filter :: more)) s = .next t ∧
          t.pin p = { s.pin p with
            edgeSelect := if setting.extractLsb' 6 2 = 0#2 then .none else if setting.extractLsb' 6 2 = 1#2 then .rise
              else if setting.extractLsb' 6 2 = 2#2 then .fall else .both
            filter := filter
            settled := (s.pin p).level, hold := none } ∧
          (∀ q, q ≠ p → t.pin q = s.pin q) ∧
          t.inputRecord (inputOfPin p) = { s.inputRecord (inputOfPin p) with broadcast := setting.getLsbD 5 } ∧
          (∀ j, j ≠ inputOfPin p → t.inputRecord j = s.inputRecord j) ∧
          t.capture.eventNumber = s.capture.eventNumber ∧
          t.host = { s.host with transaction := .idle, held := [0x02, 0x00] } ∧ Changes [.capture, .host] s t) ∧
      (∀ (i : Input) (setting filter : Byte) (more : List Byte), 8 ≤ i.val →
        ∃ t, exec (.initInput (BitVec.ofNat 8 i.val :: setting :: filter :: more)) s = .next t ∧
          t.inputRecord i = { s.inputRecord i with broadcast := setting.getLsbD 5 } ∧
          (∀ j, j ≠ i → t.inputRecord j = s.inputRecord j) ∧ t.capture.pins = s.capture.pins ∧
          t.capture.eventNumber = s.capture.eventNumber ∧
          t.host = { s.host with transaction := .idle, held := [0x02, 0x00] } ∧ Changes [.capture, .host] s t) ∧
      (∀ (a b : Byte) (more : List Byte), (a ++ b).extractLsb' 12 4 = 0#4 →
        ∃ t, exec (.initIdle (a :: b :: more)) s = .next t ∧
          ((∀ e ∈ s.table, (s.channel e.channel).idle =
              if (a ++ b).getLsbD e.channel.val then .high else .low) →
            (∀ n, t.channel n = { s.channel n with idle := if (a ++ b).getLsbD n.val then .high else .low }) ∧
            t.host = { s.host with transaction := .idle, held := [0x02, 0x00] } ∧ Changes [.channels, .host] s t) ∧
          ((∃ e ∈ s.table, (s.channel e.channel).idle ≠
              if (a ++ b).getLsbD e.channel.val then .high else .low) →
            t = s.setHost { s.host with transaction := .idle, held := [0x02, 0x01] })) ∧
      ∀ (a b : Byte) (more : List Byte),
        ∃ t, exec (.initLead (a :: b :: more)) s = .next t ∧ t.exchange = { s.exchange with minLead := a ++ b } ∧
          t.host = { s.host with transaction := .idle, held := [0x02, 0x00] } ∧ Changes [.exchange, .host] s t) ∧
    (s.link.state ≠ .off → ∀ (u : State), u = s.setHost { s.host with transaction := .idle, held := [0x02, 0x01] } →
      (∀ (k : Station) (a b c : Byte) (more : List Byte), k ≠ s.own →
        (∀ n : ChannelNumber, (a ++ b ++ c).extractLsb' (22 - 2 * n.val) 2 ≠ 3#2) →
        exec (.initPermit (BitVec.ofNat 8 k.val :: a :: b :: c :: more)) s = .next u) ∧
      (∀ (i : Input) (setting filter : Byte) (more : List Byte),
        exec (.initInput (BitVec.ofNat 8 i.val :: setting :: filter :: more)) s = .next u) ∧
      (∀ (a b : Byte) (more : List Byte), (a ++ b).extractLsb' 12 4 = 0#4 →
        exec (.initIdle (a :: b :: more)) s = .next u) ∧
      ∀ (a b : Byte) (more : List Byte), exec (.initLead (a :: b :: more)) s = .next u)

/-- R19, R20, R178: START in OFF with legal straps goes to LISTEN with the listen timer set and the configuration frozen; any
other START is answered STATE and changes nothing. -/
def Obligations.StartEntersListen : Prop :=
  ∀ s : State, s.takesCommands = true →
    (s.link.state = .off → 2 ≤ s.stationCount → s.own.val < s.stationCount →
      ∃ t, exec .start s = .next t ∧
        t.link = { s.link with
          state := .listen, frozen := true,
          listenTimer := some (2 * s.cycleLength + s.own.val * s.slotLength) } ∧
        t.now = s.now ∧ t.table = s.table ∧ t.channels = s.channels ∧ t.exchange = s.exchange ∧
        t.host = { (queueNotice { kind := .link, time := s.now, station := none, number := none, code := 0x10,
                                  value := none } s).host with transaction := .idle, held := [0x03, 0x00] } ∧
        Changes Block.ofListen s t) ∧
    (s.link.state ≠ .off ∨ s.stationCount < 2 ∨ s.stationCount ≤ s.own.val →
      exec .start s = .next (s.setHost { s.host with transaction := .idle, held := [0x03, 0x01] }))

/-- R35, R36, R67, R132, R146, R169: STOP empties the queues, the Pending list and the reply cache, removes the entries of
peers and releases the channels they own, returns every peer's record to UNKNOWN with its counters kept, and leaves line
time, local entries and their channels. Its notices are LINK STOP, then FAILED (STOPPED) of each Pending record in Pending
order, then PEER (UNKNOWN) of each station whose record was not UNKNOWN, in station number order (R191). In OFF it is
answered STATE and changes nothing. -/
def Obligations.StopLeavesTheLine : Prop :=
  ∀ s : State, s.takesCommands = true →
    (s.link.state ≠ .off → TableOk s →
      ∃ t, exec .stop s = .next t ∧ t.link = LinkUnit.reset ∧ t.line = LinePort.reset ∧
        t.cycle = { s.cycle with running := false, slotIndex := none, slotZeroAwaited := false, samples := [] } ∧
        t.exchange.sendQueue = [] ∧ t.exchange.replyQueue = [] ∧ t.exchange.requests = [] ∧ (∀ k, t.cacheOf k = []) ∧
        t.exchange.counter = s.exchange.counter ∧ t.exchange.permit = s.exchange.permit ∧
        t.exchange.minLead = s.exchange.minLead ∧ t.table = (s.table.filter fun e => e.origin == s.own) ∧
        (ChannelsOk s → ∀ c : ChannelNumber,
          ((∃ e ∈ s.table, e.origin ≠ s.own ∧ e.state = .running ∧ e.channel = c) →
            t.channel c = { s.channel c with owner := none, phase := .inactive }) ∧
          ((∀ e ∈ s.table, e.origin ≠ s.own → e.state = .running → e.channel ≠ c) → t.channel c = s.channel c)) ∧
        (∀ k, k ≠ s.own → t.peer k = { s.peer k with
          state := .unknown, misses := 0, lastDeviation := none, slotNote := none, newSeen := false,
          expectedEvent := none }) ∧
        (∀ u, u = (((List.finRange 16).filter fun k => k != s.own && (s.peer k).state != .unknown).foldl
            (fun (u : State) (k : Station) => queueNotice
              { kind := .peer, time := s.now, station := some k, number := none, code := 0, value := none } u)
            (s.exchange.requests.foldl (fun (u : State) r => queueNotice
                { kind := .failed, time := s.now, station := some r.target, number := some r.number, code := 3,
                  value := none } u)
              (queueNotice { kind := .link, time := s.now, station := none, number := none, code := 0x0A,
                             value := none } s))) →
          t.host = { u.host with transaction := .idle, held := [0x04, 0x00] }) ∧
        Changes Block.ofGrid s t) ∧
    (s.link.state = .off →
      exec .stop s = .next (s.setHost { s.host with transaction := .idle, held := [0x04, 0x01] }))

/-- R188, R189: a notice joins the tail of a queue of fewer than 32; of a full queue it is discarded and counted, up to 2^64
- 1. NOTICE pops the head and reports it; where notices were lost, their number, up to 2^31 - 1, joins the tail as an
OVERFLOW notice in the same happening. On an empty queue it reports kind 0. The response gives the fields in the layout of
R175 (R186), a field that is absent as 0, with the codes of R187. -/
def Obligations.NoticesJoinAndArePopped : Prop :=
  (∀ (s : State) (n : Notice),
    (s.host.notices.length < 32 →
      (queueNotice n s).host = { s.host with notices := s.host.notices ++ [n] }) ∧
    (32 ≤ s.host.notices.length →
      (queueNotice n s).host = { s.host with lost := min (2 ^ 64 - 1) (s.host.lost + 1) }) ∧
    Changes [.host] s (queueNotice n s) ∧ (queueNotice n s).attn = .high) ∧
  (∀ n : Notice, noticeBytes (some n) = [n.kind.code,
      flagByte n.station.isSome n.number.isSome n.value.isSome false false false false false,
      n.station.elim 0 fun k => BitVec.ofNat 8 k.val, n.code] ++ bytes16 ((n.number.getD 0).setWidth 16) ++
      bytes32 n.time ++ bytes32 (n.value.getD 0)) ∧
  ([NoticeKind.answered, .failed, .result, .link, .peer, .gap, .dropped, .intrusion, .collision, .step,
    .overflow].map NoticeKind.code = [1, 2, 3, 4, 5, 6, 7, 8, 9, 10, 11]) ∧
  ∀ s : State, s.takesCommands = true → s.host.notices.length ≤ 32 →
    (s.host.notices = [] →
      exec .notice s = .next (s.setHost { s.host with
        transaction := .idle, held := [0x07, 0x00] ++ List.replicate 14 0x00 })) ∧
    ∀ n rest, s.host.notices = n :: rest →
      (s.host.lost = 0 → exec .notice s = .next (s.setHost { s.host with
        transaction := .idle, notices := rest, held := [0x07, 0x00] ++ noticeBytes (some n) })) ∧
      (0 < s.host.lost → exec .notice s = .next (s.setHost { s.host with
        transaction := .idle, held := [0x07, 0x00] ++ noticeBytes (some n)
        lost := s.host.lost - min s.host.lost (2 ^ 31 - 1)
        notices := rest ++ [{ kind := .overflow, time := s.now, station := none, number := none, code := 0,
                              value := some (BitVec.ofNat 32 (min s.host.lost (2 ^ 31 - 1))) }] }))

/-! ### Encodings -/

/-- R41 to R47: every item is read back from its bytes, whatever follows them, and the parse takes no other bytes for it. -/
def Obligations.ItemsAreReadBackFromTheirBytes : Prop :=
  ∀ (bytes rest : List Byte) (i : Item), parseItem bytes = some (i, rest) ↔ bytes = encodeItem i ++ rest

/-- R38 to R41, R49: a frame built of any items within 64 bytes passes its checks at a receiver, which reads the header and
the items as they were built. -/
def Obligations.BuiltFramePassesTheChecks : Prop :=
  ∀ (h : Header) (items : List Item), (items.flatMap encodeItem).length ≤ 64 →
    h.length = BitVec.ofNat 8 (items.flatMap encodeItem).length →
    readReception (encodeHeader h ++ items.flatMap encodeItem ++
      bytes16 (frameCheck (encodeHeader h ++ items.flatMap encodeItem))) = .intact h (some items)

/-- R172 to R175: the bytes of every well-formed host row make that row again, and every run of bytes begins with the bytes
of the well-formed row it makes. Which row some bytes make is the model's where the spec has one command for several rows:
the target tells the two rows of SUBMIT apart (log entry 19, DESIGN CHOICE), and an INIT that names no section is the row of
an unknown command (log entry 20, DESIGN CHOICE). -/
def Obligations.HostBytesSpellTheirRow : Prop :=
  ∀ (own : Station),
    (∀ (c : Instr) (bytes : List Byte), c.wellFormed = true → hostBytes own c = some bytes →
      commandOfBytes own bytes = c) ∧
    ∀ bytes : List Byte, (commandOfBytes own bytes).wellFormed = true ∧
      ∃ used unused, hostBytes own (commandOfBytes own bytes) = some used ∧ bytes = used ++ unused

/-! ### Invariants -/

/-- Every invariant below holds right after reset. -/
def Obligations.ResetMeetsEveryInvariant : Prop :=
  NoticesOk State.reset ∧ ExchangeOk State.reset ∧ TableOk State.reset ∧ ChannelsOk State.reset ∧ LinkOk State.reset ∧
    PinsOk State.reset ∧ MembersOk State.reset

/-- R188, R189: every step keeps the notice queue at 32 or fewer and the lost count in range, and leaves notices lost only
while the queue is full. -/
def Obligations.StepKeepsNoticesOk : Prop := ∀ s t : State, NoticesOk s → step s = .next t → NoticesOk t

/-- R99, R153, R161: every step keeps the queues, the Pending list and the reply cache within their bounds, with no number
held twice. -/
def Obligations.StepKeepsExchangeOk : Prop := ∀ s t : State, ExchangeOk s → step s = .next t → ExchangeOk t

/-- R107, R108, R134, R135: every step keeps the table's indices and names apart, its entries' fields in agreement, and each
channel owned by exactly its one RUNNING entry, in that entry's phase. -/
def Obligations.StepKeepsTableAndChannelsOk : Prop :=
  ∀ s t : State, TableOk s → ChannelsOk s → step s = .next t → TableOk t ∧ ChannelsOk t

/-- R4, R10, R17, R20, R30, R31: every step keeps the grid, the samples, the Line Port, the listen timer and the counts in
agreement with the link state. -/
def Obligations.StepKeepsLinkOk : Prop := ∀ s t : State, LinkOk s → step s = .next t → LinkOk t

/-- R55, R57, R69, R71: every step keeps each peer record in its ranges, and a hold at each pin exactly while the pin differs
from its settled level, for no longer than the filter. -/
def Obligations.StepKeepsPinsAndMembersOk : Prop :=
  ∀ s t : State, PinsOk s → MembersOk s → step s = .next t → PinsOk t ∧ MembersOk t

end
end

