-- ==== Sys2Proof/Laws/State.lean ====
section
/-! SUPPORT. Every field of State after every update of one block, so that no proof unfolds an update. -/

namespace Sys2Proof.Machine

variable (s : State)

@[simp] theorem State.setPending_pending (x : List Instr) : (s.setPending x).pending = x := rfl
@[simp] theorem State.setPending_inReset (x : List Instr) : (s.setPending x).inReset = s.inReset := rfl
@[simp] theorem State.setPending_straps (x : List Instr) : (s.setPending x).straps = s.straps := rfl
@[simp] theorem State.setPending_cycle (x : List Instr) : (s.setPending x).cycle = s.cycle := rfl
@[simp] theorem State.setPending_link (x : List Instr) : (s.setPending x).link = s.link := rfl
@[simp] theorem State.setPending_line (x : List Instr) : (s.setPending x).line = s.line := rfl
@[simp] theorem State.setPending_members (x : List Instr) : (s.setPending x).members = s.members := rfl
@[simp] theorem State.setPending_capture (x : List Instr) : (s.setPending x).capture = s.capture := rfl
@[simp] theorem State.setPending_exchange (x : List Instr) : (s.setPending x).exchange = s.exchange := rfl
@[simp] theorem State.setPending_table (x : List Instr) : (s.setPending x).table = s.table := rfl
@[simp] theorem State.setPending_channels (x : List Instr) : (s.setPending x).channels = s.channels := rfl
@[simp] theorem State.setPending_outputs (x : List Instr) : (s.setPending x).outputs = s.outputs := rfl
@[simp] theorem State.setPending_host (x : List Instr) : (s.setPending x).host = s.host := rfl

@[simp] theorem State.setCycle_pending (x : CycleUnit) : (s.setCycle x).pending = s.pending := rfl
@[simp] theorem State.setCycle_inReset (x : CycleUnit) : (s.setCycle x).inReset = s.inReset := rfl
@[simp] theorem State.setCycle_straps (x : CycleUnit) : (s.setCycle x).straps = s.straps := rfl
@[simp] theorem State.setCycle_cycle (x : CycleUnit) : (s.setCycle x).cycle = x := rfl
@[simp] theorem State.setCycle_link (x : CycleUnit) : (s.setCycle x).link = s.link := rfl
@[simp] theorem State.setCycle_line (x : CycleUnit) : (s.setCycle x).line = s.line := rfl
@[simp] theorem State.setCycle_members (x : CycleUnit) : (s.setCycle x).members = s.members := rfl
@[simp] theorem State.setCycle_capture (x : CycleUnit) : (s.setCycle x).capture = s.capture := rfl
@[simp] theorem State.setCycle_exchange (x : CycleUnit) : (s.setCycle x).exchange = s.exchange := rfl
@[simp] theorem State.setCycle_table (x : CycleUnit) : (s.setCycle x).table = s.table := rfl
@[simp] theorem State.setCycle_channels (x : CycleUnit) : (s.setCycle x).channels = s.channels := rfl
@[simp] theorem State.setCycle_outputs (x : CycleUnit) : (s.setCycle x).outputs = s.outputs := rfl
@[simp] theorem State.setCycle_host (x : CycleUnit) : (s.setCycle x).host = s.host := rfl

@[simp] theorem State.setLink_pending (x : LinkUnit) : (s.setLink x).pending = s.pending := rfl
@[simp] theorem State.setLink_inReset (x : LinkUnit) : (s.setLink x).inReset = s.inReset := rfl
@[simp] theorem State.setLink_straps (x : LinkUnit) : (s.setLink x).straps = s.straps := rfl
@[simp] theorem State.setLink_cycle (x : LinkUnit) : (s.setLink x).cycle = s.cycle := rfl
@[simp] theorem State.setLink_link (x : LinkUnit) : (s.setLink x).link = x := rfl
@[simp] theorem State.setLink_line (x : LinkUnit) : (s.setLink x).line = s.line := rfl
@[simp] theorem State.setLink_members (x : LinkUnit) : (s.setLink x).members = s.members := rfl
@[simp] theorem State.setLink_capture (x : LinkUnit) : (s.setLink x).capture = s.capture := rfl
@[simp] theorem State.setLink_exchange (x : LinkUnit) : (s.setLink x).exchange = s.exchange := rfl
@[simp] theorem State.setLink_table (x : LinkUnit) : (s.setLink x).table = s.table := rfl
@[simp] theorem State.setLink_channels (x : LinkUnit) : (s.setLink x).channels = s.channels := rfl
@[simp] theorem State.setLink_outputs (x : LinkUnit) : (s.setLink x).outputs = s.outputs := rfl
@[simp] theorem State.setLink_host (x : LinkUnit) : (s.setLink x).host = s.host := rfl

@[simp] theorem State.setLine_pending (x : LinePort) : (s.setLine x).pending = s.pending := rfl
@[simp] theorem State.setLine_inReset (x : LinePort) : (s.setLine x).inReset = s.inReset := rfl
@[simp] theorem State.setLine_straps (x : LinePort) : (s.setLine x).straps = s.straps := rfl
@[simp] theorem State.setLine_cycle (x : LinePort) : (s.setLine x).cycle = s.cycle := rfl
@[simp] theorem State.setLine_link (x : LinePort) : (s.setLine x).link = s.link := rfl
@[simp] theorem State.setLine_line (x : LinePort) : (s.setLine x).line = x := rfl
@[simp] theorem State.setLine_members (x : LinePort) : (s.setLine x).members = s.members := rfl
@[simp] theorem State.setLine_capture (x : LinePort) : (s.setLine x).capture = s.capture := rfl
@[simp] theorem State.setLine_exchange (x : LinePort) : (s.setLine x).exchange = s.exchange := rfl
@[simp] theorem State.setLine_table (x : LinePort) : (s.setLine x).table = s.table := rfl
@[simp] theorem State.setLine_channels (x : LinePort) : (s.setLine x).channels = s.channels := rfl
@[simp] theorem State.setLine_outputs (x : LinePort) : (s.setLine x).outputs = s.outputs := rfl
@[simp] theorem State.setLine_host (x : LinePort) : (s.setLine x).host = s.host := rfl

@[simp] theorem State.setMembers_pending (x : Vector PeerRecord 16) : (s.setMembers x).pending = s.pending := rfl
@[simp] theorem State.setMembers_inReset (x : Vector PeerRecord 16) : (s.setMembers x).inReset = s.inReset := rfl
@[simp] theorem State.setMembers_straps (x : Vector PeerRecord 16) : (s.setMembers x).straps = s.straps := rfl
@[simp] theorem State.setMembers_cycle (x : Vector PeerRecord 16) : (s.setMembers x).cycle = s.cycle := rfl
@[simp] theorem State.setMembers_link (x : Vector PeerRecord 16) : (s.setMembers x).link = s.link := rfl
@[simp] theorem State.setMembers_line (x : Vector PeerRecord 16) : (s.setMembers x).line = s.line := rfl
@[simp] theorem State.setMembers_members (x : Vector PeerRecord 16) : (s.setMembers x).members = x := rfl
@[simp] theorem State.setMembers_capture (x : Vector PeerRecord 16) : (s.setMembers x).capture = s.capture := rfl
@[simp] theorem State.setMembers_exchange (x : Vector PeerRecord 16) : (s.setMembers x).exchange = s.exchange := rfl
@[simp] theorem State.setMembers_table (x : Vector PeerRecord 16) : (s.setMembers x).table = s.table := rfl
@[simp] theorem State.setMembers_channels (x : Vector PeerRecord 16) : (s.setMembers x).channels = s.channels := rfl
@[simp] theorem State.setMembers_outputs (x : Vector PeerRecord 16) : (s.setMembers x).outputs = s.outputs := rfl
@[simp] theorem State.setMembers_host (x : Vector PeerRecord 16) : (s.setMembers x).host = s.host := rfl

@[simp] theorem State.setCapture_pending (x : CaptureUnit) : (s.setCapture x).pending = s.pending := rfl
@[simp] theorem State.setCapture_inReset (x : CaptureUnit) : (s.setCapture x).inReset = s.inReset := rfl
@[simp] theorem State.setCapture_straps (x : CaptureUnit) : (s.setCapture x).straps = s.straps := rfl
@[simp] theorem State.setCapture_cycle (x : CaptureUnit) : (s.setCapture x).cycle = s.cycle := rfl
@[simp] theorem State.setCapture_link (x : CaptureUnit) : (s.setCapture x).link = s.link := rfl
@[simp] theorem State.setCapture_line (x : CaptureUnit) : (s.setCapture x).line = s.line := rfl
@[simp] theorem State.setCapture_members (x : CaptureUnit) : (s.setCapture x).members = s.members := rfl
@[simp] theorem State.setCapture_capture (x : CaptureUnit) : (s.setCapture x).capture = x := rfl
@[simp] theorem State.setCapture_exchange (x : CaptureUnit) : (s.setCapture x).exchange = s.exchange := rfl
@[simp] theorem State.setCapture_table (x : CaptureUnit) : (s.setCapture x).table = s.table := rfl
@[simp] theorem State.setCapture_channels (x : CaptureUnit) : (s.setCapture x).channels = s.channels := rfl
@[simp] theorem State.setCapture_outputs (x : CaptureUnit) : (s.setCapture x).outputs = s.outputs := rfl
@[simp] theorem State.setCapture_host (x : CaptureUnit) : (s.setCapture x).host = s.host := rfl

@[simp] theorem State.setExchange_pending (x : RequestExchange) : (s.setExchange x).pending = s.pending := rfl
@[simp] theorem State.setExchange_inReset (x : RequestExchange) : (s.setExchange x).inReset = s.inReset := rfl
@[simp] theorem State.setExchange_straps (x : RequestExchange) : (s.setExchange x).straps = s.straps := rfl
@[simp] theorem State.setExchange_cycle (x : RequestExchange) : (s.setExchange x).cycle = s.cycle := rfl
@[simp] theorem State.setExchange_link (x : RequestExchange) : (s.setExchange x).link = s.link := rfl
@[simp] theorem State.setExchange_line (x : RequestExchange) : (s.setExchange x).line = s.line := rfl
@[simp] theorem State.setExchange_members (x : RequestExchange) : (s.setExchange x).members = s.members := rfl
@[simp] theorem State.setExchange_capture (x : RequestExchange) : (s.setExchange x).capture = s.capture := rfl
@[simp] theorem State.setExchange_exchange (x : RequestExchange) : (s.setExchange x).exchange = x := rfl
@[simp] theorem State.setExchange_table (x : RequestExchange) : (s.setExchange x).table = s.table := rfl
@[simp] theorem State.setExchange_channels (x : RequestExchange) : (s.setExchange x).channels = s.channels := rfl
@[simp] theorem State.setExchange_outputs (x : RequestExchange) : (s.setExchange x).outputs = s.outputs := rfl
@[simp] theorem State.setExchange_host (x : RequestExchange) : (s.setExchange x).host = s.host := rfl

@[simp] theorem State.setTable_pending (x : List Entry) : (s.setTable x).pending = s.pending := rfl
@[simp] theorem State.setTable_inReset (x : List Entry) : (s.setTable x).inReset = s.inReset := rfl
@[simp] theorem State.setTable_straps (x : List Entry) : (s.setTable x).straps = s.straps := rfl
@[simp] theorem State.setTable_cycle (x : List Entry) : (s.setTable x).cycle = s.cycle := rfl
@[simp] theorem State.setTable_link (x : List Entry) : (s.setTable x).link = s.link := rfl
@[simp] theorem State.setTable_line (x : List Entry) : (s.setTable x).line = s.line := rfl
@[simp] theorem State.setTable_members (x : List Entry) : (s.setTable x).members = s.members := rfl
@[simp] theorem State.setTable_capture (x : List Entry) : (s.setTable x).capture = s.capture := rfl
@[simp] theorem State.setTable_exchange (x : List Entry) : (s.setTable x).exchange = s.exchange := rfl
@[simp] theorem State.setTable_table (x : List Entry) : (s.setTable x).table = x := rfl
@[simp] theorem State.setTable_channels (x : List Entry) : (s.setTable x).channels = s.channels := rfl
@[simp] theorem State.setTable_outputs (x : List Entry) : (s.setTable x).outputs = s.outputs := rfl
@[simp] theorem State.setTable_host (x : List Entry) : (s.setTable x).host = s.host := rfl

@[simp] theorem State.setChannels_pending (x : Vector Channel 12) : (s.setChannels x).pending = s.pending := rfl
@[simp] theorem State.setChannels_inReset (x : Vector Channel 12) : (s.setChannels x).inReset = s.inReset := rfl
@[simp] theorem State.setChannels_straps (x : Vector Channel 12) : (s.setChannels x).straps = s.straps := rfl
@[simp] theorem State.setChannels_cycle (x : Vector Channel 12) : (s.setChannels x).cycle = s.cycle := rfl
@[simp] theorem State.setChannels_link (x : Vector Channel 12) : (s.setChannels x).link = s.link := rfl
@[simp] theorem State.setChannels_line (x : Vector Channel 12) : (s.setChannels x).line = s.line := rfl
@[simp] theorem State.setChannels_members (x : Vector Channel 12) : (s.setChannels x).members = s.members := rfl
@[simp] theorem State.setChannels_capture (x : Vector Channel 12) : (s.setChannels x).capture = s.capture := rfl
@[simp] theorem State.setChannels_exchange (x : Vector Channel 12) : (s.setChannels x).exchange = s.exchange := rfl
@[simp] theorem State.setChannels_table (x : Vector Channel 12) : (s.setChannels x).table = s.table := rfl
@[simp] theorem State.setChannels_channels (x : Vector Channel 12) : (s.setChannels x).channels = x := rfl
@[simp] theorem State.setChannels_outputs (x : Vector Channel 12) : (s.setChannels x).outputs = s.outputs := rfl
@[simp] theorem State.setChannels_host (x : Vector Channel 12) : (s.setChannels x).host = s.host := rfl

@[simp] theorem State.setOutputs_pending (x : Vector Level 12) : (s.setOutputs x).pending = s.pending := rfl
@[simp] theorem State.setOutputs_inReset (x : Vector Level 12) : (s.setOutputs x).inReset = s.inReset := rfl
@[simp] theorem State.setOutputs_straps (x : Vector Level 12) : (s.setOutputs x).straps = s.straps := rfl
@[simp] theorem State.setOutputs_cycle (x : Vector Level 12) : (s.setOutputs x).cycle = s.cycle := rfl
@[simp] theorem State.setOutputs_link (x : Vector Level 12) : (s.setOutputs x).link = s.link := rfl
@[simp] theorem State.setOutputs_line (x : Vector Level 12) : (s.setOutputs x).line = s.line := rfl
@[simp] theorem State.setOutputs_members (x : Vector Level 12) : (s.setOutputs x).members = s.members := rfl
@[simp] theorem State.setOutputs_capture (x : Vector Level 12) : (s.setOutputs x).capture = s.capture := rfl
@[simp] theorem State.setOutputs_exchange (x : Vector Level 12) : (s.setOutputs x).exchange = s.exchange := rfl
@[simp] theorem State.setOutputs_table (x : Vector Level 12) : (s.setOutputs x).table = s.table := rfl
@[simp] theorem State.setOutputs_channels (x : Vector Level 12) : (s.setOutputs x).channels = s.channels := rfl
@[simp] theorem State.setOutputs_outputs (x : Vector Level 12) : (s.setOutputs x).outputs = x := rfl
@[simp] theorem State.setOutputs_host (x : Vector Level 12) : (s.setOutputs x).host = s.host := rfl

@[simp] theorem State.setHost_pending (x : HostPort) : (s.setHost x).pending = s.pending := rfl
@[simp] theorem State.setHost_inReset (x : HostPort) : (s.setHost x).inReset = s.inReset := rfl
@[simp] theorem State.setHost_straps (x : HostPort) : (s.setHost x).straps = s.straps := rfl
@[simp] theorem State.setHost_cycle (x : HostPort) : (s.setHost x).cycle = s.cycle := rfl
@[simp] theorem State.setHost_link (x : HostPort) : (s.setHost x).link = s.link := rfl
@[simp] theorem State.setHost_line (x : HostPort) : (s.setHost x).line = s.line := rfl
@[simp] theorem State.setHost_members (x : HostPort) : (s.setHost x).members = s.members := rfl
@[simp] theorem State.setHost_capture (x : HostPort) : (s.setHost x).capture = s.capture := rfl
@[simp] theorem State.setHost_exchange (x : HostPort) : (s.setHost x).exchange = s.exchange := rfl
@[simp] theorem State.setHost_table (x : HostPort) : (s.setHost x).table = s.table := rfl
@[simp] theorem State.setHost_channels (x : HostPort) : (s.setHost x).channels = s.channels := rfl
@[simp] theorem State.setHost_outputs (x : HostPort) : (s.setHost x).outputs = s.outputs := rfl
@[simp] theorem State.setHost_host (x : HostPort) : (s.setHost x).host = x := rfl

@[simp] theorem State.setPending_setPending (x y : List Instr) : (s.setPending x).setPending y = s.setPending y := rfl
@[simp] theorem State.setPending_self : s.setPending s.pending = s := rfl
@[simp] theorem State.setCycle_setCycle (x y : CycleUnit) : (s.setCycle x).setCycle y = s.setCycle y := rfl
@[simp] theorem State.setCycle_self : s.setCycle s.cycle = s := rfl
@[simp] theorem State.setLink_setLink (x y : LinkUnit) : (s.setLink x).setLink y = s.setLink y := rfl
@[simp] theorem State.setLink_self : s.setLink s.link = s := rfl
@[simp] theorem State.setLine_setLine (x y : LinePort) : (s.setLine x).setLine y = s.setLine y := rfl
@[simp] theorem State.setLine_self : s.setLine s.line = s := rfl
@[simp] theorem State.setMembers_setMembers (x y : Vector PeerRecord 16) : (s.setMembers x).setMembers y = s.setMembers y := rfl
@[simp] theorem State.setMembers_self : s.setMembers s.members = s := rfl
@[simp] theorem State.setCapture_setCapture (x y : CaptureUnit) : (s.setCapture x).setCapture y = s.setCapture y := rfl
@[simp] theorem State.setCapture_self : s.setCapture s.capture = s := rfl
@[simp] theorem State.setExchange_setExchange (x y : RequestExchange) : (s.setExchange x).setExchange y = s.setExchange y := rfl
@[simp] theorem State.setExchange_self : s.setExchange s.exchange = s := rfl
@[simp] theorem State.setTable_setTable (x y : List Entry) : (s.setTable x).setTable y = s.setTable y := rfl
@[simp] theorem State.setTable_self : s.setTable s.table = s := rfl
@[simp] theorem State.setChannels_setChannels (x y : Vector Channel 12) : (s.setChannels x).setChannels y = s.setChannels y := rfl
@[simp] theorem State.setChannels_self : s.setChannels s.channels = s := rfl
@[simp] theorem State.setOutputs_setOutputs (x y : Vector Level 12) : (s.setOutputs x).setOutputs y = s.setOutputs y := rfl
@[simp] theorem State.setOutputs_self : s.setOutputs s.outputs = s := rfl
@[simp] theorem State.setHost_setHost (x y : HostPort) : (s.setHost x).setHost y = s.setHost y := rfl
@[simp] theorem State.setHost_self : s.setHost s.host = s := rfl

@[simp] theorem State.setPending_now (x : List Instr) : (s.setPending x).now = s.now := rfl
@[simp] theorem State.setPending_own (x : List Instr) : (s.setPending x).own = s.own := rfl
@[simp] theorem State.setPending_stationCount (x : List Instr) : (s.setPending x).stationCount = s.stationCount := rfl
@[simp] theorem State.setPending_slotLength (x : List Instr) : (s.setPending x).slotLength = s.slotLength := rfl
@[simp] theorem State.setCycle_now (x : CycleUnit) : (s.setCycle x).now = x.lineTime := rfl
@[simp] theorem State.setCycle_own (x : CycleUnit) : (s.setCycle x).own = s.own := rfl
@[simp] theorem State.setCycle_stationCount (x : CycleUnit) : (s.setCycle x).stationCount = s.stationCount := rfl
@[simp] theorem State.setCycle_slotLength (x : CycleUnit) : (s.setCycle x).slotLength = s.slotLength := rfl
@[simp] theorem State.setLink_now (x : LinkUnit) : (s.setLink x).now = s.now := rfl
@[simp] theorem State.setLink_own (x : LinkUnit) : (s.setLink x).own = s.own := rfl
@[simp] theorem State.setLink_stationCount (x : LinkUnit) : (s.setLink x).stationCount = s.stationCount := rfl
@[simp] theorem State.setLink_slotLength (x : LinkUnit) : (s.setLink x).slotLength = s.slotLength := rfl
@[simp] theorem State.setLine_now (x : LinePort) : (s.setLine x).now = s.now := rfl
@[simp] theorem State.setLine_own (x : LinePort) : (s.setLine x).own = s.own := rfl
@[simp] theorem State.setLine_stationCount (x : LinePort) : (s.setLine x).stationCount = s.stationCount := rfl
@[simp] theorem State.setLine_slotLength (x : LinePort) : (s.setLine x).slotLength = s.slotLength := rfl
@[simp] theorem State.setMembers_now (x : Vector PeerRecord 16) : (s.setMembers x).now = s.now := rfl
@[simp] theorem State.setMembers_own (x : Vector PeerRecord 16) : (s.setMembers x).own = s.own := rfl
@[simp] theorem State.setMembers_stationCount (x : Vector PeerRecord 16) : (s.setMembers x).stationCount = s.stationCount := rfl
@[simp] theorem State.setMembers_slotLength (x : Vector PeerRecord 16) : (s.setMembers x).slotLength = s.slotLength := rfl
@[simp] theorem State.setCapture_now (x : CaptureUnit) : (s.setCapture x).now = s.now := rfl
@[simp] theorem State.setCapture_own (x : CaptureUnit) : (s.setCapture x).own = s.own := rfl
@[simp] theorem State.setCapture_stationCount (x : CaptureUnit) : (s.setCapture x).stationCount = s.stationCount := rfl
@[simp] theorem State.setCapture_slotLength (x : CaptureUnit) : (s.setCapture x).slotLength = s.slotLength := rfl
@[simp] theorem State.setExchange_now (x : RequestExchange) : (s.setExchange x).now = s.now := rfl
@[simp] theorem State.setExchange_own (x : RequestExchange) : (s.setExchange x).own = s.own := rfl
@[simp] theorem State.setExchange_stationCount (x : RequestExchange) : (s.setExchange x).stationCount = s.stationCount := rfl
@[simp] theorem State.setExchange_slotLength (x : RequestExchange) : (s.setExchange x).slotLength = s.slotLength := rfl
@[simp] theorem State.setTable_now (x : List Entry) : (s.setTable x).now = s.now := rfl
@[simp] theorem State.setTable_own (x : List Entry) : (s.setTable x).own = s.own := rfl
@[simp] theorem State.setTable_stationCount (x : List Entry) : (s.setTable x).stationCount = s.stationCount := rfl
@[simp] theorem State.setTable_slotLength (x : List Entry) : (s.setTable x).slotLength = s.slotLength := rfl
@[simp] theorem State.setChannels_now (x : Vector Channel 12) : (s.setChannels x).now = s.now := rfl
@[simp] theorem State.setChannels_own (x : Vector Channel 12) : (s.setChannels x).own = s.own := rfl
@[simp] theorem State.setChannels_stationCount (x : Vector Channel 12) : (s.setChannels x).stationCount = s.stationCount := rfl
@[simp] theorem State.setChannels_slotLength (x : Vector Channel 12) : (s.setChannels x).slotLength = s.slotLength := rfl
@[simp] theorem State.setOutputs_now (x : Vector Level 12) : (s.setOutputs x).now = s.now := rfl
@[simp] theorem State.setOutputs_own (x : Vector Level 12) : (s.setOutputs x).own = s.own := rfl
@[simp] theorem State.setOutputs_stationCount (x : Vector Level 12) : (s.setOutputs x).stationCount = s.stationCount := rfl
@[simp] theorem State.setOutputs_slotLength (x : Vector Level 12) : (s.setOutputs x).slotLength = s.slotLength := rfl
@[simp] theorem State.setHost_now (x : HostPort) : (s.setHost x).now = s.now := rfl
@[simp] theorem State.setHost_own (x : HostPort) : (s.setHost x).own = s.own := rfl
@[simp] theorem State.setHost_stationCount (x : HostPort) : (s.setHost x).stationCount = s.stationCount := rfl
@[simp] theorem State.setHost_slotLength (x : HostPort) : (s.setHost x).slotLength = s.slotLength := rfl

end Sys2Proof.Machine
end

