-- ==== Sys2Proof/Laws/Frames.lean ====
section
/-! SUPPORT. Which blocks of the station each shared operation may change, from the setters up. A proof that an operation
leaves a field alone cites the operation's lemma here and the field's projection. -/

-- One thread for the whole file: its many small proofs would otherwise each take a thread's memory.
set_option Elab.async false

namespace Sys2Proof.Machine

variable {bs cs ds : List Block} {s t u : State}

/-! ### The relation -/

theorem Changes.refl (bs : List Block) (s : State) : Changes bs s s := by
  intro b _
  cases b <;> rfl

theorem State.agreesIn_trans {b : Block} (h : s.agreesIn t b) (h' : t.agreesIn u b) : s.agreesIn u b := by
  cases b <;> exact Eq.trans h' h

theorem Changes.mono (h : Changes bs s t) (sub : bs ⊆ cs) : Changes cs s t :=
  fun b hb => h b fun hm => hb (sub hm)

/-- One change after another. -/
theorem Changes.then (h : Changes bs s t) (h' : Changes cs t u) (sub : bs ⊆ ds := by decide)
    (sub' : cs ⊆ ds := by decide) : Changes ds s u :=
  fun b hb => State.agreesIn_trans (h b fun hm => hb (sub hm)) (h' b fun hm => hb (sub' hm))

theorem Changes.foldl {α : Type} (f : State → α → State) (hf : ∀ s a, Changes bs s (f s a)) (l : List α) (s : State) :
    Changes bs s (l.foldl f s) := by
  induction l generalizing s with
  | nil => exact Changes.refl bs s
  | cons a l ih => exact (hf s a).then (ih _) (List.Subset.refl _) (List.Subset.refl _)

theorem Changes.pending_eq (h : Changes bs s t) (hb : Block.pending ∉ bs := by decide) : t.pending = s.pending := h _ hb
theorem Changes.inReset_eq (h : Changes bs s t) (hb : Block.inReset ∉ bs := by decide) : t.inReset = s.inReset := h _ hb
theorem Changes.straps_eq (h : Changes bs s t) (hb : Block.straps ∉ bs := by decide) : t.straps = s.straps := h _ hb
theorem Changes.cycle_eq (h : Changes bs s t) (hb : Block.cycle ∉ bs := by decide) : t.cycle = s.cycle := h _ hb
theorem Changes.link_eq (h : Changes bs s t) (hb : Block.link ∉ bs := by decide) : t.link = s.link := h _ hb
theorem Changes.line_eq (h : Changes bs s t) (hb : Block.line ∉ bs := by decide) : t.line = s.line := h _ hb
theorem Changes.members_eq (h : Changes bs s t) (hb : Block.members ∉ bs := by decide) : t.members = s.members := h _ hb
theorem Changes.capture_eq (h : Changes bs s t) (hb : Block.capture ∉ bs := by decide) : t.capture = s.capture := h _ hb
theorem Changes.exchange_eq (h : Changes bs s t) (hb : Block.exchange ∉ bs := by decide) : t.exchange = s.exchange := h _ hb
theorem Changes.table_eq (h : Changes bs s t) (hb : Block.table ∉ bs := by decide) : t.table = s.table := h _ hb
theorem Changes.channels_eq (h : Changes bs s t) (hb : Block.channels ∉ bs := by decide) : t.channels = s.channels := h _ hb
theorem Changes.outputs_eq (h : Changes bs s t) (hb : Block.outputs ∉ bs := by decide) : t.outputs = s.outputs := h _ hb
theorem Changes.host_eq (h : Changes bs s t) (hb : Block.host ∉ bs := by decide) : t.host = s.host := h _ hb

/-! ### The setters -/

theorem changes_setPending (s : State) (x : List Instr) : Changes [.pending] s (s.setPending x) := by
  intro b hb; cases b <;> first | rfl | exact absurd (by decide) hb
theorem changes_setCycle (s : State) (x : CycleUnit) : Changes [.cycle] s (s.setCycle x) := by
  intro b hb; cases b <;> first | rfl | exact absurd (by decide) hb
theorem changes_setLink (s : State) (x : LinkUnit) : Changes [.link] s (s.setLink x) := by
  intro b hb; cases b <;> first | rfl | exact absurd (by decide) hb
theorem changes_setLine (s : State) (x : LinePort) : Changes [.line] s (s.setLine x) := by
  intro b hb; cases b <;> first | rfl | exact absurd (by decide) hb
theorem changes_setMembers (s : State) (x : Vector PeerRecord 16) : Changes [.members] s (s.setMembers x) := by
  intro b hb; cases b <;> first | rfl | exact absurd (by decide) hb
theorem changes_setCapture (s : State) (x : CaptureUnit) : Changes [.capture] s (s.setCapture x) := by
  intro b hb; cases b <;> first | rfl | exact absurd (by decide) hb
theorem changes_setExchange (s : State) (x : RequestExchange) : Changes [.exchange] s (s.setExchange x) := by
  intro b hb; cases b <;> first | rfl | exact absurd (by decide) hb
theorem changes_setTable (s : State) (x : List Entry) : Changes [.table] s (s.setTable x) := by
  intro b hb; cases b <;> first | rfl | exact absurd (by decide) hb
theorem changes_setChannels (s : State) (x : Vector Channel 12) : Changes [.channels] s (s.setChannels x) := by
  intro b hb; cases b <;> first | rfl | exact absurd (by decide) hb
theorem changes_setOutputs (s : State) (x : Vector Level 12) : Changes [.outputs] s (s.setOutputs x) := by
  intro b hb; cases b <;> first | rfl | exact absurd (by decide) hb
theorem changes_setHost (s : State) (x : HostPort) : Changes [.host] s (s.setHost x) := by
  intro b hb; cases b <;> first | rfl | exact absurd (by decide) hb
theorem changes_setPeer (s : State) (k : Station) (r : PeerRecord) : Changes [.members] s (s.setPeer k r) :=
  changes_setMembers _ _
theorem changes_setChannel (s : State) (c : ChannelNumber) (r : Channel) : Changes [.channels] s (s.setChannel c r) :=
  changes_setChannels _ _
theorem changes_setPin (s : State) (p : Pin) (r : PinRecord) : Changes [.capture] s (s.setPin p r) :=
  changes_setCapture _ _
theorem changes_setInputRecord (s : State) (i : Input) (r : InputRecord) : Changes [.capture] s (s.setInputRecord i r) :=
  changes_setCapture _ _

/-! ### Notices, results and the table -/

theorem changes_queueNotice (n : Notice) (s : State) : Changes [.host] s (queueNotice n s) := by
  unfold queueNotice
  split <;> exact changes_setHost _ _
theorem changes_queueReplyItem (i : ReplyItem) (s : State) : Changes [.exchange] s (queueReplyItem i s) := by
  unfold queueReplyItem
  split
  · exact changes_setExchange _ _
  · exact Changes.refl _ _
theorem changes_produceResult (e : Entry) (o : EntryOutcome) (s : State) :
    Changes [.exchange, .host] s (produceResult e o s) := by
  unfold produceResult
  split
  · split
    · exact (changes_queueNotice _ _).mono (by decide)
    · exact (changes_queueReplyItem _ _).mono (by decide)
  · exact Changes.refl _ _
theorem changes_replaceEntry (e : Entry) (s : State) : Changes [.table] s (replaceEntry e s) := changes_setTable _ _
theorem changes_dropEntry (i : Index) (s : State) : Changes [.table] s (dropEntry i s) := changes_setTable _ _
theorem changes_depart (e : Entry) (o : EntryOutcome) (s : State) :
    Changes [.exchange, .table, .host] s (depart e o s) :=
  (changes_dropEntry e.index s).then (changes_produceResult e o _)
theorem changes_takeChannel (c : ChannelNumber) (i : Index) (s : State) : Changes [.channels] s (takeChannel c i s) :=
  changes_setChannel _ _ _
theorem changes_setPhase (c : ChannelNumber) (p : Phase) (s : State) : Changes [.channels] s (setPhase c p s) :=
  changes_setChannel _ _ _
theorem changes_releaseChannel (c : ChannelNumber) (i : Index) (s : State) :
    Changes [.channels] s (releaseChannel c i s) := by
  unfold releaseChannel
  split
  · exact changes_setChannel _ _ _
  · exact Changes.refl _ _
theorem changes_leave (e : Entry) (o : EntryOutcome) (s : State) : Changes Block.ofEntries s (leave e o s) :=
  (changes_releaseChannel e.channel e.index s).then (changes_depart e o _)
theorem changes_leaveSilently (e : Entry) (s : State) : Changes [.table, .channels] s (leaveSilently e s) :=
  (changes_releaseChannel e.channel e.index s).then (changes_dropEntry e.index _)
theorem changes_leaveEach (es : List Entry) (f : Entry → State → State) (hf : ∀ e s, Changes bs s (f e s)) (s : State) :
    Changes bs s (leaveEach es f s) :=
  Changes.foldl _ (fun s e => hf e s) es s
theorem changes_returnToArmed (e : Entry) (x : Time) (s : State) :
    Changes [.exchange, .table, .host] s (returnToArmed e x s) := by
  unfold returnToArmed
  split
  · exact changes_depart _ _ _
  · exact (changes_replaceEntry _ _).mono (by decide)
theorem changes_finishRun (e : Entry) (o : EntryOutcome) (x : Time) (s : State) :
    Changes [.exchange, .table, .host] s (finishRun e o x s) := by
  unfold finishRun
  split
  · exact changes_depart _ _ _
  · split
    · exact changes_depart _ _ _
    · exact changes_returnToArmed _ _ _
theorem changes_grantStart (e : Entry) (x : Time) (s : State) : Changes [.table, .channels] s (grantStart e x s) :=
  (changes_replaceEntry _ s).then (changes_takeChannel _ _ _)
theorem changes_preemptOwner (i : Index) (s : State) : Changes [.exchange, .table, .host] s (preemptOwner i s) := by
  unfold preemptOwner
  split
  · exact Changes.refl _ _
  · exact changes_depart _ _ _
theorem changes_requestStart (i : Index) (x : Time) (s : State) : Changes Block.ofEntries s (requestStart i x s) := by
  unfold requestStart
  split
  · exact Changes.refl _ _
  · split
    · exact (changes_grantStart _ _ _).mono (by decide)
    · split
      · exact (changes_preemptOwner _ s).then (changes_grantStart _ _ _)
      · exact (changes_finishRun _ _ _ _).mono (by decide)
theorem changes_startPhase (i : Index) (x : Time) (s : State) : Changes [.table, .channels] s (startPhase i x s) := by
  unfold startPhase
  split
  · exact Changes.refl _ _
  · exact (changes_replaceEntry _ s).then (changes_setPhase _ _ _)
theorem changes_takeEnd (i : Index) (x : Time) (s : State) : Changes Block.ofEntries s (takeEnd i x s) := by
  unfold takeEnd
  split
  · exact Changes.refl _ _
  · split
    · exact (changes_replaceEntry _ s).then (changes_setPhase _ _ _)
    · exact (changes_releaseChannel _ _ s).then (changes_finishRun _ _ _ _)
theorem changes_takeExpiry (i : Index) (s : State) : Changes Block.ofEntries s (takeExpiry i s) := by
  unfold takeExpiry
  split
  · exact Changes.refl _ _
  · exact (changes_depart _ _ _).mono (by decide)
theorem changes_takeEdge (d : PendingEdge) (s : State) : Changes Block.ofEntries s (takeEdge d s) := by
  unfold takeEdge
  split
  · exact changes_takeEnd _ _ _
  · exact changes_takeExpiry _ _
  · exact changes_requestStart _ _ _
  · exact (changes_startPhase _ _ _).mono (by decide)
theorem changes_takeEdges (limit : Time) (fuel : Nat) (s : State) :
    Changes Block.ofEntries s (takeEdges limit fuel s) := by
  induction fuel generalizing s with
  | zero => exact Changes.refl _ _
  | succ n ih =>
    unfold takeEdges
    split
    · exact Changes.refl _ _
    · exact (changes_takeEdge _ s).then (ih _)
theorem changes_whereDue (due : Entry → Bool) (f : Entry → Entry) (s : State) : Changes [.table] s (whereDue due f s) :=
  changes_setTable _ _
theorem changes_ageArmTimes (n : Time) (s : State) : Changes [.table] s (ageArmTimes n s) := changes_whereDue _ _ _
theorem changes_noteTimes (n : Time) (s : State) : Changes [.table] s (noteTimes n s) :=
  ((changes_whereDue _ _ s).then (ds := [.table]) (changes_whereDue _ _ _)).then (changes_ageArmTimes _ _)
theorem changes_takeIfPending (s : State) (d : PendingEdge) : Changes Block.ofEntries s (takeIfPending s d) := by
  unfold takeIfPending
  split
  · exact changes_takeEdge _ _
  · exact Changes.refl _ _
theorem changes_tableStep (v σ : Time) (l : List PendingEdge) (s : State) :
    Changes Block.ofEntries s (tableStep v σ l s) := by
  unfold tableStep
  split
  · exact (changes_takeEdges _ _ s).then (changes_noteTimes _ _)
  · exact Changes.foldl _ changes_takeIfPending l s
theorem changes_abandonTable (s : State) : Changes Block.ofEntries s (abandonTable s) :=
  changes_leaveEach _ _ (fun e s => changes_leave e _ s) s
theorem changes_lateMatch (e : Entry) (p : EventPart) (s : State) : Changes Block.ofEntries s (lateMatch e p s) := by
  unfold lateMatch
  split
  · exact (changes_finishRun _ _ _ _).mono (by decide)
  · exact (changes_replaceEntry _ s).then (changes_requestStart _ _ _)
  · exact Changes.refl _ _
theorem changes_matchEntry (e : Entry) (p : EventPart) (ev : Event) (s : State) :
    Changes Block.ofEntries s (matchEntry e p ev s) := by
  unfold matchEntry
  simp only
  split
  · exact (changes_replaceEntry _ _).mono (by decide)
  · exact changes_lateMatch _ _ _
theorem changes_meetEvent (ev : Event) (i : Index) (s : State) : Changes Block.ofEntries s (meetEvent ev i s) := by
  unfold meetEvent
  split
  · exact Changes.refl _ _
  · split
    · split
      · exact changes_matchEntry _ _ _ _
      · exact Changes.refl _ _
    · exact Changes.refl _ _
theorem changes_matchEvent (ev : Event) (s : State) : Changes Block.ofEntries s (matchEvent ev s) :=
  Changes.foldl _ (fun s i => changes_meetEvent ev i s) _ s
theorem changes_startPhaseIfPassed (i : Index) (s : State) :
    Changes [.table, .channels] s (startPhaseIfPassed i s) := by
  unfold startPhaseIfPassed
  split
  · split
    · split
      · exact changes_startPhase _ _ _
      · exact Changes.refl _ _
    · exact Changes.refl _ _
  · exact Changes.refl _ _
theorem changes_amendEntry (e : Entry) (d : BitVec 24) (s : State) : Changes Block.ofEntries s (amendEntry e d s) := by
  unfold amendEntry
  split
  · exact (changes_replaceEntry _ _).mono (by decide)
  · unfold amendScheduled
    split
    · exact Changes.refl _ _
    · simp only
      split
      · exact (changes_replaceEntry _ s).then (changes_requestStart _ _ _)
      · exact (changes_replaceEntry _ _).mono (by decide)
  · split
    · unfold amendTrain
      simp only
      split
      · exact (changes_replaceEntry _ _).mono (by decide)
      · split
        · split
          · exact ((changes_replaceEntry _ s).then (ds := Block.ofEntries) (changes_takeEnd _ _ _)).then
              (changes_startPhaseIfPassed _ _)
          · exact (changes_replaceEntry _ s).then (changes_startPhase _ _ _)
        · exact (changes_replaceEntry _ _).mono (by decide)
    · unfold amendPulse
      simp only
      split
      · exact changes_takeEnd _ _ _
      · split
        · exact changes_takeEnd _ _ _
        · exact (changes_replaceEntry _ _).mono (by decide)
theorem changes_cancelEntry (e : Entry) (s : State) : Changes Block.ofEntries s (cancelEntry e s) := changes_leave _ _ _
theorem changes_removeBound (k : Station) (s : State) : Changes [.table, .channels] s (removeBound k s) :=
  changes_leaveEach _ _ changes_leaveSilently s
theorem changes_leaveSourceLost (k : Station) (e : Entry) (s : State) :
    Changes Block.ofEntries s (leaveSourceLost k e s) := by
  unfold leaveSourceLost
  split
  · exact (changes_leaveSilently _ _).mono (by decide)
  · exact changes_leave _ _ _
theorem changes_removeWatchers (k : Station) (s : State) : Changes Block.ofEntries s (removeWatchers k s) :=
  changes_leaveEach _ _ (changes_leaveSourceLost k) s
theorem changes_removePeerEntries (s : State) : Changes [.table, .channels] s (removePeerEntries s) :=
  changes_leaveEach _ _ changes_leaveSilently s

/-! ### The Request Exchange -/

theorem changes_queueSendItem (i : SendItem) (s : State) : Changes [.exchange] s (queueSendItem i s) :=
  changes_setExchange _ _
theorem changes_removeRequest (n : RequestNumber) (s : State) : Changes [.exchange] s (removeRequest n s) :=
  changes_setExchange _ _
theorem changes_changeRequest (n : RequestNumber) (f : RequestRecord → RequestRecord) (s : State) :
    Changes [.exchange] s (changeRequest n f s) := changes_setExchange _ _
theorem changes_failRequest (why : FailReason) (r : RequestRecord) (s : State) :
    Changes [.exchange, .host] s (failRequest why r s) :=
  (changes_removeRequest _ s).then (changes_queueNotice _ _)
theorem changes_failEach (why : FailReason) (rs : List RequestRecord) (s : State) :
    Changes [.exchange, .host] s (failEach why rs s) :=
  Changes.foldl _ (fun s r => changes_failRequest why r s) rs s
theorem changes_retryRequest (r : RequestRecord) (s : State) : Changes [.exchange, .host] s (retryRequest r s) := by
  unfold retryRequest
  split
  · split
    · exact changes_failRequest _ _ _
    · split
      · exact (changes_changeRequest _ _ s).then (changes_queueSendItem _ _)
      · exact Changes.refl _ _
  · exact Changes.refl _ _
theorem changes_retryPass (s : State) : Changes [.exchange, .host] s (retryPass s) :=
  Changes.foldl _ (fun s r => changes_retryRequest r s) _ s
theorem changes_failRemoved (i : SendItem) (s : State) : Changes [.exchange, .host] s (failRemoved i s) := by
  unfold failRemoved
  split
  · exact Changes.refl _ _
  · split
    · exact Changes.refl _ _
    · exact changes_failRequest _ _ _
theorem changes_buildFrame (s : State) : Changes [.line, .exchange, .host] s (buildFrame s) := by
  unfold buildFrame
  simp only
  exact (((changes_retryPass s).then (ds := [.exchange, .host]) (changes_setExchange _ _)).then
    (ds := [.exchange, .host]) (Changes.foldl _ (fun s i => changes_failRemoved i s) _ _)).then (changes_setLine _ _)
theorem changes_reportSent (f : OwnFrame) (s : State) : Changes [.exchange] s (reportSent f s) :=
  Changes.foldl _ (fun s n => changes_changeRequest n _ s) _ s
theorem changes_moveCycles (d : CycleNumber) (s : State) : Changes [.exchange] s (moveCycles d s) :=
  changes_setExchange _ _
theorem changes_expireCache (s : State) : Changes [.exchange] s (expireCache s) := changes_setExchange _ _
theorem changes_stopExchange (s : State) : Changes [.exchange, .host] s (stopExchange s) := by
  unfold stopExchange
  exact ((changes_setExchange s _).then (ds := [.exchange, .host]) (changes_failEach _ _ _)).then
    (changes_setExchange _ _)
theorem changes_drawNumber (s : State) : Changes [.exchange] s (drawNumber s) := changes_setExchange _ _
theorem changes_placeOrder (k : Station) (n : RequestNumber) (o : OrderFields) (s : State) :
    Changes [.table] s (placeOrder k n o s) := by
  unfold placeOrder
  split
  · exact Changes.refl _ _
  · exact changes_setTable _ _
theorem changes_applyRequest (k : Station) (n : RequestNumber) (r : Request) (s : State) :
    Changes Block.ofEntries s (applyRequest k n r s) := by
  cases r with
  | order o => exact (changes_placeOrder k n o s).mono (by decide)
  | amend subject d =>
    simp only [applyRequest]
    split
    · exact Changes.refl _ _
    · exact changes_amendEntry _ _ _
  | cancel subject =>
    simp only [applyRequest]
    split
    · exact Changes.refl _ _
    · exact changes_cancelEntry _ _
theorem changes_setCacheOf (k : Station) (l : List CacheRecord) (s : State) : Changes [.exchange] s (setCacheOf k l s) :=
  changes_setExchange _ _
theorem changes_answerRequest (k : Station) (n : RequestNumber) (c : ReplyCode) (s : State) :
    Changes [.exchange] s (answerRequest k n c s) :=
  (changes_setCacheOf _ _ s).then (changes_queueReplyItem _ _)
theorem changes_decideRequest (k : Station) (n : RequestNumber) (r : Request) (s : State) :
    Changes Block.ofEntries s (decideRequest k n r s) := by
  unfold decideRequest
  simp only
  split
  · exact (changes_answerRequest _ _ _ s).then (changes_applyRequest _ _ _ _)
  · exact (changes_answerRequest _ _ _ s).mono (by decide)
theorem changes_acceptRequest (k : Station) (n : RequestNumber) (r : Request) (s : State) :
    Changes Block.ofEntries s (acceptRequest k n r s) := by
  unfold acceptRequest
  split
  · exact Changes.refl _ _
  · split
    · exact Changes.refl _ _
    · split
      · exact (changes_queueReplyItem _ _).mono (by decide)
      · split
        · exact Changes.refl _ _
        · exact changes_decideRequest _ _ _ _
theorem changes_takeReply (k : Station) (n : RequestNumber) (c : ReplyCode) (s : State) :
    Changes [.exchange, .host] s (takeReply k n c s) := by
  unfold takeReply
  split
  · exact Changes.refl _ _
  · split
    · exact (changes_removeRequest _ s).then (changes_queueNotice _ _)
    · exact Changes.refl _ _
theorem changes_takeResult (k : Station) (n : RequestNumber) (o : EntryOutcome) (x : Option Time) (s : State) :
    Changes [.host] s (takeResult k n o x s) := changes_queueNotice _ _
theorem changes_makeRequest (k : Station) (n : RequestNumber) (r : Request) (s : State) :
    Changes [.exchange] s (makeRequest k n r s) :=
  (changes_setExchange s _).then (changes_queueSendItem _ _)

/-! ### Membership -/

theorem changes_peerNotice (k : Station) (x : PeerState) (s : State) : Changes [.host] s (peerNotice k x s) :=
  changes_queueNotice _ _
theorem changes_loseCascade (k : Station) (s : State) : Changes Block.ofMembers s (loseCascade k s) :=
  ((((changes_failEach _ _ s).then (ds := Block.ofMembers) (changes_removeBound k _)).then (ds := Block.ofMembers)
    (changes_removeWatchers k _)).then (changes_setPeer _ _ _))
theorem changes_slotEnd (k : Station) (s : State) : Changes Block.ofMembers s (slotEnd k s) := by
  unfold slotEnd
  split
  · exact Changes.refl _ _
  · simp only
    split
    · exact (changes_setPeer _ _ _).mono (by decide)
    · split
      · exact ((changes_setPeer s _ _).then (ds := Block.ofMembers) (changes_peerNotice _ _ _)).then
          (changes_loseCascade _ _)
      · exact (changes_setPeer s _ _).then (changes_peerNotice _ _ _)
theorem changes_countCheckError (k : Station) (s : State) : Changes [.members] s (countCheckError k s) := by
  unfold countCheckError
  split
  · exact Changes.refl _ _
  · exact changes_setPeer _ _ _
theorem changes_countIntrusion (k : Station) (s : State) : Changes [.members, .host] s (countIntrusion k s) := by
  unfold countIntrusion
  split
  · exact Changes.refl _ _
  · exact (changes_setPeer s _ _).then (changes_queueNotice _ _)
theorem changes_restartCascade (k : Station) (s : State) : Changes Block.ofMembers s (restartCascade k s) :=
  ((((changes_setCacheOf k [] s).then (ds := Block.ofMembers) (changes_failEach _ _ _)).then (ds := Block.ofMembers)
    (changes_removeBound k _)).then (changes_setPeer _ _ _))
theorem changes_detectRestart (k : Station) (b : Bool) (s : State) : Changes Block.ofMembers s (detectRestart k b s) := by
  unfold detectRestart
  simp only
  split
  · split
    · exact Changes.refl _ _
    · split
      · exact (changes_setPeer _ _ _).mono (by decide)
      · exact (changes_restartCascade k s).then (changes_setPeer _ _ _)
  · exact (changes_setPeer _ _ _).mono (by decide)
theorem changes_reportFrame (k : Station) (w : Bool) (d : Int) (b : Bool) (s : State) :
    Changes Block.ofMembers s (reportFrame k w d b s) :=
  (changes_setPeer s _ _).then (changes_detectRestart _ _ _)
theorem changes_clearSlotNotes (s : State) : Changes [.members] s (clearSlotNotes s) := changes_setMembers _ _
theorem changes_stopPeer (s : State) (k : Station) : Changes [.members, .host] s (stopPeer s k) := by
  unfold stopPeer
  split
  · exact Changes.refl _ _
  · simp only
    split
    · exact (changes_setPeer _ _ _).mono (by decide)
    · exact (changes_setPeer s _ _).then (changes_peerNotice _ _ _)
theorem changes_stopMembers (s : State) : Changes [.members, .host] s (stopMembers s) :=
  Changes.foldl _ changes_stopPeer _ s

/-! ### The Capture Unit -/

theorem changes_sendEvent (i : Input) (e : Edge) (x : Time) (s : State) :
    Changes [.capture, .exchange, .host] s (sendEvent i e x s) := by
  unfold sendEvent
  split
  · exact Changes.refl _ _
  · simp only
    split
    · exact (changes_setCapture s _).then (changes_queueSendItem _ _)
    · exact (changes_setCapture s _).then (changes_queueNotice _ _)
theorem changes_makeEvent (i : Input) (e : Edge) (x : Time) (s : State) : Changes Block.ofEvents s (makeEvent i e x s) :=
  ((changes_setInputRecord s _ _).then (ds := Block.ofEvents) (changes_matchEvent _ _)).then (changes_sendEvent _ _ _ _)
theorem changes_recognise (p : Pin) (s : State) : Changes Block.ofEvents s (recognise p s) := by
  unfold recognise
  simp only
  split
  · exact (changes_setPin s _ _).then (changes_makeEvent _ _ _ _)
  · exact (changes_setPin _ _ _).mono (by decide)
theorem changes_recogniseIfDue (p : Pin) (s : State) : Changes Block.ofEvents s (recogniseIfDue p s) := by
  unfold recogniseIfDue
  split
  · exact changes_recognise _ _
  · exact Changes.refl _ _
theorem changes_checkGap (k : Station) (n : EventNumber) (s : State) : Changes [.host] s (checkGap k n s) := by
  unfold checkGap
  split
  · exact Changes.refl _ _
  · split
    · exact Changes.refl _ _
    · exact changes_queueNotice _ _
theorem changes_takeEvent (k : Station) (i : Input) (e : Edge) (n : EventNumber) (x : Time) (s : State) :
    Changes Block.ofMembers s (takeEvent k i e n x s) :=
  ((changes_checkGap k n s).then (ds := Block.ofMembers) (changes_setPeer _ _ _)).then (changes_matchEvent _ _)

/-! ### The Cycle Unit -/

theorem changes_linkNotice (r : LinkReason) (k : Option Station) (s : State) : Changes [.host] s (linkNotice r k s) :=
  changes_queueNotice _ _
theorem changes_stopGrid (s : State) : Changes [.cycle] s (stopGrid s) := changes_setCycle _ _
theorem changes_startGrid (x : Time) (c : CycleNumber) (k : Station) (s : State) :
    Changes [.cycle, .exchange] s (startGrid x c k s) :=
  (changes_moveCycles _ s).then (changes_setCycle _ _)
theorem changes_enterListen (r : LinkReason) (k : Option Station) (x : Nat) (s : State) :
    Changes Block.ofListen s (enterListen r k x s) := by
  unfold enterListen
  exact (((((changes_stopGrid s).then (ds := Block.ofListen) (changes_clearSlotNotes _)).then (ds := Block.ofListen)
    (changes_setLine _ _)).then (ds := Block.ofListen) (changes_setLink _ _)).then (changes_linkNotice _ _ _))
theorem changes_stepLineTime (σ : Time) (s : State) : Changes [.cycle] s (stepLineTime σ s) := changes_setCycle _ _
theorem changes_takeStep (σ : Time) (s : State) : Changes [.cycle, .table] s (takeStep σ s) :=
  ((changes_noteTimes _ s).then (ds := [.cycle, .table]) (changes_stepLineTime _ _)).then (changes_ageArmTimes _ _)
theorem changes_applyStep (σ : Time) (s : State) :
    Changes [.cycle, .exchange, .table, .channels, .host] s (applyStep σ s) :=
  (changes_takeStep σ s).then (changes_tableStep _ _ _ _)
theorem changes_moveMark (x σ : Time) (s : State) : Changes [.line] s (moveMark x σ s) := by
  unfold moveMark
  split
  · exact Changes.refl _ _
  · split
    · exact Changes.refl _ _
    · split
      · exact changes_setLine _ _
      · exact Changes.refl _ _
theorem changes_abandonReception (s : State) : Changes [.line] s (abandonReception s) := changes_setLine _ _
theorem changes_setReceptionApart (s : State) : Changes [.line] s (setReceptionApart s) := changes_setLine _ _
theorem changes_endOwnSlot (k : Station) (s : State) : Changes [.line] s (endOwnSlot k s) := by
  unfold endOwnSlot
  split
  · exact changes_setLine _ _
  · exact Changes.refl _ _
theorem changes_slotBegins (k : Station) (s : State) : Changes [.line, .exchange, .host] s (slotBegins k s) := by
  unfold slotBegins
  split
  · exact (changes_setReceptionApart s).then (changes_buildFrame _)
  · exact Changes.refl _ _

theorem changes_advanceSlot (o : SlotOrder) (k : Station) (s : State) : Changes Block.ofSlot s (advanceSlot o k s) := by
  cases o with
  | slotEndFirst =>
    exact (((changes_setCycle s _).then (ds := Block.ofSlot) (changes_slotEnd _ _)).then (ds := Block.ofSlot)
      (changes_endOwnSlot _ _)).then (changes_slotBegins _ _)
  | buildFirst =>
    exact (((changes_setCycle s _).then (ds := Block.ofSlot) (changes_endOwnSlot _ _)).then (ds := Block.ofSlot)
      (changes_slotBegins _ _)).then (changes_slotEnd _ _)
theorem changes_takeSlotStart (o : SlotOrder) (s : State) : Changes Block.ofSlot s (takeSlotStart o s) := by
  unfold takeSlotStart
  split
  · exact Changes.refl _ _
  · exact (changes_setCycle s _).then (changes_slotBegins _ _)
  · exact changes_advanceSlot _ _ _
theorem changes_joinLine (s : State) : Changes Block.ofListen s (joinLine s) :=
  (changes_setLink s _).then (changes_linkNotice _ _ _)
theorem changes_linkAtCycleEnd (k : Nat) (s : State) : Changes Block.ofListen s (linkAtCycleEnd k s) := by
  unfold linkAtCycleEnd
  split
  · exact Changes.refl _ _
  · exact Changes.refl _ _
  · unfold integrateAtCycleEnd
    split
    · exact (changes_setLink _ _).mono (by decide)
    · split
      · exact changes_joinLine _
      · exact (changes_setLink s _).then (changes_enterListen _ _ _ _)
  · unfold coldstartAtCycleEnd
    split
    · exact (changes_setLink _ _).mono (by decide)
    · split
      · exact (changes_setLink _ _).mono (by decide)
      · exact (changes_setLink s _).then (changes_linkNotice _ _ _)
  · unfold syncedAtCycleEnd
    split
    · exact (changes_setLink _ _).mono (by decide)
    · split
      · exact (changes_setLink _ _).mono (by decide)
      · exact changes_enterListen _ _ _ _
theorem changes_stepAtCycleEnd (σ : Int) (s : State) :
    Changes [.cycle, .line, .exchange, .table, .channels, .host] s (stepAtCycleEnd σ s) := by
  unfold stepAtCycleEnd
  split
  · exact Changes.refl _ _
  · exact (changes_applyStep _ s).then (changes_moveMark _ _ _)
theorem changes_beginCycleSlot (σ : Int) (s : State) :
    Changes [.cycle, .line, .exchange, .host] s (beginCycleSlot σ s) := by
  unfold beginCycleSlot
  split
  · split
    · exact (changes_slotBegins _ _).mono (by decide)
    · exact (changes_setCycle _ _).mono (by decide)
  · exact Changes.refl _ _
theorem changes_turnCycle (s : State) :
    Changes [.cycle, .line, .members, .exchange, .table, .channels, .host] s (turnCycle s) := by
  unfold turnCycle
  exact ((((changes_slotEnd _ s).then (ds := [.cycle, .line, .members, .exchange, .table, .channels, .host])
    (changes_endOwnSlot _ _)).then (ds := [.cycle, .line, .members, .exchange, .table, .channels, .host])
    (changes_setCycle _ _)).then (ds := [.cycle, .line, .members, .exchange, .table, .channels, .host])
    (changes_stepAtCycleEnd _ _)).then (changes_setCycle _ _)
theorem changes_takeCycleEnd (s : State) : Changes Block.ofGrid s (takeCycleEnd s) := by
  unfold takeCycleEnd
  exact (((changes_turnCycle s).then (ds := Block.ofGrid) (changes_linkAtCycleEnd _ _)).then (ds := Block.ofGrid)
    (changes_expireCache _)).then (changes_beginCycleSlot _ _)
theorem changes_coldStart (s : State) : Changes [.cycle, .link, .line, .exchange, .host] s (coldStart s) := by
  unfold coldStart
  exact ((((((changes_startGrid _ _ _ s).then (ds := [.cycle, .link, .line, .exchange, .host])
    (changes_abandonReception _)).then (ds := [.cycle, .link, .line, .exchange, .host]) (changes_setLine _ _)).then
    (ds := [.cycle, .link, .line, .exchange, .host]) (changes_setLink _ _)).then
    (ds := [.cycle, .link, .line, .exchange, .host]) (changes_linkNotice _ _ _)).then (changes_slotBegins _ _))

/-! ### The Line Port -/

theorem changes_judgeCollided (n : Nat) (s : State) : Changes Block.ofListen s (judgeCollided n s) := by
  unfold judgeCollided
  simp only
  split
  · exact ((((changes_setLine s _).then (ds := Block.ofListen) (changes_setLink _ _)).then (ds := Block.ofListen)
      (changes_queueNotice _ _)).then (changes_enterListen _ _ _ _))
  · exact ((changes_setLine s _).then (ds := Block.ofListen) (changes_setLink _ _)).then (changes_queueNotice _ _)
theorem changes_endFrame (f : OwnFrame) (d : Bool) (s : State) :
    Changes [.cycle, .link, .line, .members, .exchange, .host] s (endFrame f d s) := by
  unfold endFrame
  simp only
  have h := ((changes_setLine s { s.line with frame := none }).then
    (ds := [.cycle, .link, .line, .members, .exchange, .host]) (changes_reportSent f _)).then
    (ds := [.cycle, .link, .line, .members, .exchange, .host])
    (changes_setLink _ ((reportSent f (s.setLine { s.line with frame := none })).link.afterFrame f.carriesNew))
  split
  · exact h.then (changes_judgeCollided _ _)
  · exact h.then ((changes_setLine _ _).then (ds := Block.ofListen) (changes_setLink _ _))
theorem changes_foreignMark (s : State) : Changes Block.ofListen s (foreignMark s) := by
  unfold foreignMark
  split
  · exact (changes_setLine _ _).mono (by decide)
  · exact Changes.refl _ _
  · exact Changes.refl _ _
  · exact changes_judgeCollided _ _
theorem changes_detectMark (s : State) : Changes Block.ofListen s (detectMark s) := by
  unfold detectMark
  split
  · exact Changes.refl _ _
  · split
    · exact (changes_setLine _ _).mono (by decide)
    · simp only
      split
      · split
        · exact changes_foreignMark _
        · exact (changes_foreignMark s).then (changes_setLine _ _)
      · exact (changes_setLine _ _).mono (by decide)
theorem changes_takeItem (k : Station) (i : Item) (s : State) : Changes Block.ofMembers s (takeItem k i s) := by
  unfold takeItem
  split
  · exact changes_takeEvent _ _ _ _ _ _
  · split
    · exact (changes_acceptRequest _ _ _ _).mono (by decide)
    · exact Changes.refl _ _
  · split
    · exact (changes_takeReply _ _ _ _).mono (by decide)
    · exact Changes.refl _ _
  · split
    · exact (changes_takeResult _ _ _ _ _).mono (by decide)
    · exact Changes.refl _ _
theorem changes_takeItems (k : Station) (l : List Item) (s : State) : Changes Block.ofMembers s (takeItems k l s) :=
  Changes.foldl _ (fun s i => changes_takeItem k i s) l s
theorem changes_enterSample (k : Station) (d : Int) (a : Attribution) (s : State) :
    Changes [.cycle] s (enterSample k d a s) := by
  unfold enterSample
  split
  · exact changes_setCycle _ _
  · exact Changes.refl _ _
theorem changes_yieldTo (h : Header) (s : State) : Changes Block.ofListen s (yieldTo h s) := by
  unfold yieldTo
  split
  · exact changes_enterListen _ _ _ _
  · exact Changes.refl _ _
theorem changes_handOn (h : Header) (l : List Item) (w : Bool) (d : Int) (s : State) :
    Changes Block.ofGrid s (handOn h l w d s) := by
  unfold handOn
  simp only
  split
  · exact (changes_reportFrame _ _ _ _ s).then (changes_takeItems _ _ _)
  · exact (changes_reportFrame _ _ _ _ s).then (changes_yieldTo _ _)
theorem changes_handFrame (h : Header) (l : List Item) (m : Time) (a : Attribution) (s : State) :
    Changes Block.ofGrid s (handFrame h l m a s) := by
  unfold handFrame
  simp only
  split
  · exact (changes_enterSample _ _ _ s).then (changes_handOn _ _ _ _ _)
  · exact changes_handOn _ _ _ _ _
theorem changes_checkFrame (r : Received) (m : Time) (a : Attribution) (s : State) :
    Changes Block.ofGrid s (checkFrame r m a s) := by
  unfold checkFrame
  split
  · exact (changes_countCheckError _ _).mono (by decide)
  · exact (changes_countCheckError _ _).mono (by decide)
  · split
    · exact (changes_countIntrusion _ _).mono (by decide)
    · split
      · exact (changes_countCheckError _ _).mono (by decide)
      · exact changes_handFrame _ _ _ _ _
theorem changes_checkOwnSlotFrame (r : Received) (s : State) : Changes Block.ofListen s (checkOwnSlotFrame r s) := by
  unfold checkOwnSlotFrame
  split
  · exact Changes.refl _ _
  · exact Changes.refl _ _
  · split
    · exact changes_enterListen _ _ _ _
    · exact Changes.refl _ _
theorem changes_adoptionStep (v σ : Time) (l : List PendingEdge) (s : State) :
    Changes Block.ofEntries s (adoptionStep v σ l s) := by
  unfold adoptionStep
  split
  · exact changes_abandonTable _
  · split
    · exact Changes.refl _ _
    · exact changes_tableStep _ _ _ _
theorem changes_queueBehind (l : List Notice) (n : Nat) (s : State) : Changes [.host] s (queueBehind l n s) :=
  (Changes.foldl _ (fun s n => changes_queueNotice n s) l s).then (changes_setHost _ _)
theorem changes_adopt (h : Header) (l : List Item) (m : Time) (s : State) : Changes Block.ofGrid s (adopt h l m s) := by
  unfold adopt
  exact (((((((((((changes_takeStep _ s).then (ds := Block.ofGrid) (changes_startGrid _ _ _ _)).then (ds := Block.ofGrid)
    (changes_setLine _ _)).then (ds := Block.ofGrid) (changes_setLink _ _)).then (ds := Block.ofGrid)
    (changes_setCycle _ _)).then (ds := Block.ofGrid) (changes_setHost _ _)).then (ds := Block.ofGrid)
    (changes_handOn _ _ _ _ _)).then (ds := Block.ofGrid) (changes_setHost _ _)).then (ds := Block.ofGrid)
    (changes_linkNotice _ _ _)).then (ds := Block.ofGrid) (changes_adoptionStep _ _ _ _)).then (ds := Block.ofGrid)
    (changes_queueNotice _ _)).then (changes_queueBehind _ _ _)
theorem changes_checkListenFrame (r : Received) (m : Time) (s : State) :
    Changes Block.ofGrid s (checkListenFrame r m s) := by
  unfold checkListenFrame
  split
  · exact (changes_setLink _ _).mono (by decide)
  · exact (changes_setLink _ _).mono (by decide)
  · split
    · exact (changes_setLink _ _).mono (by decide)
    · split
      · exact (changes_setLink _ _).mono (by decide)
      · exact changes_adopt _ _ _ _
theorem changes_settleFrame (r : Reception) (x : Received) (s : State) : Changes Block.ofGrid s (settleFrame r x s) := by
  unfold settleFrame
  split
  · exact changes_checkListenFrame _ _ _
  · split
    · split
      · exact Changes.refl _ _
      · split
        · exact (changes_checkOwnSlotFrame _ _).mono (by decide)
        · exact changes_checkFrame _ _ _ _
    · exact Changes.refl _ _
theorem changes_endReception (b : List Byte) (s : State) : Changes Block.ofGrid s (endReception b s) := by
  unfold endReception
  split
  · exact (changes_abandonReception s).then (changes_settleFrame _ _ _)
  · split
    · exact Changes.refl _ _
    · exact (changes_setLine s _).then (changes_settleFrame _ _ _)

end Sys2Proof.Machine
end

