-- ==== Sys2Proof/Laws/Ops.lean ====
section
/-! SUPPORT. Reading one record after writing a block or a record, and what the smallest shared operations do. -/

-- One thread for the whole file: its many small proofs would otherwise each take a thread's memory.
set_option Elab.async false

namespace Sys2Proof.Machine

/-! ### A record under an update of another block -/

@[simp] theorem State.setPending_peer (s : State) (x : List Instr) (k : Station) : (s.setPending x).peer k = s.peer k := rfl
@[simp] theorem State.setCycle_peer (s : State) (x : CycleUnit) (k : Station) : (s.setCycle x).peer k = s.peer k := rfl
@[simp] theorem State.setLink_peer (s : State) (x : LinkUnit) (k : Station) : (s.setLink x).peer k = s.peer k := rfl
@[simp] theorem State.setLine_peer (s : State) (x : LinePort) (k : Station) : (s.setLine x).peer k = s.peer k := rfl
@[simp] theorem State.setCapture_peer (s : State) (x : CaptureUnit) (k : Station) : (s.setCapture x).peer k = s.peer k := rfl
@[simp] theorem State.setExchange_peer (s : State) (x : RequestExchange) (k : Station) : (s.setExchange x).peer k = s.peer k := rfl
@[simp] theorem State.setTable_peer (s : State) (x : List Entry) (k : Station) : (s.setTable x).peer k = s.peer k := rfl
@[simp] theorem State.setChannels_peer (s : State) (x : Vector Channel 12) (k : Station) : (s.setChannels x).peer k = s.peer k := rfl
@[simp] theorem State.setHost_peer (s : State) (x : HostPort) (k : Station) : (s.setHost x).peer k = s.peer k := rfl
@[simp] theorem State.setOutputs_peer (s : State) (x : Vector Level 12) (k : Station) : (s.setOutputs x).peer k = s.peer k := rfl

@[simp] theorem State.setPending_channel (s : State) (x : List Instr) (c : ChannelNumber) : (s.setPending x).channel c = s.channel c := rfl
@[simp] theorem State.setCycle_channel (s : State) (x : CycleUnit) (c : ChannelNumber) : (s.setCycle x).channel c = s.channel c := rfl
@[simp] theorem State.setLink_channel (s : State) (x : LinkUnit) (c : ChannelNumber) : (s.setLink x).channel c = s.channel c := rfl
@[simp] theorem State.setLine_channel (s : State) (x : LinePort) (c : ChannelNumber) : (s.setLine x).channel c = s.channel c := rfl
@[simp] theorem State.setMembers_channel (s : State) (x : Vector PeerRecord 16) (c : ChannelNumber) : (s.setMembers x).channel c = s.channel c := rfl
@[simp] theorem State.setCapture_channel (s : State) (x : CaptureUnit) (c : ChannelNumber) : (s.setCapture x).channel c = s.channel c := rfl
@[simp] theorem State.setExchange_channel (s : State) (x : RequestExchange) (c : ChannelNumber) : (s.setExchange x).channel c = s.channel c := rfl
@[simp] theorem State.setTable_channel (s : State) (x : List Entry) (c : ChannelNumber) : (s.setTable x).channel c = s.channel c := rfl
@[simp] theorem State.setHost_channel (s : State) (x : HostPort) (c : ChannelNumber) : (s.setHost x).channel c = s.channel c := rfl
@[simp] theorem State.setOutputs_channel (s : State) (x : Vector Level 12) (c : ChannelNumber) : (s.setOutputs x).channel c = s.channel c := rfl

@[simp] theorem State.setPending_pin (s : State) (x : List Instr) (p : Pin) : (s.setPending x).pin p = s.pin p := rfl
@[simp] theorem State.setCycle_pin (s : State) (x : CycleUnit) (p : Pin) : (s.setCycle x).pin p = s.pin p := rfl
@[simp] theorem State.setLink_pin (s : State) (x : LinkUnit) (p : Pin) : (s.setLink x).pin p = s.pin p := rfl
@[simp] theorem State.setLine_pin (s : State) (x : LinePort) (p : Pin) : (s.setLine x).pin p = s.pin p := rfl
@[simp] theorem State.setMembers_pin (s : State) (x : Vector PeerRecord 16) (p : Pin) : (s.setMembers x).pin p = s.pin p := rfl
@[simp] theorem State.setExchange_pin (s : State) (x : RequestExchange) (p : Pin) : (s.setExchange x).pin p = s.pin p := rfl
@[simp] theorem State.setTable_pin (s : State) (x : List Entry) (p : Pin) : (s.setTable x).pin p = s.pin p := rfl
@[simp] theorem State.setChannels_pin (s : State) (x : Vector Channel 12) (p : Pin) : (s.setChannels x).pin p = s.pin p := rfl
@[simp] theorem State.setHost_pin (s : State) (x : HostPort) (p : Pin) : (s.setHost x).pin p = s.pin p := rfl
@[simp] theorem State.setOutputs_pin (s : State) (x : Vector Level 12) (p : Pin) : (s.setOutputs x).pin p = s.pin p := rfl

@[simp] theorem State.setPending_inputRecord (s : State) (x : List Instr) (i : Input) : (s.setPending x).inputRecord i = s.inputRecord i := rfl
@[simp] theorem State.setCycle_inputRecord (s : State) (x : CycleUnit) (i : Input) : (s.setCycle x).inputRecord i = s.inputRecord i := rfl
@[simp] theorem State.setLink_inputRecord (s : State) (x : LinkUnit) (i : Input) : (s.setLink x).inputRecord i = s.inputRecord i := rfl
@[simp] theorem State.setLine_inputRecord (s : State) (x : LinePort) (i : Input) : (s.setLine x).inputRecord i = s.inputRecord i := rfl
@[simp] theorem State.setMembers_inputRecord (s : State) (x : Vector PeerRecord 16) (i : Input) : (s.setMembers x).inputRecord i = s.inputRecord i := rfl
@[simp] theorem State.setExchange_inputRecord (s : State) (x : RequestExchange) (i : Input) : (s.setExchange x).inputRecord i = s.inputRecord i := rfl
@[simp] theorem State.setTable_inputRecord (s : State) (x : List Entry) (i : Input) : (s.setTable x).inputRecord i = s.inputRecord i := rfl
@[simp] theorem State.setChannels_inputRecord (s : State) (x : Vector Channel 12) (i : Input) : (s.setChannels x).inputRecord i = s.inputRecord i := rfl
@[simp] theorem State.setHost_inputRecord (s : State) (x : HostPort) (i : Input) : (s.setHost x).inputRecord i = s.inputRecord i := rfl
@[simp] theorem State.setOutputs_inputRecord (s : State) (x : Vector Level 12) (i : Input) : (s.setOutputs x).inputRecord i = s.inputRecord i := rfl

@[simp] theorem State.setPending_cacheOf (s : State) (x : List Instr) (k : Station) : (s.setPending x).cacheOf k = s.cacheOf k := rfl
@[simp] theorem State.setCycle_cacheOf (s : State) (x : CycleUnit) (k : Station) : (s.setCycle x).cacheOf k = s.cacheOf k := rfl
@[simp] theorem State.setLink_cacheOf (s : State) (x : LinkUnit) (k : Station) : (s.setLink x).cacheOf k = s.cacheOf k := rfl
@[simp] theorem State.setLine_cacheOf (s : State) (x : LinePort) (k : Station) : (s.setLine x).cacheOf k = s.cacheOf k := rfl
@[simp] theorem State.setMembers_cacheOf (s : State) (x : Vector PeerRecord 16) (k : Station) : (s.setMembers x).cacheOf k = s.cacheOf k := rfl
@[simp] theorem State.setCapture_cacheOf (s : State) (x : CaptureUnit) (k : Station) : (s.setCapture x).cacheOf k = s.cacheOf k := rfl
@[simp] theorem State.setTable_cacheOf (s : State) (x : List Entry) (k : Station) : (s.setTable x).cacheOf k = s.cacheOf k := rfl
@[simp] theorem State.setChannels_cacheOf (s : State) (x : Vector Channel 12) (k : Station) : (s.setChannels x).cacheOf k = s.cacheOf k := rfl
@[simp] theorem State.setHost_cacheOf (s : State) (x : HostPort) (k : Station) : (s.setHost x).cacheOf k = s.cacheOf k := rfl
@[simp] theorem State.setOutputs_cacheOf (s : State) (x : Vector Level 12) (k : Station) : (s.setOutputs x).cacheOf k = s.cacheOf k := rfl

@[simp] theorem State.setPending_entryAt (s : State) (x : List Instr) (i : Index) : (s.setPending x).entryAt i = s.entryAt i := rfl
@[simp] theorem State.setCycle_entryAt (s : State) (x : CycleUnit) (i : Index) : (s.setCycle x).entryAt i = s.entryAt i := rfl
@[simp] theorem State.setLink_entryAt (s : State) (x : LinkUnit) (i : Index) : (s.setLink x).entryAt i = s.entryAt i := rfl
@[simp] theorem State.setLine_entryAt (s : State) (x : LinePort) (i : Index) : (s.setLine x).entryAt i = s.entryAt i := rfl
@[simp] theorem State.setMembers_entryAt (s : State) (x : Vector PeerRecord 16) (i : Index) : (s.setMembers x).entryAt i = s.entryAt i := rfl
@[simp] theorem State.setCapture_entryAt (s : State) (x : CaptureUnit) (i : Index) : (s.setCapture x).entryAt i = s.entryAt i := rfl
@[simp] theorem State.setExchange_entryAt (s : State) (x : RequestExchange) (i : Index) : (s.setExchange x).entryAt i = s.entryAt i := rfl
@[simp] theorem State.setChannels_entryAt (s : State) (x : Vector Channel 12) (i : Index) : (s.setChannels x).entryAt i = s.entryAt i := rfl
@[simp] theorem State.setHost_entryAt (s : State) (x : HostPort) (i : Index) : (s.setHost x).entryAt i = s.entryAt i := rfl
@[simp] theorem State.setOutputs_entryAt (s : State) (x : Vector Level 12) (i : Index) : (s.setOutputs x).entryAt i = s.entryAt i := rfl

@[simp] theorem State.setPending_entryNamed (s : State) (x : List Instr) (k : Station) (n : RequestNumber) : (s.setPending x).entryNamed k n = s.entryNamed k n := rfl
@[simp] theorem State.setCycle_entryNamed (s : State) (x : CycleUnit) (k : Station) (n : RequestNumber) : (s.setCycle x).entryNamed k n = s.entryNamed k n := rfl
@[simp] theorem State.setLink_entryNamed (s : State) (x : LinkUnit) (k : Station) (n : RequestNumber) : (s.setLink x).entryNamed k n = s.entryNamed k n := rfl
@[simp] theorem State.setLine_entryNamed (s : State) (x : LinePort) (k : Station) (n : RequestNumber) : (s.setLine x).entryNamed k n = s.entryNamed k n := rfl
@[simp] theorem State.setMembers_entryNamed (s : State) (x : Vector PeerRecord 16) (k : Station) (n : RequestNumber) : (s.setMembers x).entryNamed k n = s.entryNamed k n := rfl
@[simp] theorem State.setCapture_entryNamed (s : State) (x : CaptureUnit) (k : Station) (n : RequestNumber) : (s.setCapture x).entryNamed k n = s.entryNamed k n := rfl
@[simp] theorem State.setExchange_entryNamed (s : State) (x : RequestExchange) (k : Station) (n : RequestNumber) : (s.setExchange x).entryNamed k n = s.entryNamed k n := rfl
@[simp] theorem State.setChannels_entryNamed (s : State) (x : Vector Channel 12) (k : Station) (n : RequestNumber) : (s.setChannels x).entryNamed k n = s.entryNamed k n := rfl
@[simp] theorem State.setHost_entryNamed (s : State) (x : HostPort) (k : Station) (n : RequestNumber) : (s.setHost x).entryNamed k n = s.entryNamed k n := rfl
@[simp] theorem State.setOutputs_entryNamed (s : State) (x : Vector Level 12) (k : Station) (n : RequestNumber) : (s.setOutputs x).entryNamed k n = s.entryNamed k n := rfl

@[simp] theorem State.setPending_freeIndex (s : State) (x : List Instr) : (s.setPending x).freeIndex = s.freeIndex := rfl
@[simp] theorem State.setCycle_freeIndex (s : State) (x : CycleUnit) : (s.setCycle x).freeIndex = s.freeIndex := rfl
@[simp] theorem State.setLink_freeIndex (s : State) (x : LinkUnit) : (s.setLink x).freeIndex = s.freeIndex := rfl
@[simp] theorem State.setLine_freeIndex (s : State) (x : LinePort) : (s.setLine x).freeIndex = s.freeIndex := rfl
@[simp] theorem State.setMembers_freeIndex (s : State) (x : Vector PeerRecord 16) : (s.setMembers x).freeIndex = s.freeIndex := rfl
@[simp] theorem State.setCapture_freeIndex (s : State) (x : CaptureUnit) : (s.setCapture x).freeIndex = s.freeIndex := rfl
@[simp] theorem State.setExchange_freeIndex (s : State) (x : RequestExchange) : (s.setExchange x).freeIndex = s.freeIndex := rfl
@[simp] theorem State.setChannels_freeIndex (s : State) (x : Vector Channel 12) : (s.setChannels x).freeIndex = s.freeIndex := rfl
@[simp] theorem State.setHost_freeIndex (s : State) (x : HostPort) : (s.setHost x).freeIndex = s.freeIndex := rfl
@[simp] theorem State.setOutputs_freeIndex (s : State) (x : Vector Level 12) : (s.setOutputs x).freeIndex = s.freeIndex := rfl

@[simp] theorem State.setPending_watchList (s : State) (x : List Instr) : (s.setPending x).watchList = s.watchList := rfl
@[simp] theorem State.setCycle_watchList (s : State) (x : CycleUnit) : (s.setCycle x).watchList = s.watchList := rfl
@[simp] theorem State.setLink_watchList (s : State) (x : LinkUnit) : (s.setLink x).watchList = s.watchList := rfl
@[simp] theorem State.setLine_watchList (s : State) (x : LinePort) : (s.setLine x).watchList = s.watchList := rfl
@[simp] theorem State.setMembers_watchList (s : State) (x : Vector PeerRecord 16) : (s.setMembers x).watchList = s.watchList := rfl
@[simp] theorem State.setCapture_watchList (s : State) (x : CaptureUnit) : (s.setCapture x).watchList = s.watchList := rfl
@[simp] theorem State.setExchange_watchList (s : State) (x : RequestExchange) : (s.setExchange x).watchList = s.watchList := rfl
@[simp] theorem State.setChannels_watchList (s : State) (x : Vector Channel 12) : (s.setChannels x).watchList = s.watchList := rfl
@[simp] theorem State.setHost_watchList (s : State) (x : HostPort) : (s.setHost x).watchList = s.watchList := rfl
@[simp] theorem State.setOutputs_watchList (s : State) (x : Vector Level 12) : (s.setOutputs x).watchList = s.watchList := rfl

@[simp] theorem State.setPending_requestNumbered (s : State) (x : List Instr) (n : RequestNumber) : (s.setPending x).requestNumbered n = s.requestNumbered n := rfl
@[simp] theorem State.setCycle_requestNumbered (s : State) (x : CycleUnit) (n : RequestNumber) : (s.setCycle x).requestNumbered n = s.requestNumbered n := rfl
@[simp] theorem State.setLink_requestNumbered (s : State) (x : LinkUnit) (n : RequestNumber) : (s.setLink x).requestNumbered n = s.requestNumbered n := rfl
@[simp] theorem State.setLine_requestNumbered (s : State) (x : LinePort) (n : RequestNumber) : (s.setLine x).requestNumbered n = s.requestNumbered n := rfl
@[simp] theorem State.setMembers_requestNumbered (s : State) (x : Vector PeerRecord 16) (n : RequestNumber) : (s.setMembers x).requestNumbered n = s.requestNumbered n := rfl
@[simp] theorem State.setCapture_requestNumbered (s : State) (x : CaptureUnit) (n : RequestNumber) : (s.setCapture x).requestNumbered n = s.requestNumbered n := rfl
@[simp] theorem State.setTable_requestNumbered (s : State) (x : List Entry) (n : RequestNumber) : (s.setTable x).requestNumbered n = s.requestNumbered n := rfl
@[simp] theorem State.setChannels_requestNumbered (s : State) (x : Vector Channel 12) (n : RequestNumber) : (s.setChannels x).requestNumbered n = s.requestNumbered n := rfl
@[simp] theorem State.setHost_requestNumbered (s : State) (x : HostPort) (n : RequestNumber) : (s.setHost x).requestNumbered n = s.requestNumbered n := rfl
@[simp] theorem State.setOutputs_requestNumbered (s : State) (x : Vector Level 12) (n : RequestNumber) : (s.setOutputs x).requestNumbered n = s.requestNumbered n := rfl

@[simp] theorem State.setPending_requestsTo (s : State) (x : List Instr) (k : Station) : (s.setPending x).requestsTo k = s.requestsTo k := rfl
@[simp] theorem State.setCycle_requestsTo (s : State) (x : CycleUnit) (k : Station) : (s.setCycle x).requestsTo k = s.requestsTo k := rfl
@[simp] theorem State.setLink_requestsTo (s : State) (x : LinkUnit) (k : Station) : (s.setLink x).requestsTo k = s.requestsTo k := rfl
@[simp] theorem State.setLine_requestsTo (s : State) (x : LinePort) (k : Station) : (s.setLine x).requestsTo k = s.requestsTo k := rfl
@[simp] theorem State.setMembers_requestsTo (s : State) (x : Vector PeerRecord 16) (k : Station) : (s.setMembers x).requestsTo k = s.requestsTo k := rfl
@[simp] theorem State.setCapture_requestsTo (s : State) (x : CaptureUnit) (k : Station) : (s.setCapture x).requestsTo k = s.requestsTo k := rfl
@[simp] theorem State.setTable_requestsTo (s : State) (x : List Entry) (k : Station) : (s.setTable x).requestsTo k = s.requestsTo k := rfl
@[simp] theorem State.setChannels_requestsTo (s : State) (x : Vector Channel 12) (k : Station) : (s.setChannels x).requestsTo k = s.requestsTo k := rfl
@[simp] theorem State.setHost_requestsTo (s : State) (x : HostPort) (k : Station) : (s.setHost x).requestsTo k = s.requestsTo k := rfl
@[simp] theorem State.setOutputs_requestsTo (s : State) (x : Vector Level 12) (k : Station) : (s.setOutputs x).requestsTo k = s.requestsTo k := rfl


/-! ### A record after it is written -/

@[simp] theorem get_mapVector {α β : Type} {n : Nat} (f : α → β) (v : Vector α n) (i : Fin n) :
    (mapVector f v).get i = f (v.get i) := by
  simp [mapVector, Vector.get_eq_getElem]

theorem State.peer_setPeer (s : State) (k j : Station) (r : PeerRecord) :
    (s.setPeer k r).peer j = if j = k then r else s.peer j := by
  show (s.members.set k.val r k.isLt).get j = _
  simp only [Vector.get_eq_getElem, Vector.getElem_set, State.peer, Fin.ext_iff, eq_comm]

@[simp] theorem State.peer_setPeer_self (s : State) (k : Station) (r : PeerRecord) : (s.setPeer k r).peer k = r := by
  simp [State.peer_setPeer]

theorem State.peer_setPeer_of_ne (s : State) {k j : Station} (r : PeerRecord) (h : j ≠ k) :
    (s.setPeer k r).peer j = s.peer j := by
  simp [State.peer_setPeer, h]

theorem State.channel_setChannel (s : State) (c d : ChannelNumber) (r : Channel) :
    (s.setChannel c r).channel d = if d = c then r else s.channel d := by
  show (s.channels.set c.val r c.isLt).get d = _
  simp only [Vector.get_eq_getElem, Vector.getElem_set, State.channel, Fin.ext_iff, eq_comm]

@[simp] theorem State.channel_setChannel_self (s : State) (c : ChannelNumber) (r : Channel) :
    (s.setChannel c r).channel c = r := by
  simp [State.channel_setChannel]

theorem State.channel_setChannel_of_ne (s : State) {c d : ChannelNumber} (r : Channel) (h : d ≠ c) :
    (s.setChannel c r).channel d = s.channel d := by
  simp [State.channel_setChannel, h]

theorem State.pin_setPin (s : State) (p q : Pin) (r : PinRecord) :
    (s.setPin p r).pin q = if q = p then r else s.pin q := by
  show (s.capture.pins.set p.val r p.isLt).get q = _
  simp only [Vector.get_eq_getElem, Vector.getElem_set, State.pin, Fin.ext_iff, eq_comm]

@[simp] theorem State.inputRecord_setPin (s : State) (p : Pin) (r : PinRecord) (i : Input) :
    (s.setPin p r).inputRecord i = s.inputRecord i := rfl

theorem State.inputRecord_setInputRecord (s : State) (i j : Input) (r : InputRecord) :
    (s.setInputRecord i r).inputRecord j = if j = i then r else s.inputRecord j := by
  show (s.capture.inputs.set i.val r i.isLt).get j = _
  simp only [Vector.get_eq_getElem, Vector.getElem_set, State.inputRecord, Fin.ext_iff, eq_comm]

@[simp] theorem State.pin_setInputRecord (s : State) (i : Input) (r : InputRecord) (p : Pin) :
    (s.setInputRecord i r).pin p = s.pin p := rfl

theorem State.cacheOf_setCacheOf (s : State) (k j : Station) (l : List CacheRecord) :
    (setCacheOf k l s).cacheOf j = if j = k then l else s.cacheOf j := by
  show (s.exchange.cache.set k.val l k.isLt).get j = _
  simp only [Vector.get_eq_getElem, Vector.getElem_set, State.cacheOf, Fin.ext_iff, eq_comm]

/-! ### Notices (R188) -/

/-- A notice that finds room joins the tail. -/
theorem queueNotice_of_room (n : Notice) (s : State) (h : s.host.notices.length < 32) :
    queueNotice n s = s.setHost { s.host with notices := s.host.notices ++ [n] } := by
  unfold queueNotice
  exact if_pos h

/-- A notice that finds none is counted. -/
theorem queueNotice_of_full (n : Notice) (s : State) (h : 32 ≤ s.host.notices.length) :
    queueNotice n s = s.setHost { s.host with lost := min Config.lostMaximum (s.host.lost + 1) } := by
  unfold queueNotice
  exact if_neg (Nat.not_lt.mpr h)

/-- All that queueing a notice can do to the Host Port: the rest of it stays. -/
theorem queueNotice_host (n : Notice) (s : State) :
    (queueNotice n s).host.transaction = s.host.transaction ∧ (queueNotice n s).host.held = s.host.held := by
  unfold queueNotice
  split <;> exact ⟨rfl, rfl⟩

/-- What it does to the Host Port depends on the Host Port alone. -/
theorem queueNotice_host_congr (n : Notice) {s t : State} (h : s.host = t.host) :
    (queueNotice n s).host = (queueNotice n t).host := by
  unfold queueNotice
  rw [h]
  split <;> simp

/-! ### Host commands (R172, R173) -/

/-- A command of a live transaction out of reset is taken: its response becomes the held one. -/
theorem takeCommand_taken (command : State → Answered) (s : State) (h : s.takesCommands = true) :
    takeCommand command s = hold (command (riseCsn s)).response (command (riseCsn s)).state := by
  unfold takeCommand
  exact if_pos h

/-- Any other is not, and CSn just rises. -/
theorem takeCommand_not_taken (command : State → Answered) (s : State) (h : s.takesCommands = false) :
    takeCommand command s = riseCsn s := by
  unfold takeCommand
  simp [h]

/-! ### Levels -/

@[simp] theorem flipLevel_flipLevel (l : Level) : flipLevel (flipLevel l) = l := by
  cases l <;> rfl

theorem flipLevel_ne (l : Level) : flipLevel l ≠ l := by
  cases l <;> decide

end Sys2Proof.Machine
end

