-- ==== Sys2Proof/Laws/Link.lean ====
section
/-! SUPPORT. The link and the cycle: the ranges of the geometry, what entering LISTEN leaves, what a cycle end's decision does
to the grid, and what a frame that has gone out does to the Pending list. -/

set_option Elab.async false

namespace Sys2Proof.Machine

/-! ### Geometry (R3) -/

theorem State.slotLength_bounds (s : State) : 352 ≤ s.slotLength ∧ s.slotLength ≤ 2816 := by
  unfold State.slotLength
  generalize s.straps.rate = r
  revert r
  decide

theorem State.stationCount_bounds (s : State) : 1 ≤ s.stationCount ∧ s.stationCount ≤ 16 := by
  unfold State.stationCount
  omega

theorem State.cycleLength_le (s : State) : s.cycleLength ≤ 45056 :=
  Nat.mul_le_mul s.stationCount_bounds.2 s.slotLength_bounds.2

/-! ### What a notice leaves (R188) -/

@[simp] theorem queueNotice_cycle (n : Notice) (s : State) : (queueNotice n s).cycle = s.cycle := (changes_queueNotice n s).cycle_eq
@[simp] theorem queueNotice_link (n : Notice) (s : State) : (queueNotice n s).link = s.link := (changes_queueNotice n s).link_eq
@[simp] theorem queueNotice_line (n : Notice) (s : State) : (queueNotice n s).line = s.line := (changes_queueNotice n s).line_eq
@[simp] theorem queueNotice_straps (n : Notice) (s : State) : (queueNotice n s).straps = s.straps := (changes_queueNotice n s).straps_eq
@[simp] theorem queueNotice_members (n : Notice) (s : State) : (queueNotice n s).members = s.members := (changes_queueNotice n s).members_eq
@[simp] theorem queueNotice_capture (n : Notice) (s : State) : (queueNotice n s).capture = s.capture := (changes_queueNotice n s).capture_eq
@[simp] theorem queueNotice_exchange (n : Notice) (s : State) : (queueNotice n s).exchange = s.exchange := (changes_queueNotice n s).exchange_eq
@[simp] theorem queueNotice_table (n : Notice) (s : State) : (queueNotice n s).table = s.table := (changes_queueNotice n s).table_eq
@[simp] theorem queueNotice_channels (n : Notice) (s : State) : (queueNotice n s).channels = s.channels := (changes_queueNotice n s).channels_eq

/-! ### Entering LISTEN (R20, R34) -/

theorem enterListen_link (r : LinkReason) (k : Option Station) (x : Nat) (s : State) :
    (enterListen r k x s).link =
      if s.link.state.transmits then
        { s.link with
          state := .listen, listenTimer := some (s.listenTime + x), announced := false, newCountdown := 0,
          confirmationCount := 0, silenceCount := 0, collisionCount := 0 }
      else { s.link with state := .listen, listenTimer := some (s.listenTime + x) } := by
  simp only [enterListen, linkNotice, queueNotice_link, State.setLink_link]
  cases s.link.state.transmits <;> rfl

theorem enterListen_cycle (r : LinkReason) (k : Option Station) (x : Nat) (s : State) :
    (enterListen r k x s).cycle =
      { s.cycle with running := false, slotIndex := none, slotZeroAwaited := false, samples := [] } := by
  simp only [enterListen, linkNotice, queueNotice_cycle]
  rfl

theorem enterListen_line (r : LinkReason) (k : Option Station) (x : Nat) (s : State) :
    (enterListen r k x s).line = { s.line with frame := none, ownSlot := .unjudged, ending := none } := by
  simp only [enterListen, linkNotice, queueNotice_line]
  rfl

theorem enterListen_peer (r : LinkReason) (k : Option Station) (x : Nat) (s : State) (j : Station) :
    (enterListen r k x s).peer j = { s.peer j with slotNote := none } := by
  simp only [State.peer, enterListen, linkNotice, queueNotice_members]
  exact get_mapVector _ _ _

/-! ### The decision at a cycle end (R12 step 7) -/

/-- The decision leaves the grid as it is, or stops it. -/
theorem linkAtCycleEnd_cycle (k : Nat) (s : State) :
    (linkAtCycleEnd k s).cycle = s.cycle ∨
      (linkAtCycleEnd k s).cycle =
        { s.cycle with running := false, slotIndex := none, slotZeroAwaited := false, samples := [] } := by
  unfold linkAtCycleEnd
  split
  · exact .inl rfl
  · exact .inl rfl
  · unfold integrateAtCycleEnd
    repeat' split
    · exact .inl rfl
    · left
      simp only [joinLine, linkNotice, queueNotice_cycle]
      rfl
    · exact .inr (enterListen_cycle _ _ _ _)
  · unfold coldstartAtCycleEnd
    repeat' split
    · exact .inl rfl
    · exact .inl rfl
    · left
      simp only [linkNotice, queueNotice_cycle]
      rfl
  · unfold syncedAtCycleEnd
    repeat' split
    · exact .inl rfl
    · exact .inl rfl
    · exact .inr (enterListen_cycle _ _ _ _)

/-! ### A frame that has gone out (R160, R163) -/

theorem RequestRecord.wentOut_wentOut (c : CycleNumber) (r : RequestRecord) : (r.wentOut c).wentOut c = r.wentOut c := by
  unfold RequestRecord.wentOut
  cases r.sendLimit <;> rfl

/-- Every record whose number the frame carried, and that is still pending, has gone out; nothing else changes. -/
theorem reportSent_eq (f : OwnFrame) (s : State) :
    reportSent f s =
      s.setExchange { s.exchange with requests := s.exchange.requests.map fun r =>
        if r.number ∈ f.requests then r.wentOut s.cycle.cycleNumber else r } := by
  have key : ∀ (c : CycleNumber) (ns : List RequestNumber) (s : State), s.cycle.cycleNumber = c →
      ns.foldl (fun s n => changeRequest n (RequestRecord.wentOut s.cycle.cycleNumber) s) s =
        s.setExchange { s.exchange with requests := s.exchange.requests.map fun r =>
          if r.number ∈ ns then r.wentOut c else r } := by
    intro c ns
    induction ns with
    | nil =>
      intro s _
      simp
      rfl
    | cons n ns ih =>
      intro s hs
      rw [List.foldl_cons, ih _ (by exact hs), hs]
      simp only [changeRequest, State.setExchange_exchange, State.setExchange_setExchange, List.map_map]
      congr 2
      apply List.map_congr_left
      intro r _
      have hn : (r.wentOut c).number = r.number := rfl
      by_cases h : r.number = n <;> by_cases h2 : r.number ∈ ns <;> simp [h, h2, hn]
      · simp [h ▸ h2, RequestRecord.wentOut_wentOut]
      · intro h3
        exact absurd h3 (h ▸ h2)
  exact key _ _ _ rfl

end Sys2Proof.Machine
end

