-- ==== Sys2Proof/Laws/Exchange.lean ====
section
/-! SUPPORT. The Request Exchange's operations, each said once: reply items, acceptance, replies, and the number a SUBMIT
draws. -/

set_option Elab.async false

namespace Sys2Proof.Machine

/-! ### The reply queue (R155) -/

theorem queueReplyItem_of_room (i : ReplyItem) (s : State) (h : s.exchange.replyQueue.length < 16) :
    queueReplyItem i s = s.setExchange { s.exchange with replyQueue := s.exchange.replyQueue ++ [i] } :=
  if_pos h

theorem queueReplyItem_of_full (i : ReplyItem) (s : State) (h : 16 ≤ s.exchange.replyQueue.length) :
    queueReplyItem i s = s :=
  if_neg (Nat.not_lt.mpr h)

/-! ### Acceptance (R89 to R92, R97) -/

theorem acceptRequest_ignored (k : Station) (n : RequestNumber) (r : Request) (s : State)
    (h : s.link.announced = false ∨ 16 ≤ s.exchange.replyQueue.length) : acceptRequest k n r s = s := by
  unfold acceptRequest
  rcases h with h | h
  · simp [h]
  · simp [h]

theorem acceptRequest_cached {k : Station} {n : RequestNumber} {s : State} {c : ReplyCode} (r : Request)
    (ha : s.link.announced = true) (hq : s.exchange.replyQueue.length < 16) (hc : s.cachedCode k n = some c) :
    acceptRequest k n r s = queueReplyItem (.reply k n c) s := by
  simp [acceptRequest, ha, hc, Nat.not_le.mpr hq]

theorem acceptRequest_capped {k : Station} {n : RequestNumber} {s : State} (r : Request)
    (hc : s.cachedCode k n = none) (hl : 8 ≤ (s.cacheOf k).length) : acceptRequest k n r s = s := by
  unfold acceptRequest
  simp [hc, hl]

theorem acceptRequest_judged {k : Station} {n : RequestNumber} {s : State} (r : Request)
    (ha : s.link.announced = true) (hq : s.exchange.replyQueue.length < 16) (hc : s.cachedCode k n = none)
    (hl : (s.cacheOf k).length < 8) : acceptRequest k n r s = decideRequest k n r s := by
  simp [acceptRequest, ha, hc, Nat.not_le.mpr hq, Nat.not_le.mpr hl]

/-! ### Replies (R104) -/

theorem takeReply_matched {sender : Station} {n : RequestNumber} {s : State} {r : RequestRecord} (c : ReplyCode)
    (h : s.requestNumbered n = some r) (ht : r.target = sender) :
    takeReply sender n c s =
      queueNotice ((removeRequest n s).noticeNow .answered (some sender) (some n) (codeByte c.code) none)
        (removeRequest n s) := by
  simp [takeReply, h, ht]

/-! ### The number drawn (R85) -/

/-- If the search ends on a taken number, every number it passed over is taken. -/
theorem freeNumber_taken {taken : List RequestNumber} {fuel : Nat} {c : RequestNumber}
    (h : freeNumber taken fuel c ∈ taken) : ∀ k ≤ fuel, c + BitVec.ofNat 12 k ∈ taken := by
  induction fuel generalizing c with
  | zero =>
    intro k hk
    have hk0 : k = 0 := by omega
    subst hk0
    simpa [freeNumber] using h
  | succ f ih =>
    intro k hk
    unfold freeNumber at h
    split at h
    · rename_i hc
      cases k with
      | zero => simpa using hc
      | succ k =>
        have e : c + BitVec.ofNat 12 (k + 1) = c + 1 + BitVec.ofNat 12 k := by
          apply BitVec.eq_of_toNat_eq
          simp
          omega
        rw [e]
        exact ih h k (by omega)
    · rename_i hc
      simp [h] at hc

end Sys2Proof.Machine
end

