-- ==== Sys2Proof/Laws/Table.lean ====
section
/-! SUPPORT. The Order Table's operations, each said once: what reading an entry gives after one is replaced or dropped, and
the cases of a start, an end, a return to ARMED and a result. -/

set_option Elab.async false

namespace Sys2Proof.Machine

/-! ### Reading an entry (R107) -/

theorem State.entryAt_index {s : State} {i : Index} {e : Entry} (h : s.entryAt i = some e) : e.index = i := by
  have := List.find?_some h
  simpa using this

theorem State.entryAt_mem {s : State} {i : Index} {e : Entry} (h : s.entryAt i = some e) : e ∈ s.table :=
  List.mem_of_find?_eq_some h

theorem entryAt_replaceEntry (e : Entry) (s : State) (j : Index) :
    (replaceEntry e s).entryAt j = if j = e.index then (s.entryAt j).map fun _ => e else s.entryAt j := by
  unfold replaceEntry State.entryAt
  simp only [State.setTable_table]
  generalize s.table = l
  induction l with
  | nil => simp
  | cons x l ih =>
    by_cases hx : x.index = e.index
    · by_cases hj : j = e.index
      · simp [hx, hj]
      · have hn : ¬ e.index = j := fun h => hj h.symm
        simp only [List.map_cons, hx, if_pos, List.find?_cons, hj, if_neg, not_false_iff]
        simp only [show (e.index == j) = false by simpa using hn, if_false, ih, hj]
    · by_cases hxj : x.index = j
      · subst hxj
        simp [hx]
      · simp only [List.map_cons, hx, if_neg, not_false_iff, List.find?_cons,
          show (x.index == j) = false by simpa using hxj, ih]

@[simp] theorem entryAt_replaceEntry_self {e x : Entry} {s : State} (h : s.entryAt e.index = some x) :
    (replaceEntry e s).entryAt e.index = some e := by
  simp [entryAt_replaceEntry, h]

theorem entryAt_dropEntry (i : Index) (s : State) (j : Index) :
    (dropEntry i s).entryAt j = if j = i then none else s.entryAt j := by
  unfold dropEntry State.entryAt
  simp only [State.setTable_table]
  generalize s.table = l
  induction l with
  | nil => simp
  | cons x l ih =>
    by_cases hx : x.index = i
    · rw [List.filter_cons_of_neg (by simp [hx]), ih]
      by_cases hj : j = i
      · simp [hj]
      · have hn : (x.index == j) = false := by
          rw [hx]
          simpa using fun h => hj h.symm
        simp [hj, hn]
    · rw [List.filter_cons_of_pos (by simp [hx])]
      by_cases hxj : x.index = j
      · subst hxj
        simp [hx]
      · have hn : (x.index == j) = false := by simpa using hxj
        simp only [List.find?_cons, hn, ih]

theorem table_replaceEntry_length (e : Entry) (s : State) : (replaceEntry e s).table.length = s.table.length := by
  simp [replaceEntry]

theorem table_replaceEntry_indices (e : Entry) (s : State) :
    ((replaceEntry e s).table.map fun x => x.index) = s.table.map fun x => x.index := by
  simp only [replaceEntry, State.setTable_table, List.map_map]
  apply List.map_congr_left
  intro x _
  by_cases h : x.index = e.index <;> simp [h]

/-! ### Results (R128) -/

/-- A result of a local entry is a RESULT notice. -/
theorem produceResult_local {e : Entry} {o : EntryOutcome} {s : State} (hr : e.report = true) (ho : o.reported = true)
    (hl : e.origin = s.own) : produceResult e o s =
      queueNotice (s.noticeNow .result (some s.own) (some e.number) (codeByte o.code) e.lastStart) s := by
  simp [produceResult, hr, ho, hl]

/-- A result of a peer's entry is a RESULT item. -/
theorem produceResult_peer {e : Entry} {o : EntryOutcome} {s : State} (hr : e.report = true) (ho : o.reported = true)
    (hl : e.origin ≠ s.own) : produceResult e o s = queueReplyItem (.result e.origin e.number o e.lastStart) s := by
  simp [produceResult, hr, ho, hl]

/-- Without REPORT there is none. -/
theorem produceResult_silent {e : Entry} {o : EntryOutcome} {s : State} (hr : e.report = false) :
    produceResult e o s = s := by
  simp [produceResult, hr]

/-- Whatever its result, an entry that departs is gone and every other stays. -/
theorem depart_table (e : Entry) (o : EntryOutcome) (s : State) :
    (depart e o s).table = s.table.filter fun x => x.index != e.index :=
  (changes_produceResult e o (dropEntry e.index s)).table_eq

/-- Reading an entry after a departure. -/
theorem entryAt_depart (e : Entry) (o : EntryOutcome) (s : State) (j : Index) :
    (depart e o s).entryAt j = if j = e.index then none else s.entryAt j := by
  have h : (depart e o s).entryAt j = (dropEntry e.index s).entryAt j := by
    simp only [State.entryAt, depart_table, dropEntry, State.setTable_table]
  rw [h, entryAt_dropEntry]

/-- A departure touches no channel (R121). -/
theorem depart_channels (e : Entry) (o : EntryOutcome) (s : State) : (depart e o s).channels = s.channels :=
  (changes_depart e o s).channels_eq

/-! ### Consuming a run (R113, R117, R120) -/

theorem finishRun_absolute {e : Entry} (o : EntryOutcome) (t : Time) (s : State) (h : e.event = none) :
    finishRun e o t s = depart e o s := by
  simp [finishRun, h]

theorem finishRun_lastFire {e : Entry} {p : EventPart} (o : EntryOutcome) (t : Time) (s : State)
    (h : e.event = some p) (hf : p.fires = 1) : finishRun e o t s = depart e o s := by
  simp [finishRun, h, hf]

theorem finishRun_rearms {e : Entry} {p : EventPart} (o : EntryOutcome) (t : Time) (s : State)
    (h : e.event = some p) (hf : p.fires ≠ 1) : finishRun e o t s =
      returnToArmed { e with event := some { p with fires := firesAfter p.fires } } t s := by
  simp only [finishRun, h]
  exact if_neg hf

/-! ### Starts (R116, R138 to R142) and ends (R118, R119) -/

theorem requestStart_free {i : Index} {e : Entry} (t : Time) {s : State} (h : s.entryAt i = some e)
    (ho : (s.channel e.channel).owner = none) : requestStart i t s = grantStart e t s := by
  simp [requestStart, h, ho]

theorem requestStart_preempts {i o : Index} {e : Entry} (t : Time) {s : State} (h : s.entryAt i = some e)
    (ho : (s.channel e.channel).owner = some o) (hp : e.preempt = true) :
    requestStart i t s = grantStart e t (preemptOwner o s) := by
  simp [requestStart, h, ho, hp]

theorem requestStart_refused {i o : Index} {e : Entry} (t : Time) {s : State} (h : s.entryAt i = some e)
    (ho : (s.channel e.channel).owner = some o) (hp : e.preempt = false) :
    requestStart i t s = finishRun e .collided t s := by
  simp [requestStart, h, ho, hp]

/-- A granted start gives the entry its run (R116). -/
theorem entryAt_grantStart {e x : Entry} {i : Index} (t : Time) {s : State} (hi : e.index = i)
    (h : s.entryAt i = some x) (j : Index) :
    (grantStart e t s).entryAt j = if j = i then some (e.startedAt t) else s.entryAt j := by
  show (replaceEntry (e.startedAt t) s).entryAt j = _
  rw [entryAt_replaceEntry]
  have hh : (e.startedAt t).index = i := hi
  rw [hh]
  by_cases hj : j = i
  · subst hj
    simp [h]
  · simp [hj]

/-- A granted start makes the entry its channel's owner, in the active phase (R139, R141). -/
theorem channel_grantStart (e : Entry) (t : Time) (s : State) (c : ChannelNumber) :
    (grantStart e t s).channel c =
      if c = e.channel then { s.channel c with owner := some e.index, phase := .active } else s.channel c := by
  simp only [grantStart, takeChannel, State.channel_setChannel]
  by_cases h : c = e.channel
  · subst h
    simp [replaceEntry]
  · simp [h, replaceEntry]

/-- The preempted owner is gone, and every other entry stays (R121, R141). -/
theorem entryAt_preemptOwner (o : Index) (s : State) (j : Index) :
    (preemptOwner o s).entryAt j = if j = o then none else s.entryAt j := by
  unfold preemptOwner
  split
  · rename_i hn
    by_cases h : j = o
    · subst h
      simp [hn]
    · simp [h]
  · rename_i e he
    rw [entryAt_depart, State.entryAt_index he]

theorem startPhase_of {i : Index} {e : Entry} (t : Time) {s : State} (h : s.entryAt i = some e) :
    startPhase i t s = setPhase e.channel .active (replaceEntry (e.startedAt t) s) := by
  simp [startPhase, h]

theorem takeEnd_betweenPhases {i : Index} {e : Entry} {x : Time} (t : Time) {s : State} (h : s.entryAt i = some e)
    (hf : e.followingStart = some x) :
    takeEnd i t s = setPhase e.channel .inactive (replaceEntry (e.betweenPhases x) s) := by
  simp [takeEnd, h, hf]

theorem takeEnd_closes {i : Index} {e : Entry} (t : Time) {s : State} (h : s.entryAt i = some e)
    (hf : e.followingStart = none) :
    takeEnd i t s = finishRun e .completed t (releaseChannel e.channel e.index s) := by
  simp [takeEnd, h, hf]

/-- A release frees the channel of its owner and drives it idle. -/
theorem releaseChannel_owner {c : ChannelNumber} {i : Index} {s : State} (h : (s.channel c).owner = some i) :
    releaseChannel c i s = s.setChannel c { s.channel c with owner := none, phase := .inactive } := by
  simp [releaseChannel, h]

/-- An entry that owns nothing releases nothing. -/
theorem releaseChannel_other {c : ChannelNumber} {i : Index} {s : State} (h : (s.channel c).owner ≠ some i) :
    releaseChannel c i s = s := by
  simp [releaseChannel, h]

/-! ### The next edge (R110) -/

/-- The edge chosen belongs to an entry of the table and has been reached. -/
theorem State.nextDueEdge_spec {s : State} {limit : Time} {d : PendingEdge} (h : s.nextDueEdge limit = some d) :
    (∃ e ∈ s.table, e.pendingEdge = some d) ∧ passed d.time limit = true := by
  have key : ∀ (l : List Entry) (found : Option PendingEdge),
      (∀ f ∈ found, (∃ e ∈ s.table, e.pendingEdge = some f) ∧ passed f.time limit = true) → (∀ e ∈ l, e ∈ s.table) →
      ∀ d, l.foldl (earlierEdge limit) found = some d →
        (∃ e ∈ s.table, e.pendingEdge = some d) ∧ passed d.time limit = true := by
    intro l
    induction l with
    | nil =>
      intro found hf _ d hd
      exact hf d hd
    | cons e l ih =>
      intro found hf hl d hd
      refine ih _ ?_ (fun x hx => hl x (List.mem_cons_of_mem _ hx)) d hd
      intro f hfe
      unfold earlierEdge at hfe
      split at hfe
      · exact hf f hfe
      · rename_i d' hd'
        split at hfe
        · rename_i hp
          split at hfe
          · cases hfe
            exact ⟨⟨e, hl e List.mem_cons_self, hd'⟩, hp⟩
          · split at hfe
            · cases hfe
              exact ⟨⟨e, hl e List.mem_cons_self, hd'⟩, hp⟩
            · exact hf f hfe
        · exact hf f hfe
  exact key s.table none (by simp) (fun e he => he) d h

/-! ### A step at the table (R14, R15) -/

/-- An edge that its entry still has pending is taken. -/
theorem takeIfPending_pending {s : State} {d : PendingEdge} {e : Entry} (h : s.entryAt d.index = some e)
    (hd : e.pendingEdge = some d) : takeIfPending s d = takeEdge d s := by
  simp [takeIfPending, h, hd]

/-- An edge whose entry has left is not taken. -/
theorem takeIfPending_gone {s : State} {d : PendingEdge} (h : s.entryAt d.index = none) : takeIfPending s d = s := by
  simp [takeIfPending, h]

/-- A positive step is one pass up to the stepped line time, whatever was left before it. -/
theorem tableStep_forward {v σ : Time} (left : List PendingEdge) (s : State) (h : 0 < σ.toInt) :
    tableStep v σ left s = noteTimes (v + σ) (takeEdges (v + σ) (edgeFuel s σ) s) := by
  simp [tableStep, h]

/-- A negative step takes what was left and is still pending. -/
theorem tableStep_back {v σ : Time} (left : List PendingEdge) (s : State) (h : σ.toInt ≤ 0) :
    tableStep v σ left s = left.foldl takeIfPending s := by
  simp [tableStep, Int.not_lt.mpr h]

end Sys2Proof.Machine
end

