-- ==== Sys2Proof/Tests/Slice0.lean ====
section
/-! SUPPORT. Tests: the checks of WellFormed, host transactions from their bytes, single steps whose results the spec's examples and
tables give, and for every obligation with hypotheses a state and operands that meet them. -/

-- One thread for the whole file: its many small proofs would otherwise each take a thread's memory.
set_option Elab.async false
set_option maxRecDepth 100000

namespace Sys2Proof.Tests

open Sys2Proof Sys2Proof.Machine

/-! ### States -/

/-- Station 1 of four at rate code 3 (L = 352, O = 8), out of reset, a transaction begun, line time 1000. -/
def base : State :=
  { State.reset with
    inReset := false, straps := { id := 1, cnt := 3, rate := 3 }
    cycle := { CycleUnit.reset with lineTime := 1000 }
    host := { HostPort.reset with transaction := .live } }

/-- The link in this state, with the configuration frozen. -/
def inLink (l : LinkState) (s : State) : State := s.setLink { s.link with state := l, frozen := true }

/-- The grid runs, line time `d` ticks after the cycle start, in this slot. -/
def inSlot (k : Station) (d : Time) (s : State) : State :=
  s.setCycle { s.cycle with running := true, cycleStart := s.now - d, cycleNumber := 7, slotIndex := some k }

/-- SYNCED, announced, `d` ticks into the cycle in slot `k`. -/
def synced (k : Station) (d : Time) : State :=
  inSlot k d (base.setLink { base.link with state := .synced, frozen := true, announced := true })

/-- LISTEN with this much of the timer left. -/
def listening (n : Nat) : State :=
  base.setLink { base.link with state := .listen, frozen := true, listenTimer := some n }

/-- The state that a command answers. -/
def after (o : Host.Outcome State Fault Refusal) : State :=
  match o with
  | .next t => t
  | .fault _ => State.reset
  | .refused _ => State.reset

/-- An ABSOLUTE PULSE of station 2 on channel 4 that is due at 1000. -/
def pulse : Entry :=
  { index := 0, origin := 2, number := 5, channel := 4, state := .scheduled, active := false, nextEdge := some 1000,
    width := 50, train := none, event := none, preempt := true, bound := true, report := true, lastStart := none,
    aged := false }

/-- What an EVENT entry watches for: a RISE of input 0 of station 2. -/
def watch : EventPart :=
  { triggerStation := 2, triggerInput := 0, triggerEdge := .rise, delay := 100, fires := 2, expiry := none,
    expiryReached := false, latePolicy := .drop, armTime := 900 }

/-- An ARMED EVENT entry of station 2 on channel 4. -/
def armed : Entry := { pulse with state := .armed, nextEdge := none, event := some watch }

/-- A RUNNING PULSE of station 2 on channel 4 that ends at 1000. -/
def running : Entry := { pulse with state := .running, active := true, lastStart := some 950 }

/-- A RUNNING TRAIN of station 2 on channel 4 whose phase ends at 1000 and whose next begins at 1050. -/
def train : Entry :=
  { running with
    train := some { period := 100, count := 3, countRemaining := 2, followingStart := some 1050 } }

/-- These entries, and channel 4 owned by the one at this index, in this phase. -/
def withEntries (es : List Entry) (owner : Option Index) (p : Phase) (s : State) : State :=
  (s.setTable es).setChannel 4 { idle := .low, owner := owner, phase := p }

/-- A frame of station `k` with these flags and items, as its bytes after the mark. -/
def frameOf (h : Header) (items : List Byte) : List Byte :=
  closeFrame (encodeHeader { h with length := BitVec.ofNat 8 items.length }) items

/-- A header of station 2 in cycle 7. -/
def header2 : Header :=
  { station := 2, coldstart := false, isNew := false, cycleNumber := 7, cycleStart := 288, length := 0 }

/-- An own frame of two bytes that carries request 9. -/
def ownFrame : OwnFrame := { content := [0xAA, 0x55], carriesNew := true, requests := [9], remaining := none }

/-- A Pending record of request 9 to station 2. -/
def record9 : RequestRecord :=
  { number := 9, target := 2, tries := 1, sent := false, deadline := none, sendLimit := none, item := [0x42, 0, 0x90, 0, 0] }

/-! ### WellFormed -/

theorem test_wellFormed_longReadBack : (Instr.frameEnd false (List.replicate 75 0)).wellFormed = false := by decide +kernel
theorem test_wellFormed_longReception : (Instr.frameChecksEnd (List.replicate 75 0)).wellFormed = false := by decide +kernel
theorem test_wellFormed_knownCode : (Instr.unknownCommand 0x0C []).wellFormed = false := by decide +kernel
theorem test_wellFormed_initSection : (Instr.unknownCommand 0x02 [4]).wellFormed = false := by decide +kernel
theorem test_wellFormed_longestFrame :
    (Instr.frameChecksEnd (List.replicate 74 0)).wellFormed = true ∧ (Instr.unknownCommand 0x0D []).wellFormed = true ∧
      (Instr.unknownCommand 0x02 [5]).wellFormed = true := by decide +kernel

/-! ### Host transactions (R172, R174, R175, R180) -/

theorem test_bytes_reads :
    [[0x00], [0x07], [0x08], [0x09, 0x21], [0x0A, 0x2F], [0x0B], [0x0C, 0x0F]].map (commandOfBytes 1) =
      [.nop, .notice, .status, .peer [0x21], .entry [0x2F], .time, .capture [0x0F]] := by decide +kernel

theorem test_bytes_commands :
    [[0x01], [0x02, 0x01, 2], [0x02, 0x02, 0], [0x02, 0x03], [0x02, 0x04], [0x03], [0x04], [0x06, 8], []].map
        (commandOfBytes 1) =
      [.reset, .initPermit [2], .initInput [0], .initIdle [], .initLead [], .start, .stop, .mark [8],
       .emptyTransaction] := by decide +kernel

theorem test_bytes_submit :
    commandOfBytes 1 [0x05, 0x41] = .submitLocal [0x41] ∧ commandOfBytes 1 [0x05, 0x42] = .submitPeer [0x42] ∧
      commandOfBytes 1 [0x0D, 7] = .unknownCommand 0x0D [7] ∧
      commandOfBytes 1 [0x02, 0x05] = .unknownCommand 0x02 [0x05] := by decide +kernel

/-- A final byte of fewer than 8 bits is discarded (R172). -/
theorem test_bits_partialByte :
    wholeBytes [false, false, false, false, true, false, true, true, true, true, true] = [0x0B] := by decide +kernel

theorem test_no_word_spells_a_command (nbits w : Nat) : decodeTableWord nbits w = none := rfl

/-! ### Layouts (Chapter 3) -/

/-- The check value of this generator and start value over the digits 1 to 9 (R39). -/
theorem test_frameCheck_digits :
    frameCheck [0x31, 0x32, 0x33, 0x34, 0x35, 0x36, 0x37, 0x38, 0x39] = 0x29B1 := by decide +kernel

/-- A REPLY FULL of request 0x123 to origin 3, and a CANCEL of 0x456 by request 0x123 (R45, R46). -/
theorem test_parse_reply_cancel :
    parseItem [0x53, 0x12, 0x32] = some (.reply 3 0x123 .full, []) ∧
      parseItem [0x43, 0x12, 0x30, 0x45, 0x60, 0xFF] = some (.request 3 0x123 (.cancel 0x456), [0xFF]) := by decide +kernel

/-- A reserved kind code, a reply code of 7 and a reserved bit that is set all fail the parse (R41, R42, R46). -/
theorem test_parse_refuses :
    parseItem [0x70, 0, 0] = none ∧ parseItem [0x53, 0x12, 0x37] = none ∧
      parseItem [0x10, 0x01, 0, 0, 0, 0, 0] = none := by decide +kernel

/-! ### Single steps -/

/-- Section 3.6, example 1: the queues of station 2 fill 55 bytes, and the ORDER and CANCEL behind stay. -/
def exampleOne : State :=
  let s := inSlot 1 1408 { base with straps := { id := 2, cnt := 3, rate := 2 } }
  let s := s.setLink { s.link with state := .synced, announced := true }
  let order (n : RequestNumber) (bytes : Nat) : SendItem := .request n (List.replicate bytes 0x20)
  s.setExchange { s.exchange with
    replyQueue := [.reply 0 77 .accepted, .result 1 300 .completed (some 1998210)]
    sendQueue := [.event 2 .rise 14 0, order 40 22, order 41 8, .event 5 .fall 15 0, order 42 16, order 43 5] }

theorem test_build_example1 :
    ((after (exec (.slotStart .slotEndFirst) exampleOne)).line.frame.map fun f => (f.content.length, f.requests)) =
        some (65, [40, 41]) ∧
      (after (exec (.slotStart .slotEndFirst) exampleOne)).exchange.sendQueue.length = 2 ∧
      Config.ticksOfBits 2 (frameBits (List.replicate 65 0)) = 528 := by decide +kernel

/-- Section 3.6, example 3: the second frame of the slot is an intrusion, the third a check error, both against station 2. -/
theorem test_receive_example3 :
    ((after (exec (.frameChecksEnd (frameOf { header2 with station := 3 } []))
      (after (exec .markDetected (synced 2 712))))).peer 2).intrusions = 1 ∧
      ((after (exec (.frameChecksEnd [1, 2, 3]) (after (exec .markDetected (synced 2 712))))).peer 2).checkErrors = 1 := by
  decide +kernel

/-- R31, R25: a station alone starts a timeline; number 0 builds at once, with the NEW flag. -/
theorem test_coldStart :
    (after (exec .listenTimerExpiry (listening 0))).link.state = .coldstart ∧
      (after (exec .listenTimerExpiry (listening 0))).link.newCountdown = 2 := by decide +kernel

/-- R20: the listen timer is 2 N L + ID L = 2 * 4 * 352 + 352. -/
theorem test_start_timer : (after (exec .start base)).link.listenTimer = some 3168 := by decide +kernel

/-- R11, R12: of the samples 5, 3 and 4 the middle one is left, and the step is -4. -/
theorem test_cycleEnd_step :
    (after (exec .cycleEnd ((synced 3 1408).setCycle
      { (synced 3 1408).cycle with samples := [⟨0, 5⟩, ⟨2, 3⟩, ⟨3, 4⟩] }))).now = 996 := by decide +kernel

/-- R175, R184: TIME reads line time 1000 = 0x3E8. -/
theorem test_time : (after (exec .time base)).host.held = [0x0B, 0x00, 0x00, 0x00, 0x03, 0xE8] := by decide +kernel

/-- R183: STATUS in OFF of station 1 of four at rate 3. -/
theorem test_status :
    (after (exec .status base)).host.held.take 10 = [0x08, 0x00, 0x00, 0x13, 0x03, 0x00, 0x00, 0x00, 0x03, 0xE8] := by
  decide +kernel

/-- R185: PEER at the own number is SELF and zeros; ENTRY at an empty place is 0. -/
theorem test_peer_self_entry_empty :
    (after (exec (.peer [0x10]) base)).host.held = [0x09, 0x00, 4, 0, 0, 0, 0, 0, 0, 0, 0, 0, 0, 0, 0] ∧
      (after (exec (.entry [3]) base)).host.held = [0x0A, 0x00, 0x00] := by decide +kernel

/-- R182: MARK of an input that is not broadcast is stamped and not numbered. -/
theorem test_mark : (after (exec (.mark [8]) base)).host.held = [0x06, 0x00, 0, 0, 0x03, 0xE8, 0, 0] := by decide +kernel

/-- R177: INIT LEAD writes the minimum lead; outside OFF it is answered STATE. -/
theorem test_initLead :
    (after (exec (.initLead [0x01, 0x02]) base)).exchange.minLead = 0x0102 ∧
      (after (exec (.initLead [0x01, 0x02]) (listening 5))).host.held = [0x02, 0x01] := by decide +kernel

/-- R137: an IDLE section changes the line of a channel it names. -/
theorem test_initIdle : (after (exec (.initIdle [0x00, 0x10]) base)).channel 4 =
    { idle := .high, owner := none, phase := .inactive } := by decide +kernel

/-- R116, R118: a start drives the channel, and its end frees it and reports to the peer (R128). -/
theorem test_start_end :
    ((after (exec (.startEdge 0) (withEntries [pulse] none .inactive base))).channel 4).out = .high ∧
      (after (exec (.endEdge 0) (withEntries [running] (some 0) .active base))).exchange.replyQueue =
        [.result 2 5 .completed (some 950)] := by decide +kernel

/-- R119: between its phases a TRAIN keeps the channel, idle. -/
theorem test_train_phase :
    (after (exec (.endEdge 0) (withEntries [train] (some 0) .active base))).channel 4 =
      { idle := .low, owner := some 0, phase := .inactive } := by decide +kernel

/-- R71, R72: with filter 0 the edge is recognised on the sample that shows it. -/
theorem test_pin_filter0 :
    ((after (exec (.edgeRecognised 3) (after (exec (.pinTransition 3 .high) base)))).pin 3).settled = .high := by decide +kernel

/-- R32, R33: a different read-back is a collision. -/
theorem test_frameEnd_collision :
    (after (exec (.frameEnd true [0xAA, 0x55]) ((synced 1 500).setLine
      { (synced 1 500).line with frame := some { ownFrame with remaining := some 0 } }))).link.collisionCount = 1 := by
  decide +kernel

/-- R188, R189: an empty queue answers kind 0. -/
theorem test_notice_empty : (after (exec .notice base)).host.held = [0x07, 0x00] ++ List.replicate 14 0x00 := by decide +kernel

/-- R37, R192: a reset in SYNCED leaves OFF and line time 0; its end latches the straps. -/
theorem test_reset :
    (after (exec .resetnAsserted (synced 2 800))).link.state = .off ∧ (after (exec .resetnAsserted (synced 2 800))).now = 0 ∧
      (after (exec (.resetEnd { id := 5, cnt := 7, rate := 1 } 0x81) State.reset)).own = 5 ∧
      ((after (exec (.resetEnd { id := 5, cnt := 7, rate := 1 } 0x81) State.reset)).pin 7).settled = .high := by decide +kernel

/-- R35: STOP goes to OFF and keeps line time. -/
theorem test_stop :
    (after (exec .stop (synced 2 800))).link.state = .off ∧ (after (exec .stop (synced 2 800))).now = 1000 := by decide +kernel

/-- R190: ATTN follows the notice count. -/
theorem test_attn : base.attn = .low ∧ (after (exec .start base)).attn = .high := by decide +kernel

/-- R136: a PULSE on channel 4 ends at 1000 and another starts there: the pin stays active from 999 to 1001. -/
def backToBack : State :=
  let s := (withEntries [running, { pulse with index := 1, number := 6 }] (some 0) .active base)
  s.setOutputs (s.outputs.set 4 .high)

theorem test_back_to_back_pulses_show_no_gap :
    ((after (exec (.endEdge 0) backToBack)).channel 4).out = .low ∧
      (after (exec (.endEdge 0) backToBack)).out 4 = .high ∧
      (tick (after (exec (.startEdge 1) (after (exec (.endEdge 0) backToBack))))).out 4 = .high := by decide +kernel

/-- R105, R168: a REPLY whose frame's checks end at the instant of the build is taken after the build too. -/
def replyAtBuild : State :=
  let s := (synced 0 352).setLine
    { (synced 0 352).line with reception := some ⟨656, some ⟨648, 7, 0⟩⟩ }
  s.setExchange { s.exchange with requests := [{ record9 with target := 0 }] }

theorem test_reply_after_the_build :
    let s := after (exec (.slotStart .buildFirst) replyAtBuild)
    s.line.reception = none ∧ s.exchange.requests.length = 1 ∧
      (after (exec (.frameChecksEnd (frameOf { header2 with station := 0, cycleStart := 648 }
        (encodeItem (.reply 1 9 .accepted)))) s)).exchange.requests = [] := by decide +kernel

/-- An adopted frame in LISTEN that carries an EVENT, with this cycle start in its header, at this table. -/
def adopting (cycleStart : Time) (stamp : Time) (es : List Entry) : State :=
  after (exec (.frameChecksEnd (frameOf { header2 with cycleStart := cycleStart }
      (encodeItem (.event 0 .rise 4 stamp) ++ encodeItem (.result 1 5 .completed none))))
    ((withEntries es none .inactive (listening 5)).setLine { base.line with reception := some ⟨992, none⟩ }))

/-- R22, R191: the notices of an adopted frame's items stand behind STEP. R15, R23: a step from 1000 to 992 takes the start
left at 1000, and not the start at 995 that the frame's EVENT makes. R114: at a step to 1008 the arm time of entry 0 ages
before the EVENT, stamped between it and the aged one, is matched. -/
theorem test_adoption :
    (adopting 288 985 []).host.notices.map (fun n => n.kind) = [.link, .step, .result] ∧
      (adopting 272 985 [{ armed with event := some { watch with delay := 10 } },
          { pulse with index := 1, number := 6, channel := 5 }]).table.map (fun e => (e.state, e.nextEdge)) =
        [(.scheduled, some 995), (.running, some 1050)] ∧
      (adopting 288 (1005 - BitVec.ofNat 32 (2 ^ 30))
          [{ armed with event := some { watch with armTime := 1004 - BitVec.ofNat 32 (2 ^ 30) } }]).table =
        [{ armed with event := some { watch with armTime := 1008 - BitVec.ofNat 32 (2 ^ 30) } }] := by decide +kernel

/-- R70 (log entry 30): an INPUT section equal to the setting held restarts the pin's recognition too. -/
theorem test_equal_input_section_restarts_the_recognition :
    (after (exec (.initInput [3, 0x00, 0x05])
        (base.setPin 3 { PinRecord.reset with level := .high, filter := 5, hold := some ⟨998, 2⟩ }))).pin 3 =
      { PinRecord.reset with level := .high, settled := .high, filter := 5 } := by decide +kernel

/-- R175: the bytes of an occupied place, here a RUNNING TRAIN of ABSOLUTE basis. -/
theorem test_entry_train :
    (after (exec (.entry [0]) (withEntries [train] (some 0) .active base))).host.held =
      [0x0A, 0x00, 0x01, 0x02, 0x00, 0x05, 0x04, 0xBC, 0x02, 0x00, 0xD0, 0x00, 0x00, 0x03, 0xE8, 0x00, 0x00, 0x32,
       0x00, 0x00, 0x64, 0x00, 0x03, 0x00, 0x02, 0x00, 0x00, 0x04, 0x1A] ++ List.replicate 14 0x00 ++
        [0x00, 0x00, 0x03, 0xB6] := by decide +kernel

/-- R175: PERMIT 0x15 0x00 0x02 gives channels 1 to 3 PLACE and channel 11 PREEMPT, and every other DENY. -/
theorem test_permit :
    ((after (exec (.initPermit [0x02, 0x15, 0x00, 0x02]) base)).exchange.permit.get 2).toList =
      [.deny, .place, .place, .place, .deny, .deny, .deny, .deny, .deny, .deny, .deny, .preempt] := by decide +kernel

/-- R38: the mark and then, of the byte 0xAA, a 1 and a 0. -/
theorem test_line_carries_the_frame :
    (after (exec .sendInstant ((synced 1 360).setLine
      { (synced 1 360).line with frame := some ownFrame }))).lineHalfBits.take 20 =
      [.high, .high, .high, .low, .low, .low, .high, .low, .high, .low, .high, .low, .high, .low, .high, .low,
       .low, .high, .high, .low] := by decide +kernel

/-- R87 (log entry 31): an AMEND by 0 of an edge that lies 2^30 + 2^24 + 1 ticks ahead is accepted. -/
theorem test_amend_by_zero :
    judgeAmend base { pulse with nextEdge := some (1000 + BitVec.ofNat 32 (2 ^ 30 + 2 ^ 24 + 1)) } 0 = .accepted ∧
      judgeAmend base { pulse with nextEdge := some (1000 + BitVec.ofNat 32 (2 ^ 30 + 2 ^ 24 + 1)) } 1 = .far := by
  decide +kernel

/-! ### Witnesses: for each obligation with hypotheses, states and operands that meet them all -/

theorem witness_StepRunsTheFrontCommand : (base.setPending [.nop, .time]).pending = .nop :: [.time] := by decide +kernel

theorem witness_IdleStation_due :
    (listening 0).pending = [] ∧ (listening 0).dueRow = some .listenTimerExpiry := by decide +kernel

/-- A pin held for its filter, in this state. -/
def recognising (s : State) : State :=
  s.setPin 3 { PinRecord.reset with level := .high, filter := 5, hold := some ⟨995, 5⟩ }

/-- Each row that may be due, with what comes after it due as well where that can be: edges, notes, recognition, frame end,
and the rows of the grid. -/
theorem witness_IdleStation_order :
    (recognising (withEntries [running, { armed with index := 1, number := 6, event := some { watch with armTime := 1 - BitVec.ofNat 32 (2 ^ 30) } }]
        (some 0) .active base)).dueRow = some (.endEdge 0) ∧
      (recognising (withEntries [{ armed with event := some { watch with armTime := 1 - BitVec.ofNat 32 (2 ^ 30) } }] none
        .inactive base)).dueRow = some (.armTimeAgeing 0) ∧
      (recognising (withEntries [{ pulse with nextEdge := some 1001, event := some { watch with expiry := some 1000 } }] none
        .inactive base)).dueRow = some (.expiryNotedAsReached 0) ∧
      (recognising (withEntries [{ running with width := 0, nextEdge := none, lastStart := some (1 - BitVec.ofNat 32 (2 ^ 30)) }]
        (some 0) .active base)).dueRow = some (.holdAged 0) ∧
      (recognising (listening 0)).dueRow = some (.edgeRecognised 3) ∧ (synced 3 1408).dueRow = some .cycleEnd ∧
      (synced 0 352).dueRow = some (.slotStart .slotEndFirst) ∧
      ((synced 1 360).setLine { (synced 1 360).line with frame := some ownFrame }).dueRow = some .sendInstant ∧
      ((synced 1 500).setLine { (synced 1 500).line with frame := some { ownFrame with remaining := some 0 } }).dueRow =
        some (.frameEnd false [0xAA, 0x55]) := by decide +kernel

theorem witness_IdleStation_tick :
    base.pending = [] ∧ base.dueRow = none ∧ base.inReset = false ∧
      State.reset.pending = [] ∧ State.reset.dueRow = none ∧ State.reset.inReset = true := by decide +kernel

theorem witness_Resets : base.takesCommands = true ∧ State.reset.inReset = true := by decide +kernel

theorem witness_StrapsPinsAndLineTime :
    (∃ t, exec .cycleEnd (synced 3 1408) = .next t) ∧ (∃ t, exec .resetnAsserted base = .next t) ∧
      (∃ t, exec (.frameChecksEnd (frameOf header2 [])) (listening 5) = .next t) ∧
      ∃ t, exec (.resetEnd { id := 5, cnt := 7, rate := 1 } 0) State.reset = .next t :=
  ⟨⟨_, rfl⟩, ⟨_, rfl⟩, ⟨_, rfl⟩, ⟨_, rfl⟩⟩

theorem witness_Configuration :
    (∃ t, exec (.initLead [1, 2]) (listening 5) = .next t) ∧ (listening 5).link.state ≠ .off := ⟨⟨_, rfl⟩, by decide +kernel⟩

/-- Station 0 of four, in this link state, in slot 0 after a negative step, the cycle start `d` ticks back. -/
def zeroAwaited (own : Fin 16) (l : LinkState) (d : Time) : State :=
  let s := inLink l { synced 0 d with straps := { id := own, cnt := 3, rate := 3 } }
  s.setCycle { s.cycle with slotZeroAwaited := true }

theorem witness_ColdStart :
    (listening 0).link.state = .listen ∧ (listening 0).link.listenTimer = some 0 ∧ (listening 0).own ≠ 0 ∧
      { listening 0 with straps := { id := 0, cnt := 3, rate := 3 } }.own = 0 := by decide +kernel

/-- Each slot start that is due: after the own slot, after and before a foreign one, before the own one with the state
transmitting or not, and slot 0 after a negative step; and one tick before each of the last two kinds none. -/
theorem witness_SlotStart :
    (synced 1 704).slotDue = some (.after 1) ∧ (1 : Station) = (synced 1 704).own ∧
      (synced 2 1056).slotDue = some (.after 2) ∧ (2 : Station) ≠ (synced 2 1056).own ∧
      (2 : Station) + 1 ≠ (synced 2 1056).own ∧ (synced 2 1055).slotDue = none ∧
      (inLink .integrate (synced 0 352)).slotDue = some (.after 0) ∧
      (inLink .integrate (synced 0 352)).link.state.transmits = false ∧
      (synced 0 352).slotDue = some (.after 0) ∧ (0 : Station) + 1 = (synced 0 352).own ∧
      (synced 0 352).link.state.transmits = true ∧
      (zeroAwaited 0 .synced 0).slotDue = some .zero ∧ (zeroAwaited 0 .synced 0).own = 0 ∧
      (zeroAwaited 0 .synced 0).link.state.transmits = true ∧ (zeroAwaited 0 .integrate 0).slotDue = some .zero ∧
      (zeroAwaited 0 .integrate 0).link.state.transmits = false ∧ (zeroAwaited 1 .synced 0).slotDue = some .zero ∧
      (zeroAwaited 1 .synced 0).own ≠ 0 ∧ (zeroAwaited 0 .synced 0xFFFFFFFF).slotDue = none := by decide +kernel

/-- The end of slot 2, its owner's record this one. -/
def slotEnd2 (r : PeerRecord) : State := (synced 2 1056).setPeer 2 r

/-- Each row of R57's table meets the conditions on the record, with 2 misses as the last count before the loss. -/
theorem witness_SlotEnd :
    ∀ r ∈ [{ PeerRecord.reset with slotNote := some 3 }, { PeerRecord.reset with state := .present },
        { PeerRecord.reset with state := .missing, misses := 2 }, { PeerRecord.reset with state := .lost, misses := 4 },
        PeerRecord.reset],
      (2 : Station) ≠ (slotEnd2 r).own ∧ (slotEnd2 r).peer 2 = r ∧
      (r.slotNote ≠ none ∨ r.state ≠ .missing ∨ r.misses < 3) := by
  decide +kernel

/-- A table with one entry in each state, a Pending record, and a reply cache record. -/
def busy (s : State) : State :=
  let s := withEntries
    [running, { armed with index := 1, number := 6, channel := 5, preempt := false },
     { pulse with index := 2, number := 7, channel := 4, origin := 3 },
     { armed with index := 3, number := 8, channel := 6, origin := 1 },
     { armed with index := 4, number := 8, channel := 6, origin := 3 }] (some 0) .active s
  (setCacheOf 2 [{ number := 3, code := .accepted, expiry := 9 }] s).setExchange
    { s.exchange with requests := [record9], cache := (setCacheOf 2 [{ number := 3, code := .accepted, expiry := 9 }] s).exchange.cache }

theorem busy_tableOk : TableOk (busy base) := by
  unfold TableOk Entry.Ok
  decide +kernel

theorem busy_channelsOk : ChannelsOk (busy base) := by
  unfold ChannelsOk
  decide +kernel

theorem busy_exchangeOk : ExchangeOk (busy base) := by
  unfold ExchangeOk RequestRecord.Ok
  decide +kernel

/-- The fourth silent slot end of station 2. -/
def losing : State := busy (slotEnd2 { PeerRecord.reset with state := .missing, misses := 3 })

theorem losing_tableOk : TableOk losing := by
  unfold TableOk Entry.Ok
  decide +kernel

theorem losing_channelsOk : ChannelsOk losing := by
  unfold ChannelsOk
  decide +kernel

theorem losing_exchangeOk : ExchangeOk losing := by
  unfold ExchangeOk RequestRecord.Ok
  decide +kernel

/-- Channel 4 is that of a BOUND RUNNING entry of the lost station, channel 5 that of none. An entry of the station's own and
one of another peer watch the lost station. -/
theorem witness_FourthSilentSlot :
    TableOk losing ∧ ExchangeOk losing ∧ ChannelsOk losing ∧ (2 : Station) ≠ losing.own ∧
      (losing.peer 2).slotNote = none ∧ (losing.peer 2).state = .missing ∧ 3 ≤ (losing.peer 2).misses ∧
      (∃ e ∈ losing.table, e.origin = 2 ∧ e.bound = true ∧ e.state = .running ∧ e.channel = 4) ∧
      (∀ e ∈ losing.table, e.origin = 2 → e.bound = true → e.state = .running → e.channel ≠ 5) ∧
      (losing.table.filter fun e => e.state == .armed && (e.event.any fun p => p.triggerStation == 2) && e.origin != 2 &&
        e.report).map (fun e => e.origin) = [1, 3] :=
  ⟨losing_tableOk, losing_exchangeOk, losing_channelsOk, by decide +kernel⟩

/-- Cycle 7 at the own slot's start, with this Pending record and this many items in the send queue. -/
def retrying (r : RequestRecord) (waiting : Nat) : State :=
  let s := synced 0 352
  s.setExchange { s.exchange with requests := [r], sendQueue := List.replicate waiting (.event 8 .rise 0 0) }

/-- A record whose deadline is this cycle, or the next one. -/
def sentRecord (tries : Nat) (deadline sendLimit : CycleNumber) : RequestRecord :=
  { record9 with tries := tries, sent := true, deadline := some deadline, sendLimit := some sendLimit }

/-- Not due; due at the deadline itself; exhausted by its tries, and by its send limit; and a full send queue. -/
theorem witness_RetryPass :
    (∀ r ∈ [record9, sentRecord 1 8 13, sentRecord 2 7 8, sentRecord 3 7 8, sentRecord 1 7 7],
      ∀ n ∈ [23, 24], ExchangeOk (retrying r n) ∧ r ∈ (retrying r n).exchange.requests ∧
        (retrying r n).cycle.cycleNumber = 7 ∧ (retrying r n).exchange.sendQueue.length = n) ∧
      record9.sent = false ∧ ((7 : CycleNumber) - 8).toNat = 2 ^ 16 - 1 ∧ ((7 : CycleNumber) - 7).toNat = 0 := by
  unfold ExchangeOk RequestRecord.Ok
  decide +kernel

theorem witness_Drains_replies :
    drainReplies 5 [.reply 0 1 .accepted, .reply 0 2 .accepted] = ([.reply 0 1 .accepted], [.reply 0 2 .accepted]) := by
  decide +kernel

theorem witness_Drains_sends :
    drainSends (fun i => i == .request 9 [1]) 8 [.request 9 [1], .event 8 .rise 0 0, .event 9 .rise 1 0] =
      ([.event 8 .rise 0 0], [.request 9 [1]], [.event 9 .rise 1 0]) := by decide +kernel

/-- A REPLY, an EVENT, and a request whose send limit is reached. -/
def building : State :=
  (synced 0 352).setExchange { RequestExchange.reset with
    replyQueue := [.reply 2 1 .accepted], sendQueue := [.request 9 record9.item, .event 8 .rise 4 900]
    requests := [{ record9 with sendLimit := some 7 }] }

theorem witness_Build :
    drainReplies 64 (retryPass building).exchange.replyQueue = ([.reply 2 1 .accepted], []) ∧
      drainSends
          (fun i => match i with
            | .event _ _ _ _ => false
            | .request n _ => ((retryPass building).requestNumbered n).any fun r =>
                r.sendLimit.any fun l => decide ((building.cycle.cycleNumber - l).toNat < 2 ^ 15))
          (64 - ([ReplyItem.reply 2 1 .accepted].flatMap ReplyItem.encode).length)
          (retryPass building).exchange.sendQueue =
        ([.event 8 .rise 4 900], [.request 9 record9.item], []) ∧
      ([SendItem.request 9 record9.item].filterMap SendItem.requestNumber).Nodup := by decide +kernel

/-- The own frame has been built and its send instant is reached. -/
def sendingDue : State := (synced 1 360).setLine { (synced 1 360).line with frame := some ownFrame }

theorem witness_OwnFrame_send :
    sendingDue.line.frame = some ownFrame ∧ ownFrame.remaining = none ∧ sendingDue.link.state.transmits = true ∧
      sendingDue.cycle.running = true ∧ sendingDue.cycle.slotZeroAwaited = false ∧
      sendingDue.cycle.slotIndex = some sendingDue.own ∧
      passed (sendingDue.slotStartTime sendingDue.own.val + BitVec.ofNat 32 (Config.sendOffset sendingDue.straps.rate))
        sendingDue.now = true := by decide +kernel

/-- The own frame has gone out, with this known of the own slot and this collision count. -/
def frameOut (o : OwnSlot) (collisions : Nat) : State :=
  let s := (synced 1 500).setLine
    { frame := some { ownFrame with remaining := some 0 }, ownSlot := o, reception := none, ending := none }
  s.setLink { s.link with collisionCount := collisions }

theorem witness_OwnFrame_end :
    (frameOut .unjudged 0).line.frame = some { ownFrame with remaining := some 0 } ∧
      (frameOut .unjudged 0).line.ownSlot ≠ .foreignMark := by decide +kernel

theorem witness_Collided :
    (frameOut .foreignMark 0).line.frame = some { ownFrame with remaining := some 0 } ∧
      (frameOut .foreignMark 0).link.state.transmits = true ∧ (frameOut .foreignMark 0).line.ownSlot = .foreignMark ∧
      (frameOut .foreignMark 0).link.collisionCount = 0 ∧ (frameOut .unjudged 1).link.collisionCount = 1 ∧
      [0xAA, 0x54] ≠ ownFrame.content := by decide +kernel

theorem witness_Correction :
    3 ≤ [(⟨0, 5⟩ : Sample), ⟨2, -32⟩, ⟨3, 32⟩].length ∧
      (∀ x ∈ [(⟨0, 5⟩ : Sample), ⟨2, -32⟩, ⟨3, 32⟩], (-32 : Int) ≤ x.deviation ∧ x.deviation ≤ 32) ∧
      ([(⟨0, 5⟩ : Sample), ⟨2, -32⟩, ⟨3, 32⟩].map Sample.deviation).Perm (32 :: -32 :: [5]) ∧
      cycleStep ([] : List Sample) = 0 := by decide +kernel

/-- A cycle end is due in this link state, with these samples. -/
def cycleEnding (l : LinkState) (samples : List Sample) : State :=
  let s := inLink l (synced 3 1408)
  s.setCycle { s.cycle with samples := samples }

theorem witness_CycleEnd (l : LinkState) (samples : List Sample) :
    (cycleEnding l samples).cycle.running = true ∧ (cycleEnding l samples).cycle.slotZeroAwaited = false ∧
      (cycleEnding l samples).cycle.slotIndex = some (cycleEnding l samples).straps.cnt ∧
      passed ((cycleEnding l samples).cycle.cycleStart +
        BitVec.ofNat 32 ((cycleEnding l samples).stationCount * (cycleEnding l samples).slotLength))
        (cycleEnding l samples).now = true ∧
      (cycleEnding l samples).link.state = l ∧ (cycleEnding l samples).cycle.samples = samples := by
  refine ⟨rfl, rfl, rfl, ?_, rfl, rfl⟩
  show passed ((synced 3 1408).cycle.cycleStart + BitVec.ofNat 32 (4 * 352)) (synced 3 1408).now = true
  decide +kernel

/-- The four ways a cycle end goes on: the grid stops; a negative step; slot 0 begins with a build; and without one. -/
theorem witness_CycleEnd_ways :
    (after (exec .cycleEnd ((cycleEnding .synced []).setLink
        { (cycleEnding .synced []).link with silenceCount := 2 }))).cycle.running = false ∧
      cycleStep (cycleEnding .synced [⟨2, 5⟩]).cycle.samples < 0 ∧
      (after (exec .cycleEnd (cycleEnding .synced [⟨2, 5⟩]))).cycle.running = true ∧
      0 ≤ cycleStep (cycleEnding .synced [⟨2, -5⟩]).cycle.samples ∧ (cycleEnding .synced [⟨2, -5⟩]).own ≠ 0 ∧
      { cycleEnding .synced [⟨2, 0⟩] with straps := ⟨0, 3, 3⟩ }.own = 0 ∧
      { cycleEnding .synced [⟨2, 0⟩] with straps := ⟨0, 3, 3⟩ }.link.state.transmits = true := by decide +kernel

/-- A state that each of the four LINK notices of a cycle end needs. -/
theorem witness_CycleEnd_link :
    (cycleEnding .integrate []).link.state = .integrate ∧
      ((base.setLink { base.link with state := .integrate, integrationCount := 1 }).link.integrationCount ≠ 0) ∧
      (1 ≤ (base.setLink { base.link with state := .coldstart, confirmationCount := 1 }).link.confirmationCount) ∧
      (2 ≤ (base.setLink { base.link with state := .synced, silenceCount := 2 }).link.silenceCount) ∧
      (linkAtCycleEnd 0 (base.setLink { base.link with state := .synced, silenceCount := 2 })).link.state = .listen := by
  decide +kernel

/-- A RUNNING TRAIN whose phase ends now, an ARMED entry and one that starts now. -/
def stepping : State :=
  withEntries [train, { armed with index := 1, number := 6 }, { pulse with index := 2, number := 7, channel := 5 }] (some 0)
    .active base

/-- What a step of up to 32 ticks either way asks of the table: no edge left from before, and TRAINs in order. -/
theorem witness_StepTakes :
    TableOk stepping ∧
      (∀ e ∈ stepping.table, ∀ d, e.pendingEdge = some d → passed d.time 1000 = true → d.time = 1000) ∧
      (∀ e ∈ stepping.table, ∀ x y, e.nextEdge = some x → e.followingStart = some y → afterTime y x = true) ∧
      0 < (1 : Time).toInt ∧ 0 < (32 : Time).toInt ∧ (32 : Time).toInt ≤ 32 ∧ (0xFFFFFFFF : Time).toInt < 0 ∧
      stepping.edgesAt 1000 = [{ index := 0, kind := .finish, time := 1000 }, { index := 2, kind := .start, time := 1000 }] ∧
      stepping.nextDueEdge 1000 = some { index := 0, kind := .finish, time := 1000 } ∧
      stepping.entryAt 0 = some train ∧ stepping.entryAt 1 = some { armed with index := 1, number := 6 } := by
  have h1 : ∀ e ∈ stepping.table, (e.pendingEdge.all fun d => !passed d.time 1000 || d.time == 1000) = true := by
    decide +kernel
  have h2 : ∀ e ∈ stepping.table, (e.nextEdge.all fun x => e.followingStart.all fun y => afterTime y x) = true := by
    decide +kernel
  refine ⟨by unfold TableOk Entry.Ok; decide +kernel, fun e he d hd hp => ?_, fun e he x y hx hy => ?_, by decide +kernel⟩
  · have h := h1 e he
    simp only [hd, Option.all_some, hp, Bool.not_true, Bool.false_or, beq_iff_eq] at h
    exact h
  · have h := h2 e he
    simp only [hx, hy, Option.all_some] at h
    exact h

theorem witness_Mark_noGrid :
    (listening 5).link.state ≠ .off ∧ (listening 5).line.reception = none ∧ (listening 5).lde = .low ∧
      (listening 5).cycle.running = false := by decide +kernel

/-- What a mark `d` ticks into the cycle asks, in slot `k`: a transmitting state, no reception, LDE released. -/
abbrev Hears (k : Station) (d : Time) : Prop :=
  (synced k d).link.state.transmits = true ∧ (synced k d).line.reception = none ∧ (synced k d).lde = .low ∧
    (synced k d).cycle.running = true

/-- The ticks from the cycle start to the present in `synced k d`. -/
abbrev into (k : Station) (d : Time) : Nat := ((synced k d).now - (synced k d).cycle.cycleStart).toNat

/-- The first and the last tick of slot 2. -/
theorem witness_Mark_slot : Hears 2 704 ∧ Hears 2 1055 ∧ (2 : Station) ≠ base.own ∧ 2 < base.stationCount ∧
    2 * base.slotLength ≤ into 2 704 ∧ into 2 1055 < (2 + 1) * base.slotLength := by decide +kernel

/-- The boundaries of a mark before the cycle start. -/
theorem witness_Mark_before : Hears 0 0x80000000 ∧ Hears 0 0xFFFFFFFF ∧ base.own ≠ 0 ∧
    2 ^ 31 ≤ into 0 0x80000000 ∧ 2 ^ 31 ≤ into 0 0xFFFFFFFF := by decide +kernel

/-- The boundaries of a mark at or after a cycle end that is not yet taken. -/
theorem witness_Mark_afterEnd : Hears 3 1408 ∧ Hears 3 0x7FFFFFFF ∧ base.own ≠ 0 ∧
    base.stationCount * base.slotLength ≤ into 3 1408 ∧ into 3 0x7FFFFFFF < 2 ^ 31 := by decide +kernel

/-- The own slot in INTEGRATE, nothing judged of it; and slot 0 in INTEGRATE where it is the own one. -/
theorem witness_Mark_ownSlot :
    (inLink .integrate (synced 1 352)).link.state = .integrate ∧
      (inLink .integrate (synced 1 352)).line.reception = none ∧ (inLink .integrate (synced 1 352)).lde = .low ∧
      (∀ n : Fin 3, (inLink .integrate (synced 1 352)).line.ownSlot ≠ .clean n.val) ∧
      (inLink .integrate (synced 1 352)).own = 1 ∧
      { inLink .integrate (synced 0 0) with straps := ⟨0, 3, 3⟩ }.own = 0 := by decide +kernel

/-- The first and the last tick of the own slot; and, for station 0, a cycle end not yet taken and the last tick before
the cycle start. -/
theorem witness_ForeignMark : Hears 1 352 ∧ Hears 1 703 ∧ base.own.val < base.stationCount ∧
    base.own.val * base.slotLength ≤ into 1 352 ∧ into 1 703 < (base.own.val + 1) * base.slotLength ∧
    { synced 3 1408 with straps := ⟨0, 3, 3⟩ }.own = 0 ∧ Hears 3 1408 ∧ Hears 0 0xFFFFFFFF ∧
    base.stationCount * base.slotLength ≤ into 3 1408 ∧ base.stationCount * base.slotLength ≤ into 0 0xFFFFFFFF := by
  decide +kernel

/-- Each thing that can be known of the own slot, in that state. -/
theorem witness_ForeignMark_clauses : ∀ o ∈ [OwnSlot.unjudged, .foreignMark, .collided, .clean 0, .clean 1],
    ((synced 1 352).setLine { (synced 1 352).line with ownSlot := o }).line.ownSlot = o := by decide +kernel

/-- A frame is being received whose mark lies `late` ticks after the instant the mark of slot 2 was due. -/
def receiving (l : LinkState) (late : Int) : State :=
  let s := inLink l (synced 2 900)
  s.setLine { s.line with
    reception := some ⟨s.cycle.cycleStart + 712 + BitVec.ofInt 32 late, some ⟨s.cycle.cycleStart, 7, 2⟩⟩ }

theorem witness_Received (l : LinkState) (late : Int) :
    (receiving l late).line.reception =
        some ⟨(receiving l late).cycle.cycleStart + 712 + BitVec.ofInt 32 late,
          some ⟨(receiving l late).cycle.cycleStart, 7, 2⟩⟩ ∧
      (receiving l late).cycle.running = true ∧ (2 : Station) ≠ (receiving l late).own ∧
      (receiving l late).link.state = l := 
  ⟨rfl, rfl, show (2 : Station) ≠ 1 by decide, rfl⟩

theorem witness_Discarded :
    readReception (encodeHeader { header2 with length := 65 }) = .badLength ∧ readReception [1, 2, 3] = .badCheck ∧
      readReception (frameOf header2 [0x00]) = .intact { header2 with length := 1 } none ∧ header2.station = 2 ∧
      readReception (frameOf { header2 with station := 3 } []) = .intact { header2 with station := 3 } (some []) ∧
      (receiving .synced 0).link.state ≠ .listen := by decide +kernel

/-- A frame is being received in the own slot, in this link state. -/
def receivingOwn (l : LinkState) : State :=
  let s := inLink l (synced 1 500)
  s.setLine { s.line with reception := some ⟨s.cycle.cycleStart + 360, some ⟨s.cycle.cycleStart, 7, 1⟩⟩ }

theorem witness_OwnSlotFrames :
    (receivingOwn .integrate).line.reception =
        some ⟨(receivingOwn .integrate).cycle.cycleStart + 360, some ⟨(receivingOwn .integrate).cycle.cycleStart, 7, 1⟩⟩ ∧
      (receivingOwn .integrate).cycle.running = true ∧ (1 : Station) = (receivingOwn .integrate).own ∧
      (receivingOwn .integrate).link.state = .integrate ∧ (receivingOwn .synced).link.state ≠ .integrate ∧
      readReception (frameOf { header2 with station := 1 } []) = .intact { header2 with station := 1 } (some []) ∧
      readReception (frameOf header2 []) = .intact header2 (some []) ∧ header2.station ≠ 1 ∧
      (receivingOwn .off).link.state ≠ .listen ∧
      ((receivingOwn .off).setCycle { (receivingOwn .off).cycle with running := false }).cycle.running = false ∧
      (synced 1 500).line.reception = none ∧ (synced 1 500).line.ending = none ∧
      ((synced 1 352).setLine { (synced 1 352).line with ending := some ⟨656, some ⟨648, 7, 0⟩⟩ }).line.reception = none := by
  decide +kernel

/-- Both ends of the sync window, and an EVENT in the frame. -/
theorem witness_InWindow : ∀ late ∈ [(-32 : Int), 0, 32],
    readReception (frameOf header2 (encodeItem (.event 8 .rise 4 900))) =
        .intact { header2 with length := 7 } (some [.event 8 .rise 4 900]) ∧
      late = (((receiving .synced late).cycle.cycleStart + 712 + BitVec.ofInt 32 late) -
        ((receiving .synced late).cycle.cycleStart + BitVec.ofNat 32 (2 * (receiving .synced late).slotLength) +
          BitVec.ofNat 32 (Config.sendOffset (receiving .synced late).straps.rate))).toInt ∧
      -32 ≤ late ∧ late ≤ 32 ∧ header2.cycleNumber = 7 := by decide +kernel

/-- Just outside the sync window on either side; a cycle number that differs; and both ways of COLDSTART. -/
theorem witness_OutOfWindow : (∀ late ∈ [(-33 : Int), 33],
    late = (((receiving .coldstart late).cycle.cycleStart + 712 + BitVec.ofInt 32 late) -
        ((receiving .coldstart late).cycle.cycleStart + BitVec.ofNat 32 (2 * (receiving .coldstart late).slotLength) +
          BitVec.ofNat 32 (Config.sendOffset (receiving .coldstart late).straps.rate))).toInt ∧
      (late < -32 ∨ 32 < late)) ∧
    readReception (frameOf { header2 with coldstart := true, cycleNumber := 8 } []) =
      .intact { header2 with coldstart := true, cycleNumber := 8 } (some []) ∧
    (receiving .coldstart 0).own < header2.station ∧ (receiving .coldstart 0).link.state = .coldstart ∧
    header2.coldstart = false := by decide +kernel

/-- A frame is being received in LISTEN, its mark at line time 992. -/
def hearing : State := (listening 5).setLine { (listening 5).line with reception := some ⟨992, none⟩ }

theorem witness_Unadopted :
    hearing.line.reception = some ⟨992, none⟩ ∧ hearing.link.state = .listen ∧
      readReception (frameOf { header2 with station := 4 } []) = .intact { header2 with station := 4 } (some []) ∧
      hearing.stationCount ≤ 4 ∧
      readReception (frameOf { header2 with station := 1 } []) = .intact { header2 with station := 1 } (some []) ∧
      (1 : Station) = hearing.own := by decide +kernel

/-- The sender's cycle start 280 makes the step 0, 288 makes it 8 ticks, 312 makes it 32, and 313 makes it 33, the least
that empties the table; the frame carries an EVENT. -/
theorem witness_Adoption :
    readReception (frameOf header2 (encodeItem (.event 8 .rise 4 900))) =
        .intact { header2 with length := 7 } (some [.event 8 .rise 4 900]) ∧
      hearing.line.reception = some ⟨992, none⟩ ∧ hearing.link.state = .listen ∧
      header2.station.val < hearing.stationCount ∧ header2.station ≠ hearing.own ∧
      (∀ x ∈ [(280, 0), (288, 8), (312, 32), (313, 33)], (BitVec.ofNat 32 x.1 + BitVec.ofNat 32 (2 * hearing.slotLength) +
        BitVec.ofNat 32 (Config.sendOffset hearing.straps.rate) - 992 : Time).toInt = x.2) ∧
      32 < (33 : Time).toInt.natAbs ∧ (32 : Time).toInt.natAbs ≤ 32 ∧ (busy base).host.notices.length ≤ 32 :=
  by decide +kernel

theorem witness_Adoption_table : TableOk (busy base) ∧ ChannelsOk (busy base) := ⟨busy_tableOk, busy_channelsOk⟩

theorem witness_NewFlag :
    ((busy base).peer 2).newSeen = false ∧ ((busy base).peer 2).state = .unknown ∧
      (base.setPeer 2 { PeerRecord.reset with newSeen := true }).peer 2 = { PeerRecord.reset with newSeen := true } := by
  decide +kernel

theorem witness_NewFlag_restart :
    (losing.peer 2).newSeen = false ∧ (losing.peer 2).state ≠ .unknown ∧ ExchangeOk losing ∧ TableOk losing ∧
      ChannelsOk losing ∧ running ∈ losing.table ∧ running.origin = 2 ∧ running.bound = true ∧
      running.state = .running :=
  ⟨by decide +kernel, by decide +kernel, losing_exchangeOk, losing_tableOk, losing_channelsOk, by decide +kernel,
    rfl, rfl, rfl⟩

/-- An expected number that is absent, equal and different; a Pending record of the sender, of another station, and none; and
an item addressed elsewhere. -/
theorem witness_Items :
    (base.peer 2).expectedEvent = none ∧
      ((base.setPeer 2 { PeerRecord.reset with expectedEvent := some 255 }).peer 2).expectedEvent = some 255 ∧
      (255 : EventNumber) ≠ 0 ∧ (busy base).requestNumbered 9 = some record9 ∧ record9.target = 2 ∧
      record9.target ≠ 3 ∧ base.requestNumbered 9 = none ∧ (3 : Station) ≠ base.own := by decide +kernel

theorem witness_PinSample :
    base.inReset = false ∧ (base.pin 3).recognised = false ∧ (base.pin 3).hold = none ∧ (base.pin 3).settled = .low ∧
      ((base.setPin 3 { PinRecord.reset with level := .high, filter := 5, hold := some ⟨998, 2⟩ }).pin 3).recognised =
        false := by decide +kernel

/-- A hold at pin 3 that has lasted its filter, with this edge select and settled level. -/
def held (e : EdgeSelect) (l : Level) (filter : BitVec 8) : State :=
  base.setPin 3 { level := flipLevel l, edgeSelect := e, filter := filter, settled := l, hold := some ⟨990, filter.toNat⟩ }

theorem witness_Recognised : ∀ e ∈ [EdgeSelect.none, .rise, .fall, .both], ∀ l ∈ [Level.low, .high], ∀ f ∈ [0#8, 255#8],
    ((held e l f).pin 3).hold = some ⟨990, f.toNat⟩ ∧ ((held e l f).pin 3).filter.toNat ≤ f.toNat ∧
      ((held e l f).pin 3).edgeSelect = e ∧ ((held e l f).pin 3).settled = l := by decide +kernel

theorem witness_PinSample_recognised : (held .both .low 5).inReset = false ∧ State.reset.inReset = true ∧
    ((held .both .low 5).pin 3).recognised = true ∧
    ((after (exec (.edgeRecognised 3) (held .both .low 5))).pin 3).recognised = false := by decide +kernel

/-- A recognised edge of a broadcast pin in a transmitting state, with this many items in the send queue. -/
def heldBroadcast (waiting : Nat) : State :=
  let s := ((synced 2 800).setPin 3 ((held .both .low 5).pin 3)).setInputRecord 3 { InputRecord.reset with broadcast := true }
  s.setExchange { s.exchange with sendQueue := List.replicate waiting (.event 8 .rise 0 0) }

theorem witness_Recognised_broadcast :
    ((heldBroadcast 23).pin 3).hold = some ⟨990, 5⟩ ∧ ((heldBroadcast 23).inputRecord (inputOfPin 3)).broadcast = true ∧
      (heldBroadcast 23).link.state.transmits = true ∧ (heldBroadcast 23).exchange.sendQueue.length < 24 ∧
      24 ≤ (heldBroadcast 24).exchange.sendQueue.length ∧
      ((held .both .low 5).inputRecord (inputOfPin 3)).broadcast = false := by decide +kernel

/-- A broadcast input 15, and a send queue of this length. -/
def marking (waiting : Nat) : State :=
  let s := (synced 2 800).setInputRecord 15 { InputRecord.reset with broadcast := true }
  s.setExchange { s.exchange with sendQueue := List.replicate waiting (.event 8 .rise 0 0) }

theorem witness_Mark :
    base.takesCommands = true ∧ (base.inputRecord 8).broadcast = false ∧ (marking 23).takesCommands = true ∧
      ((marking 23).inputRecord 15).broadcast = true ∧ (marking 23).link.state.transmits = true ∧
      (marking 23).exchange.sendQueue.length < 24 ∧ 24 ≤ (marking 24).exchange.sendQueue.length ∧
      8 ≤ (8 : Input).val ∧ 8 ≤ (15 : Input).val := by decide +kernel

theorem witness_Edges :
    ((busy base).nextDueEdge 1000) = some { index := 0, kind := .finish, time := 1000 } ∧ (busy base).table.length = 5 := by
  decide +kernel

/-- A result of the station's own and one of a peer's, with room in the reply queue and without. -/
theorem witness_Results :
    pulse.report = true ∧ pulse.origin ≠ base.own ∧ { pulse with origin := 1 }.origin = base.own ∧
      base.exchange.replyQueue.length < 16 ∧ (List.replicate 16 (ReplyItem.reply 2 5 .accepted)).length = 16 := by
  decide +kernel

theorem witness_StartEdge_free :
    (withEntries [pulse] none .inactive base).nextDueEdge 1000 = some { index := 0, kind := .start, time := 1000 } ∧
      (withEntries [pulse] none .inactive base).entryAt 0 = some pulse ∧
      ((withEntries [pulse] none .inactive base).channel 4).owner = none := by decide +kernel

/-- Entry 1 owns the channel, for a hold, when entry 0 starts, with PREEMPT or without. -/
def contested (preempt : Bool) : State :=
  withEntries [{ pulse with preempt := preempt },
    { running with index := 1, number := 6, nextEdge := none, width := 0 }] (some 1) .active base

theorem witness_StartEdge_owned : ∀ p ∈ [false, true],
    (contested p).nextDueEdge 1000 = some { index := 0, kind := .start, time := 1000 } ∧
      (contested p).entryAt 0 = some { pulse with preempt := p } ∧
      ((contested p).channel pulse.channel).owner = some 1 ∧ (1 : Index) ≠ 0 ∧ pulse.event = none ∧
      (contested p).entryAt 1 = some { running with index := 1, number := 6, nextEdge := none, width := 0 } := by decide +kernel

/-- An EVENT entry that starts on a channel another owns, with these fires and this expiry. -/
def contestedEvent (fires : BitVec 8) (expiry : Option Time) (reached : Bool) : State :=
  withEntries [{ pulse with preempt := false, event := some { watch with fires := fires, expiry := expiry, expiryReached := reached } },
    { running with index := 1, number := 6, nextEdge := none, width := 0 }] (some 1) .active base

/-- Each count of fires where the clauses meet, an expiry just ahead and just reached, and one noted as reached. -/
theorem witness_StartEdge_event :
    ∀ s ∈ [contestedEvent 0 none false, contestedEvent 1 none false, contestedEvent 2 (some 1001) false,
        contestedEvent 2 (some 1000) false, contestedEvent 2 (some 900) true],
      (s.entryAt 0).any (fun e => e.event.isSome && !e.preempt) = true ∧ (s.channel 4).owner = some 1 := by decide +kernel

theorem witness_Train :
    pulse.train = none ∧ pulse.width ≠ 0 ∧ { pulse with width := 0 }.width = 0 ∧
      (withEntries [train] (some 0) .active base).entryAt 0 = some train ∧ train.train.isSome = true ∧
      train.followingStart = some 1050 ∧
      (withEntries [train.betweenPhases 1000] (some 0) .inactive base).nextDueEdge 1000 =
        some { index := 0, kind := .phase, time := 1000 } ∧
      (withEntries [train.betweenPhases 1000] (some 0) .inactive base).entryAt 0 = some (train.betweenPhases 1000) := by
  decide +kernel

/-- The counts of a TRAIN at which a start's clauses meet: unbounded, the last phase, and one before it. -/
theorem witness_Train_counts : ∀ tr ∈ [(⟨100, 0, 0, none⟩ : TrainPart), ⟨100, 3, 1, none⟩, ⟨100, 3, 2, none⟩],
    { pulse with train := some tr }.train = some tr ∧
      (tr.count = 0 ∨ (tr.count ≠ 0 ∧ tr.countRemaining = 1) ∨ (tr.count ≠ 0 ∧ 1 < tr.countRemaining.toNat)) := by decide +kernel

/-- A closing end of an EVENT entry with these fires and this expiry. -/
def closing (fires : BitVec 8) (expiry : Option Time) : State :=
  withEntries [{ running with event := some { watch with fires := fires, expiry := expiry } }] (some 0) .active base

theorem witness_ClosingEnd :
    (withEntries [running] (some 0) .active base).nextDueEdge 1000 =
        some { index := 0, kind := .finish, time := 1000 } ∧
      (withEntries [running] (some 0) .active base).entryAt 0 = some running ∧ running.followingStart = none ∧
      ((withEntries [running] (some 0) .active base).channel running.channel).owner = some 0 ∧ running.event = none := by
  decide +kernel

/-- Each count of fires where the clauses meet, and an expiry just ahead and just reached. -/
theorem witness_ClosingEnd_event : ∀ s ∈ [closing 0 none, closing 1 none, closing 2 (some 1001), closing 2 (some 1000)],
    s.nextDueEdge 1000 = some { index := 0, kind := .finish, time := 1000 } ∧ (s.channel 4).owner = some 0 := by
  decide +kernel

theorem witness_ClosingEnd_expiry : passed 1000 1000 = true ∧ passed 1001 1000 = false := by decide +kernel

/-- An armed entry whose expiry is reached, of this origin. -/
def expiring (origin : Station) : State :=
  withEntries [{ armed with origin := origin, event := some { watch with expiry := some 1000 } }] none .inactive base

theorem witness_TimeReaches_expiry : ∀ k ∈ [(1 : Station), 2],
    (expiring k).nextDueEdge 1000 = some { index := 0, kind := .expiry, time := 1000 } ∧
      (expiring k).entryAt 0 =
        some { armed with origin := k, event := some { watch with expiry := some 1000 } } ∧ armed.report = true := by decide +kernel

theorem witness_TimeReaches :
    (withEntries [{ armed with event := some { watch with armTime := 1000 - BitVec.ofNat 32 (2 ^ 30) } }] none .inactive
        base).entryAt 0 = some { armed with event := some { watch with armTime := 1000 - BitVec.ofNat 32 (2 ^ 30) } } ∧
      atOrAfter base.now (1000 - BitVec.ofNat 32 (2 ^ 30) + BitVec.ofNat 32 (2 ^ 30)) = true ∧
      (withEntries [{ running with nextEdge := none, width := 0, lastStart := some (1000 - BitVec.ofNat 32 (2 ^ 30)) }]
        (some 0) .active base).entryAt 0 =
          some { running with nextEdge := none, width := 0, lastStart := some (1000 - BitVec.ofNat 32 (2 ^ 30)) } ∧
      (closing 2 (some 1000)).entryAt 0 = some { running with event := some { watch with fires := 2, expiry := some 1000 } } ∧
      running.state ≠ .armed ∧ passed 1000 (closing 2 (some 1000)).now = true := by decide +kernel

/-- One watching entry with this policy, delay and number of fires. -/
def watching (l : LatePolicy) (delay : BitVec 24) (fires : BitVec 8) : State :=
  withEntries [{ armed with event := some { watch with latePolicy := l, delay := delay, fires := fires } }] none .inactive base

/-- A RISE of input 0 of station 2 at this line time. -/
def rise2 (stamp : Time) : Event := { station := 2, input := 0, edge := .rise, stamp := stamp }

/-- The due time lies 0, 1, 2^24 and 2^24 + 1 ticks ahead. -/
theorem witness_EventMeets_distances :
    ((990 : Time) + (10 : BitVec 24).setWidth 32 - base.now).toNat = 0 ∧
      ((990 : Time) + (11 : BitVec 24).setWidth 32 - base.now).toNat = 1 ∧
      ((1001 : Time) + (0xFFFFFF : BitVec 24).setWidth 32 - base.now).toNat = 2 ^ 24 ∧
      ((1002 : Time) + (0xFFFFFF : BitVec 24).setWidth 32 - base.now).toNat = 2 ^ 24 + 1 := by decide +kernel

theorem witness_EventMeets : ∀ l ∈ [LatePolicy.drop, .startNow, .rearm], ∀ f ∈ [0#8, 1#8, 2#8],
    (watching l 10 f).entryAt 0 =
        some { armed with event := some { watch with latePolicy := l, delay := 10, fires := f } } ∧
      watch.triggerStation = (rise2 990).station ∧ watch.triggerInput = (rise2 990).input ∧
      watch.triggerEdge = .rise ∧ (rise2 990).edge = .rise ∧ ((900 : Time) - watch.armTime).toNat = 0 ∧
      ((899 : Time) - watch.armTime).toNat ≥ 2 ^ 31 := by decide +kernel

/-- An entry that is not ARMED; and expiries under policy DROP: ahead, reached at the processing instant, and noted. -/
theorem witness_EventMeets_others :
    (busy base).entryAt 0 = some running ∧ running.state ≠ .armed ∧ passed 1000 base.now = true ∧
      passed 1001 base.now = false ∧ { watch with expiryReached := true }.expiryReached = true := by decide +kernel

/-- An entry of the station's own, which a local AMEND or CANCEL names. -/
def ownEntry : State := withEntries [{ armed with origin := 1 }] none .inactive base

/-- A hold of station 2 on channel 4, begun at 950. -/
def holding (aged : Bool) : Entry := { running with width := 0, nextEdge := none, aged := aged }

/-- A subject in each state: ARMED, SCHEDULED, a RUNNING PULSE, a hold, an aged one, and a TRAIN in and between its phases. -/
theorem witness_Amend :
    (withEntries [armed] none .inactive base).entryAt armed.index = some armed ∧ armed.state = .armed ∧
      armed.event = some watch ∧
      (withEntries [pulse] none .inactive base).entryAt pulse.index = some pulse ∧ pulse.state = .scheduled ∧
      pulse.nextEdge = some 1000 ∧ running.state = .running ∧ running.train = none ∧ running.nextEdge = some 1000 ∧
      (∀ b, (withEntries [holding b] (some 0) .active base).entryAt (holding b).index = some (holding b)) ∧
      (holding false).nextEdge = none ∧ (holding false).aged = false ∧ (holding false).lastStart = some 950 ∧
      0 < (1 : BitVec 24).toInt ∧ (0 : BitVec 24).toInt ≤ 0 ∧ (holding true).aged = true ∧
      (withEntries [train] (some 0) .active base).entryAt train.index = some train ∧ train.state = .running ∧
      train.active = true ∧ train.nextEdge = some 1000 ∧ (train.betweenPhases 1000).active = false ∧
      (train.betweenPhases 1000).train.isSome = true := by decide +kernel

/-- Deltas that leave the moved edge just ahead and just passed. -/
theorem witness_Amend_deltas :
    passed ((1000 : Time) + (1 : BitVec 24).signExtend 32) base.now = false ∧
      passed ((1000 : Time) + (0 : BitVec 24).signExtend 32) base.now = true ∧
      passed ((1000 : Time) + (0xFFFFFF : BitVec 24).signExtend 32) base.now = true ∧
      passed ((1050 : Time) + (0xFFFFCE : BitVec 24).signExtend 32) base.now = true ∧
      passed ((1050 : Time) + (0xFFFFCF : BitVec 24).signExtend 32) base.now = false := by decide +kernel

theorem witness_Cancel :
    (withEntries [running] (some 0) .active base).entryAt running.index = some running ∧
      ((withEntries [running] (some 0) .active base).channel running.channel).owner = some running.index ∧
      (withEntries [armed] none .inactive base).entryAt armed.index = some armed ∧
      ((withEntries [armed] none .inactive base).channel armed.channel).owner ≠ some armed.index ∧
      ownEntry.entryAt 0 = some { armed with origin := 1 } ∧ armed.report = true ∧ ownEntry.own = 1 := by decide +kernel

/-- An ORDER of a PULSE on channel 4 with this basis. -/
def orderOf (b : BasisFields) : OrderFields :=
  { channel := 4, preempt := false, bound := false, report := false, width := 50, train := none, basis := b }

/-- Distances where the clauses of R93 meet, with the minimum lead 1000. -/
theorem witness_Timing :
    base.exchange.minLead.toNat = 1000 ∧
      ((1000 : Time) - base.now).toNat = 0 ∧ ((1999 : Time) - base.now).toNat = 999 ∧
      ((2000 : Time) - base.now).toNat = 1000 ∧ ((0x400003E8 : Time) - base.now).toNat = 2 ^ 30 ∧
      ((0x400003E9 : Time) - base.now).toNat = 2 ^ 30 + 1 ∧ ((0x800003E7 : Time) - base.now).toNat = 2 ^ 31 - 1 ∧
      ((0x800003E8 : Time) - base.now).toNat = 2 ^ 31 ∧ (orderOf (.absolute 2000)).basis = .absolute 2000 := by decide +kernel

/-- Each of the conditions of R86, and the permits of R88, with an ORDER that meets none of them. -/
theorem witness_Judged :
    (12 : Fin 16).val = 12 ∧ (11 : Fin 16).val < 12 ∧ (4 : Station).val ≥ base.stationCount ∧ (4 : Station) ≠ base.own ∧
      pulse ∈ (withEntries [pulse] none .inactive base).table ∧ pulse.origin = 2 ∧ pulse.number = 5 ∧
      (orderOf (.absolute 2000)).channel.val = (4 : ChannelNumber).val ∧ (2 : Station) ≠ base.own ∧
      (base.exchange.permit.get 2).get 4 = .deny ∧
      judgeTiming base (orderOf (.absolute 2000)) = none ∧ judgeTiming base (orderOf (.absolute 1999)) = some .late ∧
      base.table.length < 48 ∧
      (withEntries (List.replicate 48 pulse) none .inactive base).table.length = 48 ∧
      (busy base).entryNamed 2 5 = some running ∧ (busy base).entryNamed 2 6 =
        some { armed with index := 1, number := 6, channel := 5, preempt := false } ∧
      (∀ e ∈ base.table, ¬(e.origin = 2 ∧ e.number = 5)) := by decide +kernel

/-- The bounds of a delay under an AMEND, and of the distance of a moved edge. -/
theorem witness_Judged_amend :
    (0 : Int) = ((100 : BitVec 24).toNat : Int) + (0xFFFF9C : BitVec 24).toInt ∧
      (16777215 : Int) = ((0xFFFFFE : BitVec 24).toNat : Int) + (1 : BitVec 24).toInt ∧
      ((1000 : Time) + BitVec.ofNat 32 (2 ^ 30 + 2 ^ 24 - 1) + (1 : BitVec 24).signExtend 32 - base.now).toNat =
        2 ^ 30 + 2 ^ 24 ∧
      ((1000 : Time) + BitVec.ofNat 32 (2 ^ 30 + 2 ^ 24) + (1 : BitVec 24).signExtend 32 - base.now).toNat =
        2 ^ 30 + 2 ^ 24 + 1 := by decide +kernel

/-- Announced, with a reply queue and a reply cache of station 2 of these lengths. -/
def accepting (replies records : Nat) : State :=
  let s := synced 2 900
  setCacheOf 2 ((List.range records).map fun n => ⟨BitVec.ofNat 12 n, .full, 9⟩)
    (s.setExchange { s.exchange with replyQueue := List.replicate replies (.reply 0 0 .full) })

theorem witness_Request :
    base.link.announced = false ∧ 16 ≤ (accepting 16 0).exchange.replyQueue.length ∧
      (accepting 15 8).link.announced = true ∧ (accepting 15 8).exchange.replyQueue.length < 16 ∧
      (accepting 15 8).cachedCode 2 7 = some .full ∧ (accepting 15 8).cachedCode 2 8 = none ∧
      8 ≤ ((accepting 15 8).cacheOf 2).length ∧ (accepting 15 7).cachedCode 2 8 = none ∧
      ((accepting 15 7).cacheOf 2).length < 8 ∧
      judgeRequest (accepting 15 7) 2 8 (.cancel 1) = .notFound := by decide +kernel

/-- As `accepting 15 7`, with every permit at PREEMPT and an ARMED entry of station 2. -/
def granting : State :=
  let s := withEntries [armed] none .inactive (accepting 15 7)
  s.setExchange { s.exchange with permit := Vector.replicate 16 (Vector.replicate 12 .preempt) }

theorem witness_Request_effect :
    granting.link.announced = true ∧ granting.cachedCode 2 8 = none ∧
      judgeRequest granting 2 8 (.order (orderOf (.absolute 2000))) = .accepted ∧
      judgeRequest granting 2 8 (.amend 5 1) = .accepted ∧ judgeRequest granting 2 8 (.cancel 5) = .accepted := by
  decide +kernel

theorem witness_NewEntry :
    (orderOf (.absolute 2000)).basis = .absolute 2000 ∧ (orderOf (.absolute 2000)).channel.val < 12 ∧
      (orderOf (.event ⟨0, 2, 0, 2, 100, 1, none⟩)).basis = .event ⟨0, 2, 0, 2, 100, 1, none⟩ := by decide +kernel

theorem witness_LocalRequest :
    ownEntry.takesCommands = true ∧
      parseSubmit (encodeRequest 1 0 (.order (orderOf (.absolute 2000)))) =
        some (ownEntry.own, .order (orderOf (.absolute 2000))) ∧
      judgeRequest ownEntry ownEntry.own ownEntry.nextNumber (.order (orderOf (.absolute 2000))) = .accepted ∧
      parseSubmit (encodeRequest 1 0 (.order (orderOf (.absolute 1000)))) =
        some (ownEntry.own, .order (orderOf (.absolute 1000))) ∧
      judgeRequest ownEntry ownEntry.own ownEntry.nextNumber (.order (orderOf (.absolute 1000))) = .late ∧
      parseSubmit (encodeRequest 1 0 (.amend 5 3)) = some (ownEntry.own, .amend 5 3) ∧
      judgeRequest ownEntry ownEntry.own ownEntry.nextNumber (.amend 5 3) = .accepted ∧
      parseSubmit (encodeRequest 1 0 (.cancel 5)) = some (ownEntry.own, .cancel 5) ∧
      judgeRequest ownEntry ownEntry.own ownEntry.nextNumber (.cancel 5) = .accepted := by decide +kernel

/-- SYNCED with this many Pending records, split between stations 2 and 3, and this many items in the send queue. -/
def submitting (to2 to3 waiting : Nat) : State :=
  let s := synced 2 900
  s.setExchange { s.exchange with
    requests := (List.range to2).map (fun n => { record9 with number := BitVec.ofNat 12 n }) ++
      (List.range to3).map (fun n => { record9 with number := BitVec.ofNat 12 (100 + n), target := 3 })
    sendQueue := List.replicate waiting (.event 8 .rise 0 0) }

/-- With 16 records, 8 of which hold the numbers from the counter on. -/
theorem witness_LocalRequest_number :
    (submitting 8 8 0).exchange.requests.length ≤ 16 ∧ (submitting 8 8 0).exchange.counter = 0 ∧
      (submitting 8 8 0).nextNumber = 8 := by decide +kernel

theorem witness_PeerSubmit :
    (submitting 0 0 0).takesCommands = true ∧ parseSubmit [0x42, 0, 0, 0, 0x10] = some (2, .cancel 1) ∧
      (2 : Station) ≠ (submitting 0 0 0).own ∧ parseSubmit [0x44, 0, 0, 0, 0x10] = some (4, .cancel 1) ∧
      (submitting 0 0 0).stationCount ≤ 4 ∧ 2 < (submitting 0 0 0).stationCount ∧ base.link.state.transmits = false ∧
      (submitting 0 0 0).link.state.transmits = true ∧ 16 ≤ (submitting 8 8 0).exchange.requests.length ∧
      (submitting 8 7 0).exchange.requests.length < 16 ∧ 8 ≤ ((submitting 8 7 0).requestsTo 2).length ∧
      ((submitting 7 8 24).requestsTo 2).length < 8 ∧ (submitting 7 8 24).exchange.requests.length < 16 ∧
      24 ≤ (submitting 7 8 24).exchange.sendQueue.length ∧ (submitting 7 8 23).exchange.sendQueue.length < 24 := by decide +kernel

theorem witness_Miso :
    base.misoDriven = true ∧ base.host.held = [0x01] ++ 0x00 :: [] ∧ (riseCsn base).misoDriven = false ∧
      base.host.held.length ≤ 2 := by decide +kernel

theorem witness_Transactions :
    (riseCsn base).host.transaction = .idle ∧ (riseCsn base).inReset = false ∧
      State.reset.host.transaction = .idle ∧ State.reset.inReset = true ∧ Instr.isHostCommand .nop = true ∧
      State.reset.takesCommands = false := by decide +kernel

theorem witness_Reads : base.takesCommands = true ∧ (1 : Station) = base.own ∧ (2 : Station) ≠ base.own ∧
    base.entryAt 0 = none ∧ (busy base).entryAt 0 = some running ∧ (7 : Input) = inputOfPin 7 ∧ 8 ≤ (8 : Input).val := by
  decide +kernel

/-- One argument list at each bound that a form check has. -/
theorem witness_Malformed :
    base.takesCommands = true ∧ 48 ≤ (48 : Byte).toNat ∧ 16 ≤ (16 : Byte).toNat ∧ (7 : Byte).toNat < 8 ∧
      parseSubmit [0x52, 0, 0] = none ∧ [0x02, 0x15, 0x00].length < 4 ∧ (1 : Byte).toNat = base.own.val ∧
      (0xC0 : Byte).extractLsb' 6 2 = 3#2 ∧ (0x03 : Byte).extractLsb' 0 2 = 3#2 ∧ [0x00, 0x40].length < 3 ∧
      [0x0F].length < 2 ∧ (0x10 : Byte).extractLsb' 4 4 ≠ 0#4 := by decide +kernel

theorem witness_Init :
    base.takesCommands = true ∧ base.link.state = .off ∧ (2 : Station) ≠ base.own ∧
      (∀ n : ChannelNumber, ((0x15 : Byte) ++ (0x00 : Byte) ++ (0x02 : Byte)).extractLsb' (22 - 2 * n.val) 2 ≠ 3) ∧
      ((0x0F : Byte) ++ (0xFF : Byte)).extractLsb' 12 4 = 0#4 ∧
      (∃ e ∈ (withEntries [pulse] none .inactive base).table,
        ((withEntries [pulse] none .inactive base).channel e.channel).idle ≠
          if ((0x0F : Byte) ++ (0xFF : Byte)).getLsbD e.channel.val then .high else .low) ∧
      (∀ e ∈ base.table, (base.channel e.channel).idle = .high) ∧ 8 ≤ (8 : Input).val ∧ (listening 5).takesCommands = true ∧
      (listening 5).link.state ≠ .off := by decide +kernel

/-- START from OFF at the least and the greatest legal straps, and at straps just outside. -/
theorem witness_Start :
    base.takesCommands = true ∧ base.link.state = .off ∧
      (∀ x ∈ [(⟨1, 1, 3⟩ : Straps), ⟨15, 15, 3⟩],
        2 ≤ { base with straps := x }.stationCount ∧ { base with straps := x }.own.val < { base with straps := x }.stationCount) ∧
      { base with straps := ⟨0, 0, 3⟩ }.stationCount < 2 ∧
      { base with straps := ⟨2, 1, 3⟩ }.stationCount ≤ { base with straps := ⟨2, 1, 3⟩ }.own.val := by decide +kernel

theorem witness_Stop :
    losing.takesCommands = true ∧ losing.link.state ≠ .off ∧ TableOk losing ∧ ChannelsOk losing ∧
      (∃ e ∈ losing.table, e.origin ≠ losing.own ∧ e.state = .running ∧ e.channel = 4) ∧
      (∀ e ∈ losing.table, e.origin ≠ losing.own → e.state = .running → e.channel ≠ 5) ∧
      losing.host.notices.length < 32 ∧ base.link.state = .off :=
  ⟨by decide +kernel, by decide +kernel, losing_tableOk, losing_channelsOk, by decide +kernel⟩

/-- A notice, and a notice queue of this length with this lost count. -/
def aNotice : Notice := { kind := .step, time := 5, station := none, number := none, code := 0, value := some 3 }

def noticed (n lost : Nat) : State :=
  base.setHost { base.host with notices := List.replicate n aNotice, lost := lost }

theorem witness_NoticeJoins :
    (noticed 31 0).host.notices.length < 32 ∧ 32 ≤ (noticed 32 0).host.notices.length := by decide +kernel

theorem witness_NoticePops :
    (noticed 32 4).takesCommands = true ∧ (noticed 32 4).host.notices.length ≤ 32 ∧
      (noticed 32 4).host.notices = aNotice :: List.replicate 31 aNotice ∧ 0 < (noticed 32 4).host.lost ∧
      (noticed 1 0).host.lost = 0 ∧ (noticed 0 0).host.notices = [] := by decide +kernel

/-- A payload of exactly 64 bytes: eight RESULTs with a last start. -/
theorem witness_BuiltFrame :
    ((List.replicate 8 (Item.result 2 5 .completed (some 1))).flatMap encodeItem).length = 64 := by decide +kernel

theorem witness_HostBytes :
    (Instr.submitPeer [0x42]).wellFormed = true ∧ hostBytes 1 (.submitPeer [0x42]) = some [0x05, 0x42] := by decide +kernel

theorem witness_StepKeeps_notices : NoticesOk (noticed 32 4) ∧ ∃ t, step (noticed 32 4) = .next t :=
  ⟨by unfold NoticesOk; decide, _, rfl⟩

theorem witness_StepKeeps_exchange : ExchangeOk losing ∧ ∃ t, step losing = .next t :=
  ⟨by unfold ExchangeOk RequestRecord.Ok; decide, _, rfl⟩

theorem witness_StepKeeps_table : TableOk losing ∧ ChannelsOk losing ∧ ∃ t, step losing = .next t :=
  ⟨by unfold TableOk Entry.Ok; decide, by unfold ChannelsOk; decide, _, rfl⟩

theorem witness_StepKeeps_link : LinkOk losing ∧ ∃ t, step losing = .next t := by
  refine ⟨⟨by unfold LinkUnit.Ok; decide, by unfold GridOk; decide, by unfold SamplesOk; decide,
    ⟨by decide +kernel, by decide +kernel, by decide +kernel, fun n h => nomatch h⟩, by decide +kernel, by decide +kernel⟩, _, rfl⟩

theorem witness_StepKeeps_pins :
    PinsOk losing ∧ MembersOk losing ∧ ∃ t, step losing = .next t := by
  refine ⟨by unfold PinsOk PinRecord.Ok; decide, fun k => ?_, _, rfl⟩
  have h : ∀ k : Station, losing.peer k = PeerRecord.reset ∨
      losing.peer k = { PeerRecord.reset with state := .missing, misses := 3 } := by decide +kernel
  rcases h k with e | e <;> rw [e] <;> simp [PeerRecord.Ok, PeerState.missesOk, deviationOk, PeerRecord.reset]

end Sys2Proof.Tests
end

