-- ==== Sys2Proof/Proofs/Correction.lean ====
section
/-! The correction of a cycle end (R11): the value each removal picks, what is left of the samples, their mean and its clamp. -/

namespace Sys2Proof.Machine

/-! ### The removed samples -/

/-- The scan can only end at a member that nothing is worse than, because two values of which neither is worse are one. -/
theorem extreme_eq_of_forall_not_worse {worse : Int → Int → Bool}
    (eq_of_tie : ∀ a b, worse a b = false → worse b a = false → a = b) {v m : Int} {xs : List Int}
    (hv : v ∈ m :: xs) (hworst : ∀ x ∈ m :: xs, worse x v = false) : extreme worse m xs = v := by
  induction xs generalizing m with
  | nil => exact (List.mem_singleton.mp hv).symm
  | cons x xs ih =>
    obtain ⟨hm, hx, hxs⟩ : worse m v = false ∧ worse x v = false ∧ ∀ y ∈ xs, worse y v = false := by
      simpa using hworst
    cases hxm : worse x m
    case true =>
      have hvm : v ≠ m := by
        rintro rfl
        simp [hx] at hxm
      have hmem : v ∈ x :: xs := (List.mem_cons.mp hv).resolve_left hvm
      simpa [extreme, hxm] using ih hmem (by simpa using ⟨hx, hxs⟩)
    case false =>
      have hmem : v ∈ m :: xs := by
        rcases List.mem_cons.mp hv with rfl | hv
        · exact List.mem_cons_self
        · rcases List.mem_cons.mp hv with rfl | hv
          · exact eq_of_tie _ _ hxm hm ▸ List.mem_cons_self
          · exact List.mem_cons_of_mem _ hv
      simpa [extreme, hxm] using ih hmem (by simpa using ⟨hm, hxs⟩)

/-- The first removal takes the largest deviation. -/
theorem extreme_lt_eq_of_forall_le {hi d : Int} {ds : List Int} (hmem : hi ∈ d :: ds) (hle : ∀ x ∈ d :: ds, x ≤ hi) :
    extreme (fun a b => decide (b < a)) d ds = hi :=
  extreme_eq_of_forall_not_worse (fun a b hab hba => by simp at hab hba; omega) hmem
    fun x hx => by simpa using hle x hx

/-- The second removal takes the smallest deviation. -/
theorem extreme_gt_eq_of_forall_ge {lo d : Int} {ds : List Int} (hmem : lo ∈ d :: ds) (hge : ∀ x ∈ d :: ds, lo ≤ x) :
    extreme (fun a b => decide (a < b)) d ds = lo :=
  extreme_eq_of_forall_not_worse (fun a b hab hba => by simp at hab hba; omega) hmem
    fun x hx => by simpa using hge x hx

/-! ### What is left of the samples -/

theorem trimmed_of_length_le_two {ds : List Int} (h : ds.length ≤ 2) : trimmed ds = ds := by
  cases ds with
  | nil => rfl
  | cons d rest => exact if_neg (by omega)

/-- Which of several equal extremes goes does not matter: what stays is the same up to order. -/
theorem trimmed_perm {hi lo : Int} {ds rest : List Int} (hlen : 3 ≤ ds.length) (hperm : ds.Perm (hi :: lo :: rest))
    (hbounds : ∀ x ∈ ds, lo ≤ x ∧ x ≤ hi) : (trimmed ds).Perm rest := by
  cases ds with
  | nil => simp at hlen
  | cons d tail =>
    have hmax := extreme_lt_eq_of_forall_le (hperm.mem_iff.mpr (by simp)) fun x hx => (hbounds x hx).2
    have hmin := extreme_gt_eq_of_forall_ge (hperm.mem_iff.mpr (by simp)) fun x hx => (hbounds x hx).1
    have hleft : (((d :: tail).erase hi).erase lo).Perm rest := by
      simpa using (hperm.erase hi).erase lo
    simpa only [trimmed, if_pos hlen, hmax, hmin] using hleft

/-! ### The mean and its clamp -/

/-- The mean of no samples needs no case of its own: `tdiv` by 0 is 0. -/
theorem truncatedMean_eq_tdiv (ds : List Int) : truncatedMean ds = ds.sum.tdiv ds.length := by
  cases ds <;> simp [truncatedMean]

theorem truncatedMean_eq_of_perm {ds es : List Int} (h : ds.Perm es) : truncatedMean ds = truncatedMean es := by
  simp only [truncatedMean_eq_tdiv, h.sum_eq, h.length_eq]

theorem clampCorrection_bounds (c : Int) : -16 ≤ clampCorrection c ∧ clampCorrection c ≤ 16 := by
  simp only [clampCorrection, Config.clamp]
  omega

theorem correction_of_length_le_two {samples : List Sample} (h : samples.length ≤ 2) :
    correction samples =
      max (-16) (min 16 ((samples.map Sample.deviation).sum.tdiv (samples.length : Int))) := by
  rw [correction, trimmed_of_length_le_two (by simpa using h), truncatedMean_eq_tdiv, List.length_map]
  rfl

theorem correction_of_three_le_length {hi lo : Int} {rest : List Int} {samples : List Sample}
    (hlen : 3 ≤ samples.length) (hperm : (samples.map Sample.deviation).Perm (hi :: lo :: rest))
    (hbounds : ∀ x ∈ samples, lo ≤ x.deviation ∧ x.deviation ≤ hi) :
    correction samples = max (-16) (min 16 (rest.sum.tdiv ((samples.length : Int) - 2))) := by
  have htrimmed : (trimmed (samples.map Sample.deviation)).Perm rest :=
    trimmed_perm (by simpa using hlen) hperm (by simpa using hbounds)
  have hrest : (samples.length : Int) - 2 = rest.length := by
    have hcount := hperm.length_eq
    simp only [List.length_map, List.length_cons] at hcount
    omega
  rw [correction, truncatedMean_eq_of_perm htrimmed, truncatedMean_eq_tdiv, hrest]
  rfl

/-! ### The step -/

theorem cycleStep_bounds (samples : List Sample) : -16 ≤ cycleStep samples ∧ cycleStep samples ≤ 16 := by
  obtain ⟨hlow, hhigh⟩ : -16 ≤ correction samples ∧ correction samples ≤ 16 := clampCorrection_bounds _
  simp only [cycleStep]
  omega

theorem stepAtCycleEnd_zero (s : State) : stepAtCycleEnd 0 s = s := if_pos rfl

/-- Settles O15: no sample or up to two of them are averaged as they are; from three on the two removals leave the given
rest up to order, which has the same sum and two samples fewer. -/
theorem correctionIsTheClampedTrimmedMean : Obligations.CorrectionIsTheClampedTrimmedMean := by
  intro samples
  refine ⟨fun hnone => ?_, fun _ htwo => correction_of_length_le_two htwo,
    fun _ _ _ hlen hperm hbounds => correction_of_three_le_length hlen hperm hbounds, rfl,
    (cycleStep_bounds samples).1, (cycleStep_bounds samples).2, fun hzero s => ?_⟩
  · rw [List.length_eq_zero_iff.mp hnone]
    rfl
  · rw [hzero, stepAtCycleEnd_zero]

end Sys2Proof.Machine
end

