-- ==== Sys2Proof/Proofs/Membership.lean ====
section
/-! The Membership Table: what a detected restart removes, block by block (R63, R64), and what a read of a record reports
and clears (R60, R185). -/

namespace Sys2Proof.Machine

-- One thread for the whole file: its many small proofs would otherwise each take a thread's memory.
set_option Elab.async false

/-! ### Pending records that fail together (R167, R168) -/

theorem SendItem.not_isCopyOf (i : SendItem) (n : RequestNumber) : (!i.isCopyOf n) = (i.requestNumber != some n) := by
  cases i <;> rfl

theorem failRequest_exchange (why : FailReason) (r : RequestRecord) (s : State) :
    (failRequest why r s).exchange = { s.exchange with
      requests := s.exchange.requests.filter fun x => x.number != r.number
      sendQueue := s.exchange.sendQueue.filter fun i => i.requestNumber != some r.number } := by
  simp [failRequest, removeRequest, SendItem.not_isCopyOf]

theorem failEach_exchange (why : FailReason) (rs : List RequestRecord) (s : State) :
    (failEach why rs s).exchange = { s.exchange with
      requests := s.exchange.requests.filter fun x => rs.all fun r => x.number != r.number
      sendQueue := s.exchange.sendQueue.filter fun i => rs.all fun r => i.requestNumber != some r.number } := by
  induction rs generalizing s with
  | nil => simp [failEach]
  | cons r rs ih =>
    have hfold : failEach why (r :: rs) s = failEach why rs (failRequest why r s) := rfl
    rw [hfold, ih, failRequest_exchange]
    simp only [List.filter_filter, List.all_cons, Bool.and_comm]

/-- The failures reach the Host Port as their notices alone, at one line time. -/
theorem failEach_host (why : FailReason) (rs : List RequestRecord) {s u v : State} (hcycle : u.cycle = s.cycle)
    (hhost : u.host = v.host) :
    (failEach why rs u).host = (rs.foldl (fun w r => queueNotice
      (s.noticeNow .failed (some r.target) (some r.number) why.code none) w) v).host := by
  induction rs generalizing u v with
  | nil => exact hhost
  | cons r rs ih =>
    have hnotice : (removeRequest r.number u).noticeNow .failed (some r.target) (some r.number) why.code none =
        s.noticeNow .failed (some r.target) (some r.number) why.code none := by
      simp only [State.noticeNow, State.now, (changes_removeRequest r.number u).cycle_eq, hcycle]
    refine ih (u := failRequest why r u) ((changes_failRequest why r u).cycle_eq.trans hcycle) ?_
    rw [failRequest, hnotice]
    exact queueNotice_host_congr _ hhost

/-- A Pending record stays where no record of this target has its number: no number is held twice. -/
theorem filter_number_requestsTo {s : State} (k : Station)
    (hnodup : (s.exchange.requests.map fun r => r.number).Nodup) :
    (s.exchange.requests.filter fun x => (s.requestsTo k).all fun r => x.number != r.number) =
      s.exchange.requests.filter fun x => x.target != k := by
  refine List.filter_congr fun x hx => ?_
  rw [Bool.eq_iff_iff]
  simp only [State.requestsTo, List.all_filter, List.all_eq_true, bne_iff_ne, ne_eq, Bool.or_eq_true,
    Bool.not_eq_true', beq_eq_false_iff_ne]
  constructor
  · intro hall htarget
    rcases hall x hx with hne | hne
    · exact hne htarget
    · exact hne rfl
  · intro hne r hr
    by_cases heq : x.number = r.number
    · exact .inl fun htarget => hne (List.inj_on_of_nodup_map hnodup hx hr heq ▸ htarget)
    · exact .inr heq

/-! ### Entries that leave together (R127, R131, R146) -/

theorem leaveSilently_table (e : Entry) (s : State) :
    (leaveSilently e s).table = s.table.filter fun x => x.index != e.index := by
  simp only [leaveSilently, dropEntry, State.setTable_table, (changes_releaseChannel e.channel e.index s).table_eq]

theorem leaveSilently_channel (e : Entry) (s : State) (c : ChannelNumber) :
    (leaveSilently e s).channel c =
      if e.channel = c ∧ (s.channel c).owner = some e.index then
        { s.channel c with owner := none, phase := .inactive }
      else s.channel c := by
  simp only [leaveSilently, dropEntry, State.setTable_channel]
  by_cases howner : (s.channel e.channel).owner = some e.index
  · rw [releaseChannel_owner howner, State.channel_setChannel]
    by_cases hc : c = e.channel
    · simp [hc, howner]
    · simp [hc, Ne.symm hc]
  · rw [releaseChannel_other howner, if_neg]
    rintro ⟨rfl, h⟩
    exact howner h

theorem leaveEach_leaveSilently_table (es : List Entry) (s : State) :
    (leaveEach es leaveSilently s).table = s.table.filter fun x => es.all fun e => x.index != e.index := by
  induction es generalizing s with
  | nil => simp [leaveEach]
  | cons e es ih =>
    have hfold : leaveEach (e :: es) leaveSilently s = leaveEach es leaveSilently (leaveSilently e s) := rfl
    rw [hfold, ih, leaveSilently_table]
    simp only [List.filter_filter, List.all_cons, Bool.and_comm]

/-- A channel that one of them owns is freed, once; every other channel stays. -/
theorem leaveEach_leaveSilently_channel (es : List Entry) (s : State) (c : ChannelNumber) :
    (leaveEach es leaveSilently s).channel c =
      if ∃ e ∈ es, e.channel = c ∧ (s.channel c).owner = some e.index then
        { s.channel c with owner := none, phase := .inactive }
      else s.channel c := by
  induction es generalizing s with
  | nil => simp [leaveEach]
  | cons e es ih =>
    have hfold : leaveEach (e :: es) leaveSilently s = leaveEach es leaveSilently (leaveSilently e s) := rfl
    rw [hfold, ih, leaveSilently_channel]
    by_cases hfirst : e.channel = c ∧ (s.channel c).owner = some e.index
    · simp [hfirst]
    · simp [hfirst]

/-! ### The BOUND entries of a restarted origin (R131) -/

theorem Entry.boundTo_iff (k : Station) (e : Entry) : e.boundTo k = true ↔ e.origin = k ∧ e.bound = true := by
  simp [Entry.boundTo]

theorem TableOk.eq_of_index {s : State} (h : TableOk s) {x e : Entry} (hx : x ∈ s.table) (he : e ∈ s.table)
    (hindex : x.index = e.index) : x = e := by
  obtain ⟨hindices, -, -⟩ := h
  exact List.inj_on_of_nodup_map hindices hx he hindex

/-- The owner of a channel is the RUNNING entry of that channel with its index. -/
theorem ChannelsOk.owner_iff {s : State} (h : ChannelsOk s) (htable : TableOk s) {e : Entry} (he : e ∈ s.table)
    (c : ChannelNumber) : (s.channel c).owner = some e.index ↔ e.state = .running ∧ e.channel = c := by
  obtain ⟨hrunning, howned, -⟩ := h
  constructor
  · intro howner
    obtain ⟨x, hx, hindex, hstate, hchannel⟩ := howned c e.index howner
    exact htable.eq_of_index hx he hindex ▸ ⟨hstate, hchannel⟩
  · rintro ⟨hstate, rfl⟩
    exact (hrunning e he hstate).1

theorem removeBound_table {s : State} (k : Station) (htable : TableOk s) :
    (removeBound k s).table = s.table.filter fun e => !(e.origin == k && e.bound) := by
  rw [removeBound, leaveEach_leaveSilently_table]
  refine List.filter_congr fun x hx => ?_
  change _ = !x.boundTo k
  cases hbound : x.boundTo k with
  | true =>
    exact List.all_eq_false.mpr ⟨x, List.mem_filter.mpr ⟨hx, hbound⟩, by simp⟩
  | false =>
    refine List.all_eq_true.mpr fun e he => bne_iff_ne.mpr fun hindex => ?_
    obtain ⟨he, hleaves⟩ := List.mem_filter.mp he
    rw [htable.eq_of_index hx he hindex, hleaves] at hbound
    exact absurd hbound (by decide)

theorem removeBound_channel {s : State} (k : Station) (htable : TableOk s) (hchannels : ChannelsOk s)
    (c : ChannelNumber) :
    (removeBound k s).channel c =
      if ∃ e ∈ s.table, e.origin = k ∧ e.bound = true ∧ e.state = .running ∧ e.channel = c then
        { s.channel c with owner := none, phase := .inactive }
      else s.channel c := by
  rw [removeBound, leaveEach_leaveSilently_channel]
  refine if_congr (exists_congr fun e => ?_) rfl rfl
  rw [List.mem_filter, Entry.boundTo_iff]
  constructor
  · rintro ⟨⟨he, horigin, hbound⟩, hchannel, howner⟩
    exact ⟨he, horigin, hbound, ((hchannels.owner_iff htable he c).mp howner).1, hchannel⟩
  · rintro ⟨he, horigin, hbound, hrunning, hchannel⟩
    exact ⟨⟨he, horigin, hbound⟩, hchannel, (hchannels.owner_iff htable he c).mpr ⟨hrunning, hchannel⟩⟩

/-! ### A detected restart (R64), block by block -/

section
variable (k : Station) (s : State)

/-- The Request Exchange forgets a restarted peer: its cache records go, and the records Pending there fail. -/
def forgetPeer : State := failEach .peerRestarted (s.requestsTo k) (setCacheOf k [] s)

theorem changes_forgetPeer : Changes [.exchange, .host] s (forgetPeer k s) :=
  (changes_setCacheOf k [] s).then (changes_failEach _ _ _)

theorem forgetPeer_channel (c : ChannelNumber) : (forgetPeer k s).channel c = s.channel c :=
  congrArg (·.get c) (changes_forgetPeer k s).channels_eq

theorem forgetPeer_tableOk {s : State} (h : TableOk s) : TableOk (forgetPeer k s) := by
  rwa [TableOk, (changes_forgetPeer k s).table_eq]

theorem forgetPeer_channelsOk {s : State} (h : ChannelsOk s) : ChannelsOk (forgetPeer k s) := by
  simpa only [ChannelsOk, (changes_forgetPeer k s).table_eq, forgetPeer_channel] using h

theorem forgetPeer_cacheOf (j : Station) : (forgetPeer k s).cacheOf j = if j = k then [] else s.cacheOf j := by
  rw [State.cacheOf, forgetPeer, failEach_exchange]
  exact State.cacheOf_setCacheOf s k j []

theorem forgetPeer_exchange {s : State} (hnodup : (s.exchange.requests.map fun r => r.number).Nodup) :
    (forgetPeer k s).exchange = { s.exchange with
      requests := s.exchange.requests.filter fun r => r.target != k
      sendQueue := s.exchange.sendQueue.filter fun i => (s.requestsTo k).all fun r => i.requestNumber != some r.number
      cache := (forgetPeer k s).exchange.cache } := by
  rw [forgetPeer, failEach_exchange, ← filter_number_requestsTo k hnodup]
  rfl

theorem forgetPeer_host :
    (forgetPeer k s).host = ((s.requestsTo k).foldl (fun u r => queueNotice
      { kind := .failed, time := s.now, station := some k, number := some r.number, code := 2, value := none } u)
      s).host := by
  rw [forgetPeer, failEach_host (s := s) (u := setCacheOf k [] s) (v := s) .peerRestarted _ rfl rfl]
  refine congrArg State.host (List.foldl_ext _ _ _ fun u r hr => ?_)
  have htarget : r.target = k := by simpa using (List.mem_filter.mp hr).2
  rw [htarget]
  rfl

/-- R64 in three parts: the Request Exchange, the BOUND entries, and the expected event number. -/
theorem restartCascade_eq :
    restartCascade k s =
      (removeBound k (forgetPeer k s)).setPeer k { s.peer k with expectedEvent := none } := by
  have hpeer : (removeBound k (forgetPeer k s)).peer k = s.peer k := by
    simp only [State.peer, (changes_removeBound k _).members_eq, (changes_forgetPeer k s).members_eq]
  rw [← hpeer]
  rfl

theorem restartCascade_peer_of_ne {j : Station} (h : j ≠ k) : (restartCascade k s).peer j = s.peer j := by
  rw [restartCascade_eq, State.peer_setPeer_of_ne _ _ h]
  simp only [State.peer, (changes_removeBound k _).members_eq, (changes_forgetPeer k s).members_eq]

theorem restartCascade_exchange : (restartCascade k s).exchange = (forgetPeer k s).exchange :=
  (changes_removeBound k _).exchange_eq

theorem restartCascade_host : (restartCascade k s).host = (forgetPeer k s).host := (changes_removeBound k _).host_eq

theorem restartCascade_table {s : State} (htable : TableOk s) :
    (restartCascade k s).table = s.table.filter fun e => !(e.origin == k && e.bound) := by
  rw [restartCascade_eq, ← (changes_forgetPeer k s).table_eq]
  exact removeBound_table k (forgetPeer_tableOk k htable)

theorem restartCascade_channel {s : State} (htable : TableOk s) (hchannels : ChannelsOk s) (c : ChannelNumber) :
    (restartCascade k s).channel c =
      if ∃ e ∈ s.table, e.origin = k ∧ e.bound = true ∧ e.state = .running ∧ e.channel = c then
        { s.channel c with owner := none, phase := .inactive }
      else s.channel c := by
  rw [restartCascade_eq, ← (changes_forgetPeer k s).table_eq, ← forgetPeer_channel k s]
  exact removeBound_channel k (forgetPeer_tableOk k htable) (forgetPeer_channelsOk k hchannels) c

end

/-! ### What the NEW flag shows (R63) -/

theorem detectRestart_clear (k : Station) (s : State) :
    detectRestart k false s = s.setPeer k { s.peer k with newSeen := false } := rfl

theorem detectRestart_seen {k : Station} {s : State} (hseen : (s.peer k).newSeen = true) :
    detectRestart k true s = s := by
  simp [detectRestart, hseen]

theorem detectRestart_unknown {k : Station} {s : State} (hseen : (s.peer k).newSeen = false)
    (hunknown : (s.peer k).state = .unknown) :
    detectRestart k true s = s.setPeer k { s.peer k with newSeen := true } := by
  simp [detectRestart, hseen, hunknown]

theorem detectRestart_restart {k : Station} {s : State} (hseen : (s.peer k).newSeen = false)
    (hknown : (s.peer k).state ≠ .unknown) :
    detectRestart k true s =
      (restartCascade k s).setPeer k { s.peer k with newSeen := true, expectedEvent := none } := by
  simp [detectRestart, hseen, hknown, restartCascade_eq]

/-- Settles O28: the four rows are the four cases of `detectRestart`, and in the last one each block is read off the
cascade. -/
theorem newFlagShowsARestart : Obligations.NewFlagShowsARestart := by
  intro s k
  refine ⟨fun _ _ _ => rfl, fun _ _ _ => rfl, detectRestart_clear k s, detectRestart_seen, detectRestart_unknown,
    ?_⟩
  intro hseen hknown hexchange htable
  obtain ⟨-, -, -, -, hnodup, -, -⟩ := hexchange
  refine ⟨_, rfl, ?_⟩
  have hchanges := changes_detectRestart k true s
  rw [detectRestart_restart hseen hknown] at hchanges ⊢
  have hcache : ∀ j, (restartCascade k s).cacheOf j = if j = k then [] else s.cacheOf j := fun j => by
    rw [State.cacheOf, restartCascade_exchange]
    exact forgetPeer_cacheOf k s j
  refine ⟨State.peer_setPeer_self _ k _, fun j hj => ?_, (hcache k).trans (if_pos rfl),
    fun j hj => (hcache j).trans (if_neg hj), ?_, (restartCascade_host k s).trans (forgetPeer_host k s),
    restartCascade_table k htable, fun hchannels c => ⟨fun hbound => ?_, fun hfree => ?_⟩, hchanges⟩
  · rw [State.peer_setPeer_of_ne _ _ hj, restartCascade_peer_of_ne k s hj]
  · rw [State.setPeer, State.setMembers_exchange, restartCascade_exchange]
    exact forgetPeer_exchange k hnodup
  · exact (restartCascade_channel k htable hchannels c).trans (if_pos hbound)
  · refine (restartCascade_channel k htable hchannels c).trans (if_neg ?_)
    rintro ⟨e, he, horigin, hbound, hrunning, hchannel⟩
    exact hfree e he horigin hbound hrunning hchannel

/-! ### Reading a record (R60, R185) -/

/-- The argument byte of PEER: the station in bits 7..4, the clear option in bit 0. -/
def peerArgument (k : Station) (clear : Bool) : Byte := BitVec.ofNat 4 k.val ++ (0 : BitVec 3) ++ BitVec.ofBool clear

theorem highNibble_peerArgument (k : Station) (clear : Bool) : highNibble (peerArgument k clear) = k := by
  revert k clear
  decide

theorem getLsbD_peerArgument (k : Station) (clear : Bool) : (peerArgument k clear).getLsbD 0 = clear := by
  revert k clear
  decide

/-- The clear option at the records: nothing at the own number. -/
def clearPeer (k : Station) (clear : Bool) (s : State) : State :=
  if clear = true ∧ k ≠ s.own then s.setPeer k (s.peer k).cleared else s

theorem changes_clearPeer (k : Station) (clear : Bool) (s : State) : Changes [.members] s (clearPeer k clear s) := by
  unfold clearPeer
  split
  · exact changes_setPeer _ _ _
  · exact Changes.refl _ _

theorem clearPeer_of_not {k : Station} {clear : Bool} {s : State} (h : ¬(clear = true ∧ k ≠ s.own)) :
    clearPeer k clear s = s := if_neg h

theorem clearPeer_peer_self {k : Station} {s : State} (h : k ≠ s.own) :
    (clearPeer k true s).peer k = (s.peer k).cleared := by
  simp [clearPeer, h]

theorem clearPeer_peer_of_ne {k j : Station} (clear : Bool) (s : State) (h : j ≠ k) :
    (clearPeer k clear s).peer j = s.peer j := by
  unfold clearPeer
  split
  · exact State.peer_setPeer_of_ne s _ h
  · rfl

theorem clearPeer_setHost (k : Station) (clear : Bool) (s : State) (h : HostPort) :
    clearPeer k clear (s.setHost h) = (clearPeer k clear s).setHost h := by
  unfold clearPeer
  rw [State.setHost_own]
  split <;> rfl

/-- The response is formed from the record before the clear. -/
theorem readPeer_peerArgument (k : Station) (clear : Bool) (more : List Byte) (s : State) :
    readPeer (peerArgument k clear :: more) s = accept 0x09 (peerBytes s k) (clearPeer k clear s) := by
  simp only [readPeer, highNibble_peerArgument, getLsbD_peerArgument, clearPeer, accept]
  split <;> rfl

theorem peerBytes_own (s : State) : peerBytes s s.own = 0x04 :: List.replicate 12 0x00 := if_pos rfl

theorem peerBytes_of_ne {k : Station} {s : State} (h : k ≠ s.own) :
    peerBytes s k = [(s.peer k).state.code, countByte (s.peer k).misses,
      BitVec.ofInt 8 ((s.peer k).lastDeviation.getD 0), peerFlags (s.peer k)] ++ count16 (s.peer k).goodFrames ++
      count16 (s.peer k).checkErrors ++ count16 (s.peer k).timingErrors ++ count16 (s.peer k).intrusions ++
      [(s.peer k).expectedEvent.getD 0] := if_neg h

/-- PEER of a live transaction: the record is answered as it stands, and cleared. -/
theorem exec_peer_taken {s : State} (k : Station) (clear : Bool) (more : List Byte) (h : s.takesCommands = true) :
    exec (.peer (peerArgument k clear :: more)) s = .next ((clearPeer k clear s).setHost
      { s.host with transaction := .idle, held := [0x09, 0x00] ++ peerBytes s k }) := by
  have htaken := takeCommand_taken (readPeer (peerArgument k clear :: more)) s h
  rw [readPeer_peerArgument, riseCsn, clearPeer_setHost] at htaken
  exact congrArg Host.Outcome.next htaken

/-- Settles O46: the answered PEER leaves the response and `clearPeer`, which clears nothing at the own number or without
the option. -/
theorem peerReadReportsThenClears : Obligations.PeerReadReportsThenClears := by
  intro s k clear more htakes
  refine ⟨_, exec_peer_taken k clear more htakes, fun hown => ⟨?_, ?_⟩, fun hne => ?_, fun hne hset => ?_,
    fun hunset => ?_, fun j hj => clearPeer_peer_of_ne clear s hj, rfl, rfl,
    (changes_clearPeer k clear s).then (changes_setHost _ _)⟩
  · rw [hown, peerBytes_own]
    rfl
  · rw [State.setHost_members, clearPeer_of_not fun h => h.2 hown]
  · rw [peerBytes_of_ne hne]
    rfl
  · rw [hset]
    exact clearPeer_peer_self hne
  · rw [State.setHost_members, clearPeer_of_not fun h => Bool.false_ne_true (hunset.symm.trans h.1)]

end Sys2Proof.Machine
end

