-- ==== Sys2Proof/Proofs/Notices.lean ====
section
/-! The notice queue: what a joining notice raises (R188), the bytes of a popped notice (R175), and what NOTICE pops, queues
and answers (R189). -/

namespace Sys2Proof.Machine

/-! ### A notice joins (R188) -/

/-- A queue just written to is not empty: it holds the new notice, or was full. -/
theorem queueNotice_attn (n : Notice) (s : State) : (queueNotice n s).attn = .high := by
  rcases Nat.lt_or_ge s.host.notices.length 32 with hroom | hfull
  · simp [queueNotice_of_room n s hroom, State.attn]
  · have hne : s.host.notices ≠ [] := List.length_pos_iff.mp (Nat.lt_of_lt_of_le (by decide) hfull)
    simp [queueNotice_of_full n s hfull, State.attn, hne]

/-! ### The bytes of a notice (R175) -/

theorem countByte_station (k : Option Station) :
    countByte (k.getD 0).val = k.elim 0 fun j => BitVec.ofNat 8 j.val := by
  cases k <;> rfl

theorem noticeBytes_some (n : Notice) :
    noticeBytes (some n) = [n.kind.code,
      flagByte n.station.isSome n.number.isSome n.value.isSome false false false false false,
      n.station.elim 0 fun k => BitVec.ofNat 8 k.val, n.code] ++ bytes16 ((n.number.getD 0).setWidth 16) ++
      bytes32 n.time ++ bytes32 (n.value.getD 0) := by
  rw [← countByte_station]
  rfl

/-! ### NOTICE (R189) -/

/-- The OVERFLOW notice of a lost count at the present line time. -/
def State.overflowNotice (s : State) : Notice :=
  s.noticeNow .overflow none none 0 (some (BitVec.ofNat 32 (overflowValue s.host.lost)))

theorem queueOverflow_of_none_lost {s : State} (h : s.host.lost = 0) : queueOverflow s = s := by
  simp [queueOverflow, h]

/-- Where notices were lost and the queue has room, what the notice carries leaves the lost count. -/
theorem queueOverflow_of_lost {s : State} (h : 0 < s.host.lost) (hroom : s.host.notices.length < 32) :
    queueOverflow s = s.setHost { s.host with
      lost := s.host.lost - overflowValue s.host.lost, notices := s.host.notices ++ [s.overflowNotice] } := by
  unfold queueOverflow
  rw [if_pos h]
  exact queueNotice_of_room _ _ hroom

theorem popNotice_of_empty {s : State} (h : s.host.notices = []) :
    popNotice s = accept 0x07 (noticeBytes none) s := by
  simp [popNotice, h]

/-- While none were lost, a pop only takes the head. -/
theorem popNotice_of_none_lost {s : State} {n : Notice} {rest : List Notice} (hhead : s.host.notices = n :: rest)
    (hlost : s.host.lost = 0) :
    popNotice s = accept 0x07 (noticeBytes (some n)) (s.setHost { s.host with notices := rest }) := by
  simp only [popNotice, hhead]
  exact congrArg (accept 0x07 _) (queueOverflow_of_none_lost hlost)

/-- Where notices were lost, the place the pop frees takes the OVERFLOW notice. -/
theorem popNotice_of_lost {s : State} {n : Notice} {rest : List Notice} (hhead : s.host.notices = n :: rest)
    (hlost : 0 < s.host.lost) (hroom : rest.length < 32) :
    popNotice s = accept 0x07 (noticeBytes (some n)) (s.setHost { s.host with
      lost := s.host.lost - overflowValue s.host.lost, notices := rest ++ [s.overflowNotice] }) := by
  simp only [popNotice, hhead]
  exact congrArg (accept 0x07 _) (queueOverflow_of_lost hlost hroom)

/-- NOTICE of a live transaction: CSn rises, and the pop's response becomes the held one. -/
theorem exec_notice_taken {s u : State} {bytes : List Byte} (h : s.takesCommands = true)
    (hpop : popNotice (riseCsn s) = accept 0x07 bytes u) :
    exec .notice s = .next (hold ([0x07, 0x00] ++ bytes) u) := by
  have htaken := takeCommand_taken popNotice s h
  rw [hpop] at htaken
  exact congrArg Host.Outcome.next htaken

/-- Settles O51: a notice finds room or a full queue; a pop finds the queue empty, none lost, or some lost, and then frees a
place. -/
theorem noticesJoinAndArePopped : Obligations.NoticesJoinAndArePopped := by
  refine ⟨fun s n => ⟨fun hroom => ?_, fun hfull => ?_, changes_queueNotice n s, queueNotice_attn n s⟩,
    noticeBytes_some, rfl, fun s htakes hlength => ⟨fun hempty => ?_, fun n rest hhead =>
      ⟨fun hlost => ?_, fun hlost => ?_⟩⟩⟩
  · rw [queueNotice_of_room n s hroom, State.setHost_host]
  · rw [queueNotice_of_full n s hfull, State.setHost_host]
  · exact exec_notice_taken htakes (popNotice_of_empty (s := riseCsn s) hempty)
  · exact exec_notice_taken htakes (popNotice_of_none_lost (s := riseCsn s) hhead hlost)
  · have hroom : rest.length < 32 := by simpa [hhead] using hlength
    exact exec_notice_taken htakes (popNotice_of_lost (s := riseCsn s) hhead hlost hroom)

end Sys2Proof.Machine
end

