-- ==== Sys2Proof/Proofs/Steps.lean ====
section
/-! What a step can do: each command's effect, said once, so that a statement about every step is a statement about these
cases; and the statements on the machine itself. -/

namespace Sys2Proof.Machine

-- One thread for the whole file: its many small proofs would otherwise each take a thread's memory.
set_option Elab.async false

/-! ### The effect of a command -/

/-- What a taken host command makes of the state it finds at the CSn rise. -/
inductive HostEffect (s : State) : Instr → State → Prop
  | none (c : Instr) : HostEffect s c s
  | reset : HostEffect s .reset (resetStation s)
  | permit (args : List Byte) (k : Station) (row : Vector PermitLevel 12) (hoff : s.link.state = .off) :
      HostEffect s (.initPermit args) (writePermit k row s)
  | input (args : List Byte) (i : Input) (setting filter : Byte) (hoff : s.link.state = .off) :
      HostEffect s (.initInput args) (writeInput i setting filter s)
  | idle (args : List Byte) (levels : BitVec 16) (hoff : s.link.state = .off) :
      HostEffect s (.initIdle args) (allChannels.foldl (writeIdle levels) s)
  | lead (args : List Byte) (x : BitVec 16) (hoff : s.link.state = .off) :
      HostEffect s (.initLead args) (s.setExchange { s.exchange with minLead := x })
  | start (hoff : s.link.state = .off) (hlegal : s.legalStraps = true) :
      HostEffect s .start (enterListen .start Option.none 0 (s.setLink { s.link with frozen := true }))
  | stop (hon : s.link.state ≠ .off) : HostEffect s .stop (stopAll s)
  | drawn (c : Instr) (hc : ∃ item, c = .submitLocal item ∨ c = .submitPeer item) : HostEffect s c (drawNumber s)
  | applied (c : Instr) (r : Request) (hc : ∃ item, c = .submitLocal item ∨ c = .submitPeer item)
      (haccepted : judgeRequest (drawNumber s) s.own s.nextNumber r = .accepted) :
      HostEffect s c (applyRequest s.own s.nextNumber r (drawNumber s))
  | submitted (c : Instr) (k : Station) (r : Request) (hc : ∃ item, c = .submitLocal item ∨ c = .submitPeer item)
      (hpasses : refusePeerSubmit s k = Option.none) : HostEffect s c (makeRequest k s.nextNumber r (drawNumber s))
  | mark (args : List Byte) (i : Input) : HostEffect s (.mark args) (makeEvent i .rise s.now s)
  | notice (n : Notice) (rest : List Notice) (hhead : s.host.notices = n :: rest) :
      HostEffect s .notice (queueOverflow (s.setHost { s.host with notices := rest }))
  | cleared (args : List Byte) (k : Station) : HostEffect s (.peer args) (s.setPeer k (s.peer k).cleared)

/-- What a command makes of the state, where it is a happening at all (log entry 5). -/
inductive Effect (s : State) : Instr → State → Prop
  | none (c : Instr) : Effect s c s
  | csn (c : Instr) (x : Transaction) : Effect s c (s.setHost { s.host with transaction := x })
  | host (c : Instr) (t : State) (response : List Byte) (htakes : s.takesCommands = true)
      (h : HostEffect (riseCsn s) c t) : Effect s c (hold response t)
  | reset (c : Instr) (hc : c = .resetnAsserted ∨ c = .powerUp) : Effect s c (resetStation s)
  | resetEnd (straps : Straps) (pins : BitVec 8) (hreset : s.inReset = true) :
      Effect s (.resetEnd straps pins) (allPins.foldl (samplePinAtReset pins) { s with inReset := false, straps := straps })
  | coldStart (hdue : s.listenDue = true) : Effect s .listenTimerExpiry (coldStart s)
  | slotZero (order : SlotOrder) (hdue : s.slotDue = some .zero) : Effect s (.slotStart order) (beginSlotZero s)
  | slotAfter (order : SlotOrder) (k : Station) (hdue : s.slotDue = some (.after k)) :
      Effect s (.slotStart order) (advanceSlot order k s)
  | send (f : OwnFrame) (hframe : s.line.frame = some f) (hdue : s.sendDue = true) :
      Effect s .sendInstant (startSending f s)
  | frameEnd (markDiffers : Bool) (readBack : List Byte) (f : OwnFrame) (differs : Bool)
      (hdue : s.frameEndDue = some f) : Effect s (.frameEnd markDiffers readBack) (endFrame f differs s)
  | markDetected : Effect s .markDetected (detectMark s)
  | checksEnd (received : List Byte) : Effect s (.frameChecksEnd received) (endReception received s)
  | cycleEnd (hdue : s.cycleEndDue = true) : Effect s .cycleEnd (takeCycleEnd s)
  | sample (p : Pin) (level : Level) (u : State) (hreset : s.inReset = false) (hu : u = recogniseIfDue p s) :
      Effect s (.pinTransition p level) (u.setPin p ((u.pin p).sample level u.now))
  | recognised (p : Pin) : Effect s (.edgeRecognised p) (recogniseIfDue p s)
  | edge (c : Instr) (d : PendingEdge) (hdue : s.nextDueEdge s.now = some d)
      (hc : ∃ i, c = .startEdge i ∨ c = .trainPhaseStart i ∨ c = .endEdge i ∨ c = .expiry i) : Effect s c (takeEdge d s)
  | armTime (i : Index) : Effect s (.armTimeAgeing i) (noteAt i (Entry.armTimeDue s.now) (Entry.ageArmTime s.now) s)
  | held (i : Index) : Effect s (.holdAged i) (noteAt i (Entry.holdToAge s.now) Entry.noteAged s)
  | expired (i : Index) :
      Effect s (.expiryNotedAsReached i) (noteAt i (Entry.expiryToNote s.now) Entry.noteExpiry s)

/-! ### The host commands -/

section
variable (s : State)

@[simp] theorem accept_state (code : Byte) (bytes : List Byte) : (accept code bytes s).state = s := rfl
@[simp] theorem refuse_state (code : Byte) (why : ResponseCode) : (refuse code why s).state = s := rfl

theorem initPermitSection_effect (args : List Byte) :
    HostEffect s (.initPermit args) (initPermitSection args s).state := by
  unfold initPermitSection
  split
  · split
    · split
      · exact .none _
      · split
        · exact .none _
        · split
          · rename_i hoff
            exact .permit _ _ _ hoff
          · exact .none _
    · exact .none _
  · exact .none _

theorem initInputSection_effect (args : List Byte) : HostEffect s (.initInput args) (initInputSection args s).state := by
  unfold initInputSection
  split
  · split
    · split
      · rename_i hoff
        exact .input _ _ _ _ hoff
      · exact .none _
    · exact .none _
  · exact .none _

theorem initIdleSection_effect (args : List Byte) : HostEffect s (.initIdle args) (initIdleSection args s).state := by
  unfold initIdleSection
  split
  · split
    · exact .none _
    · split
      · exact .none _
      · rename_i hoff
        split
        · exact .none _
        · rw [accept_state]
          exact .idle _ _ (not_not.mp hoff)
  · exact .none _

theorem initLeadSection_effect (args : List Byte) : HostEffect s (.initLead args) (initLeadSection args s).state := by
  unfold initLeadSection
  split
  · split
    · rename_i hoff
      exact .lead _ _ hoff
    · exact .none _
  · exact .none _

theorem startStation_effect : HostEffect s .start (startStation s).state := by
  unfold startStation
  split
  · rename_i h
    exact .start h.1 h.2
  · exact .none _

theorem stopStation_effect : HostEffect s .stop (stopStation s).state := by
  unfold stopStation
  split
  · exact .none _
  · rename_i hon
    rw [accept_state]
    exact .stop hon

theorem submit_effect {c : Instr} (item : List Byte) (hc : ∃ item, c = .submitLocal item ∨ c = .submitPeer item) :
    HostEffect s c (submit item s).state := by
  unfold submit
  split
  · exact .none _
  · split
    · unfold submitLocally
      dsimp only
      split
      · rename_i haccepted
        exact .applied _ _ hc haccepted
      · exact .drawn _ hc
    · unfold submitToPeer
      split
      · exact .none _
      · rename_i hpasses
        exact .submitted _ _ _ hc hpasses

theorem markInput_effect (args : List Byte) : HostEffect s (.mark args) (markInput args s).state := by
  unfold markInput
  split
  · exact .none _
  · split
    · exact .mark _ _
    · exact .none _

theorem popNotice_effect : HostEffect s .notice (popNotice s).state := by
  unfold popNotice
  split
  · exact .none _
  · rename_i hhead
    exact .notice _ _ hhead

theorem readPeer_effect (args : List Byte) : HostEffect s (.peer args) (readPeer args s).state := by
  unfold readPeer
  split
  · exact .none _
  · dsimp only
    split
    · exact .cleared _ _
    · exact .none _

theorem readEntry_effect (args : List Byte) : HostEffect s (.entry args) (readEntry args s).state := by
  unfold readEntry
  split
  · exact .none _
  · split
    · exact .none _
    · exact .none _

theorem readCapture_effect (args : List Byte) : HostEffect s (.capture args) (readCapture args s).state := by
  unfold readCapture
  split
  · exact .none _
  · split
    · exact .none _
    · exact .none _

end

/-! ### Every command -/

theorem takeCommand_effect {c : Instr} {command : State → Answered} (s : State)
    (h : HostEffect (riseCsn s) c (command (riseCsn s)).state) : Effect s c (takeCommand command s) := by
  unfold takeCommand
  dsimp only
  split
  · rename_i htakes
    exact .host _ _ _ htakes h
  · exact .csn _ _

theorem fallCsn_effect (c : Instr) (s : State) : Effect s c (fallCsn s) := by
  unfold fallCsn
  split
  · exact .csn _ _
  · exact .none _
  · exact .none _

theorem takeDueEdge_effect {c : Instr} (i : Index) (kind : EdgeKind) (s : State)
    (hc : ∃ i, c = .startEdge i ∨ c = .trainPhaseStart i ∨ c = .endEdge i ∨ c = .expiry i) :
    Effect s c (takeDueEdge i kind s) := by
  unfold takeDueEdge
  split
  · exact .none _
  · rename_i d hd
    obtain ⟨hdue, -⟩ := Option.filter_eq_some_iff.mp hd
    exact .edge _ _ hdue hc

/-- Every command answers a next state, and its effect leads there. -/
theorem exec_effect (c : Instr) (s : State) : ∃ t, exec c s = .next t ∧ Effect s c t := by
  cases c with
  | resetnAsserted => exact ⟨_, rfl, .reset _ (.inl rfl)⟩
  | powerUp => exact ⟨_, rfl, .reset _ (.inr rfl)⟩
  | resetEnd straps pins =>
    refine ⟨_, rfl, ?_⟩
    unfold endReset
    split
    · rename_i hreset
      exact .resetEnd _ _ hreset
    · exact .none _
  | listenTimerExpiry =>
    by_cases hdue : s.listenDue = true
    · exact ⟨_, if_pos hdue, .coldStart hdue⟩
    · exact ⟨_, if_neg hdue, .none _⟩
  | slotStart order =>
    refine ⟨_, rfl, ?_⟩
    unfold takeSlotStart
    split
    · exact .none _
    · rename_i hdue
      exact .slotZero _ hdue
    · rename_i hdue
      exact .slotAfter _ _ hdue
  | sendInstant =>
    cases hframe : s.line.frame with
    | none => exact ⟨s, by simp only [exec, execSendInstant, hframe], .none _⟩
    | some f =>
      by_cases hdue : s.sendDue = true
      · exact ⟨_, by simp only [exec, execSendInstant, hframe, if_pos hdue], .send f hframe hdue⟩
      · exact ⟨s, by simp only [exec, execSendInstant, hframe, if_neg hdue], .none _⟩
  | frameEnd markDiffers readBack =>
    cases hdue : s.frameEndDue with
    | none => exact ⟨s, by simp only [exec, execFrameEnd, hdue], .none _⟩
    | some f =>
      exact ⟨_, by simp only [exec, execFrameEnd, hdue], .frameEnd _ _ f (readBackDiffers f markDiffers readBack) hdue⟩
  | markDetected => exact ⟨_, rfl, .markDetected⟩
  | frameChecksEnd received => exact ⟨_, rfl, .checksEnd _⟩
  | cycleEnd =>
    by_cases hdue : s.cycleEndDue = true
    · exact ⟨_, if_pos hdue, .cycleEnd hdue⟩
    · exact ⟨_, if_neg hdue, .none _⟩
  | pinTransition p level =>
    cases hreset : s.inReset with
    | true => exact ⟨_, if_pos hreset, .none _⟩
    | false => exact ⟨_, if_neg (by simp [hreset]), .sample p level _ hreset rfl⟩
  | edgeRecognised p => exact ⟨_, rfl, .recognised p⟩
  | startEdge i => exact ⟨_, rfl, takeDueEdge_effect _ _ _ ⟨i, .inl rfl⟩⟩
  | trainPhaseStart i => exact ⟨_, rfl, takeDueEdge_effect _ _ _ ⟨i, .inr (.inl rfl)⟩⟩
  | endEdge i => exact ⟨_, rfl, takeDueEdge_effect _ _ _ ⟨i, .inr (.inr (.inl rfl))⟩⟩
  | expiry i => exact ⟨_, rfl, takeDueEdge_effect _ _ _ ⟨i, .inr (.inr (.inr rfl))⟩⟩
  | armTimeAgeing i => exact ⟨_, rfl, .armTime i⟩
  | holdAged i => exact ⟨_, rfl, .held i⟩
  | expiryNotedAsReached i => exact ⟨_, rfl, .expired i⟩
  | csnFallingEdge => exact ⟨_, rfl, fallCsn_effect _ _⟩
  | emptyTransaction => exact ⟨_, rfl, .csn _ _⟩
  | nop => exact ⟨_, rfl, takeCommand_effect s (.none _)⟩
  | reset => exact ⟨_, rfl, takeCommand_effect s .reset⟩
  | initPermit args => exact ⟨_, rfl, takeCommand_effect s (initPermitSection_effect _ _)⟩
  | initInput args => exact ⟨_, rfl, takeCommand_effect s (initInputSection_effect _ _)⟩
  | initIdle args => exact ⟨_, rfl, takeCommand_effect s (initIdleSection_effect _ _)⟩
  | initLead args => exact ⟨_, rfl, takeCommand_effect s (initLeadSection_effect _ _)⟩
  | start => exact ⟨_, rfl, takeCommand_effect s (startStation_effect _)⟩
  | stop => exact ⟨_, rfl, takeCommand_effect s (stopStation_effect _)⟩
  | submitLocal item => exact ⟨_, rfl, takeCommand_effect s (submit_effect _ item ⟨item, .inl rfl⟩)⟩
  | submitPeer item => exact ⟨_, rfl, takeCommand_effect s (submit_effect _ item ⟨item, .inr rfl⟩)⟩
  | mark args => exact ⟨_, rfl, takeCommand_effect s (markInput_effect _ _)⟩
  | notice => exact ⟨_, rfl, takeCommand_effect s (popNotice_effect _)⟩
  | status => exact ⟨_, rfl, takeCommand_effect s (.none _)⟩
  | peer args => exact ⟨_, rfl, takeCommand_effect s (readPeer_effect _ _)⟩
  | entry args => exact ⟨_, rfl, takeCommand_effect s (readEntry_effect _ _)⟩
  | time => exact ⟨_, rfl, takeCommand_effect s (.none _)⟩
  | capture args => exact ⟨_, rfl, takeCommand_effect s (readCapture_effect _ _)⟩
  | unknownCommand code args => exact ⟨_, rfl, takeCommand_effect s (.none _)⟩

theorem effect_of_exec {c : Instr} {s t : State} (h : exec c s = .next t) : Effect s c t := by
  obtain ⟨u, hu, heffect⟩ := exec_effect c s
  rw [hu] at h
  cases h
  exact heffect

/-- What every command and a tick keep, and the queue of commands does not touch, every step keeps. -/
theorem step_keeps {P : State → Prop} (hpending : ∀ s q, P s → P (s.setPending q))
    (heffect : ∀ s c t, Effect s c t → P s → P t) (htick : ∀ s, P s → P (tick s)) {s t : State} (hs : P s)
    (hstep : step s = .next t) : P t := by
  unfold step at hstep
  split at hstep
  · exact heffect _ _ _ (effect_of_exec hstep) (hpending _ _ hs)
  · unfold idleStep at hstep
    split at hstep
    · exact heffect _ _ _ (effect_of_exec hstep) hs
    · cases hstep
      exact htick s hs

/-! ### The queue of commands -/

theorem changes_resetStation (s : State) : Changes [.inReset, .straps, .cycle, .link, .line, .members, .capture, .exchange,
    .table, .channels, .outputs, .host] s (resetStation s) := by
  intro b hb
  cases b with
  | pending => rfl
  | _ => exact absurd (by decide) hb

theorem changes_writeInput (i : Input) (setting filter : Byte) (s : State) :
    Changes [.capture] s (writeInput i setting filter s) := by
  unfold writeInput
  dsimp only
  split
  · exact changes_setInputRecord _ _ _
  · exact (changes_setInputRecord _ _ _).then (changes_setPin _ _ _)

theorem changes_writeIdles (levels : BitVec 16) (s : State) :
    Changes [.channels] s (allChannels.foldl (writeIdle levels) s) :=
  Changes.foldl _ (fun s c => changes_setChannel s c _) _ s

theorem changes_stopAll (s : State) : Changes Block.ofGrid s (stopAll s) := by
  have hlink : Changes [.cycle, .link, .line, .host] s (stopLink s) :=
    (((changes_setLine s _).then (ds := [.cycle, .line]) (changes_stopGrid _)).then (ds := [.cycle, .link, .line])
      (changes_setLink _ _)).then (changes_linkNotice _ _ _)
  exact ((hlink.then (ds := Block.ofGrid) (changes_stopExchange _)).then (ds := Block.ofGrid)
    (changes_removePeerEntries _)).then (changes_stopMembers _)

theorem changes_queueOverflow (s : State) : Changes [.host] s (queueOverflow s) := by
  unfold queueOverflow
  split
  · exact (changes_setHost s _).then (changes_queueNotice _ _)
  · exact Changes.refl _ _

theorem changes_samplePins (pins : BitVec 8) (ps : List Pin) (s : State) :
    Changes [.capture] s (ps.foldl (samplePinAtReset pins) s) :=
  Changes.foldl _ (fun s p => changes_setPin s p _) _ s

/-- No host command touches the queue of commands. -/
theorem HostEffect.pending_eq {s t : State} {c : Instr} (h : HostEffect s c t) : t.pending = s.pending := by
  cases h with
  | none => rfl
  | reset => exact (changes_resetStation s).pending_eq
  | permit => rfl
  | input => exact (changes_writeInput _ _ _ s).pending_eq
  | idle => exact (changes_writeIdles _ s).pending_eq
  | lead => rfl
  | start => exact (changes_enterListen _ _ _ _).pending_eq
  | stop => exact (changes_stopAll s).pending_eq
  | drawn => rfl
  | applied => exact (changes_applyRequest _ _ _ _).pending_eq
  | submitted => rfl
  | mark => exact (changes_makeEvent _ _ _ s).pending_eq
  | notice => exact (changes_queueOverflow _).pending_eq
  | cleared => rfl

/-- No command touches the queue of commands. -/
theorem Effect.pending_eq {s t : State} {c : Instr} (h : Effect s c t) : t.pending = s.pending := by
  cases h with
  | none => rfl
  | csn => rfl
  | host _ _ _ _ h => exact h.pending_eq
  | reset => exact (changes_resetStation s).pending_eq
  | resetEnd => exact (changes_samplePins _ _ _).pending_eq
  | coldStart => exact (changes_coldStart s).pending_eq
  | slotZero => exact ((changes_setCycle s _).then (ds := Block.ofSlot) (changes_slotBegins _ _)).pending_eq
  | slotAfter => exact (changes_advanceSlot _ _ s).pending_eq
  | send => rfl
  | frameEnd => exact (changes_endFrame _ _ s).pending_eq
  | markDetected => exact (changes_detectMark s).pending_eq
  | checksEnd => exact (changes_endReception _ s).pending_eq
  | cycleEnd => exact (changes_takeCycleEnd s).pending_eq
  | sample p _ _ _ hu => exact hu ▸ (changes_recogniseIfDue p s).pending_eq
  | recognised => exact (changes_recogniseIfDue _ s).pending_eq
  | edge => exact (changes_takeEdge _ s).pending_eq
  | armTime => rfl
  | held => rfl
  | expired => rfl

/-- Settles O1. -/
theorem stepRunsTheFrontCommand : Obligations.StepRunsTheFrontCommand := by
  intro s c rest h
  simp only [step, h]

/-- Settles O5: every effect leaves the queue of commands as it is. -/
theorem everyCommandAnswersANextState : Obligations.EveryCommandAnswersANextState := by
  intro c s
  obtain ⟨t, ht, heffect⟩ := exec_effect c s
  exact ⟨t, ht, heffect.pending_eq⟩

end Sys2Proof.Machine
end

