-- ==== Sys2Proof/Proofs/Resets.lean ====
section
/-! Resets: the values a reset leaves, and what the end of one latches (R3, R37, R69, R192). -/

namespace Sys2Proof.Machine

-- One thread for the whole file: its many small proofs would otherwise each take a thread's memory.
set_option Elab.async false

/-! ### The values reset leaves -/

@[simp] theorem get_replicate {α : Type} {n : Nat} (x : α) (i : Fin n) : (Vector.replicate n x).get i = x := by
  simp [Vector.get_eq_getElem]

@[simp] theorem reset_peer (k : Station) : State.reset.peer k = PeerRecord.reset := get_replicate _ k
@[simp] theorem reset_pin (p : Pin) : State.reset.pin p = PinRecord.reset := get_replicate _ p
@[simp] theorem reset_inputRecord (i : Input) : State.reset.inputRecord i = InputRecord.reset := get_replicate _ i
@[simp] theorem reset_cacheOf (k : Station) : State.reset.cacheOf k = [] := get_replicate _ k
@[simp] theorem reset_channel (c : ChannelNumber) : State.reset.channel c = Channel.reset := get_replicate _ c
@[simp] theorem reset_out (c : ChannelNumber) : State.reset.out c = .low := get_replicate _ c

theorem reset_permit (k : Station) (c : ChannelNumber) : (State.reset.exchange.permit.get k).get c = .deny := by
  simp [State.reset, RequestExchange.reset]

/-- Settles O3: each value is the reset record's field. -/
theorem resetLeavesTheStatedValues : Obligations.ResetLeavesTheStatedValues :=
  ⟨rfl, rfl, rfl, rfl, rfl, rfl, rfl, rfl, rfl, rfl, rfl, rfl, rfl, rfl, rfl, rfl, rfl, rfl, reset_peer,
    fun p => by rw [reset_pin]; exact ⟨rfl, rfl, rfl⟩, reset_inputRecord, rfl, rfl, reset_permit, rfl, rfl, rfl, rfl,
    reset_cacheOf, rfl, reset_channel, reset_out, rfl, rfl, rfl⟩

/-! ### The invariants right after reset -/

theorem reset_noticesOk : NoticesOk State.reset := ⟨Nat.zero_le _, Nat.zero_le _, .inl rfl⟩

theorem reset_exchangeOk : ExchangeOk State.reset :=
  ⟨Nat.zero_le _, Nat.zero_le _, Nat.zero_le _, fun _ => Nat.zero_le _, List.nodup_nil, (fun _ h => nomatch h),
    fun k => by rw [reset_cacheOf]; exact ⟨Nat.zero_le _, List.nodup_nil⟩⟩

theorem reset_tableOk : TableOk State.reset := ⟨List.nodup_nil, List.nodup_nil, fun _ h => nomatch h⟩

theorem reset_channelsOk : ChannelsOk State.reset :=
  ⟨(fun _ h => nomatch h), fun c i h => (by rw [reset_channel] at h; cases h), fun c _ => by rw [reset_channel]; rfl⟩

theorem linkUnit_reset_ok : LinkUnit.reset.Ok := by
  unfold LinkUnit.Ok
  decide

theorem reset_linkOk : LinkOk State.reset :=
  ⟨linkUnit_reset_ok, ⟨rfl, rfl, (fun _ h => nomatch h), fun _ => ⟨rfl, rfl⟩, (fun h => nomatch h)⟩,
    ⟨List.nodup_nil, fun _ h => nomatch h⟩,
    ⟨(fun h => nomatch h), (fun h => nomatch h), (fun h => nomatch h), fun _ h => nomatch h⟩,
    fun h => absurd rfl h, fun _ => rfl⟩

theorem reset_pinsOk : PinsOk State.reset := by
  refine ⟨fun p => ?_, fun _ p => ?_⟩ <;> rw [reset_pin]
  · exact ⟨⟨(fun h => nomatch h), fun h => absurd rfl h⟩, fun _ h => nomatch h⟩
  · rfl

theorem peerRecord_reset_ok : PeerRecord.reset.Ok :=
  ⟨rfl, (fun _ h => nomatch h), (fun _ h => nomatch h), Nat.zero_le _, Nat.zero_le _, Nat.zero_le _, Nat.zero_le _⟩

theorem reset_membersOk : MembersOk State.reset := fun k => by
  rw [reset_peer]
  exact peerRecord_reset_ok

/-- Settles O55. -/
theorem resetMeetsEveryInvariant : Obligations.ResetMeetsEveryInvariant :=
  ⟨reset_noticesOk, reset_exchangeOk, reset_tableOk, reset_channelsOk, reset_linkOk, reset_pinsOk, reset_membersOk⟩

/-! ### The reset rows and the end of a reset -/

/-- A reset row leaves the reset values, the queue of commands, and CSn as it may stand then. -/
theorem exec_reset {s : State} {c : Instr}
    (hc : c = .resetnAsserted ∨ c = .powerUp ∨ (c = .reset ∧ s.takesCommands = true)) :
    ∃ x, exec c s = .next { State.reset with
      pending := s.pending, host := { HostPort.reset with transaction := x } } := by
  rcases hc with rfl | rfl | ⟨rfl, htakes⟩
  · exact ⟨_, rfl⟩
  · exact ⟨_, rfl⟩
  · exact ⟨_, congrArg Host.Outcome.next (takeCommand_taken _ s htakes)⟩

/-- Sampling pins one after another, no two of them the same, samples each of them and no other. -/
theorem samplePins_pin (pins : BitVec 8) {ps : List Pin} (hnodup : ps.Nodup) (s : State) (p : Pin) :
    (ps.foldl (samplePinAtReset pins) s).pin p =
      if p ∈ ps then (s.pin p).sampledAtReset (levelOfBit (pins.getLsbD p.val)) else s.pin p := by
  induction ps generalizing s with
  | nil => simp
  | cons q ps ih =>
    obtain ⟨hq, hps⟩ := List.nodup_cons.mp hnodup
    rw [List.foldl_cons, ih hps, samplePinAtReset, State.pin_setPin]
    by_cases hp : p = q
    · subst hp
      simp [hq]
    · simp [hp]

theorem samplePins_inputs (pins : BitVec 8) (ps : List Pin) (s : State) :
    (ps.foldl (samplePinAtReset pins) s).capture.inputs = s.capture.inputs ∧
      (ps.foldl (samplePinAtReset pins) s).capture.eventNumber = s.capture.eventNumber := by
  induction ps generalizing s with
  | nil => exact ⟨rfl, rfl⟩
  | cons q ps ih => exact ih (samplePinAtReset pins s q)

theorem changes_endReset (straps : Straps) (pins : BitVec 8) (s : State) :
    Changes [.inReset, .straps, .capture] s
      (allPins.foldl (samplePinAtReset pins) { s with inReset := false, straps := straps }) := by
  have hlatch : Changes [.inReset, .straps] s { s with inReset := false, straps := straps } := by
    intro b hb
    cases b with
    | inReset | straps => exact absurd (by decide) hb
    | _ => rfl
  exact hlatch.then (changes_samplePins pins _ _)

/-- Settles O4: a reset row leaves the reset state but for CSn and the queue; the end of a reset latches and samples. -/
theorem resetsRestoreEveryBlockAndLatchTheStraps : Obligations.ResetsRestoreEveryBlockAndLatchTheStraps := by
  refine ⟨fun s c hc => ?_, fun s straps pins hreset => ?_⟩
  · obtain ⟨x, hx⟩ := exec_reset hc
    refine ⟨_, hx, rfl, rfl, rfl, rfl, reset_peer, reset_inputRecord, fun p => ?_, rfl, rfl, rfl, reset_channel,
      reset_out, rfl, rfl, rfl, rfl, rfl, rfl⟩
    have hpin := reset_pin p
    exact ⟨congrArg PinRecord.edgeSelect hpin, congrArg PinRecord.filter hpin, congrArg PinRecord.hold hpin⟩
  · refine ⟨_, congrArg Host.Outcome.next (if_pos hreset), (changes_samplePins _ _ _).inReset_eq,
      (changes_samplePins _ _ _).straps_eq, fun p => ?_, (samplePins_inputs _ _ _).1, (samplePins_inputs _ _ _).2,
      changes_endReset _ _ s⟩
    exact (samplePins_pin pins (List.nodup_finRange 8) _ p).trans (if_pos (List.mem_finRange p))

end Sys2Proof.Machine
end

