-- ==== Sys2Proof/Proofs/Kept.lean ====
section
/-! What every command keeps. `Closed P` lists the writes that the station's operations are made of, each under the condition
under which it is made; a property that they keep is kept by every operation (the walk below), and so by every command that
is neither a reset nor a write of the configuration. -/

namespace Sys2Proof.Machine

-- One thread for the whole file: its many small proofs would otherwise each take a thread's memory.
set_option Elab.async false

/-! ### The writes -/

/-- The blocks besides the Order Table, the channels, the Request Exchange and the Host Port. -/
abbrev Block.aside : List Block :=
  [.pending, .inReset, .straps, .cycle, .link, .line, .members, .capture, .outputs]

/-- A change by time to an entry: its event part's times and the aged note, and nothing else (R114, R115, R124). -/
def Entry.NotedAs (e x : Entry) : Prop :=
  x = { e with event := x.event, aged := x.aged } ∧ x.event.isSome = e.event.isSome

theorem badFields_congr {s t : State} {o : OrderFields} (h : t.straps = s.straps) : badFields t o = badFields s o := by
  have hcount : t.stationCount = s.stationCount := congrArg (fun x : Straps => x.cnt.val + 1) h
  have hown : t.own = s.own := congrArg Straps.id h
  unfold badFields
  rw [hcount, hown]

/-- An adoption up to the hand on of the frame: line time stepped, the grid started in the sender's slot with a zero sample,
INTEGRATE entered (R22). -/
def adoptGrid (h : Header) (mark : Time) (s : State) : State :=
  let s := startGrid h.cycleStart h.cycleNumber h.station (takeStep (s.adoptionOf h mark) s)
  let s := enterIntegrate (s.setLine { s.line with ownSlot := .unjudged })
  s.setCycle { s.cycle with samples := [{ station := h.station, deviation := 0 }] }

/-- The frame of an adoption handed onward, its notices kept apart (log entry 11). -/
def adoptHeard (h : Header) (items : List Item) (g : State) : State :=
  handOn h items true 0 (g.setHost { g.host with notices := [], lost := 0 })

theorem adopt_eq (h : Header) (items : List Item) (mark : Time) (s : State) :
    adopt h items mark s =
      let g := adoptGrid h mark s
      let heard := adoptHeard h items g
      let stepped := adoptionStep s.now (s.adoptionOf h mark) (s.edgesAt s.now)
        (linkNotice .heard (some h.station) (heard.setHost g.host))
      queueBehind heard.host.notices heard.host.lost
        (queueNotice (stepped.noticeNow .step none none 0 (some (s.adoptionOf h mark))) stepped) := rfl

/-- `P` is kept by each write below, made where it is made. -/
structure Closed (P : State → Prop) : Prop where
  frame : ∀ {s t}, Changes Block.aside s t → P s → P t
  -- the Host Port
  port : ∀ {s} x held, P s → P (s.setHost { s.host with transaction := x, held := held })
  notice : ∀ {s} n, P s → P (queueNotice n s)
  popped : ∀ {s n rest}, s.host.notices = n :: rest → P s →
    P (queueOverflow (s.setHost { s.host with notices := rest }))
  fresh : ∀ {s}, P s → P (s.setHost { s.host with notices := [], lost := 0 })
  back : ∀ {s u}, P s → P u → P (u.setHost s.host)
  behind : ∀ {s u}, P u → P s → P (queueBehind u.host.notices u.host.lost s)
  -- the Request Exchange
  reply : ∀ {s} i, P s → P (queueReplyItem i s)
  send : ∀ {s} i, s.sendRoom = true → P s → P (queueSendItem i s)
  remove : ∀ {s} n, P s → P (removeRequest n s)
  forget : ∀ {s} k, P s → P (setCacheOf k [] s)
  answer : ∀ {s} k n c, s.cachedCode k n = none → (s.cacheOf k).length < 8 → P s → P (answerRequest k n c s)
  retry : ∀ {s}, P s → P (retryPass s)
  drain : ∀ {s} a b, a.length ≤ s.exchange.replyQueue.length → b.length ≤ s.exchange.sendQueue.length → P s →
    P (s.setExchange { s.exchange with replyQueue := a, sendQueue := b })
  sent : ∀ {s} f, P s → P (reportSent f s)
  move : ∀ {s} d, P s → P (moveCycles d s)
  expire : ∀ {s}, P s → P (expireCache s)
  uncache : ∀ {s}, P s → P (s.setExchange { s.exchange with cache := Vector.replicate 16 [] })
  draw : ∀ {s}, P s → P (drawNumber s)
  submit : ∀ {s} k r, refusePeerSubmit s k = none → P s → P (makeRequest k s.nextNumber r (drawNumber s))
  -- the Order Table and the channels
  edge : ∀ {s d}, s.nextDueEdge s.now = some d → P s → P (takeEdge d s)
  note : ∀ {s} due f, (∀ e : Entry, e.NotedAs (f e)) → P s → P (whereDue due f s)
  step : ∀ {s} v σ left, P s → P (tableStep v σ left s)
  abandon : ∀ {s}, P s → P (abandonTable s)
  meet : ∀ {s} ev, P s → P (matchEvent ev s)
  amend : ∀ {s e} d, e ∈ s.table → P s → P (amendEntry e d s)
  cancel : ∀ {s e}, e ∈ s.table → P s → P (cancelEntry e s)
  place : ∀ {s} k n o, badFields s o = false → s.entryNamed k n = none → P s → P (placeOrder k n o s)
  bound : ∀ {s} k, P s → P (removeBound k s)
  watchers : ∀ {s} k, P s → P (removeWatchers k s)
  peers : ∀ {s}, P s → P (removePeerEntries s)

theorem foldl_keeps {α : Type} {P : State → Prop} {f : State → α → State} (hf : ∀ s a, P s → P (f s a)) (l : List α)
    {s : State} (hs : P s) : P (l.foldl f s) := by
  induction l generalizing s with
  | nil => exact hs
  | cons a l ih => exact ih (hf s a hs)

namespace Closed

variable {P : State → Prop} (h : Closed P) {s : State}
include h

/-! ### What the table notes by time, and requests taking effect -/

theorem ageArmTimes (now : Time) (hs : P s) : P (ageArmTimes now s) := h.note _ _ (fun e => ⟨rfl, by simp [Entry.ageArmTime]⟩) hs

theorem noteTimes (now : Time) (hs : P s) : P (noteTimes now s) :=
  h.ageArmTimes now (h.note _ _ (fun _ => ⟨rfl, rfl⟩) (h.note _ _ (fun e => ⟨rfl, by simp [Entry.noteExpiry]⟩) hs))

/-- An accepted request takes its effect: of an ORDER the fields are good and the name is free. -/
theorem applyRequest (k : Station) (n : RequestNumber) (r : Request)
    (horder : ∀ o, r = .order o → badFields s o = false ∧ s.entryNamed k n = none) (hs : P s) :
    P (applyRequest k n r s) := by
  cases r with
  | order o => exact h.place k n o (horder o rfl).1 (horder o rfl).2 hs
  | amend subject d =>
    simp only [Machine.applyRequest]
    split
    · exact hs
    · rename_i e he
      exact h.amend d (List.mem_of_find?_eq_some he) hs
  | cancel subject =>
    simp only [Machine.applyRequest]
    split
    · exact hs
    · rename_i e he
      exact h.cancel (List.mem_of_find?_eq_some he) hs

omit h in
/-- An accepted ORDER has good fields and a free name. -/
theorem accepted_order {s : State} {k : Station} {n : RequestNumber} {o : OrderFields}
    (haccepted : judgeRequest s k n (.order o) = .accepted) : badFields s o = false ∧ s.entryNamed k n = none := by
  simp only [judgeRequest, judgeOrder] at haccepted
  split at haccepted
  · cases haccepted
  · rename_i hgood
    simpa using hgood

theorem decideRequest (k : Station) (n : RequestNumber) (r : Request) (hcached : s.cachedCode k n = none)
    (hroom : (s.cacheOf k).length < 8) (hs : P s) : P (decideRequest k n r s) := by
  have hanswered := h.answer k n (judgeRequest s k n r) hcached hroom hs
  unfold Machine.decideRequest
  dsimp only
  split
  · rename_i haccepted
    refine h.applyRequest k n r (fun o ho => ?_) hanswered
    subst ho
    obtain ⟨hgood, hname⟩ := accepted_order haccepted
    have hchanges := changes_answerRequest k n (judgeRequest s k n (.order o)) s
    refine ⟨?_, ?_⟩
    · rwa [badFields_congr hchanges.straps_eq]
    · simpa only [State.entryNamed, hchanges.table_eq] using hname
  · exact hanswered

theorem acceptRequest (k : Station) (n : RequestNumber) (r : Request) (hs : P s) : P (acceptRequest k n r s) := by
  unfold Machine.acceptRequest
  split
  · exact hs
  · split
    · exact hs
    · split
      · exact h.reply _ hs
      · rename_i hcached
        split
        · exact hs
        · rename_i hroom
          exact h.decideRequest k n r hcached (Nat.not_le.mp hroom) hs

/-! ### The Request Exchange -/

theorem failRequest (why : FailReason) (r : RequestRecord) (hs : P s) : P (failRequest why r s) :=
  h.notice _ (h.remove _ hs)

theorem failEach (why : FailReason) (rs : List RequestRecord) (hs : P s) : P (failEach why rs s) :=
  foldl_keeps (fun _ r => h.failRequest why r) rs hs

theorem failRemoved (i : SendItem) (hs : P s) : P (failRemoved i s) := by
  unfold Machine.failRemoved
  split
  · exact hs
  · split
    · exact hs
    · exact h.failRequest _ _ hs

omit h in
theorem drainReplies_length_le (room : Nat) (q : List ReplyItem) : (drainReplies room q).2.length ≤ q.length := by
  induction q generalizing room with
  | nil => simp [drainReplies]
  | cons i q ih =>
    unfold drainReplies
    split
    · exact Nat.le_succ_of_le (ih _)
    · exact Nat.le_refl _

omit h in
theorem drainSends_length_le (overdue : SendItem → Bool) (room : Nat) (q : List SendItem) :
    (drainSends overdue room q).2.2.length ≤ q.length := by
  induction q generalizing room with
  | nil => simp [drainSends]
  | cons i q ih =>
    unfold drainSends
    split
    · exact Nat.le_succ_of_le (ih _)
    · split
      · exact Nat.le_succ_of_le (ih _)
      · exact Nat.le_refl _

theorem buildFrame (hs : P s) : P (buildFrame s) :=
  h.frame ((changes_setLine _ _).mono (by decide)) (foldl_keeps (fun _ i => h.failRemoved i) _
    (h.drain _ _ (drainReplies_length_le _ _) (drainSends_length_le _ _ _) (h.retry hs)))

theorem stopExchange (hs : P s) : P (stopExchange s) :=
  h.uncache (h.failEach _ _ (h.drain [] [] (Nat.zero_le _) (Nat.zero_le _) hs))

theorem takeReply (k : Station) (n : RequestNumber) (c : ReplyCode) (hs : P s) : P (takeReply k n c s) := by
  unfold Machine.takeReply
  split
  · exact hs
  · split
    · exact h.notice _ (h.remove _ hs)
    · exact hs

/-! ### Membership -/

theorem setPeer (k : Station) (r : PeerRecord) (hs : P s) : P (s.setPeer k r) :=
  h.frame ((changes_setPeer s k r).mono (by decide)) hs

theorem loseCascade (k : Station) (hs : P s) : P (loseCascade k s) :=
  h.setPeer _ _ (h.watchers k (h.bound k (h.failEach _ _ hs)))

theorem slotEnd (k : Station) (hs : P s) : P (slotEnd k s) := by
  unfold Machine.slotEnd
  split
  · exact hs
  · dsimp only
    split
    · exact h.setPeer _ _ hs
    · split
      · exact h.loseCascade k (h.notice _ (h.setPeer _ _ hs))
      · exact h.notice _ (h.setPeer _ _ hs)

theorem countIntrusion (k : Station) (hs : P s) : P (countIntrusion k s) := by
  unfold Machine.countIntrusion
  split
  · exact hs
  · exact h.notice _ (h.setPeer _ _ hs)

theorem restartCascade (k : Station) (hs : P s) : P (restartCascade k s) :=
  h.setPeer _ _ (h.bound k (h.failEach _ _ (h.forget k hs)))

theorem detectRestart (k : Station) (isNew : Bool) (hs : P s) : P (detectRestart k isNew s) := by
  unfold Machine.detectRestart
  dsimp only
  split
  · split
    · exact hs
    · split
      · exact h.setPeer _ _ hs
      · exact h.setPeer _ _ (h.restartCascade k hs)
  · exact h.setPeer _ _ hs

theorem reportFrame (k : Station) (within : Bool) (d : Int) (isNew : Bool) (hs : P s) :
    P (reportFrame k within d isNew s) := h.detectRestart k isNew (h.setPeer _ _ hs)

theorem stopPeer (k : Station) (hs : P s) : P (stopPeer s k) := by
  unfold Machine.stopPeer
  split
  · exact hs
  · dsimp only
    split
    · exact h.setPeer _ _ hs
    · exact h.notice _ (h.setPeer _ _ hs)

/-! ### The Capture Unit -/

theorem setCapture (c : CaptureUnit) (hs : P s) : P (s.setCapture c) :=
  h.frame ((changes_setCapture s c).mono (by decide)) hs

theorem sendEvent (i : Input) (edge : Edge) (stamp : Time) (hs : P s) : P (sendEvent i edge stamp s) := by
  unfold Machine.sendEvent
  split
  · exact hs
  · rename_i n hn
    dsimp only
    split
    · rename_i hqueued
      refine h.send _ ?_ (h.setCapture _ hs)
      simp only [State.numbering] at hqueued
      split at hqueued
      · exact hqueued
      · cases hqueued
    · exact h.notice _ (h.setCapture _ hs)

theorem makeEvent (i : Input) (edge : Edge) (stamp : Time) (hs : P s) : P (makeEvent i edge stamp s) :=
  h.sendEvent _ _ _ (h.meet _ (h.setCapture _ hs))

theorem recogniseIfDue (p : Pin) (hs : P s) : P (recogniseIfDue p s) := by
  unfold Machine.recogniseIfDue
  split
  · unfold recognise
    dsimp only
    split
    · exact h.makeEvent _ _ _ (h.setCapture _ hs)
    · exact h.setCapture _ hs
  · exact hs

theorem takeEvent (k : Station) (i : Input) (edge : Edge) (n : EventNumber) (stamp : Time) (hs : P s) :
    P (takeEvent k i edge n stamp s) := by
  refine h.meet _ (h.setPeer _ _ ?_)
  unfold checkGap
  split
  · exact hs
  · split
    · exact hs
    · exact h.notice _ hs

/-! ### The Cycle Unit -/

theorem setCycle (c : CycleUnit) (hs : P s) : P (s.setCycle c) := h.frame ((changes_setCycle s c).mono (by decide)) hs
theorem setLink (l : LinkUnit) (hs : P s) : P (s.setLink l) := h.frame ((changes_setLink s l).mono (by decide)) hs
theorem setLine (l : LinePort) (hs : P s) : P (s.setLine l) := h.frame ((changes_setLine s l).mono (by decide)) hs

theorem startGrid (x : Time) (c : CycleNumber) (k : Station) (hs : P s) : P (startGrid x c k s) :=
  h.setCycle _ (h.move _ hs)

theorem enterListen (r : LinkReason) (k : Option Station) (x : Nat) (hs : P s) : P (enterListen r k x s) :=
  h.notice _ (h.setLink _ (h.setLine _ (h.frame ((changes_clearSlotNotes _).mono (by decide)) (h.setCycle _ hs))))

theorem takeStep (σ : Time) (hs : P s) : P (takeStep σ s) := h.ageArmTimes _ (h.setCycle _ (h.noteTimes _ hs))

theorem stepAtCycleEnd (σ : Int) (hs : P s) : P (stepAtCycleEnd σ s) := by
  unfold Machine.stepAtCycleEnd
  split
  · exact hs
  · exact h.frame ((changes_moveMark _ _ _).mono (by decide)) (h.step _ _ _ (h.takeStep _ hs))

theorem endOwnSlot (k : Station) (hs : P s) : P (endOwnSlot k s) :=
  h.frame ((changes_endOwnSlot k s).mono (by decide)) hs

theorem slotBegins (k : Station) (hs : P s) : P (slotBegins k s) := by
  unfold Machine.slotBegins
  split
  · exact h.buildFrame (h.setLine _ hs)
  · exact hs

theorem advanceSlot (order : SlotOrder) (k : Station) (hs : P s) : P (advanceSlot order k s) := by
  cases order with
  | slotEndFirst => exact h.slotBegins _ (h.endOwnSlot _ (h.slotEnd _ (h.setCycle _ hs)))
  | buildFirst => exact h.slotEnd _ (h.slotBegins _ (h.endOwnSlot _ (h.setCycle _ hs)))

theorem linkAtCycleEnd (k : Nat) (hs : P s) : P (linkAtCycleEnd k s) := by
  unfold Machine.linkAtCycleEnd
  split
  · exact hs
  · exact hs
  · unfold integrateAtCycleEnd
    split
    · exact h.setLink _ hs
    · split
      · exact h.notice _ (h.setLink _ hs)
      · exact h.enterListen _ _ _ (h.setLink _ hs)
  · unfold coldstartAtCycleEnd
    split
    · exact h.setLink _ hs
    · split
      · exact h.setLink _ hs
      · exact h.notice _ (h.setLink _ hs)
  · unfold syncedAtCycleEnd
    split
    · exact h.setLink _ hs
    · split
      · exact h.setLink _ hs
      · exact h.enterListen _ _ _ hs

theorem turnCycle (hs : P s) : P (turnCycle s) :=
  h.setCycle _ (h.stepAtCycleEnd _ (h.setCycle _ (h.endOwnSlot _ (h.slotEnd _ hs))))

theorem takeCycleEnd (hs : P s) : P (takeCycleEnd s) := by
  have hdecided := h.expire (h.linkAtCycleEnd s.cycle.samples.length (h.turnCycle hs))
  unfold Machine.takeCycleEnd beginCycleSlot
  split
  · split
    · exact h.slotBegins _ hdecided
    · exact h.setCycle _ hdecided
  · exact hdecided

theorem coldStart (hs : P s) : P (coldStart s) :=
  h.slotBegins _ (h.notice _ (h.setLink _ (h.setLine _ (h.setLine _ (h.startGrid _ _ _ hs)))))

/-! ### The Line Port -/

theorem judgeCollided (n : Nat) (hs : P s) : P (judgeCollided n s) := by
  have hcounted := h.notice ((((s.setLine { s.line with ownSlot := .collided }).setLink
    { s.link with collisionCount := n + 1 })).noticeNow .collision none none 0 none) (h.setLink
    { s.link with collisionCount := n + 1 } (h.setLine { s.line with ownSlot := .collided } hs))
  unfold Machine.judgeCollided
  dsimp only
  split
  · exact h.enterListen _ _ _ hcounted
  · exact hcounted

theorem endFrame (f : OwnFrame) (differs : Bool) (hs : P s) : P (endFrame f differs s) := by
  unfold Machine.endFrame
  dsimp only
  split
  · exact h.judgeCollided _ (h.setLink _ (h.sent f (h.setLine _ hs)))
  · exact h.setLink _ (h.setLine _ (h.setLink _ (h.sent f (h.setLine _ hs))))

theorem foreignMark (hs : P s) : P (foreignMark s) := by
  unfold Machine.foreignMark
  split
  · exact h.setLine _ hs
  · exact hs
  · exact hs
  · exact h.judgeCollided _ hs

theorem detectMark (hs : P s) : P (detectMark s) := by
  unfold Machine.detectMark
  split
  · exact hs
  · split
    · exact h.setLine _ hs
    · dsimp only
      split
      · split
        · exact h.foreignMark hs
        · exact h.setLine _ (h.foreignMark hs)
      · exact h.setLine _ hs

theorem takeItem (k : Station) (i : Item) (hs : P s) : P (takeItem k i s) := by
  unfold Machine.takeItem
  split
  · exact h.takeEvent _ _ _ _ _ hs
  · split
    · exact h.acceptRequest _ _ _ hs
    · exact hs
  · split
    · exact h.takeReply _ _ _ hs
    · exact hs
  · split
    · exact h.notice _ hs
    · exact hs

theorem takeItems (k : Station) (items : List Item) (hs : P s) : P (takeItems k items s) :=
  foldl_keeps (fun _ i => h.takeItem k i) items hs

theorem handOn (hd : Header) (items : List Item) (within : Bool) (d : Int) (hs : P s) : P (handOn hd items within d s) := by
  unfold Machine.handOn yieldTo
  dsimp only
  split
  · exact h.takeItems _ _ (h.reportFrame _ _ _ _ hs)
  · split
    · exact h.enterListen _ _ _ (h.reportFrame _ _ _ _ hs)
    · exact h.reportFrame _ _ _ _ hs

theorem countCheckError (k : Station) (hs : P s) : P (countCheckError k s) :=
  h.frame ((changes_countCheckError k s).mono (by decide)) hs

theorem checkFrame (received : Received) (mark : Time) (a : Attribution) (hs : P s) : P (checkFrame received mark a s) := by
  unfold Machine.checkFrame
  split
  · exact h.countCheckError _ hs
  · exact h.countCheckError _ hs
  · split
    · exact h.countIntrusion _ hs
    · split
      · exact h.countCheckError _ hs
      · unfold handFrame
        dsimp only
        split
        · exact h.handOn _ _ _ _ (h.frame ((changes_enterSample _ _ _ _).mono (by decide)) hs)
        · exact h.handOn _ _ _ _ hs

theorem checkOwnSlotFrame (received : Received) (hs : P s) : P (checkOwnSlotFrame received s) := by
  unfold Machine.checkOwnSlotFrame
  split
  · exact hs
  · exact hs
  · split
    · exact h.enterListen _ _ _ hs
    · exact hs

theorem adoptionStep (v σ : Time) (left : List PendingEdge) (hs : P s) : P (adoptionStep v σ left s) := by
  unfold Machine.adoptionStep
  split
  · exact h.abandon hs
  · split
    · exact hs
    · exact h.step _ _ _ hs

theorem adopt (hd : Header) (items : List Item) (mark : Time) (hs : P s) : P (adopt hd items mark s) := by
  have hgrid : P (adoptGrid hd mark s) := h.setCycle _ (h.setLink _ (h.setLine _ (h.startGrid _ _ _ (h.takeStep _ hs))))
  have hheard : P (adoptHeard hd items (adoptGrid hd mark s)) := h.handOn hd items true 0 (h.fresh hgrid)
  rw [adopt_eq]
  exact h.behind hheard (h.notice _ (h.adoptionStep _ _ _ (h.notice _ (h.back hgrid hheard))))

theorem checkListenFrame (received : Received) (mark : Time) (hs : P s) : P (checkListenFrame received mark s) := by
  unfold Machine.checkListenFrame
  split
  · exact h.setLink _ hs
  · exact h.setLink _ hs
  · split
    · exact h.setLink _ hs
    · split
      · exact h.setLink _ hs
      · exact h.adopt _ _ _ hs

theorem settleFrame (r : Reception) (received : Received) (hs : P s) : P (settleFrame r received s) := by
  unfold Machine.settleFrame
  split
  · exact h.checkListenFrame _ _ hs
  · split
    · split
      · exact hs
      · split
        · exact h.checkOwnSlotFrame _ hs
        · exact h.checkFrame _ _ _ hs
    · exact hs

theorem endReception (received : List Byte) (hs : P s) : P (endReception received s) := by
  unfold Machine.endReception
  split
  · exact h.settleFrame _ _ (h.setLine _ hs)
  · split
    · exact hs
    · exact h.settleFrame _ _ (h.setLine _ hs)

/-! ### Every command -/

theorem stopAll (hs : P s) : P (stopAll s) :=
  foldl_keeps (fun _ k => h.stopPeer k) _ (h.peers (h.stopExchange (h.notice _ (h.setLink _ (h.setCycle _ (h.setLine _ hs))))))

/-- A host command keeps `P` where a reset and each write of the configuration do. -/
theorem hostEffect {c : Instr} {t : State} (heffect : HostEffect s c t) (hreset : c = .reset → P (resetStation s))
    (hpermit : s.link.state = .off → ∀ k row, P (writePermit k row s))
    (hlead : s.link.state = .off → ∀ x, P (s.setExchange { s.exchange with minLead := x }))
    (hidle : s.link.state = .off → ∀ levels, P (allChannels.foldl (writeIdle levels) s)) (hs : P s) : P t := by
  cases heffect with
  | none => exact hs
  | reset => exact hreset rfl
  | permit _ k row hoff => exact hpermit hoff k row
  | input => exact h.frame ((changes_writeInput _ _ _ s).mono (by decide)) hs
  | idle _ levels hoff => exact hidle hoff levels
  | lead _ x hoff => exact hlead hoff x
  | start => exact h.enterListen _ _ _ (h.setLink _ hs)
  | stop => exact h.stopAll hs
  | drawn => exact h.draw hs
  | applied _ r _ haccepted =>
    refine h.applyRequest _ _ _ (fun o ho => ?_) (h.draw hs)
    subst ho
    exact accepted_order haccepted
  | submitted _ k r _ hpasses => exact h.submit k r hpasses hs
  | mark => exact h.makeEvent _ _ _ hs
  | notice _ _ hhead => exact h.popped hhead hs
  | cleared => exact h.setPeer _ _ hs

/-- So does every command. -/
theorem effect {c : Instr} {t : State} (heffect : Effect s c t)
    (hreset : c = .resetnAsserted ∨ c = .powerUp ∨ c = .reset → ∀ s, P s → P (resetStation s))
    (hpermit : s.link.state = .off → ∀ k row, P (riseCsn s) → P (writePermit k row (riseCsn s)))
    (hlead : s.link.state = .off → ∀ x, P (riseCsn s) →
      P ((riseCsn s).setExchange { s.exchange with minLead := x }))
    (hidle : s.link.state = .off → ∀ levels, P (riseCsn s) → P (allChannels.foldl (writeIdle levels) (riseCsn s)))
    (hs : P s) : P t := by
  have hrise : P (riseCsn s) := h.port .idle s.host.held hs
  cases heffect with
  | none => exact hs
  | csn _ x => exact h.port x s.host.held hs
  | host _ u response _ hhost =>
    exact h.port u.host.transaction response (h.hostEffect hhost (fun hc => hreset (.inr (.inr hc)) _ hrise)
      (fun hoff k row => hpermit hoff k row hrise) (fun hoff x => hlead hoff x hrise)
      (fun hoff levels => hidle hoff levels hrise) hrise)
  | reset _ hc => exact hreset (hc.elim .inl fun hp => .inr (.inl hp)) s hs
  | resetEnd straps pins =>
    refine h.frame (s := s) (Changes.then (bs := [.inReset, .straps]) (t := { s with inReset := false, straps := straps })
      (fun b hb => ?_) (changes_samplePins pins _ _)) hs
    cases b with
    | inReset | straps => exact absurd (by decide) hb
    | _ => rfl
  | coldStart => exact h.coldStart hs
  | slotZero => exact h.slotBegins _ (h.setCycle _ hs)
  | slotAfter order k => exact h.advanceSlot order k hs
  | send => exact h.setLine _ hs
  | frameEnd => exact h.endFrame _ _ hs
  | markDetected => exact h.detectMark hs
  | checksEnd => exact h.endReception _ hs
  | cycleEnd => exact h.takeCycleEnd hs
  | sample p level u _ hu => exact h.setCapture _ (hu ▸ h.recogniseIfDue p hs)
  | recognised p => exact h.recogniseIfDue p hs
  | edge _ d hdue => exact h.edge hdue hs
  | armTime i => exact h.note _ _ (fun e => ⟨rfl, by simp [Entry.ageArmTime]⟩) hs
  | held i => exact h.note _ _ (fun _ => ⟨rfl, rfl⟩) hs
  | expired i => exact h.note _ _ (fun e => ⟨rfl, by simp [Entry.noteExpiry]⟩) hs

theorem tick (hs : P s) : P (tick s) := by
  unfold Machine.tick
  split
  · exact hs
  · exact h.setCapture _ (h.setLine _ (h.setLink _ (h.setCycle _ (h.frame ((changes_setOutputs s _).mono (by decide)) hs))))

/-- What the writes, a reset and the writes of the configuration keep, every step keeps. -/
theorem step_keeps (hreset : ∀ s, P s → P (resetStation s))
    (hpermit : ∀ s k row, P s → P (writePermit k row s))
    (hlead : ∀ s x, P s → P (s.setExchange { s.exchange with minLead := x }))
    (hidle : ∀ s levels, P s → P (allChannels.foldl (writeIdle levels) s)) {t : State} (hs : P s)
    (hstep : Machine.step s = .next t) : P t :=
  Machine.step_keeps (fun s q => h.frame ((changes_setPending s q).mono (by decide)))
    (fun _ _ _ heffect => h.effect heffect (fun _ => hreset) (fun _ => hpermit _) (fun _ => hlead _) (fun _ => hidle _))
    (fun _ => h.tick) hs hstep

end Closed

/-! ### Properties that the Order Table has no part in -/

/-- Of the Order Table's operations such a property sees the results and the channels' owners and phases alone. -/
structure TableBlind (P : State → Prop) : Prop where
  table : ∀ {s t}, Changes [.table] s t → P s → P t
  drive : ∀ {s} c owner phase, P s → P (s.setChannel c { s.channel c with owner := owner, phase := phase })
  result : ∀ {s} e o, P s → P (produceResult e o s)

namespace TableBlind

variable {P : State → Prop} (h : TableBlind P) {s : State}
include h

theorem replaceEntry (e : Entry) (hs : P s) : P (replaceEntry e s) := h.table (changes_replaceEntry e s) hs

theorem depart (e : Entry) (o : EntryOutcome) (hs : P s) : P (depart e o s) :=
  h.result e o (h.table (changes_dropEntry _ s) hs)

theorem releaseChannel (c : ChannelNumber) (i : Index) (hs : P s) : P (releaseChannel c i s) := by
  unfold Machine.releaseChannel
  split
  · exact h.drive c _ _ hs
  · exact hs

theorem leave (e : Entry) (o : EntryOutcome) (hs : P s) : P (leave e o s) := h.depart e o (h.releaseChannel _ _ hs)

theorem leaveSilently (e : Entry) (hs : P s) : P (leaveSilently e s) :=
  h.table (changes_dropEntry _ _) (h.releaseChannel _ _ hs)

theorem finishRun (e : Entry) (o : EntryOutcome) (x : Time) (hs : P s) : P (finishRun e o x s) := by
  unfold Machine.finishRun returnToArmed
  split
  · exact h.depart _ _ hs
  · split
    · exact h.depart _ _ hs
    · split
      · exact h.depart _ _ hs
      · exact h.replaceEntry _ hs

theorem grantStart (e : Entry) (x : Time) (hs : P s) : P (grantStart e x s) := h.drive _ _ _ (h.replaceEntry _ hs)

theorem requestStart (i : Index) (x : Time) (hs : P s) : P (requestStart i x s) := by
  unfold Machine.requestStart preemptOwner
  split
  · exact hs
  · split
    · exact h.grantStart _ _ hs
    · split
      · split
        · exact h.grantStart _ _ hs
        · exact h.grantStart _ _ (h.depart _ _ hs)
      · exact h.finishRun _ _ _ hs

theorem setPhase (c : ChannelNumber) (p : Phase) (hs : P s) : P (setPhase c p s) := h.drive c (s.channel c).owner p hs

theorem startPhase (i : Index) (x : Time) (hs : P s) : P (startPhase i x s) := by
  unfold Machine.startPhase
  split
  · exact hs
  · exact h.setPhase _ _ (h.replaceEntry _ hs)

theorem takeEnd (i : Index) (x : Time) (hs : P s) : P (takeEnd i x s) := by
  unfold Machine.takeEnd
  split
  · exact hs
  · split
    · exact h.setPhase _ _ (h.replaceEntry _ hs)
    · exact h.finishRun _ _ _ (h.releaseChannel _ _ hs)

theorem takeEdge (d : PendingEdge) (hs : P s) : P (takeEdge d s) := by
  unfold Machine.takeEdge takeExpiry
  split
  · exact h.takeEnd _ _ hs
  · split
    · exact hs
    · exact h.depart _ _ hs
  · exact h.requestStart _ _ hs
  · exact h.startPhase _ _ hs

theorem takeEdges (limit : Time) (fuel : Nat) (hs : P s) : P (takeEdges limit fuel s) := by
  induction fuel generalizing s with
  | zero => exact hs
  | succ n ih =>
    unfold Machine.takeEdges
    split
    · exact hs
    · exact ih (h.takeEdge _ hs)

theorem takeIfPending (d : PendingEdge) (hs : P s) : P (takeIfPending s d) := by
  unfold Machine.takeIfPending
  split
  · exact h.takeEdge _ hs
  · exact hs

theorem tableStep (v σ : Time) (left : List PendingEdge) (hs : P s) : P (tableStep v σ left s) := by
  unfold Machine.tableStep
  split
  · exact h.table (changes_noteTimes _ _) (h.takeEdges _ _ hs)
  · exact foldl_keeps (fun _ d => h.takeIfPending d) left hs

theorem meetEvent (ev : Event) (i : Index) (hs : P s) : P (meetEvent ev i s) := by
  unfold Machine.meetEvent matchEntry lateMatch
  split
  · exact hs
  · split
    · split
      · dsimp only
        split
        · exact h.replaceEntry _ hs
        · split
          · exact h.finishRun _ _ _ hs
          · exact h.requestStart _ _ (h.replaceEntry _ hs)
          · exact hs
      · exact hs
    · exact hs

theorem matchEvent (ev : Event) (hs : P s) : P (matchEvent ev s) := foldl_keeps (fun _ i => h.meetEvent ev i) _ hs

theorem startPhaseIfPassed (i : Index) (hs : P s) : P (startPhaseIfPassed i s) := by
  unfold Machine.startPhaseIfPassed
  split
  · split
    · split
      · exact h.startPhase _ _ hs
      · exact hs
    · exact hs
  · exact hs

theorem amendEntry (e : Entry) (d : BitVec 24) (hs : P s) : P (amendEntry e d s) := by
  unfold Machine.amendEntry
  split
  · exact h.replaceEntry _ hs
  · unfold amendScheduled
    split
    · exact hs
    · dsimp only
      split
      · exact h.requestStart _ _ (h.replaceEntry _ hs)
      · exact h.replaceEntry _ hs
  · split
    · unfold amendTrain
      dsimp only
      split
      · exact h.replaceEntry _ hs
      · split
        · split
          · exact h.startPhaseIfPassed _ (h.takeEnd _ _ (h.replaceEntry _ hs))
          · exact h.startPhase _ _ (h.replaceEntry _ hs)
        · exact h.replaceEntry _ hs
    · unfold amendPulse
      dsimp only
      split
      · exact h.takeEnd _ _ hs
      · split
        · exact h.takeEnd _ _ hs
        · exact h.replaceEntry _ hs

theorem removeWatchers (k : Station) (hs : P s) : P (removeWatchers k s) := by
  refine foldl_keeps (fun u e hu => ?_) _ hs
  unfold leaveSourceLost
  split
  · exact h.leaveSilently e hu
  · exact h.leave e _ hu

theorem leavesSilently (es : List Entry) (hs : P s) : P (leaveEach es Machine.leaveSilently s) :=
  foldl_keeps (fun _ e => h.leaveSilently e) es hs

theorem abandonTable (hs : P s) : P (abandonTable s) := foldl_keeps (fun _ e => h.leave e _) _ hs

theorem placeOrder (k : Station) (n : RequestNumber) (o : OrderFields) (hs : P s) : P (placeOrder k n o s) :=
  h.table (changes_placeOrder k n o s) hs

end TableBlind

end Sys2Proof.Machine
end

