-- ==== Sys2Proof/Proofs/NoticeBounds.lean ====
section
/-! The notice queue under every step (R188, R189): its bound, and that notices are lost only while it is full. -/

namespace Sys2Proof.Machine

-- One thread for the whole file: its many small proofs would otherwise each take a thread's memory.
set_option Elab.async false

/-! ### Notices that join one after another -/

/-- Notices that join a queue within its bound: the first ones find room, and the rest are counted. -/
theorem queueNotices_host (ns : List Notice) {s : State} (hlength : s.host.notices.length ≤ 32) (more : Nat) :
    (ns.foldl (fun u n => queueNotice n u) s).host.notices = (s.host.notices ++ ns).take 32 ∧
      min Config.lostMaximum ((ns.foldl (fun u n => queueNotice n u) s).host.lost + more) =
        min Config.lostMaximum (s.host.lost + (s.host.notices.length + ns.length - 32) + more) := by
  induction ns generalizing s with
  | nil =>
    have hnone : s.host.notices.length + 0 - 32 = 0 := by omega
    rw [List.append_nil, List.length_nil, hnone]
    exact ⟨(List.take_of_length_le hlength).symm, rfl⟩
  | cons n ns ih =>
    rw [List.foldl_cons]
    rcases Nat.lt_or_ge s.host.notices.length 32 with hroom | hfull
    · have hjoined : (queueNotice n s).host = { s.host with notices := s.host.notices ++ [n] } := by
        rw [queueNotice_of_room n s hroom, State.setHost_host]
      obtain ⟨hnotices, hlost⟩ := ih (s := queueNotice n s) (by rw [hjoined]; simp; omega)
      rw [hnotices, hlost, hjoined]
      simp only [List.append_assoc, List.cons_append, List.nil_append, List.length_append, List.length_cons,
        List.length_nil, true_and]
      congr 3
      omega
    · have hcounted : (queueNotice n s).host = { s.host with lost := min Config.lostMaximum (s.host.lost + 1) } := by
        rw [queueNotice_of_full n s hfull, State.setHost_host]
      obtain ⟨hnotices, hlost⟩ := ih (s := queueNotice n s) (by rw [hcounted]; exact hlength)
      rw [hnotices, hlost, hcounted]
      refine ⟨?_, by simp only [List.length_cons, Config.lostMaximum]; omega⟩
      rw [List.take_append_of_le_length hfull, List.take_append_of_le_length hfull]

theorem queueBehind_notices {s : State} (ns : List Notice) (lost : Nat) (hlength : s.host.notices.length ≤ 32) :
    (queueBehind ns lost s).host.notices = (s.host.notices ++ ns).take 32 :=
  (queueNotices_host ns hlength 0).1

theorem queueBehind_lost {s : State} (ns : List Notice) (lost : Nat) (hlength : s.host.notices.length ≤ 32) :
    (queueBehind ns lost s).host.lost =
      min Config.lostMaximum (s.host.lost + (s.host.notices.length + ns.length - 32) + lost) :=
  (queueNotices_host ns hlength lost).2

/-! ### The invariant -/

theorem NoticesOk.congr {s t : State} (hs : NoticesOk s) (hnotices : t.host.notices = s.host.notices)
    (hlost : t.host.lost = s.host.lost) : NoticesOk t := by
  unfold NoticesOk
  rw [hnotices, hlost]
  exact hs

theorem NoticesOk.of_host {s t : State} (hs : NoticesOk s) (hhost : t.host = s.host) : NoticesOk t :=
  hs.congr (congrArg HostPort.notices hhost) (congrArg HostPort.lost hhost)

theorem NoticesOk.queueNotice {s : State} (hs : NoticesOk s) (n : Notice) : NoticesOk (queueNotice n s) := by
  obtain ⟨hlength, hlost, hfull⟩ := hs
  rcases Nat.lt_or_ge s.host.notices.length 32 with hroom | hnoRoom
  · rw [queueNotice_of_room n s hroom]
    refine ⟨?_, hlost, ?_⟩ <;> simp only [State.setHost_host, List.length_append, List.length_singleton] <;> omega
  · rw [queueNotice_of_full n s hnoRoom]
    exact ⟨hlength, Nat.min_le_left _ _, .inr (Nat.le_antisymm hlength hnoRoom)⟩

/-- A pop frees a place; where notices were lost the OVERFLOW notice takes it. -/
theorem NoticesOk.popped {s : State} {n : Notice} {rest : List Notice} (hhead : s.host.notices = n :: rest)
    (hs : NoticesOk s) : NoticesOk (queueOverflow (s.setHost { s.host with notices := rest })) := by
  obtain ⟨hlength, hlost, hfull⟩ := hs
  rw [hhead, List.length_cons] at hlength hfull
  rcases Nat.eq_zero_or_pos s.host.lost with hnone | hsome
  · rw [queueOverflow_of_none_lost (by exact hnone)]
    exact ⟨by simp only [State.setHost_host]; omega, hlost, .inl hnone⟩
  · rw [queueOverflow_of_lost (by exact hsome) (by simp only [State.setHost_host]; omega)]
    have hlast : rest.length + 1 = 32 := hfull.resolve_left (by omega)
    exact ⟨by simp [hlast], by simp only [State.setHost_host]; omega, .inr (by simp [hlast])⟩

theorem NoticesOk.behind {s u : State} (hu : NoticesOk u) (hs : NoticesOk s) :
    NoticesOk (queueBehind u.host.notices u.host.lost s) := by
  obtain ⟨hlength, hlost, hfull⟩ := hs
  obtain ⟨-, -, hfullBehind⟩ := hu
  unfold NoticesOk
  rw [queueBehind_notices _ _ hlength, queueBehind_lost _ _ hlength, List.length_take, List.length_append]
  omega

theorem NoticesOk.failRequest {s : State} (hs : NoticesOk s) (why : FailReason) (r : RequestRecord) :
    NoticesOk (failRequest why r s) := (hs.of_host (changes_removeRequest r.number s).host_eq).queueNotice _

theorem NoticesOk.retryPass {s : State} (hs : NoticesOk s) : NoticesOk (retryPass s) := by
  refine foldl_keeps (fun u r hu => ?_) s.exchange.requests hs
  unfold retryRequest
  split
  · split
    · exact hu.failRequest _ _
    · split
      · exact hu.of_host rfl
      · exact hu
  · exact hu

theorem noticesOk_tableBlind : TableBlind NoticesOk where
  table hc hs := hs.of_host hc.host_eq
  drive _ _ _ hs := hs.of_host rfl
  result e o hs := by
    unfold produceResult
    split
    · split
      · exact hs.queueNotice _
      · exact hs.of_host (changes_queueReplyItem _ _).host_eq
    · exact hs

theorem noticesOk_closed : Closed NoticesOk where
  frame hc hs := hs.of_host hc.host_eq
  port _ _ hs := hs.congr rfl rfl
  notice n hs := hs.queueNotice n
  popped hhead hs := hs.popped hhead
  fresh _ := ⟨Nat.zero_le _, Nat.zero_le _, .inl rfl⟩
  back hs _ := hs.of_host rfl
  behind hu hs := hu.behind hs
  reply i hs := hs.of_host (changes_queueReplyItem i _).host_eq
  send _ _ hs := hs.of_host rfl
  remove _ hs := hs.of_host rfl
  forget _ hs := hs.of_host rfl
  answer k n c _ _ hs := hs.of_host (changes_answerRequest k n c _).host_eq
  retry hs := hs.retryPass
  drain _ _ _ _ hs := hs.of_host rfl
  sent f hs := hs.of_host (changes_reportSent f _).host_eq
  move _ hs := hs.of_host rfl
  expire hs := hs.of_host rfl
  uncache hs := hs.of_host rfl
  draw hs := hs.of_host rfl
  submit _ _ _ hs := hs.of_host rfl
  edge _ hs := noticesOk_tableBlind.takeEdge _ hs
  note _ _ _ hs := hs.of_host rfl
  step _ _ _ hs := noticesOk_tableBlind.tableStep _ _ _ hs
  abandon hs := noticesOk_tableBlind.abandonTable hs
  meet _ hs := noticesOk_tableBlind.matchEvent _ hs
  amend _ _ hs := noticesOk_tableBlind.amendEntry _ _ hs
  cancel _ hs := noticesOk_tableBlind.leave _ _ hs
  place k n o _ _ hs := hs.of_host (changes_placeOrder k n o _).host_eq
  bound _ hs := noticesOk_tableBlind.leavesSilently _ hs
  watchers k hs := noticesOk_tableBlind.removeWatchers k hs
  peers hs := noticesOk_tableBlind.leavesSilently _ hs

/-- Settles O56: every write that reaches the notice queue keeps its bounds, and a reset empties it. -/
theorem stepKeepsNoticesOk : Obligations.StepKeepsNoticesOk := fun _ _ hs hstep =>
  noticesOk_closed.step_keeps (fun _ _ => ⟨Nat.zero_le _, Nat.zero_le _, .inl rfl⟩) (fun _ _ _ hs => hs.of_host rfl)
    (fun _ _ hs => hs.of_host rfl) (fun s levels hs => hs.of_host (changes_writeIdles levels s).host_eq) hs hstep

end Sys2Proof.Machine
end

