-- ==== Sys2Proof/Proofs/Building.lean ====
section
/-! The Request Exchange: the retry pass (R164), the drains (R158, R165), the build of the own frame (R157), and its bounds
under every step (R99, R153, R161). -/

namespace Sys2Proof.Machine

-- One thread for the whole file: its many small proofs would otherwise each take a thread's memory.
set_option Elab.async false

/-! ### Limits (R6) -/

theorem limitReached_iff {present : CycleNumber} {limit : Option CycleNumber} :
    limitReached present limit = true ↔ ∃ d, limit = some d ∧ (present - d).toNat < 2 ^ 15 := by
  cases limit <;> simp [limitReached, cycleReached]

/-- A try of the record has gone out and its deadline has been reached (R164). -/
def RequestRecord.Due (present : CycleNumber) (r : RequestRecord) : Prop :=
  r.sent = true ∧ limitReached present r.deadline = true

/-- No further try may be made of the record (R164). -/
def RequestRecord.Exhausted (present : CycleNumber) (r : RequestRecord) : Prop :=
  3 ≤ r.tries ∨ limitReached present r.sendLimit = true

theorem RequestRecord.due_iff {present : CycleNumber} {r : RequestRecord} :
    r.Due present ↔ r.sent = true ∧ ∃ d, r.deadline = some d ∧ (present - d).toNat < 2 ^ 15 := by
  rw [RequestRecord.Due, limitReached_iff]

theorem RequestRecord.exhausted_iff {present : CycleNumber} {r : RequestRecord} :
    r.Exhausted present ↔ 3 ≤ r.tries ∨ ∃ l, r.sendLimit = some l ∧ (present - l).toNat < 2 ^ 15 := by
  rw [RequestRecord.Exhausted, limitReached_iff]

/-! ### The retry pass at one record (R164) -/

section
variable {r : RequestRecord} {s : State}

theorem retryRequest_idle (h : ¬r.Due s.cycle.cycleNumber) : retryRequest r s = s := by
  unfold RequestRecord.Due at h
  exact if_neg (by simpa using h)

theorem retryRequest_fails (hdue : r.Due s.cycle.cycleNumber) (h : r.Exhausted s.cycle.cycleNumber) :
    retryRequest r s = failRequest .noAnswer r s := by
  unfold RequestRecord.Due at hdue
  unfold RequestRecord.Exhausted at h
  unfold retryRequest
  rw [if_pos (by simpa using hdue), if_pos (by simpa using h)]

theorem retryRequest_again (hdue : r.Due s.cycle.cycleNumber) (h : ¬r.Exhausted s.cycle.cycleNumber)
    (hroom : s.exchange.sendQueue.length < 24) :
    retryRequest r s =
      queueSendItem (.request r.number r.item) (changeRequest r.number RequestRecord.retried s) := by
  unfold RequestRecord.Due at hdue
  unfold RequestRecord.Exhausted at h
  unfold retryRequest
  rw [if_pos (by simpa using hdue), if_neg (by simpa using h)]
  exact if_pos (decide_eq_true hroom)

theorem retryRequest_deferred (hdue : r.Due s.cycle.cycleNumber) (h : ¬r.Exhausted s.cycle.cycleNumber)
    (hfull : 24 ≤ s.exchange.sendQueue.length) : retryRequest r s = s := by
  unfold RequestRecord.Due at hdue
  unfold RequestRecord.Exhausted at h
  unfold retryRequest
  rw [if_pos (by simpa using hdue), if_neg (by simpa using h)]
  exact if_neg (by simpa [State.sendRoom] using hfull)

/-- All that the pass can do to the Pending list at one record. -/
theorem retryRequest_requests (r : RequestRecord) (s : State) :
    (retryRequest r s).exchange.requests = s.exchange.requests ∨
      (retryRequest r s).exchange.requests = (s.exchange.requests.filter fun x => x.number != r.number) ∨
      (retryRequest r s).exchange.requests =
        s.exchange.requests.map fun x => if x.number = r.number then x.retried else x := by
  unfold retryRequest
  split
  · split
    · exact .inr (.inl (by rw [failRequest_exchange]))
    · split
      · exact .inr (.inr rfl)
      · exact .inl rfl
  · exact .inl rfl

/-- It leaves the other records. -/
theorem mem_retryRequest_of_ne {x : RequestRecord} (hx : x ∈ s.exchange.requests) (hne : x.number ≠ r.number) :
    x ∈ (retryRequest r s).exchange.requests := by
  rcases retryRequest_requests r s with h | h | h <;> rw [h]
  · exact hx
  · exact List.mem_filter.mpr ⟨hx, by simpa using hne⟩
  · exact List.mem_map.mpr ⟨x, hx, if_neg hne⟩

/-- It brings no new number. -/
theorem number_of_mem_retryRequest {x : RequestRecord} (hx : x ∈ (retryRequest r s).exchange.requests) :
    ∃ y ∈ s.exchange.requests, y.number = x.number := by
  rcases retryRequest_requests r s with h | h | h <;> rw [h] at hx
  · exact ⟨x, hx, rfl⟩
  · exact ⟨x, (List.mem_filter.mp hx).1, rfl⟩
  · obtain ⟨y, hy, rfl⟩ := List.mem_map.mp hx
    exact ⟨y, hy, by split <;> rfl⟩

end

/-! ### The pass over a list of records -/

/-- The retry pass over these records. -/
def retryEach (rs : List RequestRecord) (s : State) : State := rs.foldl (fun u r => retryRequest r u) s

theorem changes_retryEach (rs : List RequestRecord) (s : State) : Changes [.exchange, .host] s (retryEach rs s) :=
  Changes.foldl _ (fun s r => changes_retryRequest r s) rs s

theorem mem_retryEach_of_ne {rs : List RequestRecord} {s : State} {x : RequestRecord} (hx : x ∈ s.exchange.requests)
    (hne : ∀ r ∈ rs, x.number ≠ r.number) : x ∈ (retryEach rs s).exchange.requests := by
  induction rs generalizing s with
  | nil => exact hx
  | cons r rs ih =>
    exact ih (s := retryRequest r s) (mem_retryRequest_of_ne hx (hne r List.mem_cons_self))
      fun r' hr' => hne r' (List.mem_cons_of_mem _ hr')

theorem number_of_mem_retryEach {rs : List RequestRecord} {s : State} {x : RequestRecord}
    (hx : x ∈ (retryEach rs s).exchange.requests) : ∃ y ∈ s.exchange.requests, y.number = x.number := by
  induction rs generalizing s with
  | nil => exact ⟨x, hx, rfl⟩
  | cons r rs ih =>
    obtain ⟨y, hy, hyx⟩ := ih (s := retryRequest r s) hx
    obtain ⟨z, hz, hzy⟩ := number_of_mem_retryRequest hy
    exact ⟨z, hz, hzy.trans hyx⟩

/-- The pass comes to a record as it stood, and what it makes of it stays: no other record has its number. -/
theorem retryPass_at {s : State} {r : RequestRecord} (hnodup : (s.exchange.requests.map fun r => r.number).Nodup)
    (hr : r ∈ s.exchange.requests) :
    ∃ u, r ∈ u.exchange.requests ∧ u.cycle = s.cycle ∧
      (∀ x ∈ (retryRequest r u).exchange.requests, x.number = r.number → x ∈ (retryPass s).exchange.requests) ∧
      ∀ x ∈ (retryPass s).exchange.requests, ∃ y ∈ (retryRequest r u).exchange.requests, y.number = x.number := by
  obtain ⟨before, later, hsplit⟩ := List.append_of_mem hr
  rw [hsplit, List.map_append, List.map_cons] at hnodup
  obtain ⟨-, hlater, hapart⟩ := List.nodup_append.mp hnodup
  obtain ⟨hnotLater, -⟩ := List.nodup_cons.mp hlater
  have hpass : retryPass s = retryEach later (retryRequest r (retryEach before s)) := by
    rw [retryPass, hsplit, List.foldl_append, List.foldl_cons]
    rfl
  refine ⟨retryEach before s, mem_retryEach_of_ne hr fun x hx heq => ?_, (changes_retryEach _ _).cycle_eq,
    fun x hx hnumber => ?_, fun x hx => ?_⟩
  · exact hapart _ (List.mem_map_of_mem hx) _ List.mem_cons_self heq.symm
  · rw [hpass]
    refine mem_retryEach_of_ne hx fun y hy heq => hnotLater ?_
    exact List.mem_map.mpr ⟨y, hy, heq.symm.trans hnumber⟩
  · rw [hpass] at hx
    exact number_of_mem_retryEach hx

theorem failRequest_host (why : FailReason) (r : RequestRecord) (s : State) :
    (failRequest why r s).host =
      (queueNotice (s.noticeNow .failed (some r.target) (some r.number) why.code none) s).host :=
  queueNotice_host_congr _ rfl

/-- Settles O12: one record at a time, then the pass as the step at a record with what comes before and after it. -/
theorem retryPassRetriesDefersOrFails : Obligations.RetryPassRetriesDefersOrFails := by
  refine ⟨fun _ => rfl, fun s t r due exhausted ht hdue hexhausted => ?_, fun s r due exhausted hok hr hdue hexhausted => ?_⟩
  · rw [← RequestRecord.due_iff] at hdue
    rw [← RequestRecord.exhausted_iff] at hexhausted
    subst ht
    refine ⟨fun h => retryRequest_idle (mt hdue.mpr h), fun h h' => ?_, fun h h' hroom => ?_, fun h h' hfull =>
      retryRequest_deferred (hdue.mp h) (mt hexhausted.mpr h') hfull⟩
    · rw [retryRequest_fails (hdue.mp h) (hexhausted.mp h')]
      exact ⟨failRequest_exchange _ _ _, failRequest_host _ _ _, changes_failRequest _ _ _⟩
    · rw [retryRequest_again (hdue.mp h) (mt hexhausted.mpr h') hroom]
      exact ⟨rfl, (changes_changeRequest _ _ s).then (changes_queueSendItem _ _)⟩
  · obtain ⟨-, -, -, -, hnodup, -, -⟩ := hok
    rw [← RequestRecord.due_iff] at hdue
    rw [← RequestRecord.exhausted_iff] at hexhausted
    obtain ⟨u, hru, hcycle, hkept, horigin⟩ := retryPass_at hnodup hr
    rw [← hcycle] at hdue hexhausted
    refine ⟨fun h => ?_, fun h h' x hx heq => ?_, fun h h' => ?_, changes_retryPass s⟩
    · rw [retryRequest_idle (mt hdue.mpr h)] at hkept
      exact hkept r hru rfl
    · obtain ⟨y, hy, hyx⟩ := horigin x hx
      rw [retryRequest_fails (hdue.mp h) (hexhausted.mp h'), failRequest_exchange] at hy
      have hne := (List.mem_filter.mp hy).2
      rw [hyx, heq] at hne
      simp at hne
    · rcases Nat.lt_or_ge u.exchange.sendQueue.length 24 with hroom | hfull
      · rw [retryRequest_again (hdue.mp h) (mt hexhausted.mpr h') hroom] at hkept
        exact .inr (hkept r.retried (List.mem_map.mpr ⟨r, hru, if_pos rfl⟩) rfl)
      · rw [retryRequest_deferred (hdue.mp h) (mt hexhausted.mpr h') hfull] at hkept
        exact .inl (hkept r hru rfl)

/-! ### The drains (R158, R165) -/

theorem drainReplies_spec (room : Nat) (q : List ReplyItem) :
    q = (drainReplies room q).1 ++ (drainReplies room q).2 ∧
      ((drainReplies room q).1.flatMap ReplyItem.encode).length ≤ room ∧
      ∀ i more, (drainReplies room q).2 = i :: more →
        room < ((drainReplies room q).1.flatMap ReplyItem.encode).length + i.encode.length := by
  induction q generalizing room with
  | nil => simp [drainReplies]
  | cons i q ih =>
    unfold drainReplies
    split
    · rename_i hfits
      obtain ⟨hsplit, hlength, hfirst⟩ := ih (room - i.encode.length)
      refine ⟨congrArg (i :: ·) hsplit, ?_, fun j more hj => ?_⟩ <;>
        simp only [List.flatMap_cons, List.length_append]
      · omega
      · have hafter := hfirst j more hj
        omega
    · rename_i hfull
      refine ⟨rfl, Nat.zero_le _, fun j more hj => ?_⟩
      cases hj
      simpa using hfull

theorem drainSends_spec (overdue : SendItem → Bool) (room : Nat) (q : List SendItem) :
    ∃ passed, q = passed ++ (drainSends overdue room q).2.2 ∧
      (drainSends overdue room q).1 = (passed.filter fun i => !overdue i) ∧
      (drainSends overdue room q).2.1 = passed.filter overdue ∧
      ((drainSends overdue room q).1.flatMap SendItem.encode).length ≤ room ∧
      ∀ i more, (drainSends overdue room q).2.2 = i :: more → overdue i = false ∧
        room < ((drainSends overdue room q).1.flatMap SendItem.encode).length + i.encode.length := by
  induction q generalizing room with
  | nil => exact ⟨[], by simp [drainSends]⟩
  | cons i q ih =>
    unfold drainSends
    split
    · rename_i hover
      obtain ⟨passed, hsplit, htaken, hremoved, hlength, hfirst⟩ := ih room
      exact ⟨i :: passed, congrArg (i :: ·) hsplit, by simp [hover, htaken], by simp [hover, hremoved], hlength, hfirst⟩
    · rename_i hover
      split
      · rename_i hfits
        obtain ⟨passed, hsplit, htaken, hremoved, hlength, hfirst⟩ := ih (room - i.encode.length)
        refine ⟨i :: passed, congrArg (i :: ·) hsplit, by simp [hover, htaken], by simp [hover, hremoved], ?_,
          fun j more hj => ?_⟩ <;> simp only [List.flatMap_cons, List.length_append]
        · omega
        · obtain ⟨hj, hafter⟩ := hfirst j more hj
          exact ⟨hj, by omega⟩
      · rename_i hfull
        refine ⟨[], rfl, rfl, rfl, Nat.zero_le _, fun j more hj => ?_⟩
        cases hj
        exact ⟨by simpa using hover, by simpa using hfull⟩

/-- Settles O13. -/
theorem drainsTakeFromTheHeadWhatFits : Obligations.DrainsTakeFromTheHeadWhatFits := by
  refine ⟨fun room q taken rest h => ?_, fun overdue room q taken removed rest h => ?_⟩
  · have hspec := drainReplies_spec room q
    rwa [h] at hspec
  · have hspec := drainSends_spec overdue room q
    rwa [h] at hspec

/-! ### The records whose copies the drain removed (R165) -/

theorem requestNumbered_removeRequest (n m : RequestNumber) (s : State) :
    (removeRequest n s).requestNumbered m = if m = n then none else s.requestNumbered m := by
  unfold removeRequest State.requestNumbered
  rw [State.setExchange_exchange, List.find?_filter]
  split
  · rename_i heq
    subst heq
    exact List.find?_eq_none.mpr fun x _ => by simp
  · rename_i hne
    congr 1
    funext x
    by_cases hx : x.number = m
    · simp [hx, hne]
    · simp [hx]

/-- The exchange once the records of these numbers have gone, with their waiting copies. -/
def RequestExchange.without (x : RequestExchange) (ns : List RequestNumber) : RequestExchange :=
  { x with
    requests := x.requests.filter fun r => !ns.contains r.number
    sendQueue := x.sendQueue.filter fun i => i.requestNumber.all fun n => !ns.contains n }

theorem RequestExchange.without_nil (x : RequestExchange) : x.without [] = x := by
  simp [RequestExchange.without]

theorem RequestExchange.without_cons (x : RequestExchange) (n : RequestNumber) (ns : List RequestNumber) :
    x.without (n :: ns) = (x.without [n]).without ns := by
  simp only [RequestExchange.without, List.filter_filter, List.contains_cons, List.contains_nil, Bool.or_false]
  congr 1
  · refine List.filter_congr fun i _ => ?_
    cases i.requestNumber <;> simp [Bool.and_comm]
  · refine List.filter_congr fun r _ => ?_
    simp [Bool.and_comm]

theorem removeRequest_exchange (n : RequestNumber) (s : State) :
    (removeRequest n s).exchange = s.exchange.without [n] := by
  simp only [removeRequest, RequestExchange.without, State.setExchange_exchange, SendItem.not_isCopyOf]
  congr 1
  · refine List.filter_congr fun i _ => ?_
    cases i.requestNumber with
    | none => rfl
    | some m => simp [bne, beq_eq_decide]
  · refine List.filter_congr fun r _ => ?_
    simp [bne, beq_eq_decide]

/-- A number that neither a record nor a waiting copy has. -/
def RequestExchange.Lacks (x : RequestExchange) (n : RequestNumber) : Prop :=
  (∀ r ∈ x.requests, r.number ≠ n) ∧ ∀ i ∈ x.sendQueue, i.requestNumber ≠ some n

theorem RequestExchange.Lacks.without_eq {x : RequestExchange} {n : RequestNumber} (h : x.Lacks n) :
    x.without [n] = x := by
  obtain ⟨hrequests, hqueue⟩ := h
  have hr : (x.requests.filter fun r => !([n] : List RequestNumber).contains r.number) = x.requests :=
    List.filter_eq_self.mpr fun r hr => by simpa using hrequests r hr
  have hq : (x.sendQueue.filter fun i => i.requestNumber.all fun m => !([n] : List RequestNumber).contains m) =
      x.sendQueue := List.filter_eq_self.mpr fun i hi => by
    have hne := hqueue i hi
    cases hnumber : i.requestNumber with
    | none => rfl
    | some m =>
      rw [hnumber] at hne
      simpa using hne
  simp only [RequestExchange.without, hr, hq]

theorem RequestExchange.lacks_without {x : RequestExchange} {ns : List RequestNumber} {n : RequestNumber}
    (h : n ∈ ns ∨ x.Lacks n) : (x.without ns).Lacks n := by
  refine ⟨fun r hr => ?_, fun i hi => ?_⟩
  · obtain ⟨hmem, hkept⟩ := List.mem_filter.mp hr
    rcases h with hn | hlacks
    · rintro rfl
      simp [hn] at hkept
    · exact hlacks.1 r hmem
  · obtain ⟨hmem, hkept⟩ := List.mem_filter.mp hi
    rcases h with hn | hlacks
    · intro heq
      simp [heq, hn] at hkept
    · exact hlacks.2 i hmem

theorem failRemoved_unknown {i : SendItem} {n : RequestNumber} {s : State} (h : i.requestNumber = some n)
    (hnone : s.requestNumbered n = none) : failRemoved i s = s := by
  simp only [failRemoved, h, hnone]

theorem failRemoved_known {i : SendItem} {n : RequestNumber} {r : RequestRecord} {s : State}
    (h : i.requestNumber = some n) (hr : s.requestNumbered n = some r) :
    failRemoved i s = failRequest .noAnswer r s := by
  simp only [failRemoved, h, hr]

theorem failRemoved_event {i : SendItem} (s : State) (h : i.requestNumber = none) : failRemoved i s = s := by
  unfold failRemoved
  rw [h]

theorem requestNumbered_number {s : State} {n : RequestNumber} {r : RequestRecord} (h : s.requestNumbered n = some r) :
    r.number = n := by
  simpa using List.find?_some h

/-- The numbers go one by one; of a number met again nothing is left to go. -/
theorem failRemoved_exchange {removed : List SendItem} {s : State}
    (h : ∀ i ∈ removed, ∀ n, i.requestNumber = some n → s.requestNumbered n = none → s.exchange.Lacks n) :
    (removed.foldl (fun u i => failRemoved i u) s).exchange =
      s.exchange.without (removed.filterMap SendItem.requestNumber) := by
  induction removed generalizing s with
  | nil => exact (RequestExchange.without_nil _).symm
  | cons i removed ih =>
    rw [List.foldl_cons]
    cases hnumber : i.requestNumber with
    | none =>
      rw [failRemoved_event s hnumber, List.filterMap_cons_none hnumber]
      exact ih fun j hj => h j (List.mem_cons_of_mem _ hj)
    | some n =>
      have hone : (failRemoved i s).exchange = s.exchange.without [n] := by
        cases hrecord : s.requestNumbered n with
        | none =>
          rw [failRemoved_unknown hnumber hrecord]
          exact (h i List.mem_cons_self n hnumber hrecord).without_eq.symm
        | some r =>
          rw [failRemoved_known hnumber hrecord, ← requestNumbered_number hrecord, ← removeRequest_exchange]
          exact (changes_queueNotice _ _).exchange_eq
      rw [List.filterMap_cons_some hnumber, RequestExchange.without_cons, ← hone]
      refine ih fun j hj m hm hnone => ?_
      rw [hone]
      refine RequestExchange.lacks_without ?_
      have hafter : (failRemoved i s).requestNumbered m = if m = n then none else s.requestNumbered m := by
        rw [← requestNumbered_removeRequest]
        simp only [State.requestNumbered, hone, removeRequest_exchange]
      rw [hafter] at hnone
      split at hnone
      · rename_i heq
        exact .inl (by simp [heq])
      · exact .inr (h j (List.mem_cons_of_mem _ hj) m hm hnone)

/-- Each number's record is still there when its turn comes, so that its notice is queued. -/
theorem failRemoved_host {removed : List SendItem} {p u v : State}
    (hnodup : (removed.filterMap SendItem.requestNumber).Nodup)
    (hrecord : ∀ n ∈ removed.filterMap SendItem.requestNumber,
      u.requestNumbered n = p.requestNumbered n ∧ p.requestNumbered n ≠ none)
    (hcycle : u.cycle = p.cycle) (hhost : u.host = v.host) :
    (removed.foldl (fun u i => failRemoved i u) u).host =
      ((removed.filterMap SendItem.requestNumber).foldl (fun w n => queueNotice
        { kind := .failed, time := p.now, station := (p.requestNumbered n).map fun r => r.target, number := some n,
          code := 0, value := none } w) v).host := by
  induction removed generalizing u v with
  | nil => exact hhost
  | cons i removed ih =>
    rw [List.foldl_cons]
    cases hnumber : i.requestNumber with
    | none =>
      rw [List.filterMap_cons_none hnumber] at hnodup hrecord ⊢
      rw [failRemoved_event u hnumber]
      exact ih hnodup hrecord hcycle hhost
    | some n =>
      rw [List.filterMap_cons_some hnumber] at hnodup hrecord ⊢
      obtain ⟨hnotLater, hlater⟩ := List.nodup_cons.mp hnodup
      obtain ⟨hsame, hpresent⟩ := hrecord n List.mem_cons_self
      obtain ⟨r, hr⟩ := Option.ne_none_iff_exists'.mp hpresent
      have hstep : failRemoved i u = failRequest .noAnswer r u :=
        failRemoved_known hnumber (hsame.trans hr)
      rw [List.foldl_cons, hstep]
      refine ih hlater (fun m hm => ⟨?_, (hrecord m (List.mem_cons_of_mem _ hm)).2⟩)
        ((changes_failRequest _ r u).cycle_eq.trans hcycle) ?_
      · have hne : m ≠ n := fun heq => hnotLater (heq ▸ hm)
        have hremoved : (failRequest .noAnswer r u).requestNumbered m = (removeRequest n u).requestNumbered m := by
          rw [← requestNumbered_number hr]
          simp only [State.requestNumbered, failRequest, queueNotice_exchange]
        rw [hremoved, requestNumbered_removeRequest, if_neg hne]
        exact (hrecord m (List.mem_cons_of_mem _ hm)).1
      · rw [failRequest_host, State.noticeNow, State.now, hcycle, hr, requestNumbered_number hr]
        exact queueNotice_host_congr _ hhost

/-! ### The build (R54, R157) -/

/-- The drain passes over a copy whose record's send limit has been reached (R165). -/
theorem overdueItem_request (p : State) (n : RequestNumber) (bytes : List Byte) :
    overdueItem p.cycle.cycleNumber p.exchange.requests (.request n bytes) =
      (p.requestNumbered n).any fun r => r.sendLimit.any fun l => decide ((p.cycle.cycleNumber - l).toNat < 2 ^ 15) := by
  simp only [overdueItem, State.requestNumbered]
  cases p.exchange.requests.find? _ with
  | none => rfl
  | some r => cases hlimit : r.sendLimit <;> simp [limitReached, cycleReached, hlimit]

/-- A removed copy has its record. -/
theorem requestNumbered_of_overdue {p : State} {i : SendItem} {n : RequestNumber}
    (h : overdueItem p.cycle.cycleNumber p.exchange.requests i = true) (hn : i.requestNumber = some n) :
    p.requestNumbered n ≠ none := by
  cases i with
  | event => cases hn
  | request m bytes =>
    cases hn
    intro hnone
    rw [State.requestNumbered] at hnone
    simp [overdueItem, hnone] at h

/-- The build, its three parts named: the retry pass, the drained queues with the removed copies' records failing, and the
frame. -/
theorem buildFrame_eq {s p : State} {replies repliesLeft : List ReplyItem} {sends removed sendsLeft : List SendItem}
    (hp : p = retryPass s) (hreplies : drainReplies 64 p.exchange.replyQueue = (replies, repliesLeft))
    (hsends : drainSends (overdueItem p.cycle.cycleNumber p.exchange.requests)
      (64 - (replies.flatMap ReplyItem.encode).length) p.exchange.sendQueue = (sends, removed, sendsLeft)) :
    ∃ f, f = removed.foldl (fun u i => failRemoved i u)
        (p.setExchange { p.exchange with replyQueue := repliesLeft, sendQueue := sendsLeft }) ∧
      buildFrame s = f.setLine { f.line with
        frame := some
          { content := closeFrame (encodeHeader (f.ownHeader
              (replies.flatMap ReplyItem.encode ++ sends.flatMap SendItem.encode).length))
                (replies.flatMap ReplyItem.encode ++ sends.flatMap SendItem.encode)
            carriesNew := decide (0 < f.link.newCountdown)
            requests := sends.filterMap SendItem.requestNumber
            remaining := none } } := by
  subst hp
  refine ⟨_, rfl, ?_⟩
  unfold buildFrame
  simp only [Config.payloadMaximum, hreplies, hsends]

/-- Settles O14: the drains' items make the payload, and the removed copies' records fail one after another. -/
theorem buildTakesItsItemsFromTheQueues : Obligations.BuildTakesItsItemsFromTheQueues := by
  intro s p replies repliesLeft sends removed sendsLeft payload header failed hp hreplies hsends hpayload hheader hfailed
  have hpass : Changes [.exchange, .host] s p := hp ▸ changes_retryPass s
  have hsends : drainSends (overdueItem p.cycle.cycleNumber p.exchange.requests)
      (64 - (replies.flatMap ReplyItem.encode).length) p.exchange.sendQueue = (sends, removed, sendsLeft) := by
    rw [← hsends, ← hpass.cycle_eq]
    congr 1
    funext i
    cases i with
    | event => rfl
    | request n bytes => exact overdueItem_request p n bytes
  obtain ⟨f, hf, hbuild⟩ := buildFrame_eq hp hreplies hsends
  have hchanges : Changes [.exchange, .host] s f := by
    rw [hf]
    exact (hpass.then (ds := [.exchange, .host]) (changes_setExchange _ _)).then
      (Changes.foldl _ (fun s i => changes_failRemoved i s) _ _)
  have hreplyRoom := (drainReplies_spec 64 p.exchange.replyQueue).2.1
  rw [hreplies] at hreplyRoom
  obtain ⟨passed, -, -, hremoved, hsendRoom, -⟩ := drainSends_spec (overdueItem p.cycle.cycleNumber p.exchange.requests)
    (64 - (replies.flatMap ReplyItem.encode).length) p.exchange.sendQueue
  rw [hsends] at hremoved hsendRoom
  dsimp only at hremoved hreplyRoom hsendRoom
  have hpresent : ∀ i ∈ removed, ∀ n, i.requestNumber = some n → p.requestNumbered n ≠ none := by
    intro i hi n hn
    rw [hremoved] at hi
    exact requestNumbered_of_overdue (List.mem_filter.mp hi).2 hn
  rw [← hpayload] at hbuild
  have hownHeader : f.ownHeader payload.length = {
      station := s.own, coldstart := decide (s.link.state = .coldstart), isNew := decide (0 < s.link.newCountdown)
      cycleNumber := s.cycle.cycleNumber, cycleStart := s.cycle.cycleStart
      length := BitVec.ofNat 8 payload.length } := by
    simp only [State.ownHeader, State.own, hchanges.straps_eq, hchanges.link_eq, hchanges.cycle_eq]
  refine ⟨?_, ?_, ?_, fun hnodup => ?_, changes_buildFrame s⟩
  · rw [hpayload, List.length_append]
    omega
  · rw [hbuild, hownHeader, hheader, hchanges.line_eq, hchanges.link_eq]
    rfl
  · rw [hbuild, State.setLine_exchange, hf, failRemoved_exchange, hfailed]
    · rfl
    · exact fun i hi n hn hnone => absurd hnone (hpresent i hi n hn)
  · rw [hbuild, State.setLine_host, hf, hfailed]
    rw [hfailed] at hnodup
    have hnow : p.now = s.now := congrArg CycleUnit.lineTime hpass.cycle_eq
    rw [← hnow]
    refine failRemoved_host hnodup (fun n hn => ⟨rfl, ?_⟩) rfl rfl
    obtain ⟨i, hi, hin⟩ := List.mem_filterMap.mp hn
    exact hpresent i hi n hin

end Sys2Proof.Machine
end

