-- ==== Sys2Proof/Proofs/ExchangeBounds.lean ====
section
/-! The bounds of the Request Exchange under every step (R99, R153, R161). -/

namespace Sys2Proof.Machine

-- One thread for the whole file: its many small proofs would otherwise each take a thread's memory.
set_option Elab.async false

/-! ### The number a SUBMIT draws (R85) -/

/-- More numbers than are taken lie in a row from the counter on. -/
theorem freeNumber_not_mem {taken : List RequestNumber} (h : taken.length < 4096) (c : RequestNumber) :
    freeNumber taken taken.length c ∉ taken := by
  intro hmem
  have hrow := freeNumber_taken hmem
  have hnodup : ((List.range (taken.length + 1)).map fun k => c + BitVec.ofNat 12 k).Nodup := by
    refine List.Nodup.map_on (fun a ha b hb heq => ?_) List.nodup_range
    rw [List.mem_range] at ha hb
    bv_omega
  have hsubset : ((List.range (taken.length + 1)).map fun k => c + BitVec.ofNat 12 k) ⊆ taken := by
    intro x hx
    obtain ⟨k, hk, rfl⟩ := List.mem_map.mp hx
    exact hrow k (Nat.le_of_lt_succ (List.mem_range.mp hk))
  have hlength := (hnodup.subperm hsubset).length_le
  simp at hlength

theorem nextNumber_not_mem {s : State} (h : s.exchange.requests.length ≤ 16) :
    s.nextNumber ∉ s.exchange.requests.map fun r => r.number := by
  unfold State.nextNumber
  exact freeNumber_not_mem (by rw [List.length_map]; omega) _

/-- What a peer SUBMIT that passes has found (R103). -/
theorem refusePeerSubmit_none {s : State} {k : Station} (h : refusePeerSubmit s k = none) :
    k.val < s.stationCount ∧ s.link.state.transmits = true ∧ s.exchange.requests.length < 16 ∧
      (s.requestsTo k).length < 8 ∧ s.exchange.sendQueue.length < 24 := by
  unfold refusePeerSubmit at h
  split at h
  · cases h
  split at h
  · cases h
  split at h
  · cases h
  split at h
  · cases h
  split at h
  · cases h
  rename_i hstation htransmits hrequests htarget hroom
  exact ⟨Nat.not_le.mp hstation, by simpa using htransmits, Nat.not_le.mp hrequests, Nat.not_le.mp htarget,
    by simpa [State.sendRoom] using hroom⟩

/-! ### The invariant under the writes of the Request Exchange -/

theorem requestsTo_length (s : State) (k : Station) :
    (s.requestsTo k).length = (s.exchange.requests.map fun r => r.target).countP (· == k) := by
  rw [List.countP_map, List.countP_eq_length_filter]
  rfl

/-- Queues no longer, and lists of records with no new numbers and targets. -/
theorem ExchangeOk.mono {s t : State} (hs : ExchangeOk s)
    (hsend : t.exchange.sendQueue.length ≤ s.exchange.sendQueue.length)
    (hreply : t.exchange.replyQueue.length ≤ s.exchange.replyQueue.length)
    (hnumbers : (t.exchange.requests.map fun r => r.number).Sublist (s.exchange.requests.map fun r => r.number))
    (htargets : (t.exchange.requests.map fun r => r.target).Sublist (s.exchange.requests.map fun r => r.target))
    (hrecords : ∀ r ∈ t.exchange.requests, r.Ok)
    (hcache : ∀ k, ((t.cacheOf k).map fun r => r.number).Sublist ((s.cacheOf k).map fun r => r.number)) :
    ExchangeOk t := by
  obtain ⟨hsendMax, hreplyMax, hrequests, htarget, hnodup, -, hcaches⟩ := hs
  refine ⟨hsend.trans hsendMax, hreply.trans hreplyMax, ?_, fun k => ?_, hnodup.sublist hnumbers, hrecords, fun k => ⟨?_, ?_⟩⟩
  · have hlength := hnumbers.length_le
    rw [List.length_map, List.length_map] at hlength
    exact hlength.trans hrequests
  · have hmax := htarget k
    rw [requestsTo_length] at hmax ⊢
    exact htargets.countP_le.trans hmax
  · have hlength := (hcache k).length_le
    rw [List.length_map, List.length_map] at hlength
    exact hlength.trans (hcaches k).1
  · exact (hcaches k).2.sublist (hcache k)

/-- Only the two queues, the Pending list and the reply cache matter. -/
theorem ExchangeOk.congr {s t : State} (hs : ExchangeOk s) (hsend : t.exchange.sendQueue = s.exchange.sendQueue)
    (hreply : t.exchange.replyQueue = s.exchange.replyQueue) (hrequests : t.exchange.requests = s.exchange.requests)
    (hcache : t.exchange.cache = s.exchange.cache) : ExchangeOk t := by
  refine hs.mono (by rw [hsend]) (by rw [hreply]) (by rw [hrequests]) (by rw [hrequests]) ?_ fun k => ?_
  · rw [hrequests]
    exact hs.2.2.2.2.2.1
  · simp only [State.cacheOf, hcache]
    exact List.Sublist.refl _

theorem ExchangeOk.of_exchange {s t : State} (hs : ExchangeOk s) (h : t.exchange = s.exchange) : ExchangeOk t :=
  hs.congr (by rw [h]) (by rw [h]) (by rw [h]) (by rw [h])

/-- The Pending list alone changes, record by record. -/
theorem ExchangeOk.mapRequests {s t : State} (hs : ExchangeOk s) {f : RequestRecord → RequestRecord}
    (ht : t.exchange = { s.exchange with requests := s.exchange.requests.map f })
    (hnumber : ∀ r, (f r).number = r.number) (htarget : ∀ r, (f r).target = r.target)
    (hrecords : ∀ r ∈ s.exchange.requests, (f r).Ok) : ExchangeOk t := by
  refine hs.mono (by rw [ht]) (by rw [ht]) ?_ ?_ ?_ fun k => ?_
  · rw [ht, List.map_map, show (fun r : RequestRecord => r.number) ∘ f = _ from funext hnumber]
  · rw [ht, List.map_map, show (fun r : RequestRecord => r.target) ∘ f = _ from funext htarget]
  · rw [ht]
    intro r hr
    obtain ⟨x, hx, rfl⟩ := List.mem_map.mp hr
    exact hrecords x hx
  · simp only [State.cacheOf, ht]
    exact List.Sublist.refl _

theorem ExchangeOk.queueReplyItem {s : State} (hs : ExchangeOk s) (i : ReplyItem) : ExchangeOk (queueReplyItem i s) := by
  rcases Nat.lt_or_ge s.exchange.replyQueue.length 16 with hroom | hfull
  · rw [queueReplyItem_of_room i s hroom]
    obtain ⟨hsend, -, hrest⟩ := hs
    refine ⟨hsend, ?_, hrest⟩
    rw [State.setExchange_exchange, List.length_append]
    exact hroom
  · rwa [queueReplyItem_of_full i s hfull]

theorem ExchangeOk.queueSendItem {s : State} (hs : ExchangeOk s) (i : SendItem) (hroom : s.exchange.sendQueue.length < 24) :
    ExchangeOk (queueSendItem i s) := by
  obtain ⟨-, hrest⟩ := hs
  refine ⟨?_, hrest⟩
  show (s.exchange.sendQueue ++ [i]).length ≤ 24
  rw [List.length_append]
  exact hroom

theorem ExchangeOk.removeRequest {s : State} (hs : ExchangeOk s) (n : RequestNumber) : ExchangeOk (removeRequest n s) :=
  hs.mono (List.length_filter_le _ _) (Nat.le_refl _) ((List.filter_sublist).map _) ((List.filter_sublist).map _)
    (fun r hr => hs.2.2.2.2.2.1 r (List.mem_filter.mp hr).1) fun _ => List.Sublist.refl _

theorem ExchangeOk.failRequest {s : State} (hs : ExchangeOk s) (why : FailReason) (r : RequestRecord) :
    ExchangeOk (failRequest why r s) := (hs.removeRequest r.number).of_exchange (queueNotice_exchange _ _)

/-- The reply cache of one origin takes these records. -/
theorem ExchangeOk.setCacheOf {s : State} (hs : ExchangeOk s) (k : Station) {l : List CacheRecord} (hlength : l.length ≤ 8)
    (hnodup : (l.map fun r => r.number).Nodup) : ExchangeOk (setCacheOf k l s) := by
  obtain ⟨hsend, hreply, hrequests, htarget, hnumbers, hrecords, hcaches⟩ := hs
  refine ⟨hsend, hreply, hrequests, htarget, hnumbers, hrecords, fun j => ?_⟩
  rw [State.cacheOf_setCacheOf]
  split
  · exact ⟨hlength, hnodup⟩
  · exact hcaches j

/-- A record of a number that has none joins the cache of its origin. -/
theorem ExchangeOk.answerRequest {s : State} (hs : ExchangeOk s) {k : Station} {n : RequestNumber} (c : ReplyCode)
    (hcached : s.cachedCode k n = none) (hroom : (s.cacheOf k).length < 8) : ExchangeOk (answerRequest k n c s) := by
  refine (hs.setCacheOf k ?_ ?_).queueReplyItem _
  · rw [List.length_append]
    exact hroom
  · have hfree : ∀ r ∈ s.cacheOf k, r.number ≠ n := by
      simpa [State.cachedCode] using hcached
    rw [List.map_append, List.nodup_append]
    refine ⟨(hs.2.2.2.2.2.2 k).2, List.nodup_singleton _, ?_⟩
    simpa using hfree

/-- A passed SUBMIT finds room, and its number is free. -/
theorem ExchangeOk.makeRequest {s : State} (hs : ExchangeOk s) {k : Station} (r : Request)
    (hpasses : refusePeerSubmit s k = none) : ExchangeOk (makeRequest k s.nextNumber r (drawNumber s)) := by
  obtain ⟨-, -, hrequests, htarget, hroom⟩ := refusePeerSubmit_none hpasses
  have hfree := nextNumber_not_mem (Nat.le_of_lt hrequests)
  obtain ⟨hsend, hreply, -, htargets, hnumbers, hrecords, hcaches⟩ := hs
  unfold Machine.makeRequest
  refine ExchangeOk.queueSendItem ?_ _ hroom
  refine ⟨hsend, hreply, ?_, fun j => ?_, ?_, fun x hx => ?_, hcaches⟩
  · show (s.exchange.requests ++ [_]).length ≤ 16
    rw [List.length_append]
    exact hrequests
  · show ((s.exchange.requests ++ [_]).filter _).length ≤ 8
    rw [List.filter_append, List.length_append]
    by_cases hj : k = j
    · subst hj
      simpa [State.requestsTo] using htarget
    · simpa [hj, State.requestsTo] using htargets j
  · show ((s.exchange.requests ++ [_]).map _).Nodup
    rw [List.map_append, List.nodup_append]
    refine ⟨hnumbers, List.nodup_singleton _, ?_⟩
    simpa using fun x hx heq => hfree (List.mem_map.mpr ⟨x, hx, heq⟩)
  · rcases List.mem_append.mp hx with hold | hnew
    · exact hrecords x hold
    · rw [List.mem_singleton.mp hnew]
      exact ⟨Nat.le_refl 1, Nat.le_add_left 1 2, rfl, nofun⟩

/-! ### The retry pass and what goes out -/

theorem RequestRecord.retried_ok {r : RequestRecord} (htries : r.tries < 3) : r.retried.Ok :=
  ⟨Nat.le_add_left 1 _, htries, rfl, nofun⟩

theorem RequestRecord.Ok.wentOut {r : RequestRecord} (h : r.Ok) (c : CycleNumber) : (r.wentOut c).Ok := by
  obtain ⟨hleast, hmost, -, -⟩ := h
  refine ⟨hleast, hmost, rfl, fun _ => ?_⟩
  unfold RequestRecord.wentOut
  cases r.sendLimit <;> rfl

/-- Of a record in the list: no other has its number, and it has tries left where it is queued again. -/
theorem ExchangeOk.retryRequest {s : State} (hs : ExchangeOk s) {r : RequestRecord} (hr : r ∈ s.exchange.requests) :
    ExchangeOk (retryRequest r s) := by
  by_cases hdue : r.Due s.cycle.cycleNumber
  · by_cases hexhausted : r.Exhausted s.cycle.cycleNumber
    · rw [retryRequest_fails hdue hexhausted]
      exact hs.failRequest _ _
    · rcases Nat.lt_or_ge s.exchange.sendQueue.length 24 with hroom | hfull
      · rw [retryRequest_again hdue hexhausted hroom]
        refine (hs.mapRequests rfl (fun x => ?_) (fun x => ?_) fun x hx => ?_).queueSendItem _ hroom
        · split <;> rfl
        · split <;> rfl
        · obtain ⟨-, -, -, -, hnodup, hrecords, -⟩ := hs
          split
          · rename_i heq
            rw [List.inj_on_of_nodup_map hnodup hx hr heq]
            exact RequestRecord.retried_ok (Nat.not_le.mp fun h => hexhausted (.inl h))
          · exact hrecords x hx
      · rwa [retryRequest_deferred hdue hexhausted hfull]
  · rwa [retryRequest_idle hdue]

/-- The records still to come stay in the list until the pass comes to them. -/
theorem ExchangeOk.retryEach {rs : List RequestRecord} {s : State} (hs : ExchangeOk s)
    (hmem : ∀ r ∈ rs, r ∈ s.exchange.requests) (hnodup : (rs.map fun r => r.number).Nodup) : ExchangeOk (retryEach rs s) := by
  induction rs generalizing s with
  | nil => exact hs
  | cons r rs ih =>
    obtain ⟨hnew, hrest⟩ := List.nodup_cons.mp hnodup
    refine ih (hs.retryRequest (hmem r List.mem_cons_self)) (fun x hx => ?_) hrest
    refine mem_retryRequest_of_ne (hmem x (List.mem_cons_of_mem _ hx)) fun heq => hnew ?_
    exact List.mem_map.mpr ⟨x, hx, heq⟩

theorem ExchangeOk.retryPass {s : State} (hs : ExchangeOk s) : ExchangeOk (retryPass s) :=
  hs.retryEach (fun _ hr => hr) hs.2.2.2.2.1

theorem ExchangeOk.reportSent {s : State} (hs : ExchangeOk s) (f : OwnFrame) : ExchangeOk (reportSent f s) := by
  rw [reportSent_eq]
  refine hs.mapRequests rfl (fun r => ?_) (fun r => ?_) fun r hr => ?_
  · split <;> rfl
  · split <;> rfl
  · split
    · exact (hs.2.2.2.2.2.1 r hr).wentOut _
    · exact hs.2.2.2.2.2.1 r hr

theorem ExchangeOk.moveCycles {s : State} (hs : ExchangeOk s) (d : CycleNumber) : ExchangeOk (moveCycles d s) := by
  refine hs.mono (Nat.le_refl _) (Nat.le_refl _) ?_ ?_ (fun r hr => ?_) fun k => ?_
  · simp only [Machine.moveCycles, State.setExchange_exchange, List.map_map]
    exact List.Sublist.refl _
  · simp only [Machine.moveCycles, State.setExchange_exchange, List.map_map]
    exact List.Sublist.refl _
  · obtain ⟨x, hx, rfl⟩ := List.mem_map.mp hr
    obtain ⟨hleast, hmost, hdeadline, hlimit⟩ := hs.2.2.2.2.2.1 x hx
    exact ⟨hleast, hmost, by simpa using hdeadline, by simpa using hlimit⟩
  · simp only [Machine.moveCycles, State.cacheOf, State.setExchange_exchange, get_mapVector, List.map_map]
    exact List.Sublist.refl _

theorem ExchangeOk.expireCache {s : State} (hs : ExchangeOk s) : ExchangeOk (expireCache s) := by
  refine hs.mono (Nat.le_refl _) (Nat.le_refl _) (List.Sublist.refl _) (List.Sublist.refl _) hs.2.2.2.2.2.1 fun k => ?_
  simp only [Machine.expireCache, State.cacheOf, State.setExchange_exchange, get_mapVector]
  exact (List.filter_sublist).map _

theorem ExchangeOk.emptyCache {s : State} (hs : ExchangeOk s) :
    ExchangeOk (s.setExchange { s.exchange with cache := Vector.replicate 16 [] }) := by
  refine hs.mono (Nat.le_refl _) (Nat.le_refl _) (List.Sublist.refl _) (List.Sublist.refl _) hs.2.2.2.2.2.1 fun k => ?_
  simp only [State.cacheOf, State.setExchange_exchange, get_replicate]
  exact List.nil_sublist _

/-! ### Every step -/

theorem exchangeOk_tableBlind : TableBlind ExchangeOk where
  table hc hs := hs.of_exchange hc.exchange_eq
  drive _ _ _ hs := hs.of_exchange rfl
  result e o hs := by
    unfold produceResult
    split
    · split
      · exact hs.of_exchange (queueNotice_exchange _ _)
      · exact hs.queueReplyItem _
    · exact hs

theorem exchangeOk_closed : Closed ExchangeOk where
  frame hc hs := hs.of_exchange hc.exchange_eq
  port _ _ hs := hs.of_exchange rfl
  notice n hs := hs.of_exchange (queueNotice_exchange n _)
  popped _ hs := hs.of_exchange (changes_queueOverflow _).exchange_eq
  fresh hs := hs.of_exchange rfl
  back _ hu := hu.of_exchange rfl
  behind _ hs := hs.of_exchange (changes_queueBehind _ _ _).exchange_eq
  reply i hs := hs.queueReplyItem i
  send i hroom hs := hs.queueSendItem i (of_decide_eq_true hroom)
  remove n hs := hs.removeRequest n
  forget k hs := hs.setCacheOf k (Nat.zero_le _) List.nodup_nil
  answer _ _ c hcached hroom hs := hs.answerRequest c hcached hroom
  retry hs := hs.retryPass
  drain _ _ hreply hsend hs := hs.mono hsend hreply (List.Sublist.refl _) (List.Sublist.refl _) hs.2.2.2.2.2.1
    fun _ => List.Sublist.refl _
  sent f hs := hs.reportSent f
  move d hs := hs.moveCycles d
  expire hs := hs.expireCache
  uncache hs := hs.emptyCache
  draw hs := hs.congr rfl rfl rfl rfl
  submit _ r hpasses hs := hs.makeRequest r hpasses
  edge _ hs := exchangeOk_tableBlind.takeEdge _ hs
  note _ _ _ hs := hs.of_exchange rfl
  step _ _ _ hs := exchangeOk_tableBlind.tableStep _ _ _ hs
  abandon hs := exchangeOk_tableBlind.abandonTable hs
  meet _ hs := exchangeOk_tableBlind.matchEvent _ hs
  amend _ _ hs := exchangeOk_tableBlind.amendEntry _ _ hs
  cancel _ hs := exchangeOk_tableBlind.leave _ _ hs
  place k n o _ _ hs := hs.of_exchange (changes_placeOrder k n o _).exchange_eq
  bound _ hs := exchangeOk_tableBlind.leavesSilently _ hs
  watchers k hs := exchangeOk_tableBlind.removeWatchers k hs
  peers hs := exchangeOk_tableBlind.leavesSilently _ hs

/-- Settles O57: every write that reaches the Request Exchange keeps its bounds, and a reset empties it. -/
theorem stepKeepsExchangeOk : Obligations.StepKeepsExchangeOk := fun _ _ hs hstep =>
  exchangeOk_closed.step_keeps (fun _ _ => reset_exchangeOk) (fun _ _ _ hs => hs.congr rfl rfl rfl rfl)
    (fun _ _ hs => hs.congr rfl rfl rfl rfl) (fun s levels hs => hs.of_exchange (changes_writeIdles levels s).exchange_eq)
    hs hstep

end Sys2Proof.Machine
end

