-- ==== Sys2Proof/Proofs/TableBounds.lean ====
section
/-! The Order Table and the channels under every step (R107, R108, R134, R135): entries apart and in agreement with their
states, and each channel owned by exactly its RUNNING entry. -/

namespace Sys2Proof.Machine

-- One thread for the whole file: its many small proofs would otherwise each take a thread's memory.
set_option Elab.async false

/-! ### Entries that leave (R127, R146) -/

theorem leave_table (e : Entry) (o : EntryOutcome) (s : State) :
    (leave e o s).table = s.table.filter fun x => x.index != e.index := by
  rw [leave, depart_table, (changes_releaseChannel e.channel e.index s).table_eq]

theorem State.channel_congr {s t : State} (h : t.channels = s.channels) (c : ChannelNumber) : t.channel c = s.channel c := by
  rw [State.channel, h]
  rfl

theorem releaseChannel_channel (c : ChannelNumber) (i : Index) (s : State) (d : ChannelNumber) :
    (releaseChannel c i s).channel d =
      if c = d ∧ (s.channel d).owner = some i then { s.channel d with owner := none, phase := .inactive }
      else s.channel d := by
  by_cases howner : (s.channel c).owner = some i
  · rw [releaseChannel_owner howner, State.channel_setChannel]
    by_cases hd : d = c
    · simp [hd, howner]
    · simp [hd, Ne.symm hd]
  · rw [releaseChannel_other howner, if_neg]
    rintro ⟨rfl, h⟩
    exact howner h

theorem leave_channel (e : Entry) (o : EntryOutcome) (s : State) (c : ChannelNumber) :
    (leave e o s).channel c =
      if e.channel = c ∧ (s.channel c).owner = some e.index then
        { s.channel c with owner := none, phase := .inactive }
      else s.channel c := by
  rw [leave, State.channel_congr (depart_channels _ _ _), releaseChannel_channel]

/-- What is in the table after an entry is put in its place. -/
theorem mem_replaceEntry {e x : Entry} {s : State} (hx : x ∈ (replaceEntry e s).table) :
    x = e ∨ x ∈ s.table ∧ x.index ≠ e.index := by
  obtain ⟨y, hy, rfl⟩ := List.mem_map.mp hx
  split
  · exact .inl rfl
  · rename_i hne
    exact .inr ⟨hy, hne⟩

theorem mem_replaceEntry_of_ne {e x : Entry} {s : State} (hx : x ∈ s.table) (hne : x.index ≠ e.index) :
    x ∈ (replaceEntry e s).table := List.mem_map.mpr ⟨x, hx, if_neg hne⟩

theorem mem_replaceEntry_self {e x : Entry} {s : State} (hx : x ∈ s.table) (heq : x.index = e.index) :
    e ∈ (replaceEntry e s).table := List.mem_map.mpr ⟨x, hx, if_pos heq⟩

/-! ### The invariant, and one entry changed or gone -/

/-- The invariants of the Order Table and of the channels, which hold together. -/
def OrdersOk (s : State) : Prop := TableOk s ∧ ChannelsOk s

theorem OrdersOk.congr {s t : State} (hs : OrdersOk s) (htable : t.table = s.table)
    (hchannel : ∀ c, (t.channel c).owner = (s.channel c).owner ∧ (t.channel c).phase = (s.channel c).phase) :
    OrdersOk t := by
  have howner c := (hchannel c).1
  have hphase c := (hchannel c).2
  unfold OrdersOk TableOk ChannelsOk
  simp only [htable, howner, hphase]
  exact hs

theorem OrdersOk.of_changes {s t : State} {bs : List Block} (hs : OrdersOk s) (h : Changes bs s t)
    (htable : Block.table ∉ bs := by decide) (hchannels : Block.channels ∉ bs := by decide) : OrdersOk t :=
  hs.congr (h _ htable) fun c => by rw [State.channel_congr (h _ hchannels)]; exact ⟨rfl, rfl⟩

theorem OrdersOk.entry_ok {s : State} (hs : OrdersOk s) {e : Entry} (he : e ∈ s.table) : e.Ok := hs.1.2.2 e he

/-- An entry that is not RUNNING owns nothing. -/
theorem OrdersOk.not_owner {s : State} (hs : OrdersOk s) {e : Entry} (he : e ∈ s.table) (hstate : e.state ≠ .running)
    (c : ChannelNumber) : (s.channel c).owner ≠ some e.index := fun howner =>
  hstate ((hs.2.owner_iff hs.1 he c).mp howner).1

theorem OrdersOk.entryAt_of_mem {s : State} (hs : OrdersOk s) {e : Entry} (he : e ∈ s.table) :
    s.entryAt e.index = some e := by
  cases hx : s.entryAt e.index with
  | none =>
    have hnone := List.find?_eq_none.mp hx e he
    simp at hnone
  | some x => rw [hs.1.eq_of_index (State.entryAt_mem hx) he (State.entryAt_index hx)]

theorem OrdersOk.entryAt_replaced {s : State} (hs : OrdersOk s) {e e' : Entry} (he : e ∈ s.table)
    (hindex : e'.index = e.index) : (replaceEntry e' s).entryAt e.index = some e' := by
  rw [entryAt_replaceEntry, if_pos hindex.symm, hs.entryAt_of_mem he]
  rfl

/-- An entry gives up its place to a form of itself. `hruns`: a form that runs owns the channel, which was its own or free.
`hrests`: a form that does not run leaves the channel free that its RUNNING entry had, and any other as it was. -/
theorem OrdersOk.edit {s t : State} (hs : OrdersOk s) {e e' : Entry} (he : e ∈ s.table) (hindex : e'.index = e.index)
    (hname : (e'.origin, e'.number) = (e.origin, e.number)) (hchannel : e'.channel = e.channel) (hok : e'.Ok)
    (htable : t.table = (replaceEntry e' s).table) (hothers : ∀ c, c ≠ e.channel → t.channel c = s.channel c)
    (hruns : e'.state = .running → (e.state = .running ∨ (s.channel e.channel).owner = none) ∧
      (t.channel e.channel).owner = some e.index ∧ ((t.channel e.channel).phase = .active ↔ e'.active = true))
    (hrests : e'.state ≠ .running →
      (e.state = .running ∧ (t.channel e.channel).owner = none ∧ (t.channel e.channel).phase = .inactive) ∨
      (e.state ≠ .running ∧ t.channel e.channel = s.channel e.channel)) : OrdersOk t := by
  obtain ⟨⟨hindices, hnames, hentries⟩, hrunning, howned, hfree⟩ := hs
  have htableOk : TableOk s := ⟨hindices, hnames, hentries⟩
  have hsame : ∀ x ∈ s.table, x.index = e'.index → x = e := fun x hx hxe =>
    htableOk.eq_of_index hx he (hxe.trans hindex)
  have hkept : ∀ x ∈ s.table, x ≠ e → x ∈ t.table := fun x hx hne => by
    rw [htable]
    exact mem_replaceEntry_of_ne hx fun hxe => hne (hsame x hx hxe)
  have hself : e' ∈ t.table := htable ▸ mem_replaceEntry_self he hindex.symm
  refine ⟨⟨?_, ?_, fun x hx => ?_⟩, fun x hx hxruns => ?_, fun c i howner => ?_, fun c hnone => ?_⟩
  · rw [htable, table_replaceEntry_indices]
    exact hindices
  · have heq : (t.table.map fun x => (x.origin, x.number)) = s.table.map fun x => (x.origin, x.number) := by
      rw [htable, replaceEntry, State.setTable_table, List.map_map]
      refine List.map_congr_left fun x hx => ?_
      simp only [Function.comp_apply]
      split
      · rename_i hxe
        rw [hname, hsame x hx hxe]
      · rfl
    rw [heq]
    exact hnames
  · rcases mem_replaceEntry (htable ▸ hx) with rfl | ⟨hold, -⟩
    · exact hok
    · exact hentries x hold
  · rcases mem_replaceEntry (htable ▸ hx) with rfl | ⟨hold, hne⟩
    · obtain ⟨-, howner, hphase⟩ := hruns hxruns
      rw [hchannel, hindex]
      exact ⟨howner, hphase⟩
    · by_cases hxc : x.channel = e.channel
      · obtain ⟨howner, hphase⟩ := hrunning x hold hxruns
        have hnotOwned : (s.channel e.channel).owner ≠ some e.index := fun h => by
          rw [hxc, h] at howner
          exact hne (hindex ▸ (Option.some.inj howner).symm)
        have hnotRunning : e.state ≠ .running := fun h => hnotOwned (hrunning e he h).1
        have hrest : e'.state ≠ .running := fun h => by
          rcases (hruns h).1 with hr | hn
          · exact hnotRunning hr
          · rw [hxc, hn] at howner
            cases howner
        rcases hrests hrest with ⟨hr, -⟩ | ⟨-, hunchanged⟩
        · exact absurd hr hnotRunning
        · rw [hxc, hunchanged, ← hxc]
          exact ⟨howner, hphase⟩
      · rw [hothers _ hxc]
        exact hrunning x hold hxruns
  · by_cases hc : c = e.channel
    · subst hc
      by_cases hrun : e'.state = .running
      · rw [(hruns hrun).2.1] at howner
        exact ⟨e', hself, hindex.trans (Option.some.inj howner), hrun, hchannel⟩
      · rcases hrests hrun with ⟨-, hnone, -⟩ | ⟨hnotRunning, hunchanged⟩
        · rw [hnone] at howner
          cases howner
        · rw [hunchanged] at howner
          obtain ⟨x, hx, hxi, hxruns, hxc⟩ := howned _ _ howner
          exact ⟨x, hkept x hx fun h => hnotRunning (h ▸ hxruns), hxi, hxruns, hxc⟩
    · rw [hothers c hc] at howner
      obtain ⟨x, hx, hxi, hxruns, hxc⟩ := howned _ _ howner
      exact ⟨x, hkept x hx fun h => hc (h ▸ hxc).symm, hxi, hxruns, hxc⟩
  · by_cases hc : c = e.channel
    · subst hc
      by_cases hrun : e'.state = .running
      · rw [(hruns hrun).2.1] at hnone
        cases hnone
      · rcases hrests hrun with ⟨-, -, hphase⟩ | ⟨-, hunchanged⟩
        · exact hphase
        · rw [hunchanged] at hnone ⊢
          exact hfree _ hnone
    · rw [hothers c hc] at hnone ⊢
      exact hfree c hnone

/-- An entry changes within its state, and the channels stay. -/
theorem OrdersOk.replaceEntry {s : State} (hs : OrdersOk s) {e e' : Entry} (he : e ∈ s.table) (hindex : e'.index = e.index)
    (hname : (e'.origin, e'.number) = (e.origin, e.number)) (hchannel : e'.channel = e.channel) (hok : e'.Ok)
    (hruns : e'.state = .running ↔ e.state = .running) (hactive : e.state = .running → e'.active = e.active) :
    OrdersOk (replaceEntry e' s) := by
  refine hs.edit he hindex hname hchannel hok rfl (fun _ _ => rfl) (fun hrun => ?_) fun hrest => .inr ⟨mt hruns.mpr hrest, rfl⟩
  obtain ⟨howner, hphase⟩ := hs.2.1 e he (hruns.mp hrun)
  exact ⟨.inl (hruns.mp hrun), howner, by rw [hactive (hruns.mp hrun)]; exact hphase⟩

/-- An entry is gone, and its channel is free. -/
theorem OrdersOk.drop {s t : State} (hs : OrdersOk s) {e : Entry} (he : e ∈ s.table)
    (htable : t.table = s.table.filter fun x => x.index != e.index)
    (hchannel : ∀ c, t.channel c = if e.channel = c ∧ (s.channel c).owner = some e.index then
      { s.channel c with owner := none, phase := .inactive } else s.channel c) : OrdersOk t := by
  obtain ⟨⟨hindices, hnames, hentries⟩, hrunning, howned, hfree⟩ := hs
  have hmem : ∀ x, x ∈ t.table ↔ x ∈ s.table ∧ x.index ≠ e.index := fun x => by
    rw [htable, List.mem_filter, bne_iff_ne]
  have hsub : t.table.Sublist s.table := htable ▸ List.filter_sublist
  refine ⟨⟨hindices.sublist (hsub.map _), hnames.sublist (hsub.map _), fun x hx => hentries x (hsub.subset hx)⟩,
    fun x hx hruns => ?_, fun c i howner => ?_, fun c hnone => ?_⟩
  · obtain ⟨hold, hne⟩ := (hmem x).mp hx
    obtain ⟨howner, hphase⟩ := hrunning x hold hruns
    rw [hchannel, if_neg fun h => hne (Option.some.inj (howner.symm.trans h.2))]
    exact ⟨howner, hphase⟩
  · rw [hchannel] at howner
    split at howner
    · cases howner
    · rename_i hnot
      obtain ⟨x, hx, hxi, hruns, hxc⟩ := howned c i howner
      refine ⟨x, (hmem x).mpr ⟨hx, fun hxe => hnot ?_⟩, hxi, hruns, hxc⟩
      have hxeq : x = e := TableOk.eq_of_index (s := s) ⟨hindices, hnames, hentries⟩ hx he hxe
      rw [← hxeq]
      exact ⟨hxc, hxi ▸ howner⟩
  · rw [hchannel] at hnone ⊢
    split
    · rfl
    · rename_i hnot
      rw [if_neg hnot] at hnone
      exact hfree c hnone

theorem OrdersOk.leave {s : State} (hs : OrdersOk s) {e : Entry} (he : e ∈ s.table) (o : EntryOutcome) :
    OrdersOk (leave e o s) := hs.drop he (leave_table e o s) (leave_channel e o s)

theorem OrdersOk.leaveSilently {s : State} (hs : OrdersOk s) {e : Entry} (he : e ∈ s.table) :
    OrdersOk (leaveSilently e s) := hs.drop he (leaveSilently_table e s) (leaveSilently_channel e s)

/-- Entries of the table that leave one after another. -/
theorem OrdersOk.leaveEach {leaves : Entry → State → State}
    (hleaves : ∀ e s, OrdersOk s → e ∈ s.table →
      OrdersOk (leaves e s) ∧ (leaves e s).table = s.table.filter fun x => x.index != e.index)
    {es : List Entry} {s : State} (hs : OrdersOk s) (hmem : ∀ e ∈ es, e ∈ s.table)
    (hnodup : (es.map fun e => e.index).Nodup) : OrdersOk (leaveEach es leaves s) := by
  induction es generalizing s with
  | nil => exact hs
  | cons e es ih =>
    obtain ⟨hnew, hrest⟩ := List.nodup_cons.mp hnodup
    obtain ⟨hkept, htable⟩ := hleaves e s hs (hmem e List.mem_cons_self)
    refine ih hkept (fun x hx => ?_) hrest
    rw [htable, List.mem_filter, bne_iff_ne]
    exact ⟨hmem x (List.mem_cons_of_mem _ hx), fun heq => hnew (List.mem_map.mpr ⟨x, hx, heq⟩)⟩

theorem OrdersOk.leavesSilently {s : State} (hs : OrdersOk s) (p : Entry → Bool) :
    OrdersOk (Machine.leaveEach (s.table.filter p) Machine.leaveSilently s) :=
  OrdersOk.leaveEach (fun e _ hs he => ⟨hs.leaveSilently he, leaveSilently_table e _⟩) hs
    (fun _ he => (List.mem_filter.mp he).1) (hs.1.1.sublist (List.filter_sublist.map _))

theorem leaveSourceLost_table (k : Station) (e : Entry) (s : State) :
    (leaveSourceLost k e s).table = s.table.filter fun x => x.index != e.index := by
  unfold leaveSourceLost
  split
  · exact leaveSilently_table e s
  · exact leave_table e _ s

theorem OrdersOk.removeWatchers {s : State} (hs : OrdersOk s) (k : Station) : OrdersOk (removeWatchers k s) := by
  refine OrdersOk.leaveEach (fun e s hs he => ⟨?_, leaveSourceLost_table k e s⟩) hs (fun _ he => (List.mem_filter.mp he).1)
    (hs.1.1.sublist (List.filter_sublist.map _))
  unfold leaveSourceLost
  split
  · exact hs.leaveSilently he
  · exact hs.leave he _

theorem OrdersOk.abandonTable {s : State} (hs : OrdersOk s) : OrdersOk (abandonTable s) :=
  OrdersOk.leaveEach (fun e _ hs he => ⟨hs.leave he _, leave_table e _ _⟩) hs (fun _ he => he) hs.1.1

/-! ### What an entry becomes -/

section
variable {e : Entry}

theorem Entry.Ok.armedAt (h : e.Ok) (hevent : e.event.isSome = true) (x : Time) : (e.armedAt x).Ok := by
  obtain ⟨-, -, -, -, -, htrain⟩ := h
  refine ⟨fun _ => ⟨rfl, rfl, ?_⟩, nofun, nofun, fun hfollowing => ?_, nofun, fun tr htr => ?_⟩
  · simpa [Entry.armedAt] using hevent
  · simp only [Entry.followingStart, Entry.armedAt] at hfollowing
    cases hnone : e.train <;> simp [hnone] at hfollowing
  · obtain ⟨tr', htr', rfl⟩ := Option.mem_map.mp htr
    exact htrain tr' htr'

theorem TrainPart.startAt_period (tr : TrainPart) (x : Time) : (tr.startAt x).period = tr.period := by
  unfold TrainPart.startAt
  split
  · rfl
  · split <;> rfl

theorem Entry.Ok.startedAt (h : e.Ok) (x : Time) : (e.startedAt x).Ok := by
  obtain ⟨-, -, -, -, -, htrain⟩ := h
  refine ⟨nofun, nofun, fun _ => ⟨rfl, nofun⟩, fun _ => ⟨rfl, rfl⟩, fun _ hnone => ?_, fun tr htr => ?_⟩
  · by_contra hwidth
    have hedge : (e.startedAt x).nextEdge = some (x + e.width.setWidth 32) := if_neg hwidth
    rw [hedge] at hnone
    cases hnone
  · obtain ⟨tr', htr', rfl⟩ := Option.mem_map.mp htr
    rw [TrainPart.startAt_period]
    exact htrain tr' htr'

theorem Entry.Ok.betweenPhases (h : e.Ok) {x : Time} (hfollowing : e.followingStart = some x) (y : Time) :
    (e.betweenPhases y).Ok := by
  obtain ⟨-, -, hrunning, hactive, -, htrain⟩ := h
  obtain ⟨hstate, -⟩ := hactive (by rw [hfollowing]; rfl)
  obtain ⟨hstart, -⟩ := hrunning hstate
  have hstate' : (e.betweenPhases y).state = .running := hstate
  refine ⟨fun h => ?_, fun h => ?_, fun _ => ⟨hstart, fun _ => ⟨rfl, ?_⟩⟩, fun hf => ?_, nofun, fun tr htr => ?_⟩
  · rw [hstate'] at h
    cases h
  · rw [hstate'] at h
    cases h
  · cases hnone : e.train with
    | none => simp [Entry.followingStart, hnone] at hfollowing
    | some tr => simp [Entry.betweenPhases, hnone]
  · simp only [Entry.followingStart, Entry.betweenPhases] at hf
    cases hnone : e.train <;> simp [hnone] at hf
  · obtain ⟨tr', htr', rfl⟩ := Option.mem_map.mp htr
    exact htrain tr' htr'

theorem TrainPart.of_period_eq {x y : Option TrainPart} (h : (x.map fun tr => tr.period) = y.map fun tr => tr.period)
    {tr : TrainPart} (htr : tr ∈ x) : ∃ tr' ∈ y, tr'.period = tr.period := by
  rw [Option.mem_def.mp htr] at h
  exact Option.map_eq_some_iff.mp h.symm

/-- A change that leaves what `Entry.Ok` speaks of. -/
theorem Entry.Ok.congr {e' : Entry} (h : e.Ok) (hstate : e'.state = e.state) (hactive : e'.active = e.active)
    (hedge : e'.nextEdge.isSome = e.nextEdge.isSome) (hevent : e'.event.isSome = e.event.isSome)
    (hwidth : e'.width = e.width) (hstart : e'.lastStart = e.lastStart)
    (hfollowing : e'.followingStart.isSome = e.followingStart.isSome)
    (htrain : (e'.train.map fun tr => tr.period) = e.train.map fun tr => tr.period) : e'.Ok := by
  have hnone : e'.nextEdge = none ↔ e.nextEdge = none := by
    rw [← Option.not_isSome_iff_eq_none, hedge, Option.not_isSome_iff_eq_none]
  have hisTrain : e'.train.isSome = e.train.isSome := by simpa using congrArg Option.isSome htrain
  obtain ⟨harmed, hscheduled, hrunning, hfollows, hhold, hperiod⟩ := h
  unfold Entry.Ok
  rw [hstate, hactive, hedge, hevent, hwidth, hstart, hfollowing, hnone, hisTrain]
  refine ⟨harmed, hscheduled, hrunning, hfollows, hhold, fun tr htr => ?_⟩
  obtain ⟨tr', htr', heq⟩ := TrainPart.of_period_eq htrain htr
  exact heq ▸ hperiod tr' htr'

theorem Entry.Ok.withEdge (h : e.Ok) (hstate : e.state ≠ .armed) (x : Time) : ({ e with nextEdge := some x } : Entry).Ok := by
  obtain ⟨-, hscheduled, hrunning, hfollows, -, hperiod⟩ := h
  exact ⟨fun h => absurd h hstate, fun h => ⟨rfl, (hscheduled h).2⟩, fun h => ⟨(hrunning h).1, fun hactive =>
    ⟨rfl, ((hrunning h).2 hactive).2⟩⟩, hfollows, nofun, hperiod⟩

theorem Entry.withFullCount_followingStart (e : Entry) : e.withFullCount.followingStart = e.followingStart := by
  unfold Entry.followingStart Entry.withFullCount
  cases e.train <;> rfl

theorem Entry.withFullCount_period (e : Entry) :
    (e.withFullCount.train.map fun tr => tr.period) = e.train.map fun tr => tr.period := by
  unfold Entry.withFullCount
  cases e.train <;> rfl

theorem Entry.Ok.withFullCount (h : e.Ok) : e.withFullCount.Ok :=
  h.congr rfl rfl rfl rfl rfl rfl (by rw [Entry.withFullCount_followingStart]) (Entry.withFullCount_period e)

/-- The form that a match gives an ARMED entry (R112). -/
def Entry.scheduledAt (e : Entry) (due : Time) : Entry :=
  { e.withFullCount with state := .scheduled, nextEdge := some due, active := false }

theorem Entry.Ok.scheduledAt (h : e.Ok) (harmed : e.state = .armed) (due : Time) : (e.scheduledAt due).Ok := by
  obtain ⟨-, -, -, hfollows, -, hperiod⟩ := h
  refine ⟨nofun, fun _ => ⟨rfl, rfl⟩, nofun, fun hf => ?_, nofun, fun tr htr => ?_⟩
  · have hfollowing : (e.scheduledAt due).followingStart = e.followingStart := e.withFullCount_followingStart
    rw [hfollowing] at hf
    rw [harmed] at hfollows
    cases (hfollows hf).1
  · obtain ⟨tr', htr', heq⟩ := TrainPart.of_period_eq e.withFullCount_period htr
    exact heq ▸ hperiod tr' htr'

theorem Entry.shiftedTrain_ok (h : e.Ok) (d : BitVec 24) : (e.shiftedTrain d).Ok := by
  refine h.congr rfl rfl Option.isSome_map rfl rfl rfl ?_ ?_ <;> unfold Entry.shiftedTrain
  · simp only [Entry.followingStart]
    cases htr : e.train with
    | none => rfl
    | some tr => exact Option.isSome_map
  · cases e.train <;> rfl

theorem Entry.NotedAs.ok {x : Entry} (hx : e.NotedAs x) (h : e.Ok) : x.Ok := by
  obtain ⟨heq, hevent⟩ := hx
  rw [heq]
  exact h.congr rfl rfl rfl hevent rfl rfl rfl rfl

end

/-- What is known of the fields that R86 lets pass. -/
theorem badFields_false {s : State} {o : OrderFields} (h : badFields s o = false) :
    ∀ tr ∈ o.train, 0 < o.width.toNat ∧ o.width.toNat < tr.period.toNat := by
  intro tr htr
  rw [Option.mem_def] at htr
  simp only [badFields, htr, Bool.or_eq_false_iff, beq_eq_false_iff_ne, decide_eq_false_iff_not] at h
  obtain ⟨-, ⟨hwidth, -⟩, hperiod⟩ := h
  refine ⟨Nat.pos_of_ne_zero fun hzero => hwidth (BitVec.eq_of_toNat_eq hzero), Nat.not_le.mp hperiod⟩

theorem newEntry_ok {s : State} {o : OrderFields} (h : badFields s o = false) (i : Index) (k : Station) (n : RequestNumber)
    (now : Time) : (o.newEntry i k n now).Ok := by
  have hfollowing : (o.newEntry i k n now).followingStart = none := by
    unfold Entry.followingStart OrderFields.newEntry
    cases o.train <;> rfl
  have htrain : ∀ tr ∈ (o.newEntry i k n now).train, 0 < o.width.toNat ∧ o.width.toNat < tr.period.toNat := by
    intro tr htr
    obtain ⟨tr', htr', rfl⟩ := Option.mem_map.mp htr
    exact badFields_false h tr' htr'
  unfold Entry.Ok
  rw [hfollowing]
  cases hbasis : o.basis <;> simp [OrderFields.newEntry, hbasis] at htrain ⊢ <;> exact htrain

/-! ### The operations -/

section
variable {s : State} (hs : OrdersOk s)
include hs

/-- The release that goes before the end of a run. -/
theorem OrdersOk.released {e : Entry} (he : e ∈ s.table) :
    (e.state = .running ∧ ((releaseChannel e.channel e.index s).channel e.channel).owner = none ∧
        ((releaseChannel e.channel e.index s).channel e.channel).phase = .inactive) ∨
      (e.state ≠ .running ∧ (releaseChannel e.channel e.index s).channel e.channel = s.channel e.channel) := by
  rw [releaseChannel_channel]
  by_cases hstate : e.state = .running
  · rw [if_pos ⟨rfl, ((hs.2.owner_iff hs.1 he _).mpr ⟨hstate, rfl⟩)⟩]
    exact .inl ⟨hstate, rfl, rfl⟩
  · rw [if_neg fun h => hs.not_owner he hstate _ h.2]
    exact .inr ⟨hstate, rfl⟩

/-- A run that has been consumed: the entry leaves, or is ARMED again, and its channel is free. -/
theorem OrdersOk.finishRun {e : Entry} (he : e ∈ s.table) (o : EntryOutcome) (x : Time) :
    OrdersOk (finishRun e o x (releaseChannel e.channel e.index s)) := by
  cases hevent : e.event with
  | none =>
    rw [finishRun_absolute o x _ hevent]
    exact hs.leave he o
  | some p =>
    by_cases hfires : p.fires = 1
    · rw [finishRun_lastFire o x _ hevent hfires]
      exact hs.leave he o
    · rw [finishRun_rearms o x _ hevent hfires]
      unfold returnToArmed
      split
      · refine (hs.leave he .expired).congr (by rw [Machine.leave, depart_table, depart_table]) fun c => ?_
        rw [State.channel_congr (depart_channels _ _ _), Machine.leave, State.channel_congr (depart_channels _ _ _)]
        exact ⟨rfl, rfl⟩
      · have hok : ({ e with event := some { p with fires := firesAfter p.fires } } : Entry).Ok :=
          (hs.entry_ok he).congr rfl rfl rfl (by rw [hevent]; rfl) rfl rfl rfl rfl
        refine hs.edit (e' := Entry.armedAt { e with event := some { p with fires := firesAfter p.fires } } x) he rfl rfl rfl
          (hok.armedAt rfl x) ?_ (fun c hc => ?_) nofun fun _ => hs.released he
        · simp only [Machine.replaceEntry, State.setTable_table, (changes_releaseChannel _ _ s).table_eq]
        · exact (releaseChannel_channel _ _ s c).trans (if_neg fun h => hc h.1.symm)

/-- The same of an entry that owns nothing. -/
theorem OrdersOk.finishRun_resting {e : Entry} (he : e ∈ s.table) (hstate : e.state ≠ .running) (o : EntryOutcome)
    (x : Time) : OrdersOk (Machine.finishRun e o x s) := by
  have hfinished := hs.finishRun he o x
  rwa [releaseChannel_other (hs.not_owner he hstate _)] at hfinished

/-- A start on a free channel. -/
theorem OrdersOk.grantStart {e : Entry} (he : e ∈ s.table) (hfree : (s.channel e.channel).owner = none) (x : Time) :
    OrdersOk (grantStart e x s) := by
  refine hs.edit (e' := e.startedAt x) he rfl rfl rfl ((hs.entry_ok he).startedAt x) rfl (fun c hc => ?_) (fun _ => ⟨.inr hfree, ?_⟩)
    fun h => absurd rfl h
  · rw [channel_grantStart, if_neg hc]
  · rw [channel_grantStart, if_pos rfl]
    exact ⟨rfl, iff_of_true rfl rfl⟩

theorem OrdersOk.requestStart {i : Index} (hstate : ∀ e ∈ s.entryAt i, e.state ≠ .running) (x : Time) :
    OrdersOk (requestStart i x s) := by
  cases hentry : s.entryAt i with
  | none =>
    unfold Machine.requestStart
    rwa [hentry]
  | some e =>
    have he := State.entryAt_mem hentry
    have hrests := hstate e hentry
    cases howner : (s.channel e.channel).owner with
    | none =>
      rw [requestStart_free x hentry howner]
      exact hs.grantStart he howner x
    | some j =>
      cases hpreempt : e.preempt with
      | false =>
        rw [requestStart_refused x hentry howner hpreempt]
        exact hs.finishRun_resting he hrests _ x
      | true =>
        rw [requestStart_preempts x hentry howner hpreempt]
        obtain ⟨p, hp, hpindex, hpruns, hpchannel⟩ := hs.2.2.1 _ _ howner
        subst hpindex
        -- the owner gone with its channel freed, and the same start on the channel so freed
        have hleft := hs.leave hp .preempted
        have hne : e.index ≠ p.index := fun h => hrests (hs.1.eq_of_index he hp h ▸ hpruns)
        have hchannel := leave_channel p .preempted s
        have hstarted := hleft.grantStart (e := e) (by
          rw [leave_table, List.mem_filter, bne_iff_ne]
          exact ⟨he, hne⟩) (by rw [hchannel, if_pos ⟨hpchannel, howner⟩]) x
        have hpreempted : preemptOwner p.index s = depart p .preempted s := by
          simp only [preemptOwner, hs.entryAt_of_mem hp]
        rw [hpreempted]
        refine hstarted.congr ?_ fun c => ?_
        · show (Machine.replaceEntry (e.startedAt x) _).table = (Machine.replaceEntry (e.startedAt x) _).table
          simp only [Machine.replaceEntry, State.setTable_table, leave_table, depart_table]
        · rw [channel_grantStart, channel_grantStart, hchannel, State.channel_congr (depart_channels _ _ _)]
          by_cases hc : c = e.channel
          · rw [if_pos hc, if_pos hc]
            exact ⟨rfl, rfl⟩
          · rw [if_neg hc, if_neg hc, if_neg fun h => hc (h.1.symm.trans hpchannel)]
            exact ⟨rfl, rfl⟩

omit hs in
theorem channel_setPhase (c : ChannelNumber) (p : Phase) (s : State) (d : ChannelNumber) :
    (setPhase c p s).channel d = if d = c then { s.channel c with phase := p } else s.channel d :=
  State.channel_setChannel s c d _

/-- The next phase of a RUNNING entry. -/
theorem OrdersOk.startPhase {i : Index} (hstate : ∀ e ∈ s.entryAt i, e.state = .running) (x : Time) :
    OrdersOk (startPhase i x s) := by
  cases hentry : s.entryAt i with
  | none =>
    unfold Machine.startPhase
    rwa [hentry]
  | some e =>
    have he := State.entryAt_mem hentry
    have hruns := hstate e hentry
    rw [startPhase_of x hentry]
    refine hs.edit (e' := e.startedAt x) he rfl rfl rfl ((hs.entry_ok he).startedAt x) rfl (fun c hc => ?_) (fun _ => ⟨.inl hruns, ?_⟩)
      fun h => absurd rfl h
    · rw [channel_setPhase, if_neg hc]
      rfl
    · rw [channel_setPhase, if_pos rfl]
      exact ⟨(hs.2.1 e he hruns).1, iff_of_true rfl rfl⟩

theorem OrdersOk.takeEnd (i : Index) (x : Time) : OrdersOk (takeEnd i x s) := by
  cases hentry : s.entryAt i with
  | none =>
    unfold Machine.takeEnd
    rwa [hentry]
  | some e =>
    have he := State.entryAt_mem hentry
    cases hfollowing : e.followingStart with
    | none =>
      rw [takeEnd_closes x hentry hfollowing]
      exact hs.finishRun he _ x
    | some y =>
      have hruns : e.state = .running := ((hs.entry_ok he).2.2.2.1 (by rw [hfollowing]; rfl)).1
      rw [takeEnd_betweenPhases x hentry hfollowing]
      refine hs.edit (e' := e.betweenPhases y) he rfl rfl rfl ((hs.entry_ok he).betweenPhases hfollowing y) rfl (fun c hc => ?_)
        (fun _ => ⟨.inl hruns, ?_⟩) fun h => absurd hruns h
      · rw [channel_setPhase, if_neg hc]
        rfl
      · rw [channel_setPhase, if_pos rfl]
        exact ⟨(hs.2.1 e he hruns).1, iff_of_false nofun nofun⟩

theorem OrdersOk.takeExpiry {i : Index} (hstate : ∀ e ∈ s.entryAt i, e.state ≠ .running) : OrdersOk (takeExpiry i s) := by
  unfold Machine.takeExpiry
  split
  · exact hs
  · rename_i e hentry
    have he := State.entryAt_mem hentry
    have hleft := hs.leave he .expired
    rwa [Machine.leave, releaseChannel_other (hs.not_owner he (hstate e hentry) _)] at hleft

end

/-- What the state of an entry says of its pending edge. -/
theorem Entry.pendingEdge_some {e : Entry} {d : PendingEdge} (h : e.pendingEdge = some d) :
    d.index = e.index ∧ (d.kind = .expiry → e.state = .armed) ∧ (d.kind = .start → e.state = .scheduled) ∧
      (d.kind = .phase → e.state = .running) ∧ (d.kind = .finish → e.state = .running) := by
  unfold Entry.pendingEdge at h
  split at h
  · rename_i hstate
    obtain ⟨x, -, rfl⟩ := Option.map_eq_some_iff.mp h
    exact ⟨rfl, fun _ => hstate, nofun, nofun, nofun⟩
  · rename_i hstate
    obtain ⟨x, -, rfl⟩ := Option.map_eq_some_iff.mp h
    exact ⟨rfl, nofun, fun _ => hstate, nofun, nofun⟩
  · rename_i hstate
    obtain ⟨x, -, rfl⟩ := Option.map_eq_some_iff.mp h
    refine ⟨rfl, fun hk => ?_, fun hk => ?_, fun _ => hstate, fun _ => hstate⟩
    · dsimp only at hk
      split at hk <;> cases hk
    · dsimp only at hk
      split at hk <;> cases hk

section
variable {s : State} (hs : OrdersOk s)
include hs

/-- An edge that its entry has pending is taken. -/
theorem OrdersOk.takeEdge {e : Entry} (he : e ∈ s.table) {d : PendingEdge} (hd : e.pendingEdge = some d) :
    OrdersOk (takeEdge d s) := by
  obtain ⟨hindex, hexpiry, hstart, hphase, -⟩ := Entry.pendingEdge_some hd
  have hentry : ∀ x ∈ s.entryAt d.index, x = e := fun x hx => by
    rw [hindex, hs.entryAt_of_mem he] at hx
    exact (Option.some.inj hx).symm
  unfold Machine.takeEdge
  split
  · exact hs.takeEnd _ _
  · rename_i hkind
    refine hs.takeExpiry fun x hx => ?_
    rw [hentry x hx, hexpiry hkind]
    decide
  · rename_i hkind
    refine hs.requestStart (fun x hx => ?_) _
    rw [hentry x hx, hstart hkind]
    decide
  · rename_i hkind
    exact hs.startPhase (fun x hx => by rw [hentry x hx, hphase hkind]) _

theorem OrdersOk.takeDue {limit : Time} {d : PendingEdge} (hd : s.nextDueEdge limit = some d) : OrdersOk (Machine.takeEdge d s) := by
  obtain ⟨⟨e, he, hpending⟩, -⟩ := State.nextDueEdge_spec hd
  exact hs.takeEdge he hpending

theorem OrdersOk.takeEdges (limit : Time) (fuel : Nat) : OrdersOk (takeEdges limit fuel s) := by
  induction fuel generalizing s with
  | zero => exact hs
  | succ n ih =>
    unfold Machine.takeEdges
    split
    · exact hs
    · rename_i d hd
      exact ih (hs.takeDue hd)

theorem OrdersOk.takeIfPending (d : PendingEdge) : OrdersOk (takeIfPending s d) := by
  unfold Machine.takeIfPending
  split
  · rename_i hpending
    obtain ⟨e, he, hd⟩ := Option.bind_eq_some_iff.mp hpending
    exact hs.takeEdge (State.entryAt_mem he) hd
  · exact hs

/-- A change by time to the entries that it is due for. -/
theorem OrdersOk.whereDue (due : Entry → Bool) {f : Entry → Entry} (hf : ∀ e : Entry, e.NotedAs (f e)) :
    OrdersOk (whereDue due f s) := by
  obtain ⟨⟨hindices, hnames, hentries⟩, hrunning, howned, hfree⟩ := hs
  have hsame : ∀ e : Entry, e.NotedAs (if due e then f e else e) := fun e => by
    split
    · exact hf e
    · exact ⟨rfl, rfl⟩
  have hfields : ∀ {e x : Entry}, e.NotedAs x → x.index = e.index ∧ (x.origin, x.number) = (e.origin, e.number) ∧
      x.channel = e.channel ∧ x.state = e.state ∧ x.active = e.active := fun ⟨h, _⟩ => by
    rw [h]
    exact ⟨rfl, rfl, rfl, rfl, rfl⟩
  have hmap {α : Type} (g : Entry → α) (hg : ∀ e, g (if due e then f e else e) = g e) :
      (Machine.whereDue due f s).table.map g = s.table.map g := by
    rw [Machine.whereDue, State.setTable_table, List.map_map]
    exact List.map_congr_left fun e _ => hg e
  refine ⟨⟨?_, ?_, fun x hx => ?_⟩, fun x hx hruns => ?_, fun c i howner => ?_, hfree⟩
  · rw [hmap _ fun e => (hfields (hsame e)).1]
    exact hindices
  · rw [hmap _ fun e => (hfields (hsame e)).2.1]
    exact hnames
  · obtain ⟨e, he, rfl⟩ := List.mem_map.mp hx
    exact (hsame e).ok (hentries e he)
  · obtain ⟨e, he, rfl⟩ := List.mem_map.mp hx
    obtain ⟨hindex, -, hchannel, hstate, hactive⟩ := hfields (hsame e)
    rw [hindex, hchannel, hactive]
    exact hrunning e he (hstate ▸ hruns)
  · obtain ⟨e, he, hindex', hruns, hchannel'⟩ := howned c i howner
    obtain ⟨hindex, -, hchannel, hstate, -⟩ := hfields (hsame e)
    exact ⟨_, List.mem_map_of_mem he, hindex.trans hindex', hstate.trans hruns, hchannel.trans hchannel'⟩

theorem OrdersOk.noteTimes (now : Time) : OrdersOk (noteTimes now s) :=
  ((hs.whereDue _ (f := Entry.noteExpiry) fun e => ⟨rfl, by simp [Entry.noteExpiry]⟩).whereDue _ (f := Entry.noteAged)
    fun _ => ⟨rfl, rfl⟩).whereDue _ (f := Entry.ageArmTime now) fun e => ⟨rfl, by simp [Entry.ageArmTime]⟩

theorem OrdersOk.tableStep (v σ : Time) (left : List PendingEdge) : OrdersOk (tableStep v σ left s) := by
  unfold Machine.tableStep
  split
  · exact (hs.takeEdges _ _).noteTimes _
  · exact foldl_keeps (P := OrdersOk) (fun _ d hu => hu.takeIfPending d) left hs

/-! ### Matching, amends, and new entries -/

theorem OrdersOk.matchEntry {e : Entry} (he : e ∈ s.table) (harmed : e.state = .armed) (p : EventPart) (ev : Event) :
    OrdersOk (matchEntry e p ev s) := by
  have hok := hs.entry_ok he
  have hrests : e.state ≠ .running := by
    rw [harmed]
    decide
  unfold Machine.matchEntry lateMatch
  dsimp only
  split
  · exact hs.replaceEntry (e' := e.scheduledAt _) he rfl rfl rfl (hok.scheduledAt harmed _) (iff_of_false nofun hrests)
      fun h => absurd h hrests
  · split
    · exact hs.finishRun_resting he hrests _ _
    · have hcounted := hs.replaceEntry (e' := e.withFullCount) he rfl rfl rfl hok.withFullCount Iff.rfl fun _ => rfl
      refine hcounted.requestStart (fun x hx => ?_) _
      rw [hs.entryAt_replaced (e' := e.withFullCount) he rfl] at hx
      cases hx
      exact hrests
    · exact hs

theorem OrdersOk.matchEvent (ev : Event) : OrdersOk (matchEvent ev s) := by
  refine foldl_keeps (P := OrdersOk) (fun u i hu => ?_) _ hs
  unfold meetEvent
  split
  · exact hu
  · rename_i e hentry
    split
    · rename_i harmed _
      split
      · exact hu.matchEntry (State.entryAt_mem hentry) harmed _ _
      · exact hu
    · exact hu

theorem OrdersOk.startPhaseIfPassed (i : Index) : OrdersOk (startPhaseIfPassed i s) := by
  unfold Machine.startPhaseIfPassed
  split
  · rename_i e hentry
    split
    · rename_i hruns _ _
      split
      · refine hs.startPhase (fun x hx => ?_) _
        rw [hentry] at hx
        cases hx
        exact hruns
      · exact hs
    · exact hs
  · exact hs

theorem OrdersOk.amendEntry {e : Entry} (he : e ∈ s.table) (d : BitVec 24) : OrdersOk (amendEntry e d s) := by
  have hok := hs.entry_ok he
  unfold Machine.amendEntry
  split
  · exact hs.replaceEntry he rfl rfl rfl (hok.congr rfl rfl rfl Option.isSome_map rfl rfl rfl rfl) Iff.rfl fun _ => rfl
  · rename_i hstate
    unfold amendScheduled
    split
    · exact hs
    · rename_i y _
      have hmoved := hs.replaceEntry (e' := { e with nextEdge := some (y + deltaTicks d) }) he rfl rfl rfl
        (hok.withEdge (by rw [hstate]; decide) _) Iff.rfl fun _ => rfl
      dsimp only
      split
      · refine hmoved.requestStart (fun x hx => ?_) _
        rw [hs.entryAt_replaced (e' := { e with nextEdge := some (y + deltaTicks d) }) he rfl] at hx
        cases hx
        show e.state ≠ .running
        rw [hstate]
        decide
      · exact hmoved
  · rename_i hstate
    split
    · have hmoved := hs.replaceEntry (e' := e.shiftedTrain d) he rfl rfl rfl (Entry.shiftedTrain_ok hok d) Iff.rfl fun _ => rfl
      unfold amendTrain
      dsimp only
      split
      · exact hmoved
      · split
        · split
          · exact (hmoved.takeEnd _ _).startPhaseIfPassed _
          · refine hmoved.startPhase (fun x hx => ?_) _
            rw [hs.entryAt_replaced (e' := e.shiftedTrain d) he rfl] at hx
            cases hx
            exact hstate
        · exact hmoved
    · unfold amendPulse
      dsimp only
      split
      · exact hs.takeEnd _ _
      · split
        · exact hs.takeEnd _ _
        · exact hs.replaceEntry he rfl rfl rfl (hok.withEdge (by rw [hstate]; decide) _) Iff.rfl fun _ => rfl

/-- A new entry under a free index and a free name. -/
theorem OrdersOk.placeOrder {k : Station} {n : RequestNumber} {o : OrderFields} (hfields : badFields s o = false)
    (hname : s.entryNamed k n = none) : OrdersOk (placeOrder k n o s) := by
  unfold Machine.placeOrder
  split
  · exact hs
  · rename_i i hi
    have hfreeIndex : s.entryAt i = none := by simpa using List.find?_some hi
    have hindexNew : ∀ e ∈ s.table, e.index ≠ i := by simpa [State.entryAt] using hfreeIndex
    have hnameNew : ∀ e ∈ s.table, (e.origin, e.number) ≠ (k, n) := by simpa [State.entryNamed] using hname
    have hrests : (o.newEntry i k n s.now).state ≠ .running := by
      unfold OrderFields.newEntry
      dsimp only
      split <;> decide
    obtain ⟨⟨hindices, hnames, hentries⟩, hrunning, howned, hfree⟩ := hs
    refine ⟨⟨?_, ?_, fun x hx => ?_⟩, fun x hx hruns => ?_, fun c j howner => ?_, hfree⟩
    · rw [State.setTable_table, List.map_append, List.nodup_append]
      refine ⟨hindices, List.nodup_singleton _, ?_⟩
      simpa [OrderFields.newEntry] using hindexNew
    · rw [State.setTable_table, List.map_append, List.nodup_append]
      refine ⟨hnames, List.nodup_singleton _, ?_⟩
      simpa [OrderFields.newEntry] using hnameNew
    · rcases List.mem_append.mp hx with hold | hnew
      · exact hentries x hold
      · rw [List.mem_singleton.mp hnew]
        exact newEntry_ok hfields i k n s.now
    · rcases List.mem_append.mp hx with hold | hnew
      · exact hrunning x hold hruns
      · rw [List.mem_singleton.mp hnew] at hruns
        exact absurd hruns hrests
    · obtain ⟨x, hx, hrest⟩ := howned c j howner
      exact ⟨x, List.mem_append_left _ hx, hrest⟩

end

/-! ### Every step -/

theorem ordersOk_closed : Closed OrdersOk where
  frame hc hs := hs.of_changes hc
  port _ _ hs := hs.of_changes (changes_setHost _ _)
  notice _ hs := hs.of_changes (changes_queueNotice _ _)
  popped _ hs := (hs.of_changes (changes_setHost _ _)).of_changes (changes_queueOverflow _)
  fresh hs := hs.of_changes (changes_setHost _ _)
  back _ hu := hu.of_changes (changes_setHost _ _)
  behind _ hs := hs.of_changes (changes_queueBehind _ _ _)
  reply _ hs := hs.of_changes (changes_queueReplyItem _ _)
  send _ _ hs := hs.of_changes (changes_queueSendItem _ _)
  remove _ hs := hs.of_changes (changes_removeRequest _ _)
  forget _ hs := hs.of_changes (changes_setCacheOf _ _ _)
  answer _ _ _ _ _ hs := hs.of_changes (changes_answerRequest _ _ _ _)
  retry hs := hs.of_changes (changes_retryPass _)
  drain _ _ _ _ hs := hs.of_changes (changes_setExchange _ _)
  sent _ hs := hs.of_changes (changes_reportSent _ _)
  move _ hs := hs.of_changes (changes_moveCycles _ _)
  expire hs := hs.of_changes (changes_expireCache _)
  uncache hs := hs.of_changes (changes_setExchange _ _)
  draw hs := hs.of_changes (changes_drawNumber _)
  submit _ _ _ hs := (hs.of_changes (changes_drawNumber _)).of_changes (changes_makeRequest _ _ _ _)
  edge hd hs := hs.takeDue hd
  note due _ hf hs := hs.whereDue due hf
  step _ _ _ hs := hs.tableStep _ _ _
  abandon hs := hs.abandonTable
  meet _ hs := hs.matchEvent _
  amend _ he hs := hs.amendEntry he _
  cancel he hs := hs.leave he _
  place _ _ _ hfields hname hs := hs.placeOrder hfields hname
  bound _ hs := hs.leavesSilently _
  watchers _ hs := hs.removeWatchers _
  peers hs := hs.leavesSilently _

/-- A write of the idle levels leaves owners and phases. -/
theorem writeIdles_channel (levels : BitVec 16) (s : State) (c : ChannelNumber) :
    ((allChannels.foldl (writeIdle levels) s).channel c).owner = (s.channel c).owner ∧
      ((allChannels.foldl (writeIdle levels) s).channel c).phase = (s.channel c).phase := by
  refine foldl_keeps (P := fun u => (u.channel c).owner = (s.channel c).owner ∧ (u.channel c).phase = (s.channel c).phase)
    (fun u d hu => ?_) allChannels ⟨rfl, rfl⟩
  rw [writeIdle, State.channel_setChannel]
  split
  · rename_i hc
    exact hc ▸ hu
  · exact hu

/-- Settles O58: every write that reaches the Order Table or a channel keeps the two in agreement. -/
theorem stepKeepsTableAndChannelsOk : Obligations.StepKeepsTableAndChannelsOk := fun _ _ htable hchannels hstep =>
  ordersOk_closed.step_keeps (fun _ _ => ⟨reset_tableOk, reset_channelsOk⟩)
    (fun _ k row hs => hs.of_changes (bs := [.exchange]) (changes_setExchange _ _)) (fun _ _ hs => hs.of_changes (changes_setExchange _ _))
    (fun s levels hs => hs.congr (changes_writeIdles levels s).table_eq (writeIdles_channel levels s))
    ⟨htable, hchannels⟩ hstep

end Sys2Proof.Machine
end

