-- ==== Sys2Proof/Proofs/PeersAndPins.lean ====
section
/-! Peer records and pins under every step (R55, R57, R69, R71): each record in its ranges, and a hold exactly while its pin
differs from the settled level. -/

namespace Sys2Proof.Machine

-- One thread for the whole file: its many small proofs would otherwise each take a thread's memory.
set_option Elab.async false

/-! ### A step, taken apart -/

/-- A step takes the front command, else a row that is due, else a tick. -/
theorem step_cases {s t : State} (h : step s = .next t) :
    (∃ c rest, s.pending = c :: rest ∧ Effect (s.setPending rest) c t) ∨
      (s.pending = [] ∧ ∃ c, s.dueRow = some c ∧ Effect s c t) ∨ s.pending = [] ∧ s.dueRow = none ∧ t = tick s := by
  unfold step at h
  split at h
  · rename_i c rest hpending
    exact .inl ⟨c, rest, hpending, effect_of_exec h⟩
  · rename_i hpending
    unfold idleStep at h
    split at h
    · rename_i c hc
      exact .inr (.inl ⟨hpending, c, hc, effect_of_exec h⟩)
    · rename_i hnone
      cases h
      exact .inr (.inr ⟨hpending, hnone, rfl⟩)

/-- As `step_keeps`, for a property that a tick keeps only where nothing is due. -/
theorem step_keeps_idle {P : State → Prop} (hpending : ∀ s q, P s → P (s.setPending q))
    (heffect : ∀ s c t, Effect s c t → P s → P t) (htick : ∀ s, s.dueRow = none → P s → P (tick s)) {s t : State} (hs : P s)
    (hstep : step s = .next t) : P t := by
  rcases step_cases hstep with ⟨c, rest, -, h⟩ | ⟨-, c, -, h⟩ | ⟨-, hnone, rfl⟩
  · exact heffect _ _ _ h (hpending s rest hs)
  · exact heffect _ _ _ h hs
  · exact htick s hnone hs

/-! ### Peer records -/

section
variable {r : PeerRecord}

theorem saturate_le (n : Nat) : saturate n ≤ 65535 := Nat.min_le_left _ _

theorem PeerRecord.Ok.afterSlot (h : r.Ok) : r.afterSlot.Ok := by
  obtain ⟨hmisses, hlast, hnote, hgood, hcheck, htiming, hintrusions⟩ := h
  unfold PeerRecord.afterSlot
  split
  · rename_i d hd
    refine ⟨rfl, fun x hx => ?_, nofun, saturate_le _, hcheck, htiming, hintrusions⟩
    cases hx
    exact hnote d hd
  · unfold PeerRecord.missed
    split
    · rename_i hstate
      refine ⟨?_, hlast, hnote, hgood, hcheck, htiming, hintrusions⟩
      rw [hstate]
      rfl
    · exact ⟨⟨Nat.le_refl 1, Nat.le_add_left 1 2⟩, hlast, hnote, hgood, hcheck, htiming, hintrusions⟩
    · rename_i hstate
      rw [hstate] at hmisses
      split
      · exact ⟨rfl, hlast, hnote, hgood, hcheck, htiming, hintrusions⟩
      · rename_i hfew
        refine ⟨?_, hlast, hnote, hgood, hcheck, htiming, hintrusions⟩
        rw [hstate]
        exact ⟨Nat.le_add_left 1 _, Nat.not_le.mp hfew⟩
    · rename_i hstate
      refine ⟨?_, hlast, hnote, hgood, hcheck, htiming, hintrusions⟩
      rw [hstate]
      rfl

theorem PeerRecord.Ok.noteFrame (h : r.Ok) {within : Bool} {d : Int}
    (hd : within = true → -Config.syncWindow ≤ d ∧ d ≤ Config.syncWindow) : (r.noteFrame within d).Ok := by
  obtain ⟨hmisses, hlast, hnote, hgood, hcheck, htiming, hintrusions⟩ := h
  unfold PeerRecord.noteFrame
  split
  · rename_i hwithin
    refine ⟨hmisses, hlast, fun x hx => ?_, hgood, hcheck, htiming, hintrusions⟩
    dsimp only at hx
    split at hx
    · rename_i d' hd'
      cases hx
      exact hnote _ hd'
    · cases hx
      exact hd hwithin
  · exact ⟨hmisses, hlast, hnote, hgood, hcheck, saturate_le _, hintrusions⟩

theorem PeerRecord.Ok.stopped (h : r.Ok) : r.stopped.Ok := by
  obtain ⟨-, -, -, hgood, hcheck, htiming, hintrusions⟩ := h
  exact ⟨rfl, nofun, nofun, hgood, hcheck, htiming, hintrusions⟩

theorem PeerRecord.Ok.cleared (h : r.Ok) : r.cleared.Ok := by
  obtain ⟨hmisses, hlast, hnote, -⟩ := h
  exact ⟨hmisses, hlast, hnote, Nat.zero_le _, Nat.zero_le _, Nat.zero_le _, Nat.zero_le _⟩

end

/-! ### The Membership Table under the operations -/

theorem MembersOk.of_members {s t : State} (hs : MembersOk s) (h : t.members = s.members) : MembersOk t := by
  unfold MembersOk State.peer
  rw [h]
  exact hs

theorem MembersOk.of_changes {s t : State} {bs : List Block} (hs : MembersOk s) (h : Changes bs s t)
    (hb : Block.members ∉ bs := by decide) : MembersOk t := hs.of_members (h _ hb)

section
variable {s : State} (hs : MembersOk s)
include hs

theorem MembersOk.setPeer (k : Station) {r : PeerRecord} (hr : r.Ok) : MembersOk (s.setPeer k r) := fun j => by
  rw [State.peer_setPeer]
  split
  · exact hr
  · exact hs j

theorem MembersOk.enterListen (r : LinkReason) (k : Option Station) (x : Nat) : MembersOk (enterListen r k x s) := fun j => by
  rw [enterListen_peer]
  obtain ⟨hmisses, hlast, -, hcounts⟩ := hs j
  exact ⟨hmisses, hlast, nofun, hcounts⟩

theorem MembersOk.loseCascade (k : Station) : MembersOk (loseCascade k s) := by
  have hleft : MembersOk (removeWatchers k (removeBound k (failEach .peerLost (s.requestsTo k) s))) :=
    ((hs.of_changes (changes_failEach _ _ _)).of_changes (changes_removeBound k _)).of_changes (changes_removeWatchers k _)
  exact hleft.setPeer k (hleft k)

theorem MembersOk.slotEnd (k : Station) : MembersOk (slotEnd k s) := by
  have hafter := hs.setPeer k (hs k).afterSlot
  unfold Machine.slotEnd
  split
  · exact hs
  · dsimp only
    split
    · exact hafter
    · split
      · exact (hafter.of_changes (changes_peerNotice k .lost _)).loseCascade k
      · exact hafter.of_changes (changes_peerNotice _ _ _)

theorem MembersOk.countCheckError (k : Station) : MembersOk (countCheckError k s) := by
  unfold Machine.countCheckError
  split
  · exact hs
  · obtain ⟨hmisses, hlast, hnote, hgood, -, htiming, hintrusions⟩ := hs k
    exact hs.setPeer k ⟨hmisses, hlast, hnote, hgood, saturate_le _, htiming, hintrusions⟩

theorem MembersOk.countIntrusion (k : Station) : MembersOk (countIntrusion k s) := by
  unfold Machine.countIntrusion
  split
  · exact hs
  · obtain ⟨hmisses, hlast, hnote, hgood, hcheck, htiming, -⟩ := hs k
    exact (hs.setPeer k (r := { s.peer k with intrusions := saturate (s.peer k).intrusions })
      ⟨hmisses, hlast, hnote, hgood, hcheck, htiming, saturate_le _⟩).of_changes (changes_queueNotice _ _)

theorem MembersOk.detectRestart (k : Station) (isNew : Bool) : MembersOk (detectRestart k isNew s) := by
  unfold Machine.detectRestart
  dsimp only
  split
  · split
    · exact hs
    · split
      · exact hs.setPeer k (hs k)
      · have hforgotten : MembersOk (removeBound k (forgetPeer k s)) :=
          (hs.of_changes (changes_forgetPeer k s)).of_changes (changes_removeBound k _)
        have hrestarted : MembersOk (restartCascade k s) := hforgotten.setPeer k (hforgotten k)
        exact hrestarted.setPeer k (hrestarted k)
  · exact hs.setPeer k (hs k)

theorem MembersOk.takeEvent (k : Station) (i : Input) (edge : Edge) (n : EventNumber) (stamp : Time) :
    MembersOk (takeEvent k i edge n stamp s) := by
  have hgap := hs.of_changes (changes_checkGap k n s)
  exact (hgap.setPeer k (r := { (checkGap k n s).peer k with expectedEvent := some (n + 1) }) (hgap k)).of_changes
    (changes_matchEvent _ _)

theorem MembersOk.takeItem (k : Station) (i : Item) : MembersOk (takeItem k i s) := by
  unfold Machine.takeItem
  split
  · exact hs.takeEvent _ _ _ _ _
  · split
    · exact hs.of_changes (changes_acceptRequest _ _ _ s)
    · exact hs
  · split
    · exact hs.of_changes (changes_takeReply _ _ _ s)
    · exact hs
  · split
    · exact hs.of_changes (changes_takeResult _ _ _ _ s)
    · exact hs

theorem MembersOk.handOn (h : Header) (items : List Item) {within : Bool} {d : Int}
    (hd : within = true → -Config.syncWindow ≤ d ∧ d ≤ Config.syncWindow) : MembersOk (handOn h items within d s) := by
  have hreported : MembersOk (reportFrame h.station within d h.isNew s) :=
    (hs.setPeer h.station ((hs h.station).noteFrame hd)).detectRestart _ _
  unfold Machine.handOn yieldTo
  dsimp only
  split
  · exact foldl_keeps (P := MembersOk) (fun _ i hu => hu.takeItem _ i) items hreported
  · split
    · exact hreported.enterListen _ _ _
    · exact hreported

omit hs in
theorem inWindow_iff {d : Int} {a : Attribution} {c : CycleNumber} :
    inWindow d a c = true ↔ (-Config.syncWindow ≤ d ∧ d ≤ Config.syncWindow) ∧ c = a.cycleNumber := by
  simp [inWindow]

theorem MembersOk.checkFrame (x : Received) (mark : Time) (a : Attribution) : MembersOk (checkFrame x mark a s) := by
  unfold Machine.checkFrame handFrame
  split
  · exact hs.countCheckError _
  · exact hs.countCheckError _
  · split
    · exact hs.countIntrusion _
    · split
      · exact hs.countCheckError _
      · dsimp only
        split
        · rename_i hwithin
          exact (hs.of_changes (changes_enterSample _ _ _ s)).handOn _ _ fun _ => (inWindow_iff.mp hwithin).1
        · exact hs.handOn _ _ nofun

theorem MembersOk.adopt (h : Header) (items : List Item) (mark : Time) : MembersOk (adopt h items mark s) := by
  have hgrid : Changes [.cycle, .link, .line, .exchange, .table] s (adoptGrid h mark s) :=
    (((((changes_takeStep _ s).then (ds := [.cycle, .link, .line, .exchange, .table]) (changes_startGrid _ _ _ _)).then
      (ds := [.cycle, .link, .line, .exchange, .table]) (changes_setLine _ _)).then
      (ds := [.cycle, .link, .line, .exchange, .table]) (changes_setLink _ _))).then (changes_setCycle _ _)
  have hfresh : MembersOk ((adoptGrid h mark s).setHost { (adoptGrid h mark s).host with notices := [], lost := 0 }) :=
    (hs.of_changes hgrid).of_changes (changes_setHost _ _)
  have hheard : MembersOk (adoptHeard h items (adoptGrid h mark s)) := hfresh.handOn h items fun _ => ⟨by decide, by decide⟩
  have hlinked : MembersOk (linkNotice .heard (some h.station) ((adoptHeard h items (adoptGrid h mark s)).setHost
      (adoptGrid h mark s).host)) := (hheard.of_changes (changes_setHost _ _)).of_changes (changes_linkNotice _ _ _)
  rw [adopt_eq]
  exact ((hlinked.of_changes (changes_adoptionStep _ _ _ _)).of_changes (changes_queueNotice _ _)).of_changes
    (changes_queueBehind _ _ _)

theorem MembersOk.restartListenTimer : MembersOk (restartListenTimer s) := hs.of_changes (changes_setLink _ _)

theorem MembersOk.checkListenFrame (x : Received) (mark : Time) : MembersOk (checkListenFrame x mark s) := by
  unfold Machine.checkListenFrame
  split
  · exact hs.restartListenTimer
  · exact hs.restartListenTimer
  · split
    · exact hs.restartListenTimer
    · split
      · exact hs.restartListenTimer
      · exact hs.adopt _ _ _

theorem MembersOk.checkOwnSlotFrame (x : Received) : MembersOk (checkOwnSlotFrame x s) := by
  unfold Machine.checkOwnSlotFrame
  split
  · exact hs
  · exact hs
  · split
    · exact hs.enterListen _ _ _
    · exact hs

theorem MembersOk.endReception (bytes : List Byte) : MembersOk (endReception bytes s) := by
  have hsettled : ∀ {u : State} (r : Reception) (x : Received), MembersOk u → MembersOk (settleFrame r x u) := by
    intro u r x hu
    unfold settleFrame
    split
    · exact hu.checkListenFrame _ _
    · split
      · split
        · exact hu
        · split
          · exact hu.checkOwnSlotFrame _
          · exact hu.checkFrame _ _ _
      · exact hu
  unfold Machine.endReception
  split
  · exact hsettled _ _ (hs.of_changes (changes_setLine _ _))
  · split
    · exact hs
    · exact hsettled _ _ (hs.of_changes (changes_setLine _ _))

theorem MembersOk.advanceSlot (order : SlotOrder) (k : Station) : MembersOk (advanceSlot order k s) := by
  have hnext := hs.of_changes (changes_setCycle s { s.cycle with slotIndex := some (nextSlot k) })
  cases order with
  | slotEndFirst =>
    exact ((hnext.slotEnd k).of_changes (changes_endOwnSlot k _)).of_changes (changes_slotBegins _ _)
  | buildFirst =>
    exact ((hnext.of_changes (changes_endOwnSlot k _)).of_changes (changes_slotBegins _ _)).slotEnd k

theorem MembersOk.linkAtCycleEnd (n : Nat) : MembersOk (linkAtCycleEnd n s) := by
  have hlink (l : LinkUnit) : MembersOk (s.setLink l) := hs.of_changes (changes_setLink _ _)
  unfold Machine.linkAtCycleEnd
  split
  · exact hs
  · exact hs
  · unfold integrateAtCycleEnd
    split
    · exact hlink _
    · split
      · exact (hlink _).of_changes (changes_linkNotice _ _ _)
      · exact (hlink _).enterListen _ _ _
  · unfold coldstartAtCycleEnd
    split
    · exact hlink _
    · split
      · exact hlink _
      · exact (hlink _).of_changes (changes_linkNotice _ _ _)
  · unfold syncedAtCycleEnd
    split
    · exact hlink _
    · split
      · exact hlink _
      · exact hs.enterListen _ _ _

theorem MembersOk.takeCycleEnd : MembersOk (takeCycleEnd s) := by
  have hended := (hs.slotEnd s.lastSlot).of_changes (changes_endOwnSlot s.lastSlot _)
  have hturned : MembersOk (turnCycle s) :=
    ((hended.of_changes (changes_setCycle _ _)).of_changes (changes_stepAtCycleEnd _ _)).of_changes (changes_setCycle _ _)
  exact ((hturned.linkAtCycleEnd _).of_changes (changes_expireCache _)).of_changes (changes_beginCycleSlot _ _)

theorem MembersOk.judgeCollided (n : Nat) : MembersOk (judgeCollided n s) := by
  have hcounted : MembersOk (collisionNotice ((s.setLine { s.line with ownSlot := .collided }).setLink
      { s.link with collisionCount := n + 1 })) :=
    ((hs.of_changes (changes_setLine _ _)).of_changes (changes_setLink _ _)).of_changes (changes_queueNotice _ _)
  unfold Machine.judgeCollided
  dsimp only
  split
  · exact hcounted.enterListen _ _ _
  · exact hcounted

theorem MembersOk.endFrame (f : OwnFrame) (differs : Bool) : MembersOk (endFrame f differs s) := by
  have hsent : MembersOk (reportSent f (s.setLine { s.line with frame := none })) :=
    (hs.of_changes (changes_setLine _ _)).of_changes (changes_reportSent f _)
  unfold Machine.endFrame
  dsimp only
  split
  · exact (hsent.of_changes (changes_setLink _ _)).judgeCollided _
  · exact ((hsent.of_changes (changes_setLink _ _)).of_changes (changes_setLine _ _)).of_changes (changes_setLink _ _)

theorem MembersOk.foreignMark : MembersOk (foreignMark s) := by
  unfold Machine.foreignMark
  split
  · exact hs.of_changes (changes_setLine _ _)
  · exact hs
  · exact hs
  · exact hs.judgeCollided _

theorem MembersOk.detectMark : MembersOk (detectMark s) := by
  unfold Machine.detectMark
  split
  · exact hs
  · split
    · exact hs.of_changes (changes_setLine _ _)
    · dsimp only
      split
      · split
        · exact hs.foreignMark
        · exact hs.foreignMark.of_changes (changes_setLine _ _)
      · exact hs.of_changes (changes_setLine _ _)

theorem MembersOk.stopAll : MembersOk (stopAll s) := by
  have hlink : Changes [.cycle, .link, .line, .host] s (stopLink s) :=
    (((changes_setLine s _).then (ds := [.cycle, .line]) (changes_stopGrid _)).then (ds := [.cycle, .link, .line])
      (changes_setLink _ _)).then (changes_linkNotice _ _ _)
  have hstopped : MembersOk (removePeerEntries (stopExchange (stopLink s))) :=
    ((hs.of_changes hlink).of_changes (changes_stopExchange _)).of_changes (changes_removePeerEntries _)
  unfold Machine.stopAll stopMembers
  refine foldl_keeps (P := MembersOk) (fun u k hu => ?_) allStations hstopped
  unfold stopPeer
  split
  · exact hu
  · dsimp only
    split
    · exact hu.setPeer k (hu k).stopped
    · exact (hu.setPeer k (hu k).stopped).of_changes (changes_peerNotice _ _ _)

theorem MembersOk.hostEffect {c : Instr} {t : State} (h : HostEffect s c t) : MembersOk t := by
  cases h with
  | none => exact hs
  | reset => exact reset_membersOk.of_members rfl
  | permit => exact hs.of_changes (changes_setExchange _ _)
  | input => exact hs.of_changes (changes_writeInput _ _ _ s)
  | idle => exact hs.of_changes (changes_writeIdles _ s)
  | lead => exact hs.of_changes (changes_setExchange _ _)
  | start => exact (hs.of_changes (changes_setLink _ _)).enterListen _ _ _
  | stop => exact hs.stopAll
  | drawn => exact hs.of_changes (changes_drawNumber s)
  | applied => exact (hs.of_changes (changes_drawNumber s)).of_changes (changes_applyRequest _ _ _ _)
  | submitted => exact (hs.of_changes (changes_drawNumber s)).of_changes (changes_makeRequest _ _ _ _)
  | mark => exact hs.of_changes (changes_makeEvent _ _ _ s)
  | notice => exact (hs.of_changes (changes_setHost _ _)).of_changes (changes_queueOverflow _)
  | cleared _ k => exact hs.setPeer k (hs k).cleared

theorem MembersOk.effect {c : Instr} {t : State} (h : Effect s c t) : MembersOk t := by
  cases h with
  | none => exact hs
  | csn => exact hs.of_changes (changes_setHost _ _)
  | host _ u _ _ h => exact ((hs.of_changes (changes_setHost _ _)).hostEffect h).of_changes (changes_setHost _ _)
  | reset => exact reset_membersOk.of_members rfl
  | resetEnd => exact MembersOk.of_changes (s := { s with inReset := false, straps := _ }) hs (changes_samplePins _ _ _)
  | coldStart => exact hs.of_changes (changes_coldStart s)
  | slotZero => exact (hs.of_changes (changes_setCycle _ _)).of_changes (changes_slotBegins _ _)
  | slotAfter => exact hs.advanceSlot _ _
  | send => exact hs.of_changes (changes_setLine _ _)
  | frameEnd => exact hs.endFrame _ _
  | markDetected => exact hs.detectMark
  | checksEnd => exact hs.endReception _
  | cycleEnd => exact hs.takeCycleEnd
  | sample p _ u _ hu => exact (hs.of_changes (hu ▸ changes_recogniseIfDue p s)).of_changes (changes_setPin _ _ _)
  | recognised => exact hs.of_changes (changes_recogniseIfDue _ s)
  | edge => exact hs.of_changes (changes_takeEdge _ s)
  | armTime => exact hs.of_changes (changes_whereDue _ _ s)
  | held => exact hs.of_changes (changes_whereDue _ _ s)
  | expired => exact hs.of_changes (changes_whereDue _ _ s)

end

theorem MembersOk.tick {s : State} (hs : MembersOk s) : MembersOk (tick s) := by
  unfold Machine.tick
  split
  · exact hs
  · exact hs.of_members rfl

/-! ### Pins -/

section
variable {r : PinRecord}

theorem Level.eq_flip_of_ne {x y : Level} (h : x ≠ y) : x = flipLevel y := by
  cases x with
  | low =>
    cases y with
    | low => exact absurd rfl h
    | high => rfl
  | high =>
    cases y with
    | low => rfl
    | high => exact absurd rfl h

theorem PinRecord.Ok.of_settled (hlevel : r.level = r.settled) (hhold : r.hold = none) : r.Ok := by
  refine ⟨?_, fun h hh => ?_⟩
  · rw [hhold]
    exact iff_of_false nofun (not_not.mpr hlevel)
  · rw [hhold] at hh
    cases hh

theorem PinRecord.Ok.settle_level (h : r.Ok) (hdue : r.recognised = true) : r.settle.level = r.settle.settled := by
  obtain ⟨hiff, -⟩ := h
  have hhold : r.hold.isSome = true := by
    unfold PinRecord.recognised at hdue
    split at hdue
    · cases hdue
    · rename_i hsome
      rw [hsome]
      rfl
  exact Level.eq_flip_of_ne (hiff.mp hhold)

theorem PinRecord.Ok.sample (h : r.Ok) (level : Level) (now : Time) : (r.sample level now).Ok := by
  obtain ⟨-, hcount⟩ := h
  unfold PinRecord.sample
  split
  · rename_i heq
    exact .of_settled heq rfl
  · rename_i hne
    refine ⟨iff_of_true ?_ hne, fun x hx => ?_⟩
    · dsimp only
      split <;> rfl
    · dsimp only at hx
      split at hx
      · rename_i x' hx'
        cases hx
        exact hcount _ hx'
      · cases hx
        exact Nat.zero_le _

/-- A hold counts on while its edge is not recognised. -/
theorem PinRecord.Ok.tick (h : r.Ok) (hdue : r.recognised = false) : r.tick.Ok := by
  obtain ⟨hiff, -⟩ := h
  refine ⟨?_, fun x hx => ?_⟩
  · show (r.hold.map _).isSome = true ↔ _
    rw [Option.isSome_map]
    exact hiff
  · obtain ⟨x', hx', rfl⟩ := Option.mem_map.mp hx
    simp only [PinRecord.recognised, Option.mem_def.mp hx', decide_eq_false_iff_not] at hdue
    exact Nat.not_le.mp hdue

end

theorem sendEvent_pins (i : Input) (edge : Edge) (stamp : Time) (s : State) :
    (sendEvent i edge stamp s).capture.pins = s.capture.pins := by
  unfold sendEvent
  split
  · rfl
  · dsimp only
    split
    · rfl
    · rw [queueNotice_capture]
      rfl

/-- An event touches no pin. -/
theorem makeEvent_pins (i : Input) (edge : Edge) (stamp : Time) (s : State) :
    (makeEvent i edge stamp s).capture.pins = s.capture.pins := by
  rw [makeEvent, sendEvent_pins, (changes_matchEvent _ _).capture_eq]
  rfl

/-- A recognition that is due settles its pin, and touches no other. -/
theorem recogniseIfDue_pin (p : Pin) (s : State) (q : Pin) :
    (recogniseIfDue p s).pin q =
      if q = p ∧ (s.pin p).recognised = true then (s.pin p).settle else s.pin q := by
  unfold recogniseIfDue
  by_cases hdue : (s.pin p).recognised = true
  · have hpins : (recognise p s).pin q = (s.setPin p (s.pin p).settle).pin q := by
      unfold recognise
      dsimp only
      split
      · simp only [State.pin, makeEvent_pins]
      · rfl
    rw [if_pos hdue, hpins, State.pin_setPin]
    simp only [hdue, and_true]
  · rw [if_neg hdue, if_neg fun h => hdue h.2]

theorem PinsOk.congr {s t : State} (hs : PinsOk s) (hpins : t.capture.pins = s.capture.pins)
    (hreset : t.inReset = s.inReset) : PinsOk t := by
  unfold PinsOk State.pin
  rw [hpins, hreset]
  exact hs

theorem PinsOk.of_changes {s t : State} {bs : List Block} (hs : PinsOk s) (h : Changes bs s t)
    (hcapture : Block.capture ∉ bs := by decide) (hreset : Block.inReset ∉ bs := by decide) : PinsOk t :=
  hs.congr (congrArg CaptureUnit.pins (h _ hcapture)) (h _ hreset)

/-- Pins that stay or settle. -/
theorem PinsOk.of_pin {s t : State} (hs : PinsOk s) (hreset : t.inReset = s.inReset)
    (hpin : ∀ p, t.pin p = s.pin p ∨ (t.pin p).level = (t.pin p).settled ∧ (t.pin p).hold = none) : PinsOk t := by
  refine ⟨fun p => ?_, fun h p => ?_⟩
  · rcases hpin p with heq | ⟨hlevel, hhold⟩
    · exact heq ▸ hs.1 p
    · exact .of_settled hlevel hhold
  · rcases hpin p with heq | ⟨-, hhold⟩
    · exact heq ▸ hs.2 (hreset ▸ h) p
    · exact hhold

theorem writeInput_pin (i : Input) (setting filter : Byte) (s : State) (q : Pin) :
    (writeInput i setting filter s).pin q =
      if pinOfInput i = some q then (s.pin q).configure (EdgeSelect.ofCode (setting.extractLsb' 6 2)) filter else s.pin q := by
  unfold writeInput
  dsimp only
  split
  · rename_i hnone
    rw [hnone, if_neg nofun, State.pin_setInputRecord]
  · rename_i p hp
    rw [State.pin_setPin, hp]
    by_cases hq : q = p
    · rw [if_pos hq, if_pos (by rw [hq]), hq, State.pin_setInputRecord]
    · rw [if_neg hq, if_neg fun h => hq (Option.some.inj h).symm, State.pin_setInputRecord]

section
variable {s : State} (hs : PinsOk s)
include hs

theorem PinsOk.recogniseIfDue (p : Pin) : PinsOk (recogniseIfDue p s) := by
  refine hs.of_pin (changes_recogniseIfDue p s).inReset_eq fun q => ?_
  rw [recogniseIfDue_pin]
  split
  · rename_i h
    exact .inr ⟨(hs.1 p).settle_level h.2, rfl⟩
  · exact .inl rfl

theorem PinsOk.hostEffect {c : Instr} {t : State} (h : HostEffect s c t) : PinsOk t := by
  cases h with
  | none => exact hs
  | reset => exact reset_pinsOk.congr rfl rfl
  | permit => exact hs.of_changes (changes_setExchange _ _)
  | input =>
    refine hs.of_pin (changes_writeInput _ _ _ s).inReset_eq fun p => ?_
    rw [writeInput_pin]
    split
    · exact .inr ⟨rfl, rfl⟩
    · exact .inl rfl
  | idle => exact hs.of_changes (changes_writeIdles _ s)
  | lead => exact hs.of_changes (changes_setExchange _ _)
  | start => exact (hs.of_changes (changes_setLink _ _)).of_changes (changes_enterListen _ _ _ _)
  | stop => exact hs.of_changes (changes_stopAll s)
  | drawn => exact hs.of_changes (changes_drawNumber s)
  | applied => exact (hs.of_changes (changes_drawNumber s)).of_changes (changes_applyRequest _ _ _ _)
  | submitted => exact (hs.of_changes (changes_drawNumber s)).of_changes (changes_makeRequest _ _ _ _)
  | mark => exact hs.congr (makeEvent_pins _ _ _ s) (changes_makeEvent _ _ _ s).inReset_eq
  | notice => exact (hs.of_changes (changes_setHost _ _)).of_changes (changes_queueOverflow _)
  | cleared => exact hs.of_changes (changes_setPeer _ _ _)

theorem PinsOk.effect {c : Instr} {t : State} (h : Effect s c t) : PinsOk t := by
  cases h with
  | none => exact hs
  | csn => exact hs.of_changes (changes_setHost _ _)
  | host _ u _ _ h => exact ((hs.of_changes (changes_setHost _ _)).hostEffect h).of_changes (changes_setHost _ _)
  | reset => exact reset_pinsOk.congr rfl rfl
  | resetEnd straps pins hreset =>
    refine ⟨fun p => ?_, fun h => ?_⟩
    · rw [samplePins_pin pins (ps := allPins) (List.nodup_finRange 8), if_pos (show p ∈ allPins from List.mem_finRange p)]
      exact .of_settled rfl (hs.2 hreset p)
    · rw [(changes_samplePins _ _ _).inReset_eq] at h
      cases h
  | coldStart => exact hs.of_changes (changes_coldStart s)
  | slotZero => exact (hs.of_changes (changes_setCycle _ _)).of_changes (changes_slotBegins _ _)
  | slotAfter => exact hs.of_changes (changes_advanceSlot _ _ s)
  | send => exact hs.of_changes (changes_setLine _ _)
  | frameEnd => exact hs.of_changes (changes_endFrame _ _ s)
  | markDetected => exact hs.of_changes (changes_detectMark s)
  | checksEnd => exact hs.of_changes (changes_endReception _ s)
  | cycleEnd => exact hs.of_changes (changes_takeCycleEnd s)
  | sample p level u hreset hu =>
    have hrecognised : PinsOk u := hu ▸ hs.recogniseIfDue p
    have hstill : u.inReset = false := hu ▸ (changes_recogniseIfDue p s).inReset_eq.trans hreset
    refine ⟨fun q => ?_, fun h => ?_⟩
    · rw [State.pin_setPin]
      split
      · exact (hrecognised.1 p).sample level u.now
      · exact hrecognised.1 q
    · exact absurd (hstill.symm.trans h) (by decide)
  | recognised p => exact hs.recogniseIfDue p
  | edge => exact hs.of_changes (changes_takeEdge _ s)
  | armTime => exact hs.of_changes (changes_whereDue _ _ s)
  | held => exact hs.of_changes (changes_whereDue _ _ s)
  | expired => exact hs.of_changes (changes_whereDue _ _ s)

/-- A tick comes only where no edge is recognised. -/
theorem PinsOk.tick (hdue : s.dueRow = none) : PinsOk (tick s) := by
  have hrecognised : s.recognitionDue = none := by
    simp only [State.dueRow, Option.or_eq_none_iff] at hdue
    exact hdue.2.2.1
  unfold Machine.tick
  split
  · exact hs
  · rename_i hreset
    refine ⟨fun p => ?_, fun h => absurd h hreset⟩
    have hpin : ∀ u : State, State.pin { u with capture := { u.capture with pins := mapVector PinRecord.tick s.capture.pins } } p
        = (s.pin p).tick := fun u => get_mapVector _ _ _
    refine (hpin _).symm ▸ (hs.1 p).tick ?_
    have hnone := List.find?_eq_none.mp (Option.map_eq_none_iff.mp hrecognised) p (List.mem_finRange p)
    simpa using hnone

end

/-- Settles O60: every write of a peer record or of a pin keeps it in its ranges. -/
theorem stepKeepsPinsAndMembersOk : Obligations.StepKeepsPinsAndMembersOk := fun _ _ hpins hmembers hstep =>
  step_keeps_idle (P := fun s => PinsOk s ∧ MembersOk s)
    (fun _ _ hs => ⟨hs.1.of_changes (changes_setPending _ _), hs.2.of_changes (changes_setPending _ _)⟩)
    (fun _ _ _ heffect hs => ⟨hs.1.effect heffect, hs.2.effect heffect⟩) (fun _ hdue hs => ⟨hs.1.tick hdue, hs.2.tick⟩)
    ⟨hpins, hmembers⟩ hstep

end Sys2Proof.Machine
end

