-- ==== Sys2Proof/Proofs/LinkBounds.lean ====
section
/-! The link under every step (R4, R10, R17, R20, R30, R31): the grid, the samples, the Line Port, the listen timer and the
counts in agreement with the link state. -/

namespace Sys2Proof.Machine

-- One thread for the whole file: its many small proofs would otherwise each take a thread's memory.
set_option Elab.async false

/-! ### What the invariant sees of the state -/

/-- The fields that the invariant of the link speaks of. -/
def State.linkView (s : State) : Straps × Bool × LinkUnit × (Bool × Option Station × Bool × List Sample) ×
    (Bool × Bool × Bool × OwnSlot) :=
  (s.straps, s.inReset, s.link, (s.cycle.running, s.cycle.slotIndex, s.cycle.slotZeroAwaited, s.cycle.samples),
    (s.line.frame.isSome, s.line.ending.isSome, s.line.reception.isSome, s.line.ownSlot))

theorem LinkOk.congr {s t : State} (hs : LinkOk s) (h : t.linkView = s.linkView) : LinkOk t := by
  simp only [State.linkView, Prod.mk.injEq] at h
  obtain ⟨hstraps, hreset, hlink, ⟨hrunning, hslot, hawaited, hsamples⟩, hframe, hending, hreception, hown⟩ := h
  simp only [LinkOk, GridOk, SamplesOk, LineOk, State.stationCount, State.own, State.legalStraps, hstraps, hreset, hlink,
    hrunning, hslot, hawaited, hsamples, hframe, hending, hreception, hown]
  exact hs

theorem LinkOk.of_changes {s t : State} {bs : List Block} (hs : LinkOk s) (h : Changes bs s t)
    (hstraps : Block.straps ∉ bs := by decide) (hreset : Block.inReset ∉ bs := by decide)
    (hcycle : Block.cycle ∉ bs := by decide) (hlink : Block.link ∉ bs := by decide)
    (hline : Block.line ∉ bs := by decide) : LinkOk t :=
  hs.congr (by
    have hstraps : t.straps = s.straps := h _ hstraps
    have hreset : t.inReset = s.inReset := h _ hreset
    have hcycle : t.cycle = s.cycle := h _ hcycle
    have hlink : t.link = s.link := h _ hlink
    have hline : t.line = s.line := h _ hline
    simp only [State.linkView, hstraps, hreset, hcycle, hlink, hline])

section
variable {s : State} (hs : LinkOk s)
include hs

theorem LinkOk.link_ok : s.link.Ok := hs.1
theorem LinkOk.grid_ok : GridOk s := hs.2.1
theorem LinkOk.samples_ok : SamplesOk s := hs.2.2.1
theorem LinkOk.line_ok : LineOk s := hs.2.2.2.1
theorem LinkOk.legal (hon : s.link.state ≠ .off) : s.legalStraps = true := hs.2.2.2.2.1 hon

theorem LinkOk.not_inReset (hon : s.link.state ≠ .off) : s.inReset = false :=
  Bool.eq_false_iff.mpr fun h => hon (hs.2.2.2.2.2 h)

/-- Without a grid there are no samples. -/
theorem LinkOk.without_grid (hgrid : s.link.state.hasGrid = false) :
    s.cycle.running = false ∧ s.cycle.slotIndex = none ∧ s.cycle.samples = [] ∧ s.cycle.slotZeroAwaited = false := by
  obtain ⟨hrunning, hslot, -, hstopped, -⟩ := hs.grid_ok
  rw [hgrid] at hrunning
  rw [hrunning] at hslot
  obtain ⟨hsamples, hawaited⟩ := hstopped hrunning
  exact ⟨hrunning, by simpa using hslot, hsamples, hawaited⟩

/-- A frame, and a reception set apart, wait only in a transmitting state. -/
theorem LinkOk.without_frame (htransmits : s.link.state.transmits = false) :
    s.line.frame = none ∧ s.line.ending = none := by
  obtain ⟨hframe, hending, -, -⟩ := hs.line_ok
  rw [htransmits] at hframe hending
  simpa using And.intro hframe hending

/-- The Line Port alone changes. -/
theorem LinkOk.setLine {l : LinePort} (hl : LineOk (s.setLine l)) : LinkOk (s.setLine l) :=
  ⟨hs.link_ok, hs.grid_ok, hs.samples_ok, hl, hs.2.2.2.2.1, hs.2.2.2.2.2⟩

/-- The own slot alone is judged anew. -/
theorem LinkOk.setOwnSlot {x : OwnSlot} (hx : ∀ n, x = .clean n → n ≤ 1 ∧ s.link.state.transmits = true) :
    LinkOk (s.setLine { s.line with ownSlot := x }) := by
  obtain ⟨hframe, hending, hreception, -⟩ := hs.line_ok
  exact hs.setLine ⟨hframe, hending, hreception, hx⟩

/-- The link unit alone changes, within the states that agree with the grid and the Line Port as they are. -/
theorem LinkOk.setLink {l : LinkUnit} (hl : l.Ok) (hgrid : l.state.hasGrid = s.link.state.hasGrid)
    (htransmits : s.link.state.transmits = true → l.state.transmits = true)
    (hoff : l.state = .off ↔ s.link.state = .off) : LinkOk (s.setLink l) := by
  obtain ⟨-, ⟨hrunning, hgridRest⟩, hsamples, ⟨hframe, hending, hreception, hown⟩, hlegal, hreset⟩ := hs
  have hreceives : s.link.state.receives = true → l.state.receives = true := fun h => by
    have hon : l.state ≠ .off := fun hl => by
      rw [hoff.mp hl] at h
      cases h
    revert hon
    cases l.state <;> decide
  exact ⟨hl, ⟨hrunning.trans hgrid.symm, hgridRest⟩, hsamples,
    ⟨fun h => htransmits (hframe h), fun h => htransmits (hending h), fun h => hreceives (hreception h),
      fun n hn => ⟨(hown n hn).1, htransmits (hown n hn).2⟩⟩,
    fun h => hlegal (mt hoff.mpr h), fun h => hoff.mpr (hreset h)⟩

end

/-! ### Entering LISTEN -/

/-- From this link unit LISTEN may be entered: the counts that the entry keeps are in their ranges. -/
def LinkUnit.MayListen (l : LinkUnit) : Prop :=
  l.frozen = true ∧ l.integrationCount ≤ 1 ∧ (l.state.transmits = false → l.announced = false ∧ l.newCountdown = 0 ∧
    l.confirmationCount ≤ 1 ∧ l.silenceCount ≤ 2 ∧ l.collisionCount ≤ 1)

theorem LinkUnit.Ok.mayListen {l : LinkUnit} (h : l.Ok) (hon : l.state ≠ .off) : l.MayListen := by
  obtain ⟨-, -, hfrozen, hannounced, -, hnew, hintegration, hconfirmation, hsilence, hcollision⟩ := h
  refine ⟨hfrozen.trans (decide_eq_true hon), hintegration, fun htransmits => ⟨?_, hnew htransmits, hconfirmation, hsilence,
    hcollision⟩⟩
  rw [htransmits] at hannounced
  simpa using hannounced

theorem slotLength_le (s : State) : s.slotLength ≤ 2816 := by
  unfold State.slotLength Config.slotLength
  split <;> decide

/-- The listen timer is at most the longest, with the yield extension (R20, R27). -/
theorem listenTime_le {s : State} {x : Nat} (hx : x ≤ s.cycleLength) : s.listenTime + x ≤ listenMaximum := by
  have hlength := slotLength_le s
  have hcount : s.stationCount ≤ 16 := s.straps.cnt.isLt
  have hown : s.own.val ≤ 15 := Nat.le_of_lt_succ s.own.isLt
  have hcycle : s.cycleLength ≤ 16 * 2816 := Nat.mul_le_mul hcount hlength
  have hstagger : s.own.val * s.slotLength ≤ 15 * 2816 := Nat.mul_le_mul hown hlength
  unfold State.listenTime listenMaximum
  omega

theorem enterListen_linkOk {s : State} {r : LinkReason} {k : Option Station} {x : Nat} (hlink : s.link.MayListen)
    (hlegal : s.legalStraps = true) (hreset : s.inReset = false) (hx : x ≤ s.cycleLength) :
    LinkOk (enterListen r k x s) := by
  have hchanges := changes_enterListen r k x s
  have hcycle := enterListen_cycle r k x s
  have hline := enterListen_line r k x s
  have hstate : (enterListen r k x s).link.state = .listen := by
    rw [enterListen_link]
    split <;> rfl
  refine ⟨?_, ⟨?_, ?_, ?_, ?_, ?_⟩, ⟨?_, ?_⟩, ⟨?_, ?_, fun _ => ?_, ?_⟩, fun _ => ?_, fun h => ?_⟩
  · obtain ⟨hfrozen, hintegration, hkept⟩ := hlink
    have hmax : ∀ n ∈ some (s.listenTime + x), n ≤ listenMaximum := fun n hn => by
      cases hn
      exact listenTime_le hx
    rw [enterListen_link]
    split
    · exact ⟨rfl, hmax, hfrozen, nofun, Nat.zero_le _, fun _ => rfl, hintegration, Nat.zero_le _, Nat.zero_le _, Nat.zero_le _⟩
    · rename_i htransmits
      obtain ⟨hannounced, hnew, hconfirmation, hsilence, hcollision⟩ := hkept (by simpa using htransmits)
      exact ⟨rfl, hmax, hfrozen, fun h => absurd (hannounced.symm.trans h) (by decide), by simp [hnew], fun _ => hnew,
        hintegration, hconfirmation, hsilence, hcollision⟩
  · rw [hcycle, hstate]
    rfl
  · rw [hcycle]
    rfl
  · rw [hcycle]
    exact nofun
  · rw [hcycle]
    exact fun _ => ⟨rfl, rfl⟩
  · rw [hcycle]
    exact nofun
  · rw [hcycle]
    exact List.nodup_nil
  · rw [hcycle]
    exact nofun
  · rw [hline]
    exact nofun
  · rw [hline]
    exact nofun
  · rw [hstate]
    rfl
  · rw [hline]
    exact nofun
  · rw [State.legalStraps, State.stationCount, State.own, hchanges.straps_eq]
    exact hlegal
  · rw [hchanges.inReset_eq, hreset] at h
    cases h

theorem LinkOk.enterListen {s : State} (hs : LinkOk s) (hon : s.link.state ≠ .off) (r : LinkReason) (k : Option Station)
    {x : Nat} (hx : x ≤ s.cycleLength) : LinkOk (enterListen r k x s) :=
  enterListen_linkOk (hs.link_ok.mayListen hon) (hs.legal hon) (hs.not_inReset hon) hx

/-! ### Slot starts -/

theorem buildFrame_line (s : State) : ∃ f, (buildFrame s).line = { s.line with frame := some f } ∧
    f.carriesNew = decide (0 < s.link.newCountdown) ∧ f.remaining = none := by
  have hclosed : ∀ u : State, Changes [.exchange, .host] s u → ∀ content requests, ∃ f,
      (u.setLine { u.line with frame := some {
        content := content, carriesNew := decide (0 < u.link.newCountdown), requests := requests, remaining := none
        } }).line =
        { s.line with frame := some f } ∧ f.carriesNew = decide (0 < s.link.newCountdown) ∧ f.remaining = none := by
    intro u hu content requests
    rw [State.setLine_line, hu.line_eq, hu.link_eq]
    exact ⟨_, rfl, rfl, rfl⟩
  unfold buildFrame
  dsimp only
  exact hclosed _ (((changes_retryPass s).then (ds := [.exchange, .host]) (changes_setExchange _ _)).then
    (Changes.foldl _ (fun s i => changes_failRemoved i s) _ _)) _ _

/-- A step at a cycle end moves line time and nothing else of the Cycle Unit (R13). -/
theorem stepAtCycleEnd_cycle (σ : Int) (s : State) :
    (stepAtCycleEnd σ s).cycle = { s.cycle with lineTime := s.cycle.lineTime + BitVec.ofInt 32 σ } := by
  unfold stepAtCycleEnd
  split
  · rename_i hzero
    rw [hzero, show BitVec.ofInt 32 0 = 0#32 from rfl, BitVec.add_zero]
  · rw [(changes_moveMark _ _ _).cycle_eq, applyStep, (changes_tableStep _ _ _ _).cycle_eq, takeStep,
      (changes_ageArmTimes _ _).cycle_eq, stepLineTime, State.setCycle_cycle, (changes_noteTimes _ _).cycle_eq]

theorem turnCycle_cycle (s : State) :
    (turnCycle s).cycle = { s.cycle with
      cycleStart := s.slotStartTime s.stationCount, cycleNumber := s.cycle.cycleNumber + 1, slotIndex := some 0,
      lineTime := s.cycle.lineTime + BitVec.ofInt 32 (cycleStep s.cycle.samples), samples := [] } := by
  have hended : Changes [.line, .members, .exchange, .table, .channels, .host] s
      (endOwnSlot s.lastSlot (slotEnd s.lastSlot s)) := (changes_slotEnd _ s).then (changes_endOwnSlot _ _)
  simp only [turnCycle, emptySamples, State.setCycle_cycle, stepAtCycleEnd_cycle, beginCycle, hended.cycle_eq,
    State.slotStartTime, State.slotStartFrom, State.slotLength, State.stationCount, hended.straps_eq]

/-! ### The grid of an adoption (R22) -/

theorem takeStep_cycle (σ : Time) (s : State) :
    (takeStep σ s).cycle = { s.cycle with lineTime := s.cycle.lineTime + σ } := by
  rw [takeStep, (changes_ageArmTimes _ _).cycle_eq, stepLineTime, State.setCycle_cycle, (changes_noteTimes _ _).cycle_eq]

section
variable (h : Header) (mark : Time) (s : State)

theorem changes_adoptGrid : Changes [.cycle, .link, .line, .exchange, .table] s (adoptGrid h mark s) :=
  (((((changes_takeStep _ s).then (ds := [.cycle, .link, .line, .exchange, .table]) (changes_startGrid _ _ _ _)).then
    (ds := [.cycle, .link, .line, .exchange, .table]) (changes_setLine _ _)).then
    (ds := [.cycle, .link, .line, .exchange, .table]) (changes_setLink _ _))).then (changes_setCycle _ _)

theorem startGrid_cycle (x : Time) (c : CycleNumber) (k : Station) : (startGrid x c k s).cycle = { s.cycle with
    running := true, cycleStart := x, cycleNumber := c, slotIndex := some k, slotZeroAwaited := false } := rfl

theorem adoptGrid_cycle : (adoptGrid h mark s).cycle = { s.cycle with
    lineTime := s.cycle.lineTime + s.adoptionOf h mark, running := true, cycleStart := h.cycleStart,
    cycleNumber := h.cycleNumber, slotIndex := some h.station, slotZeroAwaited := false,
    samples := [{ station := h.station, deviation := 0 }] } := by
  have hstarted : (startGrid h.cycleStart h.cycleNumber h.station (takeStep (s.adoptionOf h mark) s)).cycle = { s.cycle with
      lineTime := s.cycle.lineTime + s.adoptionOf h mark, running := true, cycleStart := h.cycleStart,
      cycleNumber := h.cycleNumber, slotIndex := some h.station, slotZeroAwaited := false } := by
    rw [startGrid_cycle, takeStep_cycle]
  exact congrArg (fun c : CycleUnit => { c with samples := [{ station := h.station, deviation := 0 }] }) hstarted

theorem adoptGrid_link : (adoptGrid h mark s).link =
    { s.link with state := .integrate, integrationCount := 0, listenTimer := none } := by
  have hstepped := (changes_takeStep (s.adoptionOf h mark) s).link_eq
  exact congrArg (fun l : LinkUnit => { l with state := .integrate, integrationCount := 0, listenTimer := none }) hstepped

theorem adoptGrid_line : (adoptGrid h mark s).line = { s.line with ownSlot := .unjudged } := by
  have hset (u : State) : (enterIntegrate (u.setLine { u.line with ownSlot := .unjudged })).line =
    { u.line with ownSlot := .unjudged } := rfl
  have hstarted : (startGrid h.cycleStart h.cycleNumber h.station (takeStep (s.adoptionOf h mark) s)).line = s.line := by
    rw [(changes_startGrid _ _ _ _).line_eq, (changes_takeStep _ _).line_eq]
  rw [adoptGrid]
  dsimp only
  rw [(changes_setCycle _ _).line_eq, hset, hstarted]

end

section
variable {s : State} (hs : LinkOk s)
include hs

theorem LinkOk.slotBegins (k : Station) : LinkOk (slotBegins k s) := by
  unfold Machine.slotBegins
  split
  · rename_i h
    obtain ⟨-, htransmits⟩ := h
    have hchanges : Changes [.line, .exchange, .host] s (buildFrame (setReceptionApart s)) :=
      (changes_setReceptionApart s).then (changes_buildFrame _)
    obtain ⟨f, hline, -, -⟩ := buildFrame_line (setReceptionApart s)
    obtain ⟨-, -, -, hown⟩ := hs.line_ok
    have happart : LinkOk (s.setLine { s.line with reception := none, ending := s.line.reception, frame := some f }) :=
      hs.setLine ⟨fun _ => htransmits, fun _ => htransmits, nofun, hown⟩
    refine happart.congr ?_
    simp only [State.linkView, hchanges.straps_eq, hchanges.inReset_eq, hchanges.link_eq, hchanges.cycle_eq, hline]
    rfl
  · exact hs

theorem LinkOk.endOwnSlot (k : Station) : LinkOk (endOwnSlot k s) := by
  unfold Machine.endOwnSlot
  split
  · exact hs.setOwnSlot nofun
  · exact hs

/-- The slot index moves within the N. -/
theorem LinkOk.setSlot (hrunning : s.cycle.running = true) {k : Station} (hk : k.val < s.stationCount)
    (hawaited : s.cycle.slotZeroAwaited = true → k = 0) : LinkOk (s.setCycle { s.cycle with slotIndex := some k }) := by
  obtain ⟨hlink, ⟨hgrid, -, -, hstopped, -⟩, hrest⟩ := hs
  refine ⟨hlink, ⟨hgrid, hrunning.symm, fun j hj => ?_, hstopped, fun h => by rw [hawaited h]; rfl⟩, hrest⟩
  cases hj
  exact hk

theorem LinkOk.advanceSlot (order : SlotOrder) {k : Station} (hdue : s.slotDue = some (.after k)) :
    LinkOk (advanceSlot order k s) := by
  obtain ⟨hrunning, hnotAwaited, hnext⟩ : s.cycle.running = true ∧ s.cycle.slotZeroAwaited = false ∧
      k.val + 1 < s.stationCount := by
    unfold State.slotDue at hdue
    split at hdue
    · rename_i hrunning
      split at hdue
      · split at hdue <;> cases hdue
      · rename_i hawaited
        split at hdue
        · cases hdue
        · split at hdue
          · rename_i h
            cases hdue
            exact ⟨hrunning, by simpa using hawaited, by simpa using (Bool.and_eq_true_iff.mp h).1⟩
          · cases hdue
    · cases hdue
  have hnextSlot : (nextSlot k).val = k.val + 1 := by
    have hcount : s.stationCount ≤ 16 := s.straps.cnt.isLt
    show (k.val + 1) % 16 = k.val + 1
    omega
  have hmoved := hs.setSlot hrunning (hnextSlot ▸ hnext) fun h => absurd (hnotAwaited.symm.trans h) (by decide)
  cases order with
  | slotEndFirst => exact ((hmoved.of_changes (changes_slotEnd k _)).endOwnSlot k).slotBegins _
  | buildFirst => exact ((hmoved.endOwnSlot k).slotBegins _).of_changes (changes_slotEnd k _)

theorem LinkOk.setAwaited {x : Bool} (h : x = true → s.cycle.running = true ∧ s.cycle.slotIndex = some 0) :
    LinkOk (s.setCycle { s.cycle with slotZeroAwaited := x }) := by
  obtain ⟨hlink, ⟨hgrid, hslot, hindex, hstopped, -⟩, hrest⟩ := hs
  refine ⟨hlink, ⟨hgrid, hslot, hindex, fun hoff => ⟨(hstopped hoff).1, ?_⟩, fun hx => (h hx).2⟩, hrest⟩
  exact Bool.eq_false_iff.mpr fun hx => absurd ((h hx).1.symm.trans hoff) (by decide)

/-! ### The cycle end -/

theorem LinkOk.stepAtCycleEnd (σ : Int) : LinkOk (stepAtCycleEnd σ s) := by
  unfold Machine.stepAtCycleEnd
  split
  · exact hs
  · have hstepped : LinkOk (applyStep (BitVec.ofInt 32 σ) s) := by
      have htaken : LinkOk (takeStep (BitVec.ofInt 32 σ) s) := hs.congr rfl
      exact htaken.of_changes (changes_tableStep _ _ _ _)
    unfold moveMark
    split
    · exact hstepped
    · rename_i r hr
      split
      · exact hstepped
      · split
        · obtain ⟨hframe, hending, hreception, hown⟩ := hstepped.line_ok
          exact hstepped.setLine ⟨hframe, hending, fun _ => hreception (by rw [hr]; rfl), hown⟩
        · exact hstepped

theorem LinkOk.turnCycle (hrunning : s.cycle.running = true) : LinkOk (turnCycle s) := by
  have hended : LinkOk (Machine.endOwnSlot s.lastSlot (slotEnd s.lastSlot s)) :=
    (hs.of_changes (changes_slotEnd _ s)).endOwnSlot _
  have hstill : (Machine.endOwnSlot s.lastSlot (slotEnd s.lastSlot s)).cycle.running = true := by
    rw [(changes_endOwnSlot _ _).cycle_eq, (changes_slotEnd _ _).cycle_eq, hrunning]
  have hbegun : LinkOk (beginCycle (Machine.endOwnSlot s.lastSlot (slotEnd s.lastSlot s))) :=
    (hended.setSlot (k := 0) hstill (Nat.succ_pos _) fun _ => rfl).congr rfl
  obtain ⟨hlink, ⟨hgrid, hslot, hindex, hstopped, hawaited⟩, -, hrest⟩ :=
    hbegun.stepAtCycleEnd (cycleStep s.cycle.samples)
  exact ⟨hlink, ⟨hgrid, hslot, hindex, fun h => ⟨rfl, (hstopped h).2⟩, hawaited⟩, ⟨List.nodup_nil, nofun⟩, hrest⟩

theorem LinkOk.linkAtCycleEnd (n : Nat) : LinkOk (linkAtCycleEnd n s) := by
  have hok := hs.link_ok
  obtain ⟨htimer, hmax, hfrozen, hannounced, hnew, hquiet, hintegration, hconfirmation, hsilence, hcollision⟩ := hok
  unfold Machine.linkAtCycleEnd
  split
  · exact hs
  · exact hs
  · rename_i hstate
    rw [hstate] at htimer hfrozen
    have hon : s.link.state ≠ .off := by
      rw [hstate]
      decide
    unfold integrateAtCycleEnd
    split
    · exact hs.setLink ⟨by rw [htimer, hstate], hmax, by rw [hfrozen, hstate], hannounced, hnew, hquiet, Nat.le_refl 1,
        hconfirmation, hsilence, hcollision⟩ rfl id Iff.rfl
    · split
      · unfold joinLine
        refine (hs.setLink (l := { s.link with
          state := .synced, integrationCount := 0, silenceCount := 0, collisionCount := 0, newCountdown := 2,
          announced := false }) ⟨htimer, hmax, hfrozen, nofun, Nat.le_refl 2, nofun, Nat.zero_le _, hconfirmation,
            Nat.zero_le _, Nat.zero_le _⟩ ?_ (fun _ => rfl) ?_).of_changes (changes_linkNotice _ _ _)
        · rw [hstate]
          rfl
        · rw [hstate]
          exact iff_of_false nofun nofun
      · have hcleared : LinkOk (s.setLink { s.link with integrationCount := 0 }) :=
          hs.setLink ⟨by rw [htimer, hstate], hmax, by rw [hfrozen, hstate], hannounced, hnew, hquiet, Nat.zero_le _,
            hconfirmation, hsilence, hcollision⟩ rfl id Iff.rfl
        exact hcleared.enterListen hon _ _ (Nat.zero_le _)
  · rename_i hstate
    unfold coldstartAtCycleEnd
    split
    · exact hs.setLink ⟨htimer, hmax, hfrozen, hannounced, hnew, hquiet, hintegration, Nat.zero_le _, hsilence, hcollision⟩
        rfl id Iff.rfl
    · split
      · rename_i hfew
        exact hs.setLink ⟨htimer, hmax, hfrozen, hannounced, hnew, hquiet, hintegration, Nat.le_of_lt_succ hfew, hsilence,
          hcollision⟩ rfl id Iff.rfl
      · rw [hstate] at htimer hfrozen
        refine (hs.setLink (l := { s.link with state := .synced, confirmationCount := 0, silenceCount := 0 })
          ⟨htimer, hmax, hfrozen, fun _ => rfl, hnew, nofun, hintegration, Nat.zero_le _, Nat.zero_le _, hcollision⟩
          ?_ (fun _ => rfl) ?_).of_changes (changes_linkNotice _ _ _)
        · rw [hstate]
          rfl
        · rw [hstate]
          exact iff_of_false nofun nofun
  · rename_i hstate
    unfold syncedAtCycleEnd
    split
    · exact hs.setLink ⟨htimer, hmax, hfrozen, hannounced, hnew, hquiet, hintegration, hconfirmation, Nat.zero_le _,
        hcollision⟩ rfl id Iff.rfl
    · split
      · rename_i hfew
        exact hs.setLink ⟨htimer, hmax, hfrozen, hannounced, hnew, hquiet, hintegration, hconfirmation,
          Nat.le_of_lt_succ hfew, hcollision⟩ rfl id Iff.rfl
      · exact hs.enterListen (by rw [hstate]; decide) _ _ (Nat.zero_le _)

/-- Slot 0 is the present one where the grid still runs. -/
theorem LinkOk.takeCycleEnd (hrunning : s.cycle.running = true) : LinkOk (takeCycleEnd s) := by
  have hdecided : LinkOk (expireCache (Machine.linkAtCycleEnd s.cycle.samples.length (Machine.turnCycle s))) :=
    ((hs.turnCycle hrunning).linkAtCycleEnd _).of_changes (changes_expireCache _)
  unfold Machine.takeCycleEnd beginCycleSlot
  split
  · rename_i hstill
    split
    · exact hdecided.slotBegins 0
    · refine hdecided.setAwaited fun _ => ⟨hstill, ?_⟩
      rw [(changes_expireCache _).cycle_eq] at hstill ⊢
      rcases linkAtCycleEnd_cycle s.cycle.samples.length (Machine.turnCycle s) with h | h
      · rw [h, turnCycle_cycle]
      · rw [h] at hstill
        cases hstill
  · exact hdecided

/-- A cold start: COLDSTART in slot 0 of a new grid. -/
theorem LinkOk.coldStart (hstate : s.link.state = .listen) : LinkOk (coldStart s) := by
  have hon : s.link.state ≠ .off := by
    rw [hstate]
    decide
  obtain ⟨-, -, hsamples, -⟩ := hs.without_grid (by rw [hstate]; rfl)
  obtain ⟨-, -, hfrozen, -, -, -, hintegration, -⟩ := hs.link_ok
  unfold Machine.coldStart
  refine LinkOk.slotBegins (LinkOk.of_changes (s := ((abandonReception (startGrid s.now 0 0 s)).setLine
    { s.line with ownSlot := .unjudged, reception := none }).setLink { s.link with
      state := .coldstart, listenTimer := none, confirmationCount := 0, collisionCount := 0, silenceCount := 0,
      newCountdown := 2, announced := false }) ?_ (changes_linkNotice _ _ _)) 0
  refine ⟨⟨rfl, nofun, hfrozen.trans (decide_eq_true hon), nofun, Nat.le_refl 2, nofun, hintegration, Nat.zero_le _,
    Nat.zero_le _, Nat.zero_le _⟩, ⟨rfl, rfl, ?_, nofun, nofun⟩, ?_, ⟨fun _ => rfl, fun _ => rfl, nofun, nofun⟩,
    fun _ => hs.legal hon, fun h => ?_⟩
  · intro k hk
    cases hk
    exact Nat.succ_pos _
  · show (s.cycle.samples.map _).Nodup ∧ _
    refine ⟨by rw [hsamples]; exact List.nodup_nil, ?_⟩
    show ∀ x ∈ s.cycle.samples, _
    rw [hsamples]
    exact nofun
  · exact absurd ((hs.not_inReset hon).symm.trans h) (by decide)

/-! ### The own frame and marks -/

/-- The judgement of a slot of a transmitting state as collided. -/
theorem LinkOk.judgeCollided (htransmits : s.link.state.transmits = true) (n : Nat) :
    LinkOk (judgeCollided n s) := by
  have hon : s.link.state ≠ .off := fun h => by
    rw [h] at htransmits
    cases htransmits
  obtain ⟨htimer, hmax, hfrozen, hannounced, hnew, hquiet, hintegration, hconfirmation, hsilence, -⟩ := hs.link_ok
  have hjudged : LinkOk (s.setLine { s.line with ownSlot := .collided }) := hs.setOwnSlot nofun
  unfold Machine.judgeCollided
  dsimp only
  split
  · have hchanges : Changes [.link, .line, .host] s (collisionNotice ((s.setLine { s.line with ownSlot := .collided }).setLink
        { s.link with collisionCount := n + 1 })) :=
      ((changes_setLine s _).then (ds := [.link, .line]) (changes_setLink _ _)).then (changes_queueNotice _ _)
    have hlink : (collisionNotice ((s.setLine { s.line with ownSlot := .collided }).setLink
        { s.link with collisionCount := n + 1 })).link = { s.link with collisionCount := n + 1 } := by
      rw [collisionNotice, (changes_queueNotice _ _).link_eq, State.setLink_link]
    refine enterListen_linkOk ?_ ?_ ?_ (Nat.zero_le _)
    · show LinkUnit.MayListen (State.link (collisionNotice ((s.setLine { s.line with ownSlot := .collided }).setLink
        { s.link with collisionCount := n + 1 })))
      rw [hlink]
      exact ⟨hfrozen.trans (decide_eq_true hon), hintegration, fun h => absurd (htransmits.symm.trans h) (by decide)⟩
    · show State.legalStraps (collisionNotice ((s.setLine { s.line with ownSlot := .collided }).setLink
        { s.link with collisionCount := n + 1 })) = true
      rw [State.legalStraps, State.stationCount, State.own, hchanges.straps_eq]
      exact hs.legal hon
    · exact hchanges.inReset_eq.trans (hs.not_inReset hon)
  · rename_i hfew
    exact (hjudged.setLink (l := { s.link with collisionCount := n + 1 }) ⟨htimer, hmax, hfrozen, hannounced, hnew, hquiet,
      hintegration, hconfirmation, hsilence, Nat.le_of_lt_succ (Nat.not_le.mp hfew)⟩ rfl id Iff.rfl).of_changes (changes_queueNotice _ _)

theorem LinkOk.endFrame {f : OwnFrame} (hframe : s.line.frame = some f) (differs : Bool) : LinkOk (endFrame f differs s) := by
  obtain ⟨hsends, hending, hreception, hown⟩ := hs.line_ok
  have htransmits : s.link.state.transmits = true := hsends (by rw [hframe]; rfl)
  obtain ⟨htimer, hmax, hfrozen, -, hnew, -, hintegration, hconfirmation, hsilence, hcollision⟩ := hs.link_ok
  have hsent : LinkOk (reportSent f (s.setLine { s.line with frame := none })) :=
    (hs.setLine (l := { s.line with frame := none }) ⟨nofun, hending, hreception, hown⟩).of_changes
      (changes_reportSent f _)
  have hlink : (reportSent f (s.setLine { s.line with frame := none })).link = s.link := (changes_reportSent f _).link_eq
  have hcount : (s.link.afterFrame f.carriesNew).newCountdown ≤ 2 := by
    unfold LinkUnit.afterFrame
    dsimp only
    split <;> omega
  have hupdated : LinkOk ((reportSent f (s.setLine { s.line with frame := none })).setLink
      (LinkUnit.afterFrame (reportSent f (s.setLine { s.line with frame := none })).link f.carriesNew)) := by
    rw [hlink]
    exact hsent.setLink ⟨htimer, hmax, hfrozen, fun _ => htransmits, hcount,
      fun h => absurd (htransmits.symm.trans h) (by decide), hintegration, hconfirmation, hsilence, hcollision⟩
      (by rw [hlink]; rfl) (fun _ => htransmits) (by rw [hlink]; exact Iff.rfl)
  have htransmits' : (LinkUnit.afterFrame (reportSent f (s.setLine { s.line with frame := none })).link
      f.carriesNew).state.transmits = true := by
    rw [hlink]
    exact htransmits
  have hcollision' : (LinkUnit.afterFrame (reportSent f (s.setLine { s.line with frame := none })).link
      f.carriesNew).collisionCount ≤ 1 := by
    rw [hlink]
    exact hcollision
  unfold Machine.endFrame
  dsimp only
  split
  · exact hupdated.judgeCollided htransmits' _
  · obtain ⟨htimer, hmax, hfrozen, hannounced, hnew, hquiet, hintegration, hconfirmation, hsilence, -⟩ := hupdated.link_ok
    refine LinkOk.setLink (l := { LinkUnit.afterFrame _ f.carriesNew with collisionCount := 0 }) (hupdated.setOwnSlot fun n hn => ?_)
      ⟨htimer, hmax, hfrozen, hannounced, hnew, hquiet, hintegration, hconfirmation, hsilence, Nat.zero_le _⟩ rfl id Iff.rfl
    cases hn
    exact ⟨hcollision', htransmits'⟩

theorem LinkOk.foreignMark : LinkOk (foreignMark s) := by
  unfold Machine.foreignMark
  split
  · exact hs.setOwnSlot nofun
  · exact hs
  · exact hs
  · rename_i n hclean
    exact hs.judgeCollided (hs.line_ok.2.2.2 n hclean).2 n

theorem LinkOk.startReception (hreceives : s.link.state.receives = true) (a : Option Attribution) :
    LinkOk (startReception a s) := by
  obtain ⟨hframe, hending, -, hown⟩ := hs.line_ok
  exact hs.setLine ⟨hframe, hending, fun _ => hreceives, hown⟩

/-- Outside a transmitting state a foreign mark is only noted. -/
theorem LinkOk.foreignMark_link (htransmits : s.link.state.transmits = false) : (Machine.foreignMark s).link = s.link := by
  unfold Machine.foreignMark
  split
  · rfl
  · rfl
  · rfl
  · rename_i n hclean
    exact absurd (htransmits.symm.trans (hs.line_ok.2.2.2 n hclean).2) (by decide)

theorem LinkOk.detectMark : LinkOk (detectMark s) := by
  unfold Machine.detectMark
  split
  · exact hs
  · rename_i hhears
    have hreceives : s.link.state.receives = true := by
      simp only [Bool.or_eq_true, Bool.not_eq_true', not_or] at hhears
      simpa using hhears.1.1
    split
    · exact hs.startReception hreceives _
    · dsimp only
      split
      · split
        · exact hs.foreignMark
        · rename_i hquiet
          refine hs.foreignMark.startReception ?_ _
          rw [hs.foreignMark_link (by simpa using hquiet)]
          exact hreceives
      · exact hs.startReception hreceives _

/-! ### Frames -/

/-- The exchange, the table and the records take a frame; the link may yield to it. -/
theorem LinkOk.handOn (h : Header) (items : List Item) (within : Bool) (d : Int) : LinkOk (handOn h items within d s) := by
  have hreported : LinkOk (reportFrame h.station within d h.isNew s) := hs.of_changes (changes_reportFrame _ _ _ _ _)
  unfold Machine.handOn yieldTo
  dsimp only
  split
  · exact hreported.of_changes (changes_takeItems _ _ _)
  · split
    · rename_i hyields
      refine hreported.enterListen ?_ _ _ (Nat.le_refl _)
      rw [hyields.1]
      decide
    · exact hreported

theorem LinkOk.enterSample {k : Station} {d : Int} (hk : k ≠ s.own) (hd : -Config.syncWindow ≤ d ∧ d ≤ Config.syncWindow)
    (hrunning : s.cycle.running = true) (a : Attribution) : LinkOk (enterSample k d a s) := by
  unfold Machine.enterSample
  split
  · rename_i h
    obtain ⟨-, -, hnew⟩ := h
    obtain ⟨hlink, ⟨hgrid, hslot, hindex, -, hawaited⟩, ⟨hnodup, hsamples⟩, hrest⟩ := hs
    refine ⟨hlink, ⟨hgrid, hslot, hindex, fun hoff => absurd (hrunning.symm.trans hoff) (by decide), hawaited⟩, ⟨?_, ?_⟩, hrest⟩
    · rw [State.setCycle_cycle, List.map_append, List.nodup_append]
      refine ⟨hnodup, List.nodup_singleton _, ?_⟩
      simpa using hnew
    · intro x hx
      rcases List.mem_append.mp hx with hold | hlast
      · exact hsamples x hold
      · rw [List.mem_singleton.mp hlast]
        exact ⟨hk, hd⟩
  · exact hs

theorem LinkOk.checkFrame (x : Received) (mark : Time) {a : Attribution} (ha : a.slot ≠ s.own)
    (hrunning : s.cycle.running = true) : LinkOk (checkFrame x mark a s) := by
  unfold Machine.checkFrame handFrame
  split
  · exact hs.of_changes (changes_countCheckError _ _)
  · exact hs.of_changes (changes_countCheckError _ _)
  · split
    · exact hs.of_changes (changes_countIntrusion _ _)
    · rename_i howner
      have hstation := not_not.mp howner
      split
      · exact hs.of_changes (changes_countCheckError _ _)
      · dsimp only
        split
        · rename_i hwithin
          exact (hs.enterSample (hstation ▸ ha) (inWindow_iff.mp hwithin).1 hrunning a).handOn _ _ _ _
        · exact hs.handOn _ _ _ _

theorem LinkOk.checkOwnSlotFrame (x : Received) : LinkOk (checkOwnSlotFrame x s) := by
  unfold Machine.checkOwnSlotFrame
  split
  · exact hs
  · exact hs
  · split
    · rename_i h
      exact hs.enterListen (by rw [h.1]; decide) _ _ (Nat.zero_le _)
    · exact hs

theorem LinkOk.restartListenTimer (hstate : s.link.state = .listen) : LinkOk (restartListenTimer s) := by
  obtain ⟨-, -, hrest⟩ := hs.link_ok
  refine hs.setLink ⟨?_, fun n hn => ?_, hrest⟩ rfl id Iff.rfl
  · rw [hstate]
    rfl
  · cases hn
    exact listenTime_le (x := 0) (Nat.zero_le _)

omit hs in
theorem zero_inWindow : -Config.syncWindow ≤ (0 : Int) ∧ (0 : Int) ≤ Config.syncWindow := by decide

/-- An adoption: INTEGRATE in the sender's slot, with its zero sample. -/
theorem LinkOk.adopt (hstate : s.link.state = .listen) {h : Header} (hstation : h.station.val < s.stationCount)
    (hown : h.station ≠ s.own) (items : List Item) (mark : Time) : LinkOk (adopt h items mark s) := by
  have hon : s.link.state ≠ .off := by
    rw [hstate]
    decide
  have hquiet : s.link.state.transmits = false := by
    rw [hstate]
    rfl
  obtain ⟨hframe, hending⟩ := hs.without_frame hquiet
  obtain ⟨-, -, hfrozen, hannounced, hnew, hcount, -, hconfirmation, hsilence, hcollision⟩ := hs.link_ok
  have hgrid : LinkOk (adoptGrid h mark s) := by
    have hchanges := changes_adoptGrid h mark s
    refine ⟨?_, ⟨?_, ?_, ?_, ?_, ?_⟩, ?_, ?_, fun _ => ?_, fun hr => ?_⟩
    · rw [adoptGrid_link]
      exact ⟨rfl, nofun, hfrozen.trans (decide_eq_true hon), fun ha => absurd (hquiet.symm.trans (hannounced ha)) (by decide),
        hnew, fun _ => hcount hquiet, Nat.zero_le _, hconfirmation, hsilence, hcollision⟩
    · rw [adoptGrid_cycle, adoptGrid_link]
      rfl
    · rw [adoptGrid_cycle]
      rfl
    · rw [adoptGrid_cycle, State.stationCount, hchanges.straps_eq]
      intro k hk
      cases hk
      exact hstation
    · rw [adoptGrid_cycle]
      exact nofun
    · rw [adoptGrid_cycle]
      exact nofun
    · rw [SamplesOk, adoptGrid_cycle, State.own, hchanges.straps_eq]
      refine ⟨List.nodup_singleton _, fun x hx => ?_⟩
      rw [List.mem_singleton.mp hx]
      exact ⟨hown, zero_inWindow⟩
    · rw [LineOk, adoptGrid_line, adoptGrid_link, hframe, hending]
      exact ⟨nofun, nofun, fun _ => rfl, nofun⟩
    · rw [State.legalStraps, State.stationCount, State.own, hchanges.straps_eq]
      exact hs.legal hon
    · rw [hchanges.inReset_eq, hs.not_inReset hon] at hr
      cases hr
  have hheard : LinkOk (adoptHeard h items (adoptGrid h mark s)) :=
    LinkOk.handOn (s := (adoptGrid h mark s).setHost { (adoptGrid h mark s).host with notices := [], lost := 0 })
      (hgrid.of_changes (changes_setHost _ _)) h items true 0
  have hlinked : LinkOk (linkNotice .heard (some h.station) ((adoptHeard h items (adoptGrid h mark s)).setHost
      (adoptGrid h mark s).host)) := (hheard.of_changes (changes_setHost _ _)).of_changes (changes_linkNotice _ _ _)
  rw [adopt_eq]
  exact ((hlinked.of_changes (changes_adoptionStep _ _ _ _)).of_changes (changes_queueNotice _ _)).of_changes
    (changes_queueBehind _ _ _)

theorem LinkOk.checkListenFrame (hstate : s.link.state = .listen) (x : Received) (mark : Time) :
    LinkOk (checkListenFrame x mark s) := by
  unfold Machine.checkListenFrame
  split
  · exact hs.restartListenTimer hstate
  · exact hs.restartListenTimer hstate
  · split
    · exact hs.restartListenTimer hstate
    · split
      · exact hs.restartListenTimer hstate
      · rename_i hothers
        rw [not_or] at hothers
        exact hs.adopt hstate (Nat.not_le.mp hothers.1) hothers.2 _ _

theorem LinkOk.settleFrame (r : Reception) (x : Received) : LinkOk (settleFrame r x s) := by
  unfold Machine.settleFrame
  split
  · rename_i hstate
    exact hs.checkListenFrame hstate _ _
  · split
    · rename_i hrunning
      split
      · exact hs
      · split
        · exact hs.checkOwnSlotFrame _
        · rename_i hslot
          exact hs.checkFrame _ _ hslot hrunning
    · exact hs

theorem LinkOk.endReception (bytes : List Byte) : LinkOk (endReception bytes s) := by
  obtain ⟨hframe, hending, hreception, hown⟩ := hs.line_ok
  unfold Machine.endReception
  split
  · exact LinkOk.settleFrame (hs.setLine (l := { s.line with reception := none }) ⟨hframe, hending, nofun, hown⟩) _ _
  · split
    · exact hs
    · exact LinkOk.settleFrame (hs.setLine (l := { s.line with ending := none }) ⟨hframe, nofun, hreception, hown⟩) _ _

end

/-! ### Every step -/

theorem linkOk_stopAll (s : State) : LinkOk (stopAll s) := by
  have hstopped : LinkOk (stopLink s) := by
    refine LinkOk.of_changes (s := (stopGrid (s.setLine LinePort.reset)).setLink LinkUnit.reset) ?_ (changes_linkNotice _ _ _)
    exact ⟨linkUnit_reset_ok, ⟨rfl, rfl, nofun, fun _ => ⟨rfl, rfl⟩, nofun⟩, ⟨List.nodup_nil, nofun⟩,
      ⟨nofun, nofun, nofun, nofun⟩, fun h => absurd rfl h, fun _ => rfl⟩
  exact ((hstopped.of_changes (changes_stopExchange _)).of_changes (changes_removePeerEntries _)).of_changes
    (changes_stopMembers _)

section
variable {s : State} (hs : LinkOk s)
include hs

theorem LinkOk.hostEffect {c : Instr} {t : State} (h : HostEffect s c t) (hreset : s.inReset = false) : LinkOk t := by
  cases h with
  | none => exact hs
  | reset => exact reset_linkOk.congr rfl
  | permit => exact hs.of_changes (changes_setExchange _ _)
  | input => exact hs.of_changes (changes_writeInput _ _ _ s)
  | idle => exact hs.of_changes (changes_writeIdles _ s)
  | lead => exact hs.of_changes (changes_setExchange _ _)
  | start hoff hlegal =>
    obtain ⟨-, -, -, hannounced, -, hnew, hintegration, hconfirmation, hsilence, hcollision⟩ := hs.link_ok
    rw [hoff] at hannounced hnew
    exact enterListen_linkOk ⟨rfl, hintegration, fun _ => ⟨Bool.eq_false_iff.mpr fun h => absurd (hannounced h) (by decide),
      hnew rfl, hconfirmation, hsilence, hcollision⟩⟩ hlegal hreset (Nat.zero_le _)
  | stop => exact linkOk_stopAll s
  | drawn => exact hs.of_changes (changes_drawNumber s)
  | applied => exact (hs.of_changes (changes_drawNumber s)).of_changes (changes_applyRequest _ _ _ _)
  | submitted => exact (hs.of_changes (changes_drawNumber s)).of_changes (changes_makeRequest _ _ _ _)
  | mark => exact hs.of_changes (changes_makeEvent _ _ _ s)
  | notice => exact (hs.of_changes (changes_setHost _ _)).of_changes (changes_queueOverflow _)
  | cleared => exact hs.of_changes (changes_setPeer _ _ _)

theorem LinkOk.samplePins (hreset : s.inReset = true) (straps : Straps) (pins : BitVec 8) :
    LinkOk (allPins.foldl (samplePinAtReset pins) { s with inReset := false, straps := straps }) := by
  have hoff := hs.2.2.2.2.2 hreset
  obtain ⟨hrunning, hslot, hsamples, hawaited⟩ := hs.without_grid (by rw [hoff]; rfl)
  obtain ⟨hlink, ⟨hgrid, hindexed, -, hstopped, -⟩, -, hline, -, -⟩ := hs
  refine LinkOk.of_changes (s := { s with inReset := false, straps := straps }) ?_ (changes_samplePins _ _ _)
  refine ⟨hlink, ⟨hgrid, hindexed, fun k hk => ?_, hstopped, fun h => ?_⟩, ⟨?_, fun x hx => ?_⟩, hline, fun h => absurd hoff h,
    nofun⟩
  · exact absurd (hslot.symm.trans hk) nofun
  · exact absurd (hawaited.symm.trans h) (by decide)
  · show (s.cycle.samples.map _).Nodup
    rw [hsamples]
    exact List.nodup_nil
  · rw [show s.cycle.samples = [] from hsamples] at hx
    cases hx

theorem LinkOk.startSending {f : OwnFrame} (hframe : s.line.frame = some f) : LinkOk (startSending f s) := by
  obtain ⟨hsends, hending, hreception, hown⟩ := hs.line_ok
  exact hs.setLine ⟨fun _ => hsends (by rw [hframe]; rfl), hending, hreception, hown⟩

theorem LinkOk.effect {c : Instr} {t : State} (h : Effect s c t) : LinkOk t := by
  cases h with
  | none => exact hs
  | csn => exact hs.of_changes (changes_setHost _ _)
  | host _ u _ htakes h =>
    have hreset : s.inReset = false := by
      unfold State.takesCommands at htakes
      simpa using (Bool.and_eq_true_iff.mp htakes).1
    have hrisen : LinkOk (riseCsn s) := hs.of_changes (changes_setHost _ _)
    exact (hrisen.hostEffect h hreset).of_changes (changes_setHost _ _)
  | reset => exact reset_linkOk.congr rfl
  | resetEnd straps pins hreset => exact hs.samplePins hreset straps pins
  | coldStart hdue =>
    unfold State.listenDue at hdue
    exact hs.coldStart (of_decide_eq_true (Bool.and_eq_true_iff.mp hdue).1)
  | slotZero => exact (hs.setAwaited (x := false) nofun).slotBegins 0
  | slotAfter order k hdue => exact hs.advanceSlot order hdue
  | send f hframe => exact hs.startSending hframe
  | frameEnd _ _ f differs hdue =>
    refine hs.endFrame (f := f) ?_ differs
    unfold State.frameEndDue at hdue
    split at hdue
    · cases hdue
    · rename_i hframe
      split at hdue
      · cases hdue
        exact hframe
      · cases hdue
  | markDetected => exact hs.detectMark
  | checksEnd => exact hs.endReception _
  | cycleEnd hdue =>
    unfold State.cycleEndDue at hdue
    simp only [Bool.and_eq_true] at hdue
    exact hs.takeCycleEnd hdue.1.1.1
  | sample p _ u _ hu => exact (hs.of_changes (hu ▸ changes_recogniseIfDue p s)).of_changes (changes_setPin _ _ _)
  | recognised => exact hs.of_changes (changes_recogniseIfDue _ s)
  | edge => exact hs.of_changes (changes_takeEdge _ s)
  | armTime => exact hs.of_changes (changes_whereDue _ _ s)
  | held => exact hs.of_changes (changes_whereDue _ _ s)
  | expired => exact hs.of_changes (changes_whereDue _ _ s)

theorem LinkOk.tick : LinkOk (tick s) := by
  unfold Machine.tick
  split
  · exact hs
  · obtain ⟨⟨htimer, hmax, hrest⟩, hgrid, hsamples, ⟨hframe, -, hreception, hown⟩, hlegal, hreset⟩ := hs
    refine ⟨⟨?_, fun n hn => ?_, hrest⟩, hgrid, hsamples, ⟨fun h => ?_, nofun, hreception, hown⟩, hlegal, hreset⟩
    · exact Option.isSome_map.trans htimer
    · obtain ⟨m, hm, rfl⟩ := Option.mem_map.mp hn
      exact (Nat.sub_le m 1).trans (hmax m hm)
    · exact hframe (Option.isSome_map.symm.trans h)

end

/-- Settles O59: each operation of the link, the cycle and the Line Port leaves them in agreement. -/
theorem stepKeepsLinkOk : Obligations.StepKeepsLinkOk := fun _ _ hs hstep =>
  step_keeps (fun _ _ hs => hs.of_changes (changes_setPending _ _)) (fun _ _ _ heffect hs => hs.effect heffect)
    (fun _ hs => hs.tick) hs hstep

end Sys2Proof.Machine
end

