-- ==== Sys2Proof/Proofs/Frozen.lean ====
section
/-! What changes only where it is stated: straps, output pins and line time (R1, R3, R136), and the configuration outside OFF
(R19, R88, R137, R177). -/

namespace Sys2Proof.Machine

-- One thread for the whole file: its many small proofs would otherwise each take a thread's memory.
set_option Elab.async false

/-! ### Line time within an instant -/

section
variable {s : State}

theorem now_of_changes {t : State} {bs : List Block} (h : Changes bs s t) (hb : Block.cycle ∉ bs := by decide) :
    t.now = s.now := congrArg CycleUnit.lineTime (h _ hb)

theorem enterListen_now (r : LinkReason) (k : Option Station) (x : Nat) : (enterListen r k x s).now = s.now := by
  rw [State.now, enterListen_cycle]
  rfl

theorem judgeCollided_now (n : Nat) : (judgeCollided n s).now = s.now := by
  have hcounted : Changes [.link, .line, .host] s (collisionNotice ((s.setLine { s.line with ownSlot := .collided }).setLink
      { s.link with collisionCount := n + 1 })) :=
    ((changes_setLine s _).then (ds := [.link, .line]) (changes_setLink _ _)).then (changes_queueNotice _ _)
  unfold judgeCollided
  dsimp only
  split
  · exact (enterListen_now _ _ _).trans (now_of_changes hcounted)
  · exact now_of_changes hcounted

theorem endFrame_now (f : OwnFrame) (differs : Bool) : (endFrame f differs s).now = s.now := by
  have hsent : Changes [.line, .exchange] s (reportSent f (s.setLine { s.line with frame := none })) :=
    (changes_setLine s _).then (changes_reportSent _ _)
  unfold endFrame
  dsimp only
  split
  · rw [judgeCollided_now, now_of_changes (changes_setLink _ _), now_of_changes hsent]
  · show (reportSent f (s.setLine { s.line with frame := none })).now = s.now
    exact now_of_changes hsent

theorem foreignMark_now : (foreignMark s).now = s.now := by
  unfold foreignMark
  split
  · rfl
  · rfl
  · rfl
  · exact judgeCollided_now _

theorem detectMark_now : (detectMark s).now = s.now := by
  unfold detectMark
  split
  · rfl
  · split
    · rfl
    · dsimp only
      split
      · split
        · exact foreignMark_now
        · exact (now_of_changes (changes_setLine _ _)).trans foreignMark_now
      · rfl

theorem enterSample_now (k : Station) (d : Int) (a : Attribution) : (enterSample k d a s).now = s.now := by
  unfold enterSample
  split <;> rfl

/-- A frame in the window reaches the Membership Table and what its items name. -/
theorem changes_handOn_within (h : Header) (items : List Item) (d : Int) (s : State) :
    Changes Block.ofMembers s (handOn h items true d s) :=
  (changes_reportFrame _ _ _ _ s).then (changes_takeItems _ _ _)

theorem handOn_now (h : Header) (items : List Item) (within : Bool) (d : Int) : (handOn h items within d s).now = s.now := by
  cases within with
  | true => exact now_of_changes (changes_handOn_within h items d s)
  | false =>
    have hreported := now_of_changes (changes_reportFrame h.station false d h.isNew s)
    show (yieldTo h (reportFrame h.station false d h.isNew s)).now = _
    unfold yieldTo
    split
    · exact (enterListen_now _ _ _).trans hreported
    · exact hreported

theorem checkFrame_now (x : Received) (mark : Time) (a : Attribution) : (checkFrame x mark a s).now = s.now := by
  unfold checkFrame handFrame
  split
  · exact now_of_changes (changes_countCheckError _ _)
  · exact now_of_changes (changes_countCheckError _ _)
  · split
    · exact now_of_changes (changes_countIntrusion _ _)
    · split
      · exact now_of_changes (changes_countCheckError _ _)
      · dsimp only
        split
        · exact (handOn_now _ _ _ _).trans (enterSample_now _ _ _)
        · exact handOn_now _ _ _ _

theorem checkOwnSlotFrame_now (x : Received) : (checkOwnSlotFrame x s).now = s.now := by
  unfold checkOwnSlotFrame
  split
  · rfl
  · rfl
  · split
    · exact enterListen_now _ _ _
    · rfl

/-- After its grid has started an adoption touches neither the link, the cycle nor the Line Port. -/
theorem changes_adopt_rest (h : Header) (items : List Item) (mark : Time) (s : State) :
    Changes Block.ofMembers (adoptGrid h mark s) (adopt h items mark s) := by
  have hheard : Changes Block.ofMembers (adoptGrid h mark s) (adoptHeard h items (adoptGrid h mark s)) :=
    (changes_setHost (adoptGrid h mark s) _).then (ds := Block.ofMembers) (changes_handOn_within h items 0 _)
  rw [adopt_eq]
  exact (((((hheard.then (ds := Block.ofMembers) (changes_setHost _ _)).then (ds := Block.ofMembers)
    (changes_linkNotice _ _ _)).then (ds := Block.ofMembers) (changes_adoptionStep _ _ _ _)).then (ds := Block.ofMembers)
    (changes_queueNotice _ _))).then (changes_queueBehind _ _ _)

/-- Line time moves at the end of a frame's checks only where the frame is adopted. -/
theorem settleFrame_now (r : Reception) (x : Received) : (settleFrame r x s).now = s.now ∨
    s.link.state = .listen ∧ (settleFrame r x s).link.state = .integrate := by
  unfold settleFrame
  split
  · rename_i hstate
    unfold checkListenFrame
    split
    · exact .inl rfl
    · exact .inl rfl
    · split
      · exact .inl rfl
      · split
        · exact .inl rfl
        · exact .inr ⟨hstate, by rw [(changes_adopt_rest _ _ _ _).link_eq, adoptGrid_link]⟩
  · split
    · split
      · exact .inl rfl
      · split
        · exact .inl (checkOwnSlotFrame_now _)
        · exact .inl (checkFrame_now _ _ _)
    · exact .inl rfl

theorem endReception_now (bytes : List Byte) : (endReception bytes s).now = s.now ∨
    s.link.state = .listen ∧ (endReception bytes s).link.state = .integrate := by
  unfold endReception
  split
  · exact settleFrame_now (s := abandonReception s) _ _
  · split
    · exact .inl rfl
    · exact settleFrame_now (s := s.setLine { s.line with ending := none }) _ _

theorem linkAtCycleEnd_now (n : Nat) : (linkAtCycleEnd n s).now = s.now := by
  rw [State.now, State.now]
  rcases linkAtCycleEnd_cycle n s with h | h <;> rw [h]

theorem takeCycleEnd_now : (takeCycleEnd s).now = s.now + BitVec.ofInt 32 (cycleStep s.cycle.samples) := by
  have hturned : (turnCycle s).now = s.now + BitVec.ofInt 32 (cycleStep s.cycle.samples) := by
    rw [State.now, turnCycle_cycle]
    rfl
  have hdecided : (expireCache (linkAtCycleEnd s.cycle.samples.length (turnCycle s))).now = (turnCycle s).now :=
    (now_of_changes (changes_expireCache _)).trans (linkAtCycleEnd_now _)
  unfold takeCycleEnd beginCycleSlot
  split
  · split
    · exact ((now_of_changes (changes_slotBegins _ _)).trans hdecided).trans hturned
    · exact hdecided.trans hturned
  · exact hdecided.trans hturned

theorem advanceSlot_now (order : SlotOrder) (k : Station) : (advanceSlot order k s).now = s.now := by
  have hmoved : (s.setCycle { s.cycle with slotIndex := some (nextSlot k) }).now = s.now := rfl
  cases order with
  | slotEndFirst =>
    exact (now_of_changes (((changes_slotEnd k _).then (ds := Block.ofSlot.tail) (changes_endOwnSlot k _)).then
      (ds := Block.ofSlot.tail) (changes_slotBegins _ _))).trans hmoved
  | buildFirst =>
    exact (now_of_changes (((changes_endOwnSlot k _).then (ds := Block.ofSlot.tail) (changes_slotBegins _ _)).then
      (ds := Block.ofSlot.tail) (changes_slotEnd k _))).trans hmoved

theorem coldStart_now : (coldStart s).now = s.now := by
  unfold coldStart
  dsimp only
  rw [now_of_changes (changes_slotBegins _ _), now_of_changes (changes_linkNotice _ _ _)]
  rfl

theorem stopAll_now : (stopAll s).now = s.now := by
  have hlink : (stopLink s).now = s.now := by
    unfold stopLink
    dsimp only
    rw [now_of_changes (changes_linkNotice _ _ _)]
    rfl
  exact (now_of_changes (((changes_stopExchange _).then (ds := Block.ofMembers) (changes_removePeerEntries _)).then
    (ds := Block.ofMembers) (changes_stopMembers _))).trans hlink

end

/-! ### Straps, output pins and line time (R1, R3, R11, R13, R136) -/

/-- A host command that is no reset leaves straps, output pins and line time. -/
theorem HostEffect.instant {s t : State} {c : Instr} (h : HostEffect s c t) :
    c = .reset ∧ t = resetStation s ∨ t.straps = s.straps ∧ t.outputs = s.outputs ∧ t.now = s.now := by
  have keep {bs : List Block} {u v : State} (h : Changes bs u v) (hstraps : Block.straps ∉ bs := by decide)
      (houtputs : Block.outputs ∉ bs := by decide) (hcycle : Block.cycle ∉ bs := by decide) :
      v.straps = u.straps ∧ v.outputs = u.outputs ∧ v.now = u.now :=
    ⟨h _ hstraps, h _ houtputs, now_of_changes h hcycle⟩
  cases h with
  | none => exact .inr ⟨rfl, rfl, rfl⟩
  | reset => exact .inl ⟨rfl, rfl⟩
  | permit => exact .inr ⟨rfl, rfl, rfl⟩
  | input => exact .inr (keep (changes_writeInput _ _ _ s))
  | idle => exact .inr (keep (changes_writeIdles _ s))
  | lead => exact .inr ⟨rfl, rfl, rfl⟩
  | start =>
    have hchanges := changes_enterListen .start Option.none 0 (s.setLink { s.link with frozen := true })
    exact .inr ⟨hchanges.straps_eq, hchanges.outputs_eq, enterListen_now _ _ _⟩
  | stop => exact .inr ⟨(changes_stopAll s).straps_eq, (changes_stopAll s).outputs_eq, stopAll_now⟩
  | drawn => exact .inr ⟨rfl, rfl, rfl⟩
  | applied _ r =>
    have hkept := keep (changes_applyRequest s.own s.nextNumber r (drawNumber s))
    exact .inr hkept
  | submitted => exact .inr ⟨rfl, rfl, rfl⟩
  | mark => exact .inr (keep (changes_makeEvent _ _ _ s))
  | notice n rest =>
    have hkept := keep (changes_queueOverflow (s.setHost { s.host with notices := rest }))
    exact .inr hkept
  | cleared => exact .inr ⟨rfl, rfl, rfl⟩

/-- What a command that is no reset leaves: the straps but at the end of a reset, the output pins, and line time but at a
cycle end and an adoption. -/
theorem Effect.instant {s t : State} {c : Instr} (h : Effect s c t) :
    (c = .resetnAsserted ∨ c = .powerUp ∨ c = .reset) ∧ t.outputs = State.reset.outputs ∧ t.now = 0 ∨
      (t.straps = s.straps ∨ ∃ straps pins, c = .resetEnd straps pins ∧ t.straps = straps) ∧ t.outputs = s.outputs ∧
        (t.now = s.now ∨
          (c = .cycleEnd ∧ ∃ σ : Int, -16 ≤ σ ∧ σ ≤ 16 ∧ t.now = s.now + BitVec.ofInt 32 σ) ∨
          (s.link.state = .listen ∧ t.link.state = .integrate ∧ ∃ bytes, c = .frameChecksEnd bytes)) := by
  have keep {bs : List Block} (h : Changes bs s t) (hnow : t.now = s.now) (hstraps : Block.straps ∉ bs := by decide)
      (houtputs : Block.outputs ∉ bs := by decide) :
      (t.straps = s.straps ∨ ∃ straps pins, c = .resetEnd straps pins ∧ t.straps = straps) ∧ t.outputs = s.outputs ∧
        (t.now = s.now ∨ (c = .cycleEnd ∧ ∃ σ : Int, -16 ≤ σ ∧ σ ≤ 16 ∧ t.now = s.now + BitVec.ofInt 32 σ) ∨
          (s.link.state = .listen ∧ t.link.state = .integrate ∧ ∃ bytes, c = .frameChecksEnd bytes)) :=
    ⟨.inl (h _ hstraps), h _ houtputs, .inl hnow⟩
  cases h with
  | none => exact .inr ⟨.inl rfl, rfl, .inl rfl⟩
  | csn => exact .inr ⟨.inl rfl, rfl, .inl rfl⟩
  | host _ u _ _ hhost =>
    rcases hhost.instant with ⟨rfl, rfl⟩ | ⟨hstraps, houtputs, hnow⟩
    · exact .inl ⟨.inr (.inr rfl), rfl, rfl⟩
    · exact .inr ⟨.inl hstraps, houtputs, .inl hnow⟩
  | reset _ hc => exact .inl ⟨hc.elim .inl fun h => .inr (.inl h), rfl, rfl⟩
  | resetEnd straps pins =>
    have hchanges := changes_samplePins pins allPins { s with inReset := false, straps := straps }
    have hnow := now_of_changes hchanges
    exact .inr ⟨.inr ⟨straps, pins, rfl, hchanges.straps_eq⟩, hchanges.outputs_eq, .inl hnow⟩
  | coldStart => exact .inr (keep (changes_coldStart s) coldStart_now)
  | slotZero =>
    have hchanges := changes_slotBegins 0 (s.setCycle { s.cycle with slotZeroAwaited := false })
    have hnow := now_of_changes hchanges
    exact .inr ⟨.inl hchanges.straps_eq, hchanges.outputs_eq, .inl hnow⟩
  | slotAfter order k => exact .inr (keep (changes_advanceSlot order k s) (advanceSlot_now order k))
  | send => exact .inr ⟨.inl rfl, rfl, .inl rfl⟩
  | frameEnd _ _ f differs => exact .inr (keep (changes_endFrame f differs s) (endFrame_now f differs))
  | markDetected => exact .inr (keep (changes_detectMark s) detectMark_now)
  | checksEnd bytes =>
    have hchanges := changes_endReception bytes s
    refine .inr ⟨.inl hchanges.straps_eq, hchanges.outputs_eq, ?_⟩
    rcases endReception_now (s := s) bytes with hnow | ⟨hlisten, hintegrate⟩
    · exact .inl hnow
    · exact .inr (.inr ⟨hlisten, hintegrate, bytes, rfl⟩)
  | cycleEnd =>
    have hchanges := changes_takeCycleEnd s
    obtain ⟨hleast, hmost⟩ := cycleStep_bounds s.cycle.samples
    exact .inr ⟨.inl hchanges.straps_eq, hchanges.outputs_eq,
      .inr (.inl ⟨rfl, cycleStep s.cycle.samples, hleast, hmost, takeCycleEnd_now⟩)⟩
  | sample p level u _ hu =>
    have hchanges : Changes Block.ofEvents s u := hu ▸ changes_recogniseIfDue p s
    have hnow := now_of_changes hchanges
    exact .inr ⟨.inl hchanges.straps_eq, hchanges.outputs_eq, .inl hnow⟩
  | recognised p => exact .inr (keep (changes_recogniseIfDue p s) (now_of_changes (changes_recogniseIfDue p s)))
  | edge _ d => exact .inr (keep (changes_takeEdge d s) (now_of_changes (changes_takeEdge d s)))
  | armTime => exact .inr ⟨.inl rfl, rfl, .inl rfl⟩
  | held => exact .inr ⟨.inl rfl, rfl, .inl rfl⟩
  | expired => exact .inr ⟨.inl rfl, rfl, .inl rfl⟩

/-- Settles O6: a reset, or one of the effects that leave the output pins. -/
theorem strapsPinsAndLineTimeChangeOnlyWhereStated : Obligations.StrapsPinsAndLineTimeChangeOnlyWhereStated := by
  intro c s t h
  rcases (effect_of_exec h).instant with ⟨hc, houtputs, hnow⟩ | ⟨hstraps, houtputs, hnow⟩
  · have hreset : c = .resetnAsserted ∨ c = .powerUp ∨ c = .reset ∨ ∃ straps pins, c = .resetEnd straps pins ∧ t.straps = straps := by
      rcases hc with hc | hc | hc
      · exact .inl hc
      · exact .inr (.inl hc)
      · exact .inr (.inr (.inl hc))
    refine ⟨.inr hreset, .inr ⟨hc, fun n => ?_⟩, .inr (.inr (.inr ⟨hc, hnow⟩))⟩
    rw [State.out, houtputs]
    exact reset_out n
  · refine ⟨hstraps.imp_right fun h => .inr (.inr (.inr h)), .inl fun n => by rw [State.out, State.out, houtputs], ?_⟩
    rcases hnow with hnow | hstep | hadopted
    · exact .inl hnow
    · exact .inr (.inl hstep)
    · exact .inr (.inr (.inl hadopted))

/-! ### The configuration (R19, R88, R137, R177) -/

/-- The permit map, the minimum lead and the idle levels are those of `s`. -/
def SameSetup (s u : State) : Prop :=
  u.exchange.permit = s.exchange.permit ∧ u.exchange.minLead = s.exchange.minLead ∧
    ∀ n : ChannelNumber, (u.channel n).idle = (s.channel n).idle

theorem SameSetup.congr {s u t : State} (h : SameSetup s u) (hpermit : t.exchange.permit = u.exchange.permit)
    (hlead : t.exchange.minLead = u.exchange.minLead) (hchannels : t.channels = u.channels) : SameSetup s t := by
  unfold SameSetup State.channel
  rw [hpermit, hlead, hchannels]
  exact h

theorem SameSetup.of_changes {s u t : State} {bs : List Block} (h : SameSetup s u) (hc : Changes bs u t)
    (hexchange : Block.exchange ∉ bs := by decide) (hchannels : Block.channels ∉ bs := by decide) : SameSetup s t := by
  have hx : t.exchange = u.exchange := hc _ hexchange
  exact h.congr (by rw [hx]) (by rw [hx]) (hc _ hchannels)

section
variable {s : State}

theorem SameSetup.queueReplyItem {u : State} (h : SameSetup s u) (i : ReplyItem) : SameSetup s (queueReplyItem i u) := by
  unfold Machine.queueReplyItem
  split
  · exact h.congr rfl rfl rfl
  · exact h

theorem SameSetup.failRequest {u : State} (h : SameSetup s u) (why : FailReason) (r : RequestRecord) :
    SameSetup s (failRequest why r u) :=
  SameSetup.of_changes (u := removeRequest r.number u) (h.congr rfl rfl rfl) (changes_queueNotice _ _)

theorem SameSetup.retryPass {u : State} (h : SameSetup s u) : SameSetup s (retryPass u) := by
  refine foldl_keeps (P := SameSetup s) (fun v r hv => ?_) u.exchange.requests h
  unfold retryRequest
  split
  · split
    · exact hv.failRequest _ _
    · split
      · exact hv.congr rfl rfl rfl
      · exact hv
  · exact hv

theorem sameSetup_tableBlind : TableBlind (SameSetup s) where
  table hc h := h.of_changes hc
  drive c owner phase h := by
    refine ⟨h.1, h.2.1, fun n => ?_⟩
    rw [State.channel_setChannel]
    split
    · rename_i hn
      exact hn ▸ h.2.2 n
    · exact h.2.2 n
  result e o h := by
    unfold produceResult
    split
    · split
      · exact h.of_changes (changes_queueNotice _ _)
      · exact h.queueReplyItem _
    · exact h

theorem sameSetup_closed : Closed (SameSetup s) where
  frame hc h := h.of_changes hc
  port _ _ h := h.congr rfl rfl rfl
  notice _ h := h.of_changes (changes_queueNotice _ _)
  popped _ h := (h.of_changes (changes_setHost _ _)).of_changes (changes_queueOverflow _)
  fresh h := h.congr rfl rfl rfl
  back _ h := h.congr rfl rfl rfl
  behind _ h := h.of_changes (changes_queueBehind _ _ _)
  reply i h := h.queueReplyItem i
  send _ _ h := h.congr rfl rfl rfl
  remove _ h := h.congr rfl rfl rfl
  forget _ h := h.congr rfl rfl rfl
  answer _ _ _ _ _ h := SameSetup.queueReplyItem (u := setCacheOf _ _ _) (h.congr rfl rfl rfl) _
  retry h := h.retryPass
  drain _ _ _ _ h := h.congr rfl rfl rfl
  sent f h := by
    rw [reportSent_eq]
    exact h.congr rfl rfl rfl
  move _ h := h.congr rfl rfl rfl
  expire h := h.congr rfl rfl rfl
  uncache h := h.congr rfl rfl rfl
  draw h := h.congr rfl rfl rfl
  submit _ _ _ h := h.congr rfl rfl rfl
  edge _ h := sameSetup_tableBlind.takeEdge _ h
  note _ _ _ h := h.congr rfl rfl rfl
  step _ _ _ h := sameSetup_tableBlind.tableStep _ _ _ h
  abandon h := sameSetup_tableBlind.abandonTable h
  meet _ h := sameSetup_tableBlind.matchEvent _ h
  amend _ _ h := sameSetup_tableBlind.amendEntry _ _ h
  cancel _ h := sameSetup_tableBlind.leave _ _ h
  place k n o _ _ h := h.of_changes (changes_placeOrder k n o _)
  bound _ h := sameSetup_tableBlind.leavesSilently _ h
  watchers k h := sameSetup_tableBlind.removeWatchers k h
  peers h := sameSetup_tableBlind.leavesSilently _ h

end

/-- The broadcast flags, edge selects and filters are those of `s`. -/
def SameInputs (s u : State) : Prop :=
  (∀ i : Input, (u.inputRecord i).broadcast = (s.inputRecord i).broadcast) ∧
    ∀ p : Pin, (u.pin p).edgeSelect = (s.pin p).edgeSelect ∧ (u.pin p).filter = (s.pin p).filter

theorem sendEvent_inputs (i : Input) (edge : Edge) (stamp : Time) (s : State) :
    (sendEvent i edge stamp s).capture.inputs = s.capture.inputs := by
  unfold sendEvent
  split
  · rfl
  · dsimp only
    split
    · rfl
    · rw [queueNotice_capture]
      rfl

/-- An event is written to the record of its input, and to no other (R75). -/
theorem makeEvent_inputRecord (i : Input) (edge : Edge) (stamp : Time) (s : State) (j : Input) :
    (makeEvent i edge stamp s).inputRecord j =
      if j = i then (s.inputRecord i).withEvent edge stamp else s.inputRecord j := by
  rw [← State.inputRecord_setInputRecord]
  simp only [State.inputRecord, makeEvent, sendEvent_inputs, (changes_matchEvent _ _).capture_eq]

section
variable {s : State}

theorem SameInputs.of_capture {t : State} (h : t.capture = s.capture) : SameInputs s t := by
  unfold SameInputs State.inputRecord State.pin
  rw [h]
  exact ⟨fun _ => rfl, fun _ => ⟨rfl, rfl⟩⟩

theorem sameInputs_makeEvent (i : Input) (edge : Edge) (stamp : Time) : SameInputs s (makeEvent i edge stamp s) := by
  refine ⟨fun j => ?_, fun p => ?_⟩
  · rw [makeEvent_inputRecord]
    split
    · rename_i hj
      rw [hj]
      rfl
    · rfl
  · rw [State.pin, makeEvent_pins]
    exact ⟨rfl, rfl⟩

/-- A recognition writes at most the record of its input. -/
theorem recogniseIfDue_inputRecord (p : Pin) (s : State) (i : Input) :
    (recogniseIfDue p s).inputRecord i =
      if i = inputOfPin p ∧ (s.pin p).recognised = true ∧ (s.pin p).edgeSelect.selects (s.pin p).newEdge = true then
        (s.inputRecord i).withEvent (s.pin p).newEdge ((s.pin p).stampAt s.now)
      else s.inputRecord i := by
  unfold recogniseIfDue recognise
  dsimp only
  by_cases hdue : (s.pin p).recognised = true
  · rw [if_pos hdue]
    by_cases hselects : (s.pin p).edgeSelect.selects (s.pin p).newEdge = true
    · rw [if_pos hselects, makeEvent_inputRecord, State.inputRecord_setPin, State.inputRecord_setPin]
      by_cases hi : i = inputOfPin p
      · rw [if_pos hi, if_pos ⟨hi, hdue, hselects⟩, hi]
        rfl
      · rw [if_neg hi, if_neg fun h => hi h.1]
    · rw [if_neg hselects, if_neg fun h => hselects h.2.2, State.inputRecord_setPin]
  · rw [if_neg hdue, if_neg fun h => hdue h.2.1]

theorem sameInputs_recogniseIfDue (p : Pin) : SameInputs s (recogniseIfDue p s) := by
  refine ⟨fun i => ?_, fun q => ?_⟩
  · rw [recogniseIfDue_inputRecord]
    split <;> rfl
  · rw [recogniseIfDue_pin]
    split
    · rename_i hq
      rw [hq.1]
      exact ⟨rfl, rfl⟩
    · exact ⟨rfl, rfl⟩

/-- The input setup outside OFF. -/
theorem HostEffect.sameInputs {c : Instr} {t : State} (h : HostEffect s c t) (hon : s.link.state ≠ .off) :
    c = .reset ∨ SameInputs s t := by
  cases h with
  | none => exact .inr (.of_capture rfl)
  | reset => exact .inl rfl
  | permit => exact .inr (.of_capture rfl)
  | input _ _ _ _ hoff => exact absurd hoff hon
  | idle => exact .inr (.of_capture (changes_writeIdles _ s).capture_eq)
  | lead => exact .inr (.of_capture rfl)
  | start hoff => exact absurd hoff hon
  | stop => exact .inr (.of_capture (changes_stopAll s).capture_eq)
  | drawn => exact .inr (.of_capture rfl)
  | applied => exact .inr (.of_capture (changes_applyRequest _ _ _ _).capture_eq)
  | submitted => exact .inr (.of_capture rfl)
  | mark => exact .inr (sameInputs_makeEvent _ _ _)
  | notice => exact .inr (.of_capture (changes_queueOverflow _).capture_eq)
  | cleared => exact .inr (.of_capture rfl)

theorem Effect.sameInputs {c : Instr} {t : State} (h : Effect s c t) (hon : s.link.state ≠ .off) :
    (c = .resetnAsserted ∨ c = .powerUp ∨ c = .reset) ∨ SameInputs s t := by
  cases h with
  | none => exact .inr (.of_capture rfl)
  | csn => exact .inr (.of_capture rfl)
  | host _ u _ _ hhost => exact (hhost.sameInputs hon).imp_left fun h => .inr (.inr h)
  | reset _ hc => exact .inl (hc.elim .inl fun h => .inr (.inl h))
  | resetEnd straps pins =>
    refine .inr ⟨fun i => ?_, fun p => ?_⟩
    · rw [State.inputRecord, (samplePins_inputs _ _ _).1]
      rfl
    · rw [samplePins_pin pins (ps := allPins) (List.nodup_finRange 8), if_pos (show p ∈ allPins from List.mem_finRange p)]
      exact ⟨rfl, rfl⟩
  | coldStart => exact .inr (.of_capture (changes_coldStart s).capture_eq)
  | slotZero => exact .inr (.of_capture (changes_slotBegins _ _).capture_eq)
  | slotAfter => exact .inr (.of_capture (changes_advanceSlot _ _ s).capture_eq)
  | send => exact .inr (.of_capture rfl)
  | frameEnd => exact .inr (.of_capture (changes_endFrame _ _ s).capture_eq)
  | markDetected => exact .inr (.of_capture (changes_detectMark s).capture_eq)
  | checksEnd => exact .inr (.of_capture (changes_endReception _ s).capture_eq)
  | cycleEnd => exact .inr (.of_capture (changes_takeCycleEnd s).capture_eq)
  | sample p level u _ hu =>
    obtain ⟨hinputs, hpins⟩ : SameInputs s u := hu ▸ sameInputs_recogniseIfDue p
    refine .inr ⟨hinputs, fun q => ?_⟩
    rw [State.pin_setPin]
    split
    · rename_i hq
      subst hq
      refine Eq.mp ?_ (hpins q)
      unfold PinRecord.sample
      split <;> rfl
    · exact hpins q
  | recognised p => exact .inr (sameInputs_recogniseIfDue p)
  | edge => exact .inr (.of_capture (changes_takeEdge _ s).capture_eq)
  | armTime => exact .inr (.of_capture rfl)
  | held => exact .inr (.of_capture rfl)
  | expired => exact .inr (.of_capture rfl)

end

/-- Settles O7: the writes of the configuration are made in OFF alone. -/
theorem configurationIsFrozenOutsideOff : Obligations.ConfigurationIsFrozenOutsideOff := by
  intro c s t h hon hresetn hpower hreset
  have heffect := effect_of_exec h
  have hnot : ¬(c = .resetnAsserted ∨ c = .powerUp ∨ c = .reset) := by
    rintro (hc | hc | hc)
    · exact hresetn hc
    · exact hpower hc
    · exact hreset hc
  obtain ⟨hpermit, hlead, hidle⟩ : SameSetup s t :=
    sameSetup_closed.effect heffect (fun hc => absurd hc hnot) (fun hoff => absurd hoff hon) (fun hoff => absurd hoff hon)
      (fun hoff => absurd hoff hon) ⟨rfl, rfl, fun _ => rfl⟩
  obtain ⟨hinputs, hpins⟩ := (heffect.sameInputs hon).resolve_left hnot
  exact ⟨hpermit, hlead, hinputs, hpins, hidle⟩

end Sys2Proof.Machine
end

