-- ==== Sys2Proof/Proofs/Slots.lean ====
section
/-! The cycle's slots: the cold start (R25), slot starts (R5, R13, R157), and slot ends at the Membership Table (R57, R58). -/

namespace Sys2Proof.Machine

-- One thread for the whole file: its many small proofs would otherwise each take a thread's memory.
set_option Elab.async false

/-! ### The cold start (R25) -/

/-- The timeline of a cold start, before slot 0 begins. -/
def coldTimeline (s : State) : State :=
  linkNotice .timeout none (((abandonReception (startGrid s.now 0 0 s)).setLine
    { s.line with reception := none, ownSlot := .unjudged }).setLink { s.link with
      state := .coldstart, listenTimer := none, confirmationCount := 0, collisionCount := 0, silenceCount := 0,
      newCountdown := 2, announced := false })

theorem coldStart_eq (s : State) : coldStart s = slotBegins 0 (coldTimeline s) := rfl

theorem exec_listenTimerExpiry {s : State} (hstate : s.link.state = .listen) (htimer : s.link.listenTimer = some 0) :
    exec .listenTimerExpiry s = .next (coldStart s) :=
  if_pos (by simp [State.listenDue, hstate, htimer])

theorem slotBegins_other {k : Station} {s : State} (h : k ≠ s.own ∨ s.link.state.transmits = false) :
    slotBegins k s = s := if_neg fun ⟨hk, htransmits⟩ => h.elim (fun hne => hne hk) fun hquiet => by
  rw [hquiet] at htransmits
  cases htransmits

theorem slotBegins_own {k : Station} {s : State} (hk : k = s.own) (htransmits : s.link.state.transmits = true) :
    slotBegins k s = buildFrame (s.setLine { s.line with reception := none, ending := s.line.reception }) :=
  if_pos ⟨hk, htransmits⟩

theorem linkNotice_host {r : LinkReason} (k : Option Station) {s u : State} {l : LinkState} {c : BitVec 8} (hnow : s.now = u.now)
    (hhost : s.host = u.host) (hstate : s.link.state = l)
    (hcode : nibbles l.code r.code = c) :
    (linkNotice r k s).host =
      (queueNotice { kind := .link, time := u.now, station := k, number := none, code := c, value := none } u).host := by
  unfold linkNotice
  rw [State.noticeNow, hnow, hstate, hcode]
  exact queueNotice_host_congr _ hhost

/-- Settles O8: the timeline is the witness, and slot 0 begins on it. -/
theorem coldStartBeginsATimeline : Obligations.ColdStartBeginsATimeline := by
  intro s shift hstate htimer hshift
  subst hshift
  have hcold := exec_listenTimerExpiry hstate htimer
  rw [coldStart_eq] at hcold
  have hlink : (coldTimeline s).link = { s.link with
      state := .coldstart, listenTimer := none, confirmationCount := 0, silenceCount := 0, collisionCount := 0,
      newCountdown := 2, announced := false } := (changes_linkNotice _ _ _).link_eq
  have hline : (coldTimeline s).line = { s.line with reception := none, ownSlot := .unjudged } :=
    (changes_linkNotice _ _ _).line_eq
  have hstraps : (coldTimeline s).own = s.own := congrArg Straps.id (changes_linkNotice _ _ _).straps_eq
  have hexchange : (coldTimeline s).exchange = (moveCycles (0 - s.cycle.cycleNumber) s).exchange :=
    (changes_linkNotice _ _ _).exchange_eq
  refine ⟨coldTimeline s, hlink, (changes_linkNotice _ _ _).cycle_eq, hline, ?_, fun k => ?_, ?_, ?_, fun hown => ?_,
    fun hown => ?_⟩
  · rw [hexchange]
    rfl
  · rw [State.cacheOf, hexchange]
    exact get_mapVector _ _ _
  · exact linkNotice_host (l := .coldstart) (c := 0x32) _ rfl rfl rfl (by decide)
  · exact (((((changes_startGrid s.now 0 0 s).then (ds := [.cycle, .line, .exchange]) (changes_abandonReception _)).then
      (ds := [.cycle, .line, .exchange]) (changes_setLine _ _)).then (ds := [.cycle, .link, .line, .exchange])
      (changes_setLink _ _))).then (changes_linkNotice _ _ _)
  · rw [hcold, slotBegins_other (.inl fun h => hown (hstraps ▸ h.symm))]
  · have htransmits : (coldTimeline s).link.state.transmits = true := by
      rw [hlink]
      rfl
    rw [slotBegins_own (hstraps.trans hown).symm htransmits] at hcold
    obtain ⟨f, hframe, hnew, hremaining⟩ := buildFrame_line
      ((coldTimeline s).setLine { (coldTimeline s).line with reception := none, ending := (coldTimeline s).line.reception })
    refine ⟨_, f, hcold, ?_, by rw [hframe], ?_, hremaining⟩
    · rw [hline]
    · rw [hnew, State.setLine_link, hlink]
      rfl

/-! ### Slot starts (R5, R13, R157) -/

theorem slotDue_after_iff {s : State} {k : Station} : s.slotDue = some (.after k) ↔
    s.cycle.running = true ∧ s.cycle.slotZeroAwaited = false ∧ s.cycle.slotIndex = some k ∧ k.val + 1 < s.stationCount ∧
      passed (s.cycle.cycleStart + BitVec.ofNat 32 ((k.val + 1) * s.slotLength)) s.now = true := by
  cases hrunning : s.cycle.running with
  | false => simp [State.slotDue, hrunning]
  | true =>
    cases hawaited : s.cycle.slotZeroAwaited with
    | true => simp [State.slotDue, hrunning, hawaited]
    | false =>
      cases hslot : s.cycle.slotIndex with
      | none => simp [State.slotDue, hrunning, hawaited, hslot]
      | some j =>
        have hdue : s.slotDue = if (decide (j.val + 1 < s.stationCount) && passed (s.slotStartTime (j.val + 1)) s.now) = true
            then some (.after j) else none := by
          simp only [State.slotDue, hrunning, hawaited, hslot, if_true, Bool.false_eq_true, if_false]
        rw [hdue]
        constructor
        · intro h
          split at h
          · rename_i hreached
            rw [Bool.and_eq_true, decide_eq_true_eq] at hreached
            cases h
            exact ⟨rfl, rfl, rfl, hreached⟩
          · cases h
        · rintro ⟨-, -, hj, hreached⟩
          cases hj
          exact if_pos (by rw [Bool.and_eq_true, decide_eq_true_eq]; exact hreached)

theorem slotDue_zero_iff {s : State} : s.slotDue = some .zero ↔
    s.cycle.running = true ∧ s.cycle.slotZeroAwaited = true ∧ passed s.cycle.cycleStart s.now = true := by
  cases hrunning : s.cycle.running with
  | false => simp [State.slotDue, hrunning]
  | true =>
    cases hawaited : s.cycle.slotZeroAwaited with
    | true => simp [State.slotDue, hrunning, hawaited]
    | false =>
      cases hslot : s.cycle.slotIndex <;> simp [State.slotDue, hrunning, hawaited, hslot]

theorem exec_slotStart_after {s : State} {k : Station} (order : SlotOrder) (hdue : s.slotDue = some (.after k)) :
    exec (.slotStart order) s = .next (advanceSlot order k s) := by
  simp only [exec, execSlotStart, takeSlotStart, hdue]

theorem exec_slotStart_zero {s : State} (order : SlotOrder) (hdue : s.slotDue = some .zero) :
    exec (.slotStart order) s = .next (beginSlotZero s) := by
  simp only [exec, execSlotStart, takeSlotStart, hdue]

theorem slotEnd_own (s : State) : slotEnd s.own s = s := if_pos rfl

theorem endOwnSlot_own {k : Station} {s : State} (hk : k = s.own) :
    endOwnSlot k s = s.setLine { s.line with ownSlot := .unjudged } := if_pos hk

theorem endOwnSlot_other {k : Station} {s : State} (hk : k ≠ s.own) : endOwnSlot k s = s := if_neg hk

theorem slotEnd_straps (k : Station) (s : State) : (slotEnd k s).own = s.own :=
  congrArg Straps.id (changes_slotEnd k s).straps_eq

theorem add_one_ne (k : Station) : k + 1 ≠ k := by
  intro h
  have hval := congrArg Fin.val h
  simp only [Fin.val_add] at hval
  have hone : (1 : Station).val = 1 := rfl
  omega

/-- Where slot `k` is the next slot. -/
def enterSlot (k : Station) (s : State) : State := s.setCycle { s.cycle with slotIndex := some k }

theorem advanceSlot_slotEndFirst (k : Station) (s : State) :
    advanceSlot .slotEndFirst k s = slotBegins (k + 1) (endOwnSlot k (slotEnd k (enterSlot (k + 1) s))) := rfl

theorem advanceSlot_buildFirst (k : Station) (s : State) :
    advanceSlot .buildFirst k s = slotEnd k (slotBegins (k + 1) (endOwnSlot k (enterSlot (k + 1) s))) := rfl

theorem slotEnd_ofOwn {k : Station} {s : State} (hk : k = s.own) : slotEnd k s = s := if_pos hk

section
variable {s : State} {k : Station}

/-- The end of the own slot and the start of the next. -/
theorem advanceSlot_fromOwn (order : SlotOrder) (hk : k = s.own) :
    advanceSlot order k s = (enterSlot (k + 1) s).setLine { s.line with ownSlot := .unjudged } := by
  have hend : slotEnd k (enterSlot (k + 1) s) = enterSlot (k + 1) s := slotEnd_ofOwn hk
  have hown : endOwnSlot k (enterSlot (k + 1) s) = (enterSlot (k + 1) s).setLine { s.line with ownSlot := .unjudged } :=
    endOwnSlot_own hk
  have hnext : slotBegins (k + 1) ((enterSlot (k + 1) s).setLine { s.line with ownSlot := .unjudged }) = _ :=
    slotBegins_other (.inl fun h => add_one_ne k (h.trans hk.symm))
  cases order with
  | slotEndFirst => rw [advanceSlot_slotEndFirst, hend, hown, hnext]
  | buildFirst => rw [advanceSlot_buildFirst, hown, hnext]; exact slotEnd_ofOwn hk

/-- The end of another slot, where no build comes with it. -/
theorem advanceSlot_quiet (order : SlotOrder) (hk : k ≠ s.own) (hnext : k + 1 ≠ s.own ∨ s.link.state.transmits = false) :
    advanceSlot order k s = slotEnd k (enterSlot (k + 1) s) := by
  have hchanges := changes_slotEnd k (enterSlot (k + 1) s)
  have hstraps := slotEnd_straps k (enterSlot (k + 1) s)
  cases order with
  | slotEndFirst =>
    rw [advanceSlot_slotEndFirst, endOwnSlot_other (by rw [hstraps]; exact hk),
      slotBegins_other (by rw [hstraps, hchanges.link_eq]; exact hnext)]
  | buildFirst =>
    rw [advanceSlot_buildFirst, endOwnSlot_other (s := enterSlot _ _) hk, slotBegins_other (s := enterSlot _ _) hnext]

/-- The own slot start of a transmitting station builds, after or before the slot end of the same instant. -/
theorem advanceSlot_intoOwn (hnext : k + 1 = s.own) (htransmits : s.link.state.transmits = true) :
    advanceSlot .slotEndFirst k s = buildFrame ((slotEnd k (enterSlot (k + 1) s)).setLine
        { s.line with reception := none, ending := s.line.reception }) ∧
      advanceSlot .buildFirst k s = slotEnd k (buildFrame ((enterSlot (k + 1) s).setLine
        { s.line with reception := none, ending := s.line.reception })) := by
  have hk : k ≠ s.own := fun h => add_one_ne k (hnext.trans h.symm)
  have hchanges := changes_slotEnd k (enterSlot (k + 1) s)
  have hstraps := slotEnd_straps k (enterSlot (k + 1) s)
  have hline : (slotEnd k (enterSlot (k + 1) s)).line = s.line := hchanges.line_eq
  constructor
  · rw [advanceSlot_slotEndFirst, endOwnSlot_other (by rw [hstraps]; exact hk), slotBegins_own (hnext.trans hstraps.symm)
      (by rw [hchanges.link_eq]; exact htransmits), hline]
  · rw [advanceSlot_buildFirst, endOwnSlot_other (s := enterSlot _ _) hk, slotBegins_own (s := enterSlot _ _) hnext htransmits]
    rfl

end

/-- Settles O9, by the slot that ends and the slot that begins. -/
theorem slotStartEndsOneSlotAndBeginsTheNext : Obligations.SlotStartEndsOneSlotAndBeginsTheNext := by
  refine ⟨fun _ _ => slotDue_after_iff, fun _ => slotDue_zero_iff, fun s order hdue => ?_, fun s u order k hdue hu => ?_,
    fun s u order hdue hu => ?_⟩
  · simp only [exec, execSlotStart, takeSlotStart, hdue]
  · subst hu
    refine ⟨fun hk => ?_, fun hk hnext => ?_, fun hnext htransmits => ⟨?_, ?_⟩⟩
    · rw [exec_slotStart_after order hdue, advanceSlot_fromOwn order hk]
      rfl
    · rw [exec_slotStart_after order hdue, advanceSlot_quiet order hk hnext, enterSlot]
    · rw [exec_slotStart_after _ hdue, (advanceSlot_intoOwn hnext htransmits).1, enterSlot]
    · rw [exec_slotStart_after _ hdue, (advanceSlot_intoOwn hnext htransmits).2, enterSlot]
  · subst hu
    rw [exec_slotStart_zero order hdue]
    refine ⟨fun h => ?_, fun hown htransmits => ?_⟩
    · exact congrArg _ (slotBegins_other (h.imp_left fun hown h => hown h.symm))
    · exact congrArg _ (slotBegins_own hown.symm htransmits)

/-! ### Slot ends at the Membership Table (R57, R58) -/

section
variable {s : State} {k : Station}

/-- A slot end that changes the state of the record to one that is not LOST, or does not change it. -/
theorem slotEnd_record (hk : k ≠ s.own)
    (hkept : (s.peer k).afterSlot.state = (s.peer k).state ∨ (s.peer k).afterSlot.state ≠ .lost) :
    slotEnd k s =
      if (s.peer k).afterSlot.state = (s.peer k).state then s.setPeer k (s.peer k).afterSlot
      else peerNotice k (s.peer k).afterSlot.state (s.setPeer k (s.peer k).afterSlot) := by
  unfold slotEnd
  rw [if_neg hk]
  dsimp only
  split
  · rfl
  · rename_i hne
    rw [if_neg (hkept.resolve_left hne)]

theorem PeerRecord.afterSlot_noted {r : PeerRecord} {d : Int} (h : r.slotNote = some d) : r.afterSlot = r.heard d := by
  simp only [PeerRecord.afterSlot, h]

theorem PeerRecord.afterSlot_silent {r : PeerRecord} (h : r.slotNote = none) : r.afterSlot = r.missed := by
  simp only [PeerRecord.afterSlot, h]

/-- Only the fourth silent slot end of a MISSING peer loses it. -/
theorem PeerRecord.afterSlot_state {r : PeerRecord} (h : r.slotNote ≠ none ∨ r.state ≠ .missing ∨ r.misses < 3) :
    r.afterSlot.state = r.state ∨ r.afterSlot.state ≠ .lost := by
  cases hnote : r.slotNote with
  | some d =>
    rw [PeerRecord.afterSlot_noted hnote]
    exact .inr nofun
  | none =>
    rw [PeerRecord.afterSlot_silent hnote]
    unfold PeerRecord.missed
    split
    · exact .inl rfl
    · exact .inr nofun
    · rename_i hstate
      split
      · rename_i hmisses
        rcases h with hn | hs | hm
        · exact absurd hnote hn
        · exact absurd hstate hs
        · exact absurd hmisses (Nat.not_le.mpr hm)
      · exact .inl rfl
    · exact .inl rfl

end

/-- Settles O10: the record's next form by the table of R57, and the notice of its change. -/
theorem slotEndUpdatesTheOwnersRecord : Obligations.SlotEndUpdatesTheOwnersRecord := by
  refine ⟨slotEnd_own, fun s t k hk hkept ht => ?_⟩
  rw [slotEnd_record hk (PeerRecord.afterSlot_state hkept)] at ht
  have hrecord : t.members = (s.setPeer k (s.peer k).afterSlot).members := by
    rw [ht]
    split
    · rfl
    · exact (changes_peerNotice _ _ _).members_eq
  have hpeer : ∀ j, t.peer j = if j = k then (s.peer k).afterSlot else s.peer j := fun j => by
    rw [← State.peer_setPeer, State.peer, hrecord]
    rfl
  have hself : t.peer k = (s.peer k).afterSlot := (hpeer k).trans (if_pos rfl)
  refine ⟨fun d hd => ?_, fun hnone => ?_, fun j hj => (hpeer j).trans (if_neg hj), fun hsame => ?_, fun hdiffers => ?_, ?_⟩
  · rw [hself, PeerRecord.afterSlot_noted hd]
    rfl
  · rw [hself, PeerRecord.afterSlot_silent hnone]
    unfold PeerRecord.missed
    refine ⟨fun hstate => ?_, fun hstate => ?_, fun hstate => ?_, fun hstate => ?_⟩ <;> simp only [hstate]
    rw [if_neg]
    rcases hkept with hn | hs | hm
    · exact absurd hnone hn
    · exact absurd hstate hs
    · exact Nat.not_le.mpr hm
  · rw [hself] at hsame
    rw [ht, if_pos hsame]
    rfl
  · rw [hself] at hdiffers ⊢
    rw [ht, if_neg hdiffers]
    exact queueNotice_host_congr _ rfl
  · rw [ht]
    split
    · exact (changes_setPeer _ _ _).mono (by decide)
    · exact (changes_setPeer _ _ _).then (changes_peerNotice _ _ _)

end Sys2Proof.Machine
end

