-- ==== Sys2Proof/Proofs/Leaving.lean ====
section
/-! Entries that leave, and their results (R127, R128, R155); the loss of a peer (R61) and STOP (R35). -/

namespace Sys2Proof.Machine

-- One thread for the whole file: its many small proofs would otherwise each take a thread's memory.
set_option Elab.async false

/-! ### Notices one after another -/

/-- These notices are queued, one after another. -/
def queueEach (ns : List Notice) (s : State) : State := ns.foldl (fun u n => queueNotice n u) s

theorem foldl_queueNotice {α : Type} (f : α → Notice) (l : List α) (s : State) :
    l.foldl (fun u x => queueNotice (f x) u) s = queueEach (l.map f) s := by
  rw [queueEach, List.foldl_map]

theorem queueEach_cons (n : Notice) (ns : List Notice) (s : State) :
    queueEach (n :: ns) s = queueEach ns (queueNotice n s) := rfl

theorem queueEach_host_congr (ns : List Notice) {s u : State} (h : s.host = u.host) :
    (queueEach ns s).host = (queueEach ns u).host := by
  induction ns generalizing s u with
  | nil => exact h
  | cons n ns ih => exact ih (queueNotice_host_congr n h)

theorem queueNotice_riseCsn (n : Notice) (s : State) : queueNotice n (riseCsn s) = riseCsn (queueNotice n s) := by
  rcases Nat.lt_or_ge s.host.notices.length 32 with hroom | hfull
  · rw [queueNotice_of_room n s hroom, queueNotice_of_room n (riseCsn s) hroom]
    rfl
  · rw [queueNotice_of_full n s hfull, queueNotice_of_full n (riseCsn s) hfull]
    rfl

theorem queueEach_riseCsn (ns : List Notice) (s : State) : queueEach ns (riseCsn s) = riseCsn (queueEach ns s) := by
  induction ns generalizing s with
  | nil => rfl
  | cons n ns ih => rw [queueEach_cons, queueNotice_riseCsn, ih, queueEach_cons]

/-! ### The result of one entry (R128, R155) -/

theorem EntryOutcome.reported_iff {o : EntryOutcome} : o.reported = true ↔ o ≠ .originLost ∧ o ≠ .stopped := by
  cases o <;> decide

theorem produceResult_unreported {e : Entry} {o : EntryOutcome} (s : State)
    (h : e.report = false ∨ o = .originLost ∨ o = .stopped) : produceResult e o s = s := by
  refine if_neg fun hboth => ?_
  rw [Bool.and_eq_true] at hboth
  obtain ⟨hreport, hreported⟩ := hboth
  obtain ⟨hlost, hstopped⟩ := EntryOutcome.reported_iff.mp hreported
  rcases h with hsilent | rfl | rfl
  · rw [hreport] at hsilent
    cases hsilent
  · exact hlost rfl
  · exact hstopped rfl

/-! ### What a result reads and writes -/

/-- What a result reads and writes is the same in two states. -/
structure SameReports (s u : State) : Prop where
  straps : u.straps = s.straps
  cycle : u.cycle = s.cycle
  exchange : u.exchange = s.exchange
  host : u.host = s.host

theorem SameReports.refl (s : State) : SameReports s s := ⟨rfl, rfl, rfl, rfl⟩

theorem SameReports.trans {s u v : State} (h : SameReports s u) (k : SameReports u v) : SameReports s v :=
  ⟨k.straps.trans h.straps, k.cycle.trans h.cycle, k.exchange.trans h.exchange, k.host.trans h.host⟩

theorem SameReports.of_changes {s u : State} {bs : List Block} (h : Changes bs s u) (hstraps : .straps ∉ bs := by decide)
    (hcycle : .cycle ∉ bs := by decide) (hexchange : .exchange ∉ bs := by decide) (hhost : .host ∉ bs := by decide) :
    SameReports s u := ⟨h.straps_eq hstraps, h.cycle_eq hcycle, h.exchange_eq hexchange, h.host_eq hhost⟩

theorem queueNotice_sameReports (n : Notice) {s u : State} (h : SameReports s u) :
    SameReports (queueNotice n s) (queueNotice n u) where
  straps := by rw [queueNotice_straps, queueNotice_straps, h.straps]
  cycle := by rw [queueNotice_cycle, queueNotice_cycle, h.cycle]
  exchange := by rw [queueNotice_exchange, queueNotice_exchange, h.exchange]
  host := queueNotice_host_congr n h.host

theorem produceResult_sameReports (e : Entry) (o : EntryOutcome) {s u : State} (h : SameReports s u) :
    SameReports (produceResult e o s) (produceResult e o u) := by
  have hown : u.own = s.own := congrArg Straps.id h.straps
  have hnow : u.now = s.now := congrArg CycleUnit.lineTime h.cycle
  unfold produceResult
  split
  · rw [hown]
    split
    · rw [State.noticeNow, State.noticeNow, hnow]
      exact queueNotice_sameReports _ h
    · unfold queueReplyItem
      rw [h.exchange]
      split
      · exact ⟨h.straps, h.cycle, rfl, h.host⟩
      · exact h
  · exact h

theorem depart_sameReports (e : Entry) (o : EntryOutcome) (s : State) : SameReports (produceResult e o s) (depart e o s) :=
  produceResult_sameReports e o ⟨rfl, rfl, rfl, rfl⟩

/-- Settles O34: the result is produced from the state without the entry, of which it reads nothing. -/
theorem resultsGoToTheirOrigins : Obligations.ResultsGoToTheirOrigins := by
  refine ⟨fun s t e o ht => ?_, fun s e o => ⟨produceResult_unreported s, fun hreport hlost hstopped => ?_⟩,
    rfl, rfl, rfl, rfl, rfl, rfl, rfl, rfl⟩
  · subst ht
    refine ⟨(entryAt_depart e o s e.index).trans (if_pos rfl), fun j hj => (entryAt_depart e o s j).trans (if_neg hj), ?_, ?_,
      (changes_depart e o s).mono (by decide)⟩
    · exact (depart_sameReports e o s).host
    · exact (depart_sameReports e o s).exchange
  · have hreported := EntryOutcome.reported_iff.mpr ⟨hlost, hstopped⟩
    refine ⟨produceResult_local hreport hreported, fun hpeer hroom => ?_, fun hpeer hfull => ?_⟩
    · rw [produceResult_peer hreport hreported hpeer, queueReplyItem_of_room _ _ hroom]
    · rw [produceResult_peer hreport hreported hpeer, queueReplyItem_of_full _ _ hfull]

theorem leave_sameReports (e : Entry) (o : EntryOutcome) (s : State) : SameReports (produceResult e o s) (leave e o s) :=
  (produceResult_sameReports e o (.of_changes (changes_releaseChannel e.channel e.index s))).trans
    (depart_sameReports e o _)

/-! ### The results of several entries -/

theorem foldl_sameReports {f g : State → Entry → State} (hfg : ∀ e s u, SameReports s u → SameReports (f s e) (g u e))
    (es : List Entry) {s u : State} (h : SameReports s u) : SameReports (es.foldl f s) (es.foldl g u) := by
  induction es generalizing s u with
  | nil => exact h
  | cons e es ih => exact ih (hfg e s u h)

/-- The RESULT notice of an entry (R128). -/
def Entry.resultNotice (own : Station) (now : Time) (o : EntryOutcome) (e : Entry) : Notice :=
  { kind := .result, time := now, station := some own, number := some e.number, code := codeByte o.code,
    value := e.lastStart }

/-- The RESULT item of an entry (R128). -/
def Entry.resultItem (o : EntryOutcome) (e : Entry) : ReplyItem := .result e.origin e.number o e.lastStart

section
variable {s : State} {es : List Entry} {o : EntryOutcome}

/-- The results of these entries. -/
def produceResults (es : List Entry) (o : EntryOutcome) (s : State) : State := es.foldl (fun u e => produceResult e o u) s

theorem produceResults_host (hreport : ∀ e ∈ es, e.report = true) (ho : o.reported = true) :
    (produceResults es o s).host =
      (queueEach ((es.filter fun e => e.origin == s.own).map (Entry.resultNotice s.own s.now o)) s).host := by
  induction es generalizing s with
  | nil => rfl
  | cons e es ih =>
    have hrest := ih (s := produceResult e o s) fun x hx => hreport x (List.mem_cons_of_mem _ hx)
    have hchanges := changes_produceResult e o s
    have hown : (produceResult e o s).own = s.own := congrArg Straps.id hchanges.straps_eq
    have hnow : (produceResult e o s).now = s.now := congrArg CycleUnit.lineTime hchanges.cycle_eq
    rw [hown, hnow] at hrest
    refine hrest.trans ?_
    by_cases hl : e.origin = s.own
    · rw [List.filter_cons_of_pos (by simpa using hl), List.map_cons, queueEach_cons,
        produceResult_local (hreport e List.mem_cons_self) ho hl]
      rfl
    · rw [List.filter_cons_of_neg (by simpa using hl), produceResult_peer (hreport e List.mem_cons_self) ho hl]
      exact queueEach_host_congr _ ((changes_queueReplyItem _ _).host_eq)

theorem queueReplyItem_exchange (i : ReplyItem) {s : State} (h : s.exchange.replyQueue.length ≤ 16) :
    (queueReplyItem i s).exchange = { s.exchange with replyQueue := (s.exchange.replyQueue ++ [i]).take 16 } := by
  rcases Nat.lt_or_ge s.exchange.replyQueue.length 16 with hroom | hfull
  · rw [queueReplyItem_of_room i s hroom, List.take_of_length_le (by simp; omega)]
    rfl
  · rw [queueReplyItem_of_full i s hfull, List.take_append_of_le_length hfull, List.take_of_length_le h]

theorem produceResults_exchange (hreport : ∀ e ∈ es, e.report = true) (ho : o.reported = true)
    (hlength : s.exchange.replyQueue.length ≤ 16) :
    (produceResults es o s).exchange = { s.exchange with
      replyQueue := (s.exchange.replyQueue ++ (es.filter fun e => e.origin != s.own).map (Entry.resultItem o)).take 16 } := by
  induction es generalizing s with
  | nil =>
    rw [List.filter_nil, List.map_nil, List.append_nil, List.take_of_length_le hlength]
    rfl
  | cons e es ih =>
    have hown : (produceResult e o s).own = s.own := congrArg Straps.id (changes_produceResult e o s).straps_eq
    have hrest := ih (s := produceResult e o s) fun x hx => hreport x (List.mem_cons_of_mem _ hx)
    rw [hown] at hrest
    by_cases hl : e.origin = s.own
    · have hfirst : (produceResult e o s).exchange = s.exchange := by
        rw [produceResult_local (hreport e List.mem_cons_self) ho hl, queueNotice_exchange]
      rw [hfirst] at hrest
      rw [List.filter_cons_of_neg (by simpa using hl)]
      exact hrest hlength
    · have hfirst : (produceResult e o s).exchange = { s.exchange with
          replyQueue := (s.exchange.replyQueue ++ [e.resultItem o]).take 16 } := by
        rw [produceResult_peer (hreport e List.mem_cons_self) ho hl, queueReplyItem_exchange _ hlength]
        rfl
      rw [hfirst] at hrest
      rw [List.filter_cons_of_pos (by simpa using hl), List.map_cons]
      refine (hrest (by simp)).trans ?_
      rcases Nat.lt_or_ge s.exchange.replyQueue.length 16 with hroom | hfull
      · rw [List.take_of_length_le (l := s.exchange.replyQueue ++ [_]) (by simp; omega), List.append_assoc]
        rfl
      · rw [List.take_append_of_le_length hfull, List.take_of_length_le hlength, List.take_append_of_le_length hfull,
          List.take_append_of_le_length hfull]

end

/-! ### Several entries leave -/

section
variable {leaves : Entry → State → State} {s : State}

theorem leaveEach_table (hleaves : ∀ e s, (leaves e s).table = s.table.filter fun x => x.index != e.index)
    (es : List Entry) (s : State) :
    (leaveEach es leaves s).table = s.table.filter fun x => es.all fun e => x.index != e.index := by
  induction es generalizing s with
  | nil => simp [leaveEach]
  | cons e es ih =>
    have hfold : leaveEach (e :: es) leaves s = leaveEach es leaves (leaves e s) := rfl
    rw [hfold, ih, hleaves]
    simp only [List.filter_filter, List.all_cons, Bool.and_comm]

theorem leaveEach_channel
    (hleaves : ∀ e s c, (leaves e s).channel c = if e.channel = c ∧ (s.channel c).owner = some e.index then
      { s.channel c with owner := none, phase := .inactive } else s.channel c)
    (es : List Entry) (s : State) (c : ChannelNumber) :
    (leaveEach es leaves s).channel c =
      if ∃ e ∈ es, e.channel = c ∧ (s.channel c).owner = some e.index then
        { s.channel c with owner := none, phase := .inactive }
      else s.channel c := by
  induction es generalizing s with
  | nil => simp [leaveEach]
  | cons e es ih =>
    have hfold : leaveEach (e :: es) leaves s = leaveEach es leaves (leaves e s) := rfl
    rw [hfold, ih, hleaves]
    by_cases hfirst : e.channel = c ∧ (s.channel c).owner = some e.index
    · simp [hfirst]
    · simp [hfirst]

/-- Where the entries that leave are those with a property, the others stay. -/
theorem leaveEach_filter_table (hleaves : ∀ e s, (leaves e s).table = s.table.filter fun x => x.index != e.index)
    (hindices : (s.table.map fun e => e.index).Nodup) (p : Entry → Bool) :
    (leaveEach (s.table.filter p) leaves s).table = s.table.filter fun x => !p x := by
  rw [leaveEach_table hleaves]
  refine List.filter_congr fun x hx => ?_
  cases hp : p x with
  | true => exact List.all_eq_false.mpr ⟨x, List.mem_filter.mpr ⟨hx, hp⟩, by simp⟩
  | false =>
    refine List.all_eq_true.mpr fun e he => bne_iff_ne.mpr fun hindex => ?_
    obtain ⟨he, hleaves⟩ := List.mem_filter.mp he
    rw [List.inj_on_of_nodup_map hindices hx he hindex, hleaves] at hp
    cases hp

/-- A channel is released where the RUNNING entry that owns it leaves. -/
theorem leaveEach_filter_channel
    (hleaves : ∀ e s c, (leaves e s).channel c = if e.channel = c ∧ (s.channel c).owner = some e.index then
      { s.channel c with owner := none, phase := .inactive } else s.channel c)
    (hs : OrdersOk s) (p : Entry → Bool) (c : ChannelNumber) :
    (leaveEach (s.table.filter p) leaves s).channel c =
      if ∃ e ∈ s.table, p e = true ∧ e.state = .running ∧ e.channel = c then
        { s.channel c with owner := none, phase := .inactive }
      else s.channel c := by
  obtain ⟨htable, hchannels⟩ := hs
  rw [leaveEach_channel hleaves]
  refine if_congr (exists_congr fun e => ?_) rfl rfl
  rw [List.mem_filter]
  constructor
  · rintro ⟨⟨he, hp⟩, hchannel, howner⟩
    exact ⟨he, hp, ((hchannels.owner_iff htable he c).mp howner).1, hchannel⟩
  · rintro ⟨he, hp, hrunning, hchannel⟩
    exact ⟨⟨he, hp⟩, hchannel, (hchannels.owner_iff htable he c).mpr ⟨hrunning, hchannel⟩⟩

end

/-! ### The loss of a peer (R61, R131) -/

theorem Entry.watches_eq (k : Station) (e : Entry) :
    e.watches k = (e.state == .armed && (e.event.any fun p => p.triggerStation == k)) := by
  unfold Entry.watches
  cases e.event <;> rfl

theorem leaveSourceLost_channel (k : Station) (e : Entry) (s : State) (c : ChannelNumber) :
    (leaveSourceLost k e s).channel c = if e.channel = c ∧ (s.channel c).owner = some e.index then
      { s.channel c with owner := none, phase := .inactive } else s.channel c := by
  unfold leaveSourceLost
  split
  · exact leaveSilently_channel e s c
  · exact leave_channel e _ s c

/-- The entries that watched a lost peer and give a result. -/
def lostWatchers (k : Station) (s : State) : List Entry :=
  s.table.filter fun e => e.state == .armed && (e.event.any fun p => p.triggerStation == k) && e.origin != k && e.report

theorem leaveSourceLost_sameReports (k : Station) (e : Entry) {s u : State} (h : SameReports s u) :
    SameReports (if (e.origin != k && e.report) = true then produceResult e .sourceLost s else s) (leaveSourceLost k e u) := by
  unfold leaveSourceLost
  by_cases horigin : e.origin = k
  · rw [if_pos horigin, if_neg (by simp [horigin])]
    exact h.trans (.of_changes (changes_leaveSilently e u))
  · rw [if_neg horigin]
    cases hreport : e.report with
    | true =>
      rw [if_pos (by simp [horigin])]
      exact (produceResult_sameReports e _ h).trans (leave_sameReports e _ u)
    | false =>
      rw [if_neg (by simp)]
      have hleave := leave_sameReports e .sourceLost u
      rw [produceResult_silent hreport] at hleave
      exact h.trans hleave

theorem removeWatchers_sameReports (k : Station) (s : State) :
    SameReports (produceResults (lostWatchers k s) .sourceLost s) (removeWatchers k s) := by
  have hwatching : lostWatchers k s = (s.table.filter (Entry.watches k)).filter fun e => e.origin != k && e.report := by
    rw [List.filter_filter]
    refine List.filter_congr fun e _ => ?_
    rw [Entry.watches_eq, Bool.and_assoc, Bool.and_comm]
  rw [hwatching, produceResults, List.foldl_filter]
  exact foldl_sameReports (fun e _ _ h => leaveSourceLost_sameReports k e h) _ (.refl s)

section
variable (k : Station) {s : State}

/-- The Request Exchange and the BOUND entries, before the entries that watch the lost peer leave. -/
def withoutBound (k : Station) (s : State) : State := removeBound k (failEach .peerLost (s.requestsTo k) s)

theorem loseCascade_eq (s : State) : loseCascade k s =
    (removeWatchers k (withoutBound k s)).setPeer k
      { (removeWatchers k (withoutBound k s)).peer k with expectedEvent := none } := rfl

theorem changes_withoutBound (s : State) : Changes Block.ofEntries s (withoutBound k s) :=
  (changes_failEach _ _ s).then (changes_removeBound k _)

theorem withoutBound_table (h : TableOk s) :
    (withoutBound k s).table = s.table.filter fun e => !(e.origin == k && e.bound) := by
  have htable := (changes_failEach .peerLost (s.requestsTo k) s).table_eq
  rw [← htable]
  exact removeBound_table k (by rwa [TableOk, htable])

theorem failEach_ordersOk (why : FailReason) (rs : List RequestRecord) (h : OrdersOk s) : OrdersOk (failEach why rs s) :=
  h.of_changes (changes_failEach why rs s)

theorem withoutBound_ordersOk (h : OrdersOk s) : OrdersOk (withoutBound k s) :=
  (failEach_ordersOk _ _ h).leavesSilently _

theorem loseCascade_table (h : TableOk s) : (loseCascade k s).table = s.table.filter fun e =>
    !(e.origin == k && e.bound) && !(e.state == .armed && (e.event.any fun p => p.triggerStation == k)) := by
  have hbound := withoutBound_table k h
  have hindices : ((withoutBound k s).table.map fun e => e.index).Nodup := by
    rw [hbound]
    exact h.1.sublist (List.filter_sublist.map _)
  have hlast : (loseCascade k s).table = (removeWatchers k (withoutBound k s)).table := rfl
  rw [hlast, removeWatchers, leaveEach_filter_table (leaveSourceLost_table k) hindices, hbound,
    List.filter_filter]
  refine List.filter_congr fun e _ => ?_
  rw [Entry.watches_eq, Bool.and_comm]

theorem loseCascade_channel (h : OrdersOk s) (c : ChannelNumber) : (loseCascade k s).channel c =
    if ∃ e ∈ s.table, e.origin = k ∧ e.bound = true ∧ e.state = .running ∧ e.channel = c then
      { s.channel c with owner := none, phase := .inactive }
    else s.channel c := by
  have hfail := changes_failEach .peerLost (s.requestsTo k) s
  have hbound : (withoutBound k s).channel c = _ :=
    removeBound_channel k (failEach_ordersOk .peerLost _ h).1 (failEach_ordersOk .peerLost _ h).2 c
  rw [hfail.table_eq, State.channel_congr hfail.channels_eq] at hbound
  have hlast : (loseCascade k s).channel c = (removeWatchers k (withoutBound k s)).channel c := rfl
  rw [hlast, removeWatchers,
    leaveEach_filter_channel (leaveSourceLost_channel k) (withoutBound_ordersOk k h), if_neg, hbound]
  rintro ⟨e, -, hwatches, hrunning, -⟩
  rw [Entry.watches_eq, hrunning] at hwatches
  cases hwatches

theorem lostWatchers_withoutBound (h : TableOk s) : lostWatchers k (withoutBound k s) = lostWatchers k s := by
  rw [lostWatchers, withoutBound_table k h, List.filter_filter, lostWatchers]
  refine List.filter_congr fun e _ => ?_
  by_cases horigin : e.origin = k <;> simp [horigin]

theorem loseCascade_sameReports (h : TableOk s) :
    SameReports (produceResults (lostWatchers k s) .sourceLost (failEach .peerLost (s.requestsTo k) s)) (loseCascade k s) := by
  have hbound : SameReports (failEach .peerLost (s.requestsTo k) s) (withoutBound k s) :=
    .of_changes (changes_removeBound k _)
  have hresults := foldl_sameReports (fun e _ _ h => produceResult_sameReports e .sourceLost h) (lostWatchers k s) hbound
  have hwatchers := removeWatchers_sameReports k (withoutBound k s)
  rw [lostWatchers_withoutBound k h] at hwatchers
  exact (hresults.trans hwatchers).trans ⟨rfl, rfl, rfl, rfl⟩

theorem mem_lostWatchers_report {e : Entry} (h : e ∈ lostWatchers k s) : e.report = true := by
  have hreports := (List.mem_filter.mp h).2
  rw [Bool.and_eq_true] at hreports
  exact hreports.2

end

/-- The slot end at which a peer is lost: the record, the notice, and the cascade. -/
theorem slotEnd_loses {s : State} {k : Station} (hk : k ≠ s.own) (hnote : (s.peer k).slotNote = none)
    (hstate : (s.peer k).state = .missing) (hmisses : 3 ≤ (s.peer k).misses) :
    slotEnd k s = loseCascade k (peerNotice k .lost (s.setPeer k { s.peer k with state := .lost, misses := 4 })) := by
  have hafter : (s.peer k).afterSlot = { s.peer k with state := .lost, misses := 4 } := by
    rw [PeerRecord.afterSlot_silent hnote]
    simp only [PeerRecord.missed, hstate, if_pos hmisses]
  unfold slotEnd
  simp only [hafter]
  rw [if_neg hk, if_neg (by rw [hstate]; decide), if_true]

theorem loseCascade_peer (k : Station) (s : State) (j : Station) :
    (loseCascade k s).peer j = if j = k then { s.peer k with expectedEvent := none } else s.peer j := by
  have hmembers : (removeWatchers k (withoutBound k s)).members = s.members :=
    ((changes_withoutBound k s).then (ds := Block.ofEntries) (changes_removeWatchers k _)).members_eq
  have hpeer : ∀ i, (removeWatchers k (withoutBound k s)).peer i = s.peer i := fun i => by
    rw [State.peer, hmembers]
    rfl
  rw [loseCascade_eq, State.peer_setPeer, hpeer, hpeer]

/-- Settles O11: block by block, the cascade on the state with the PEER notice. -/
theorem fourthSilentSlotLosesThePeer : Obligations.FourthSilentSlotLosesThePeer := by
  intro s t k watching htable hexchange hk hnote hstate hmisses hwatching ht
  have hall : Changes Block.ofMembers s t := ht ▸ changes_slotEnd k s
  rw [slotEnd_loses hk hnote hstate hmisses] at ht
  let lost := s.setPeer k { s.peer k with state := .lost, misses := 4 }
  let p := peerNotice k .lost lost
  have hp : Changes [.members, .host] s p := (changes_setPeer s k _).then (changes_peerNotice k _ _)
  have hpeer : ∀ j, p.peer j = if j = k then { s.peer k with state := .lost, misses := 4 } else s.peer j := fun j => by
    rw [← State.peer_setPeer, State.peer, (changes_peerNotice k .lost lost).members_eq]
    rfl
  have hrequests : p.requestsTo k = s.requestsTo k := by
    rw [State.requestsTo, hp.exchange_eq]
    rfl
  have hwatchers : lostWatchers k p = watching := by
    rw [lostWatchers, hp.table_eq, hwatching]
  let f := failEach .peerLost (s.requestsTo k) p
  have hfail : Changes [.exchange, .host] p f := changes_failEach _ _ p
  have hfown : f.own = s.own := congrArg Straps.id (hfail.straps_eq.trans hp.straps_eq)
  have hfnow : f.now = s.now := congrArg CycleUnit.lineTime (hfail.cycle_eq.trans hp.cycle_eq)
  have hfexchange : f.exchange = { s.exchange with
      requests := s.exchange.requests.filter fun r => r.target != k
      sendQueue := s.exchange.sendQueue.filter fun i => (s.requestsTo k).all fun r => i.requestNumber != some r.number } := by
    rw [failEach_exchange, hp.exchange_eq, filter_number_requestsTo k hexchange.2.2.2.2.1]
  have hreports := loseCascade_sameReports k (s := p) (by rwa [TableOk, hp.table_eq])
  rw [hrequests, hwatchers] at hreports
  have hreport : ∀ e ∈ watching, e.report = true := fun e he => mem_lostWatchers_report k (hwatchers ▸ he)
  refine ⟨?_, fun j hj => ?_, ?_, ?_, fun hchannels c => ⟨fun howned => ?_, fun hfree => ?_⟩, ?_, hall⟩
  · rw [ht, loseCascade_peer, if_pos rfl, hpeer, if_pos rfl]
  · rw [ht, loseCascade_peer, if_neg hj, hpeer, if_neg hj]
  · have hlength : f.exchange.replyQueue.length ≤ 16 := by
      rw [hfexchange]
      exact hexchange.2.1
    rw [ht, hreports.exchange, produceResults_exchange hreport rfl hlength, hfown, hfexchange]
    rfl
  · rw [ht, loseCascade_table k (by rwa [TableOk, hp.table_eq]), hp.table_eq]
  · have hchannel := loseCascade_channel k (s := p) (OrdersOk.of_changes ⟨htable, hchannels⟩ hp) c
    rw [hp.table_eq, State.channel_congr hp.channels_eq, if_pos howned] at hchannel
    rw [ht, hchannel]
  · have hchannel := loseCascade_channel k (s := p) (OrdersOk.of_changes ⟨htable, hchannels⟩ hp) c
    rw [hp.table_eq, State.channel_congr hp.channels_eq, if_neg] at hchannel
    · rw [ht, hchannel]
    · rintro ⟨e, he, horigin, hbound, hrunning, hc⟩
      exact hfree e he horigin hbound hrunning hc
  · have hnotice : p.host = (queueNotice (s.noticeNow .peer (some k) none PeerState.lost.code none) s).host := queueNotice_host_congr _ rfl
    have hfailed := failEach_host .peerLost (s.requestsTo k) (s := s) hp.cycle_eq hnotice
    have htarget : (s.requestsTo k).foldl (fun u r => queueNotice
          (s.noticeNow .failed (some r.target) (some r.number) FailReason.peerLost.code none) u)
          (queueNotice (s.noticeNow .peer (some k) none PeerState.lost.code none) s) =
        (s.requestsTo k).foldl (fun u r => queueNotice
          (s.noticeNow .failed (some k) (some r.number) FailReason.peerLost.code none) u)
          (queueNotice (s.noticeNow .peer (some k) none PeerState.lost.code none) s) :=
      List.foldl_ext _ _ _ fun u r hr => by
        rw [show r.target = k by simpa using (List.mem_filter.mp hr).2]
    rw [htarget] at hfailed
    rw [ht, hreports.host, produceResults_host hreport rfl, hfown, hfnow, queueEach_host_congr _ hfailed,
      ← foldl_queueNotice]
    rfl

/-! ### STOP (R35, R36, R67, R132, R169) -/

section
variable {s : State}

theorem changes_stopLink (s : State) : Changes [.cycle, .link, .line, .host] s (stopLink s) :=
  (((changes_setLine s _).then (ds := [.cycle, .line]) (changes_stopGrid _)).then (ds := [.cycle, .link, .line])
    (changes_setLink _ _)).then (changes_linkNotice _ _ _)

theorem stopLink_link (s : State) : (stopLink s).link = LinkUnit.reset := (changes_linkNotice _ _ _).link_eq

theorem stopLink_line (s : State) : (stopLink s).line = LinePort.reset := (changes_linkNotice _ _ _).line_eq

theorem stopLink_cycle (s : State) : (stopLink s).cycle =
    { s.cycle with running := false, slotIndex := none, slotZeroAwaited := false, samples := [] } :=
  (changes_linkNotice _ _ _).cycle_eq

theorem stopLink_host (s : State) :
    (stopLink s).host = (queueNotice (s.noticeNow .link none none 0x0A none) s).host :=
  linkNotice_host (l := .off) (c := 0x0A) none rfl rfl rfl (by decide)

theorem stopExchange_exchange (s : State) : (stopExchange s).exchange = { s.exchange with
    sendQueue := [], replyQueue := [], requests := [], cache := Vector.replicate 16 [] } := by
  have hnone : (s.exchange.requests.filter fun x => s.exchange.requests.all fun r => x.number != r.number) = [] :=
    List.filter_eq_nil_iff.mpr fun x hx hall => by
      have hself := List.all_eq_true.mp hall x hx
      rw [bne_self_eq_false] at hself
      cases hself
  unfold stopExchange
  rw [State.setExchange_exchange, failEach_exchange]
  simp only [State.setExchange_exchange, hnone, List.filter_nil]

theorem stopExchange_host {s u : State} (hhost : s.host = u.host) :
    (stopExchange s).host = (queueEach (s.exchange.requests.map fun r =>
      s.noticeNow .failed (some r.target) (some r.number) FailReason.stopped.code none) u).host := by
  rw [← foldl_queueNotice]
  exact failEach_host .stopped _ rfl hhost

theorem removePeerEntries_table (h : TableOk s) : (removePeerEntries s).table = s.table.filter fun e => e.origin == s.own := by
  rw [removePeerEntries, leaveEach_filter_table leaveSilently_table h.1]
  refine List.filter_congr fun e _ => ?_
  rw [bne, Bool.not_not]

theorem removePeerEntries_channel (h : OrdersOk s) (c : ChannelNumber) : (removePeerEntries s).channel c =
    if ∃ e ∈ s.table, e.origin ≠ s.own ∧ e.state = .running ∧ e.channel = c then
      { s.channel c with owner := none, phase := .inactive }
    else s.channel c := by
  rw [removePeerEntries, leaveEach_filter_channel leaveSilently_channel h]
  simp only [bne_iff_ne]

/-- STOP notices the change of this record. -/
def State.stopNotices (s : State) (k : Station) : Bool := k != s.own && (s.peer k).state != .unknown

theorem stopPeer_peer (s : State) (k j : Station) :
    (stopPeer s k).peer j = if j = k ∧ k ≠ s.own then (s.peer j).stopped else s.peer j := by
  unfold stopPeer
  split
  · rename_i hk
    rw [if_neg fun h => h.2 hk]
  · rename_i hk
    have hset : (s.setPeer k (s.peer k).stopped).peer j = if j = k ∧ k ≠ s.own then (s.peer j).stopped else s.peer j := by
      rw [State.peer_setPeer]
      by_cases hj : j = k
      · rw [if_pos hj, if_pos ⟨hj, hk⟩, hj]
      · rw [if_neg hj, if_neg fun h => hj h.1]
    dsimp only
    split
    · exact hset
    · rw [← hset, State.peer, (changes_peerNotice k .unknown _).members_eq]
      rfl

theorem stopPeer_host (s : State) (k : Station) : (stopPeer s k).host =
    (queueEach (if s.stopNotices k = true then [s.noticeNow .peer (some k) none 0 none] else []) s).host := by
  unfold stopPeer State.stopNotices
  by_cases hk : k = s.own
  · rw [if_pos hk, if_neg (by simp [hk])]
    rfl
  · rw [if_neg hk]
    dsimp only
    by_cases hunknown : (s.peer k).state = .unknown
    · rw [if_pos hunknown, if_neg (by simp [hunknown])]
      rfl
    · rw [if_neg hunknown, if_pos (by simp [hk, hunknown])]
      exact queueNotice_host_congr _ rfl

theorem queueEach_append (ms ns : List Notice) (s : State) :
    queueEach (ms ++ ns) s = queueEach ns (queueEach ms s) := List.foldl_append

/-- STOP at these records, each once. -/
theorem stopEach_spec (ks : List Station) (s : State) (hnodup : ks.Nodup) :
    (∀ j, (ks.foldl stopPeer s).peer j = if j ∈ ks ∧ j ≠ s.own then (s.peer j).stopped else s.peer j) ∧
      (ks.foldl stopPeer s).host =
        (queueEach ((ks.filter s.stopNotices).map fun k => s.noticeNow .peer (some k) none 0 none) s).host := by
  induction ks generalizing s with
  | nil => exact ⟨fun j => (if_neg (by simp)).symm, rfl⟩
  | cons k ks ih =>
    obtain ⟨hnew, hrest⟩ := List.nodup_cons.mp hnodup
    obtain ⟨hpeers, hhost⟩ := ih (stopPeer s k) hrest
    have hchanges := changes_stopPeer s k
    have hown : (stopPeer s k).own = s.own := congrArg Straps.id hchanges.straps_eq
    have hnow : (stopPeer s k).now = s.now := congrArg CycleUnit.lineTime hchanges.cycle_eq
    have hlater : ∀ j ∈ ks, (stopPeer s k).peer j = s.peer j := fun j hj => by
      rw [stopPeer_peer]
      refine if_neg fun h => hnew ?_
      rw [← h.1]
      exact hj
    constructor
    · intro j
      rw [List.foldl_cons, hpeers, hown]
      by_cases hj : j ∈ ks
      · rw [hlater j hj]
        simp [hj]
      · rw [if_neg fun h => hj h.1, stopPeer_peer]
        by_cases hjk : j = k
        · subst hjk
          simp
        · simp [hj, hjk]
    · have hnotices : ks.filter (stopPeer s k).stopNotices = ks.filter s.stopNotices := List.filter_congr fun j hj => by
        rw [State.stopNotices, hown, hlater j hj]
        rfl
      simp only [hnotices, State.noticeNow, hnow] at hhost
      rw [List.foldl_cons, hhost, queueEach_host_congr _ (stopPeer_host s k), ← queueEach_append]
      by_cases hk : s.stopNotices k = true
      · rw [if_pos hk, List.filter_cons_of_pos hk]
        rfl
      · rw [if_neg hk, List.filter_cons_of_neg hk]
        rfl

/-- The notices of a STOP, in order (R35, R191). -/
def stopNoticeList (s : State) : List Notice :=
  s.noticeNow .link none none 0x0A none ::
    (s.exchange.requests.map fun r => s.noticeNow .failed (some r.target) (some r.number) FailReason.stopped.code none) ++
    (allStations.filter s.stopNotices).map fun k => s.noticeNow .peer (some k) none 0 none

/-- The state of a STOP before the Membership Table's part. -/
def stopFirst (s : State) : State := removePeerEntries (stopExchange (stopLink s))

theorem stopAll_eq (s : State) : stopAll s = stopMembers (stopFirst s) := rfl

theorem changes_stopFirst (s : State) :
    Changes [.cycle, .link, .line, .exchange, .table, .channels, .host] s (stopFirst s) :=
  ((changes_stopLink s).then (ds := [.cycle, .link, .line, .exchange, .host]) (changes_stopExchange _)).then
    (changes_removePeerEntries _)

theorem changes_stopMembers_stopFirst (s : State) : Changes [.members, .host] (stopFirst s) (stopAll s) :=
  changes_stopMembers _

/-- Before the entries of peers leave, the table, the channels and the numbers are as they were. -/
theorem changes_stopExchange_stopLink (s : State) :
    Changes [.cycle, .link, .line, .exchange, .host] s (stopExchange (stopLink s)) :=
  (changes_stopLink s).then (changes_stopExchange _)

theorem stopAll_link (s : State) : (stopAll s).link = LinkUnit.reset := by
  rw [(changes_stopMembers_stopFirst s).link_eq, stopFirst, (changes_removePeerEntries _).link_eq,
    (changes_stopExchange _).link_eq, stopLink_link]

theorem stopAll_line (s : State) : (stopAll s).line = LinePort.reset := by
  rw [(changes_stopMembers_stopFirst s).line_eq, stopFirst, (changes_removePeerEntries _).line_eq,
    (changes_stopExchange _).line_eq, stopLink_line]

theorem stopAll_cycle (s : State) : (stopAll s).cycle =
    { s.cycle with running := false, slotIndex := none, slotZeroAwaited := false, samples := [] } := by
  rw [(changes_stopMembers_stopFirst s).cycle_eq, stopFirst, (changes_removePeerEntries _).cycle_eq,
    (changes_stopExchange _).cycle_eq, stopLink_cycle]

theorem stopAll_exchange (s : State) : (stopAll s).exchange = { s.exchange with
    sendQueue := [], replyQueue := [], requests := [], cache := Vector.replicate 16 [] } := by
  rw [(changes_stopMembers_stopFirst s).exchange_eq, stopFirst, (changes_removePeerEntries _).exchange_eq,
    stopExchange_exchange, (changes_stopLink s).exchange_eq]

theorem stopAll_table (h : TableOk s) : (stopAll s).table = s.table.filter fun e => e.origin == s.own := by
  have hchanges := changes_stopExchange_stopLink s
  rw [(changes_stopMembers_stopFirst s).table_eq, stopFirst, removePeerEntries_table (by rwa [TableOk, hchanges.table_eq]),
    hchanges.table_eq, State.own, hchanges.straps_eq]
  rfl

theorem stopAll_channel (h : OrdersOk s) (c : ChannelNumber) : (stopAll s).channel c =
    if ∃ e ∈ s.table, e.origin ≠ s.own ∧ e.state = .running ∧ e.channel = c then
      { s.channel c with owner := none, phase := .inactive }
    else s.channel c := by
  have hchanges := changes_stopExchange_stopLink s
  have hpeers := removePeerEntries_channel (h.of_changes hchanges) c
  rw [hchanges.table_eq, State.channel_congr hchanges.channels_eq, State.own, hchanges.straps_eq] at hpeers
  rw [State.channel_congr (changes_stopMembers_stopFirst s).channels_eq, stopFirst, hpeers]
  rfl

theorem stopAll_peer {k : Station} (hk : k ≠ s.own) : (stopAll s).peer k = (s.peer k).stopped := by
  have hown : (stopFirst s).own = s.own := congrArg Straps.id (changes_stopFirst s).straps_eq
  have hpeer : (stopFirst s).peer k = s.peer k := by
    rw [State.peer, (changes_stopFirst s).members_eq]
    rfl
  rw [stopAll_eq, stopMembers, (stopEach_spec allStations _ (List.nodup_finRange 16)).1, hown, hpeer]
  exact if_pos ⟨List.mem_finRange k, hk⟩

theorem stopAll_host (s : State) : (stopAll s).host = (queueEach (stopNoticeList s) s).host := by
  have hfirst := changes_stopFirst s
  have hown : (stopFirst s).own = s.own := congrArg Straps.id hfirst.straps_eq
  have hnow : (stopFirst s).now = s.now := by
    rw [State.now, stopFirst, (changes_removePeerEntries _).cycle_eq, (changes_stopExchange _).cycle_eq, stopLink_cycle]
    rfl
  have hnotices : (stopFirst s).stopNotices = s.stopNotices := funext fun k => by
    rw [State.stopNotices, State.stopNotices, hown, State.peer, hfirst.members_eq]
    rfl
  have hlast := (stopEach_spec allStations (stopFirst s) (List.nodup_finRange 16)).2
  simp only [hnotices, State.noticeNow, hnow] at hlast
  have hlinkNow : (stopLink s).now = s.now := (congrArg CycleUnit.lineTime (stopLink_cycle s) :)
  have hfailed := stopExchange_host (s := stopLink s) (stopLink_host s)
  simp only [State.noticeNow, hlinkNow, (changes_stopLink s).exchange_eq] at hfailed
  have hfirstHost : (stopFirst s).host = (stopExchange (stopLink s)).host := (changes_removePeerEntries _).host_eq
  rw [stopAll_eq, stopMembers, hlast, queueEach_host_congr _ (hfirstHost.trans hfailed), ← queueEach_append]
  rfl

end

theorem takeCommand_accepted {command : State → Answered} {s t : State} {code : Byte} {bytes : List Byte}
    (h : s.takesCommands = true) (hcommand : command (riseCsn s) = accept code bytes t) :
    takeCommand command s = hold (respond code .ok bytes) t := by
  rw [takeCommand_taken _ _ h, hcommand]
  rfl

theorem takeCommand_refused {command : State → Answered} {s : State} {code : Byte} {why : ResponseCode}
    (h : s.takesCommands = true) (hcommand : command (riseCsn s) = refuse code why (riseCsn s)) :
    takeCommand command s = hold (respond code why []) (riseCsn s) := by
  rw [takeCommand_taken _ _ h, hcommand]
  rfl

/-- Settles O50: the parts of STOP on the state with CSn high. -/
theorem stopLeavesTheLine : Obligations.StopLeavesTheLine := by
  intro s htakes
  refine ⟨fun hon htable => ?_, fun hoff => ?_⟩
  · have hexec : exec .stop s = .next (hold (respond 0x04 .ok []) (stopAll (riseCsn s))) :=
      congrArg Host.Outcome.next (takeCommand_accepted htakes (if_neg hon))
    have hheld : Changes [.host] (stopAll (riseCsn s)) (hold (respond 0x04 .ok []) (stopAll (riseCsn s))) :=
      changes_setHost _ _
    have hexchange := hheld.exchange_eq.trans (stopAll_exchange (riseCsn s))
    refine ⟨_, hexec, hheld.link_eq.trans (stopAll_link _), hheld.line_eq.trans (stopAll_line _),
      hheld.cycle_eq.trans (stopAll_cycle _), congrArg (·.sendQueue) hexchange, congrArg (·.replyQueue) hexchange,
      congrArg (·.requests) hexchange, fun k => (congrArg (·.cache.get k) hexchange).trans (get_replicate _ k),
      congrArg (·.counter) hexchange, congrArg (·.permit) hexchange, congrArg (·.minLead) hexchange,
      hheld.table_eq.trans (stopAll_table (s := riseCsn s) htable), fun hchannels c => ?_, fun k hk => ?_, fun u hu => ?_,
      ((changes_setHost s _).then (ds := Block.ofGrid) (changes_stopAll _)).then hheld⟩
    · have hchannel := (State.channel_congr hheld.channels_eq c).trans
        (stopAll_channel (s := riseCsn s) ⟨htable, hchannels⟩ c)
      refine ⟨fun howned => hchannel.trans (if_pos howned), fun hfree => hchannel.trans (if_neg ?_)⟩
      rintro ⟨e, he, horigin, hrunning, hc⟩
      exact hfree e he horigin hrunning hc
    · exact (congrArg (·.get k) hheld.members_eq).trans (stopAll_peer (s := riseCsn s) hk)
    · have hnotices : u = queueEach (stopNoticeList s) s := by
        rw [hu, stopNoticeList, queueEach_append, ← foldl_queueNotice, queueEach_cons, ← foldl_queueNotice]
        rfl
      have hhost : (stopAll (riseCsn s)).host = { u.host with transaction := .idle } := by
        rw [stopAll_host, hnotices]
        exact congrArg State.host (queueEach_riseCsn (stopNoticeList s) s)
      rw [hold, State.setHost_host, hhost]
      rfl
  · have hrefused : takeCommand stopStation s = hold (respond 0x04 .state []) (riseCsn s) :=
      takeCommand_refused htakes (if_pos hoff)
    exact congrArg Host.Outcome.next hrefused

end Sys2Proof.Machine
end

