-- ==== Sys2Proof/Proofs/CycleEnds.lean ====
section
/-! The cycle end (R12, R13) and the decision it takes for the link (R24, R26, R28, R29). -/

namespace Sys2Proof.Machine

-- One thread for the whole file: its many small proofs would otherwise each take a thread's memory.
set_option Elab.async false

theorem enterListen_host (r : LinkReason) (k : Option Station) (x : Nat) {s u : State} {c : BitVec 8} (hnow : s.now = u.now)
    (hhost : s.host = u.host) (hcode : nibbles LinkState.listen.code r.code = c) :
    (enterListen r k x s).host =
      (queueNotice { kind := .link, time := u.now, station := k, number := none, code := c, value := none } u).host :=
  linkNotice_host (l := .listen) k hnow hhost rfl hcode

/-! ### The rows of the decision -/

section
variable {s : State} {k : Nat}

theorem linkAtCycleEnd_integrate_first (hstate : s.link.state = .integrate) (hcount : s.link.integrationCount = 0) :
    linkAtCycleEnd k s = s.setLink { s.link with integrationCount := 1 } := by
  simp only [linkAtCycleEnd, hstate, integrateAtCycleEnd, hcount, if_true]

theorem linkAtCycleEnd_integrate_heard (hstate : s.link.state = .integrate) (hcount : s.link.integrationCount ≠ 0)
    (hk : k ≠ 0) : linkAtCycleEnd k s = joinLine s := by
  have hheard : 1 ≤ k := Nat.pos_of_ne_zero hk
  simp only [linkAtCycleEnd, hstate, integrateAtCycleEnd, hcount, if_false, hheard, if_true]

theorem linkAtCycleEnd_integrate_unheard (hstate : s.link.state = .integrate) (hcount : s.link.integrationCount ≠ 0)
    (hk : k = 0) :
    linkAtCycleEnd k s = enterListen .unheard none 0 (s.setLink { s.link with integrationCount := 0 }) := by
  have hsilent : ¬1 ≤ k := by omega
  simp only [linkAtCycleEnd, hstate, integrateAtCycleEnd, hcount, if_false, hsilent]

theorem linkAtCycleEnd_coldstart_alone (hstate : s.link.state = .coldstart) (hk : k = 0) :
    linkAtCycleEnd k s = s.setLink { s.link with confirmationCount := 0 } := by
  simp only [linkAtCycleEnd, hstate, coldstartAtCycleEnd, hk, if_true]

theorem linkAtCycleEnd_coldstart_first (hstate : s.link.state = .coldstart) (hk : k ≠ 0)
    (hcount : s.link.confirmationCount = 0) :
    linkAtCycleEnd k s = s.setLink { s.link with confirmationCount := 1 } := by
  simp only [linkAtCycleEnd, hstate, coldstartAtCycleEnd, hk, if_false, hcount, Nat.zero_add, if_pos (Nat.lt_succ_self 1)]

theorem linkAtCycleEnd_coldstart_confirmed (hstate : s.link.state = .coldstart) (hk : k ≠ 0)
    (hcount : 1 ≤ s.link.confirmationCount) : linkAtCycleEnd k s =
      linkNotice .confirmed none (s.setLink { s.link with state := .synced, confirmationCount := 0, silenceCount := 0 }) := by
  have hlast : ¬s.link.confirmationCount + 1 < 2 := by omega
  simp only [linkAtCycleEnd, hstate, coldstartAtCycleEnd, hk, if_false, hlast]

theorem linkAtCycleEnd_synced_heard (hstate : s.link.state = .synced) (hk : k ≠ 0) :
    linkAtCycleEnd k s = s.setLink { s.link with silenceCount := 0 } := by
  have hheard : 1 ≤ k := Nat.pos_of_ne_zero hk
  simp only [linkAtCycleEnd, hstate, syncedAtCycleEnd, hheard, if_true]

theorem linkAtCycleEnd_synced_silent (hstate : s.link.state = .synced) (hk : k = 0) (hcount : s.link.silenceCount < 2) :
    linkAtCycleEnd k s = s.setLink { s.link with silenceCount := s.link.silenceCount + 1 } := by
  have hsilent : ¬1 ≤ k := by omega
  have hmore : s.link.silenceCount + 1 < 3 := by omega
  simp only [linkAtCycleEnd, hstate, syncedAtCycleEnd, hsilent, if_false, hmore, if_true]

theorem linkAtCycleEnd_synced_leaves (hstate : s.link.state = .synced) (hk : k = 0) (hcount : 2 ≤ s.link.silenceCount) :
    linkAtCycleEnd k s = enterListen .silence none 0 s := by
  have hsilent : ¬1 ≤ k := by omega
  have hlast : ¬s.link.silenceCount + 1 < 3 := by omega
  simp only [linkAtCycleEnd, hstate, syncedAtCycleEnd, hsilent, if_false, hlast]

end

/-! ### The parts of a cycle end -/

theorem cycleEndDue_of {s : State} (hrunning : s.cycle.running = true) (hawaited : s.cycle.slotZeroAwaited = false)
    (hslot : s.cycle.slotIndex = some s.straps.cnt)
    (hpassed : passed (s.cycle.cycleStart + BitVec.ofNat 32 (s.stationCount * s.slotLength)) s.now = true) :
    s.cycleEndDue = true := by
  have hlast : s.cycle.slotIndex = some s.lastSlot := hslot
  have htime : passed (s.slotStartTime s.stationCount) s.now = true := hpassed
  rw [State.cycleEndDue, hrunning, hawaited, htime, decide_eq_true hlast]
  rfl

theorem exec_cycleEnd {s : State} (hdue : s.cycleEndDue = true) : exec .cycleEnd s = .next (takeCycleEnd s) := if_pos hdue

/-- The link after a cycle end is the decision's. -/
theorem takeCycleEnd_link (s : State) :
    (takeCycleEnd s).link = (linkAtCycleEnd s.cycle.samples.length (turnCycle s)).link :=
  ((changes_expireCache _).then (ds := [.cycle, .line, .exchange, .host]) (changes_beginCycleSlot _ _)).link_eq

theorem listenTime_congr {s u : State} (h : u.straps = s.straps) :
    u.listenTime = 2 * s.cycleLength + s.own.val * s.slotLength := by
  simp only [State.listenTime, State.cycleLength, State.slotLength, State.stationCount, State.own, h]

theorem joinLine_link (s : State) : (joinLine s).link = { s.link with
    state := .synced, integrationCount := 0, silenceCount := 0, collisionCount := 0, newCountdown := 2,
    announced := false } := (changes_linkNotice _ _ _).link_eq

/-- What a decision can do to the link: stay in its state, go to SYNCED with a notice, or go to LISTEN. -/
inductive Decision (s : State) : State → Prop
  | stays (l : LinkUnit) (hstate : l.state = s.link.state) : Decision s (s.setLink l)
  | syncs (l : LinkUnit) (r : LinkReason) (hstate : l.state = .synced) (hbefore : s.link.state ≠ .synced) :
      Decision s (linkNotice r none (s.setLink l))
  | leaves (l : LinkUnit) (r : LinkReason) : Decision s (enterListen r none 0 (s.setLink l))

theorem linkAtCycleEnd_decision (k : Nat) (s : State) : Decision s (linkAtCycleEnd k s) := by
  cases hstate : s.link.state with
  | off =>
    have hsame : linkAtCycleEnd k s = s := by simp only [linkAtCycleEnd, hstate]
    rw [hsame]
    exact .stays s.link rfl
  | listen =>
    have hsame : linkAtCycleEnd k s = s := by simp only [linkAtCycleEnd, hstate]
    rw [hsame]
    exact .stays s.link rfl
  | integrate =>
    by_cases hcount : s.link.integrationCount = 0
    · rw [linkAtCycleEnd_integrate_first hstate hcount]
      exact .stays _ rfl
    · by_cases hk : k = 0
      · rw [linkAtCycleEnd_integrate_unheard hstate hcount hk]
        exact .leaves _ _
      · rw [linkAtCycleEnd_integrate_heard hstate hcount hk]
        exact .syncs _ _ rfl (by rw [hstate]; decide)
  | coldstart =>
    by_cases hk : k = 0
    · rw [linkAtCycleEnd_coldstart_alone hstate hk]
      exact .stays _ rfl
    · by_cases hcount : s.link.confirmationCount = 0
      · rw [linkAtCycleEnd_coldstart_first hstate hk hcount]
        exact .stays _ rfl
      · rw [linkAtCycleEnd_coldstart_confirmed hstate hk (Nat.pos_of_ne_zero hcount)]
        exact .syncs _ _ rfl (by rw [hstate]; decide)
  | synced =>
    by_cases hk : k = 0
    · rcases Nat.lt_or_ge s.link.silenceCount 2 with hcount | hcount
      · rw [linkAtCycleEnd_synced_silent hstate hk hcount]
        exact .stays _ rfl
      · rw [linkAtCycleEnd_synced_leaves hstate hk hcount]
        exact .leaves s.link _
    · rw [linkAtCycleEnd_synced_heard hstate hk]
      exact .stays _ rfl

theorem enterListen_state (r : LinkReason) (k : Option Station) (x : Nat) (s : State) :
    (enterListen r k x s).link.state = .listen := by
  rw [enterListen_link]
  split <;> rfl

theorem linkNotice_setLink_state (r : LinkReason) (k : Option Station) (l : LinkUnit) (s : State) :
    (linkNotice r k (s.setLink l)).link.state = l.state := congrArg LinkUnit.state (changes_linkNotice _ _ _).link_eq

theorem Decision.host_eq {s t : State} (h : Decision s t) (hstate : t.link.state = s.link.state)
    (hon : s.link.state ≠ .listen) : t.host = s.host := by
  cases h with
  | stays => rfl
  | syncs l r hsynced hbefore =>
    rw [linkNotice_setLink_state, hsynced] at hstate
    exact absurd hstate.symm hbefore
  | leaves l r =>
    rw [enterListen_state] at hstate
    exact absurd hstate.symm hon

theorem Decision.changes {s t : State} (h : Decision s t) (hstate : t.link.state ≠ .listen) : Changes [.link, .host] s t := by
  cases h with
  | stays => exact (changes_setLink s _).mono (by decide)
  | syncs => exact (changes_setLink s _).then (changes_linkNotice _ _ _)
  | leaves l r => exact absurd (enterListen_state _ _ _ _) hstate

theorem Decision.grid {s t : State} (h : Decision s t) (hstate : t.link.state = .listen) (hon : s.link.state ≠ .listen) :
    t.cycle = { s.cycle with running := false, slotIndex := none, slotZeroAwaited := false, samples := [] } ∧
      t.line = { s.line with frame := none, ownSlot := .unjudged, ending := none } ∧
      ∀ j, t.peer j = { s.peer j with slotNote := none } := by
  cases h with
  | stays l hsame => exact absurd (hsame.symm.trans hstate) hon
  | syncs l r hsynced hbefore =>
    rw [linkNotice_setLink_state, hsynced] at hstate
    cases hstate
  | leaves l r => exact ⟨enterListen_cycle _ _ _ _, enterListen_line _ _ _ _, fun j => enterListen_peer _ _ _ _ j⟩

/-- Settles O18: each row of the decision, its link, and its notice. -/
theorem cycleEndDecidesTheLink : Obligations.CycleEndDecidesTheLink := by
  constructor
  · intro s hrunning hawaited hslot hpassed
    refine ⟨_, exec_cycleEnd (cycleEndDue_of hrunning hawaited hslot hpassed), ?_⟩
    have hturned := changes_turnCycle s
    have hlisten := listenTime_congr hturned.straps_eq
    have hlink := hturned.link_eq
    have hsamples : s.cycle.samples ≠ [] → s.cycle.samples.length ≠ 0 := fun h hzero => h (List.length_eq_zero_iff.mp hzero)
    have hnone : s.cycle.samples = [] → s.cycle.samples.length = 0 := fun h => List.length_eq_zero_iff.mpr h
    rw [takeCycleEnd_link]
    generalize turnCycle s = w at hturned hlisten hlink ⊢
    rw [← hlink]
    refine ⟨fun hstate => ⟨fun hcount => ?_, fun hcount hheard => ?_, fun hcount hsilent => ?_⟩,
      fun hstate => ⟨fun hsilent => ?_, fun hheard hcount => ?_, fun hheard hcount => ?_⟩,
      fun hstate => ⟨fun hheard => ?_, fun hsilent hcount => ?_, fun hsilent hcount => ?_⟩⟩
    · rw [linkAtCycleEnd_integrate_first hstate hcount, State.setLink_link]
    · rw [linkAtCycleEnd_integrate_heard hstate hcount (hsamples hheard), joinLine_link]
    · rw [linkAtCycleEnd_integrate_unheard hstate hcount (hnone hsilent), enterListen_link, if_neg]
      · rw [← hlisten]
        rfl
      · rw [State.setLink_link, hstate]
        decide
    · rw [linkAtCycleEnd_coldstart_alone hstate (hnone hsilent), State.setLink_link]
    · rw [linkAtCycleEnd_coldstart_first hstate (hsamples hheard) hcount, State.setLink_link]
    · rw [linkAtCycleEnd_coldstart_confirmed hstate (hsamples hheard) hcount, (changes_linkNotice _ _ _).link_eq,
        State.setLink_link]
    · rw [linkAtCycleEnd_synced_heard hstate (hsamples hheard), State.setLink_link]
    · rw [linkAtCycleEnd_synced_silent hstate (hnone hsilent) hcount, State.setLink_link]
    · rw [linkAtCycleEnd_synced_leaves hstate (hnone hsilent) hcount, enterListen_link, if_pos, hlisten]
      · rfl
      · rw [hstate]
        rfl
  · intro w t samples ht
    subst ht
    have hdecision := linkAtCycleEnd_decision samples w
    refine ⟨fun code hcode => ?_, fun hsame => ?_, hdecision.changes, fun hlisten hon => ?_⟩
    · rcases hcode with ⟨hstate, hcount, hk, rfl⟩ | ⟨hstate, hcount, hk, rfl⟩ | ⟨hstate, hk, hcount, rfl⟩ |
        ⟨hstate, hk, hcount, rfl⟩
      · rw [linkAtCycleEnd_integrate_heard hstate hcount hk]
        exact linkNotice_host (l := .synced) none rfl rfl rfl (by decide)
      · rw [linkAtCycleEnd_integrate_unheard hstate hcount hk]
        exact enterListen_host _ _ _ rfl rfl (by decide)
      · rw [linkAtCycleEnd_coldstart_confirmed hstate hk hcount]
        exact linkNotice_host (l := .synced) none rfl rfl rfl (by decide)
      · rw [linkAtCycleEnd_synced_leaves hstate hk hcount]
        exact enterListen_host _ _ _ rfl rfl (by decide)
    · by_cases hon : w.link.state = .listen
      · simp only [linkAtCycleEnd, hon]
      · exact hdecision.host_eq hsame hon
    · obtain ⟨hcycle, hline, hpeer⟩ := hdecision.grid hlisten hon
      exact ⟨hcycle, hline, hpeer, changes_linkAtCycleEnd samples w⟩

/-! ### The steps of a cycle end (R12) -/

/-- The state in which the step is taken: the last slot has ended, and the new cycle has begun. -/
def newCycle (s : State) : State := beginCycle (endOwnSlot s.lastSlot (slotEnd s.lastSlot s))

theorem turnCycle_eq (s : State) :
    turnCycle s = emptySamples (stepAtCycleEnd (cycleStep s.cycle.samples) (newCycle s)) := rfl

theorem newCycle_eq {s : State} (hrunning : s.cycle.running = true) (hawaited : s.cycle.slotZeroAwaited = false) :
    newCycle s = ((slotEnd s.straps.cnt s).setLine
        { s.line with ownSlot := if s.own = s.straps.cnt then .unjudged else s.line.ownSlot }).setCycle
      { lineTime := s.now, running := true,
        cycleStart := s.cycle.cycleStart + BitVec.ofNat 32 (s.stationCount * s.slotLength),
        cycleNumber := s.cycle.cycleNumber + 1, slotIndex := some 0, slotZeroAwaited := false,
        samples := s.cycle.samples } := by
  have hend := changes_slotEnd s.straps.cnt s
  have hslot : endOwnSlot s.straps.cnt (slotEnd s.straps.cnt s) = (slotEnd s.straps.cnt s).setLine
      { s.line with ownSlot := if s.own = s.straps.cnt then .unjudged else s.line.ownSlot } := by
    rw [← hend.line_eq]
    by_cases hown : s.straps.cnt = s.own
    · rw [endOwnSlot_own (hown.trans (slotEnd_straps _ s).symm), if_pos hown.symm]
    · rw [endOwnSlot_other (fun h => hown (h.trans (slotEnd_straps _ s))), if_neg (Ne.symm hown)]
      rfl
  have hnew : newCycle s = beginCycle (endOwnSlot s.straps.cnt (slotEnd s.straps.cnt s)) := rfl
  rw [hnew, hslot, beginCycle]
  simp only [State.setLine_cycle, State.slotStartTime, State.slotStartFrom, State.slotLength, State.stationCount,
    State.setLine_straps, hend.cycle_eq, hend.straps_eq, hrunning, hawaited, State.now]

/-- The mark time of a reception attributed to this cycle moves. -/
def Reception.moved (x σ : Time) (r : Reception) : Reception :=
  if r.attribution.any (fun a => a.cycleStart == x) then { r with markTime := r.markTime + σ } else r

theorem Reception.moved_of {x σ : Time} {r : Reception} {a : Attribution} (ha : r.attribution = some a) :
    r.moved x σ = if a.cycleStart = x then { r with markTime := r.markTime + σ } else r := by
  rw [Reception.moved, ha, Option.any_some]
  simp only [beq_iff_eq]

theorem Reception.moved_unattributed {x σ : Time} {r : Reception} (h : r.attribution = none) : r.moved x σ = r := by
  rw [Reception.moved, h]
  rfl

theorem moveMark_line (x σ : Time) (s : State) :
    (moveMark x σ s).line = { s.line with reception := s.line.reception.map (Reception.moved x σ) } := by
  unfold moveMark
  split
  · rename_i hnone
    rw [hnone, Option.map_none, ← hnone]
  · rename_i r hreception
    rw [hreception, Option.map_some]
    split
    · rename_i hattribution
      rw [Reception.moved_unattributed hattribution, ← hreception]
    · rename_i a hattribution
      rw [Reception.moved_of hattribution]
      split
      · rfl
      · rw [← hreception]

theorem stepAtCycleEnd_line (σ : Int) (s : State) : (stepAtCycleEnd σ s).line = { s.line with
    reception := s.line.reception.map (Reception.moved s.cycle.cycleStart (BitVec.ofInt 32 σ)) } := by
  by_cases hzero : σ = 0
  · subst hzero
    have hsame : Reception.moved s.cycle.cycleStart (BitVec.ofInt 32 0) = id := funext fun r => by
      rw [Reception.moved, show BitVec.ofInt 32 0 = 0#32 from rfl, BitVec.add_zero]
      exact ite_self r
    rw [stepAtCycleEnd_zero, hsame, Option.map_id]
    rfl
  · have hstep : stepAtCycleEnd σ s = moveMark s.cycle.cycleStart (BitVec.ofInt 32 σ) (applyStep (BitVec.ofInt 32 σ) s) :=
      if_neg hzero
    rw [hstep, moveMark_line, (changes_applyStep _ s).line_eq]

theorem stepAtCycleEnd_sameReports {σ : Int} (hσ : σ ≠ 0) (s : State) :
    Changes [.line] (applyStep (BitVec.ofInt 32 σ) s) (stepAtCycleEnd σ s) := by
  rw [stepAtCycleEnd, if_neg hσ]
  exact changes_moveMark _ _ _

/-! ### The cycle slot -/

section
variable {s : State} {σ : Int}

theorem beginCycleSlot_stopped (h : s.cycle.running = false) : beginCycleSlot σ s = s :=
  if_neg (by rw [h]; exact Bool.false_ne_true)

theorem beginCycleSlot_awaits (h : s.cycle.running = true) (hσ : σ < 0) :
    beginCycleSlot σ s = s.setCycle { s.cycle with slotZeroAwaited := true } := by
  rw [beginCycleSlot, if_pos h, if_neg (Int.not_le.mpr hσ)]

theorem beginCycleSlot_begins (h : s.cycle.running = true) (hσ : 0 ≤ σ) : beginCycleSlot σ s = slotBegins 0 s := by
  rw [beginCycleSlot, if_pos h, if_pos hσ]

theorem expireCache_cacheOf (s : State) (k : Station) : (expireCache s).cacheOf k =
    (s.cacheOf k).filter fun r => !cycleReached s.cycle.cycleNumber r.expiry := get_mapVector _ _ _

end

/-- Settles O16: `w` is the state before the decision, `y` the one before slot 0. -/
theorem cycleEndMovesTheGrid : Obligations.CycleEndMovesTheGrid := by
  intro s v u σ start hrunning hawaited hslot hstart hpassed hσ hv hu
  subst hstart
  have hexec := exec_cycleEnd (cycleEndDue_of hrunning hawaited hslot hpassed)
  let y := expireCache (linkAtCycleEnd s.cycle.samples.length (turnCycle s))
  have hend : takeCycleEnd s = beginCycleSlot σ y := by
    rw [hσ]
    rfl
  rw [hend] at hexec
  have hturned := changes_turnCycle s
  have hown : y.own = s.own := congrArg Straps.id
    (((hturned.then (ds := Block.ofGrid) (changes_linkAtCycleEnd _ _)).then (ds := Block.ofGrid)
      (changes_expireCache _)).straps_eq)
  have hnumber : (linkAtCycleEnd s.cycle.samples.length (turnCycle s)).cycle.cycleNumber = s.cycle.cycleNumber + 1 := by
    rcases linkAtCycleEnd_cycle s.cycle.samples.length (turnCycle s) with h | h <;> rw [h, turnCycle_cycle]
  have hnew := newCycle_eq hrunning hawaited
  rw [← hv] at hnew
  refine ⟨turnCycle s, y, ?_, ?_, ?_, fun hzero => ?_, fun hnonzero x hx => ?_, hturned, fun k => ?_, rfl, fun hstopped => ?_,
    fun hgrid hnegative => ?_, fun hgrid hnonnegative hquiet => ?_, fun hgrid hnonnegative hfirst htransmits => ?_⟩
  · rw [turnCycle_eq, emptySamples, State.setCycle_cycle, stepAtCycleEnd_cycle, ← hσ, hnew, hu,
      (changes_ageArmTimes _ _).cycle_eq]
    rfl
  · rw [turnCycle_eq, emptySamples, State.setCycle_line, stepAtCycleEnd_line, ← hσ, hnew, hu,
      (changes_ageArmTimes _ _).line_eq]
    rfl
  · rw [turnCycle_eq, emptySamples, State.setCycle_members, (changes_stepAtCycleEnd _ _).members_eq, hnew]
    rfl
  · rw [turnCycle_eq, ← hσ, hzero, stepAtCycleEnd_zero, hnew]
    exact ⟨rfl, rfl, rfl, rfl⟩
  · have hstep := stepAtCycleEnd_sameReports hnonzero (newCycle s)
    have hx' : applyStep (BitVec.ofInt 32 σ) (newCycle s) = x := by
      rw [hx, hu, hnew]
      rfl
    rw [hx'] at hstep
    rw [turnCycle_eq, ← hσ]
    exact ⟨hstep.exchange_eq, hstep.table_eq, hstep.channels_eq, hstep.host_eq⟩
  · rw [expireCache_cacheOf, hnumber]
    rfl
  · rw [hexec, beginCycleSlot_stopped hstopped]
  · rw [hexec, beginCycleSlot_awaits hgrid hnegative]
  · rw [hexec, beginCycleSlot_begins hgrid hnonnegative, slotBegins_other (hquiet.imp_left fun h => ?_)]
    rw [hown]
    exact Ne.symm h
  · rw [hexec, beginCycleSlot_begins hgrid hnonnegative, slotBegins_own (hown.trans hfirst).symm htransmits]

end Sys2Proof.Machine
end

