-- ==== Sys2Proof/Proofs/Edges.lean ====
section
/-! The edges of the Order Table: their order (R110), starts (R116, R138 to R141), ends (R118, R120), the phases of a TRAIN
(R119), and what time brings (R114, R115, R124). -/

namespace Sys2Proof.Machine

-- One thread for the whole file: its many small proofs would otherwise each take a thread's memory.
set_option Elab.async false

/-! ### The order of edges (R14, R110) -/

theorem PendingEdge.before_iff {now : Time} {a b : PendingEdge} : a.before now b = true ↔
    (now - b.time).toNat < (now - a.time).toNat ∨
      ((now - b.time).toNat = (now - a.time).toNat ∧ a.kind.rank < b.kind.rank) := by
  simp only [PendingEdge.before, ahead, Bool.or_eq_true, Bool.and_eq_true, decide_eq_true_eq,
    eq_comm (a := (now - a.time).toNat)]

section
variable {limit : Time} {found : Option PendingEdge} {e : Entry} {d f : PendingEdge}

theorem earlierEdge_skip (h : ∀ d, e.pendingEdge = some d → passed d.time limit = false) :
    earlierEdge limit found e = found := by
  unfold earlierEdge
  split
  · rfl
  · rename_i d hd
    rw [if_neg (by rw [h d hd]; exact Bool.false_ne_true)]

theorem earlierEdge_first (hd : e.pendingEdge = some d) (hpassed : passed d.time limit = true) :
    earlierEdge limit none e = some d := by
  simp only [earlierEdge, hd, hpassed, if_true]

theorem earlierEdge_found (hd : e.pendingEdge = some d) (hpassed : passed d.time limit = true) :
    earlierEdge limit (some f) e = if d.before limit f = true then some d else some f := by
  simp only [earlierEdge, hd, hpassed, if_true]

end

/-- The chosen edge of a list: none reached before it is taken as early, and none after it is taken earlier. -/
def IsNextEdge (limit : Time) (l : List Entry) (d : PendingEdge) : Prop :=
  ∃ earlier e later, l = earlier ++ e :: later ∧ e.pendingEdge = some d ∧ passed d.time limit = true ∧
    (∀ x ∈ earlier, ∀ d', x.pendingEdge = some d' → passed d'.time limit = true →
      (limit - d'.time).toNat < (limit - d.time).toNat ∨
        ((limit - d'.time).toNat = (limit - d.time).toNat ∧ d.kind.rank < d'.kind.rank)) ∧
    ∀ x ∈ later, ∀ d', x.pendingEdge = some d' → passed d'.time limit = true →
      (limit - d'.time).toNat < (limit - d.time).toNat ∨
        ((limit - d'.time).toNat = (limit - d.time).toNat ∧ d.kind.rank ≤ d'.kind.rank)

section
variable {limit : Time} {l : List Entry} {x : Entry} {d f : PendingEdge}

/-- One more entry, with nothing taken earlier than the edge found. -/
theorem IsNextEdge.keep (h : IsNextEdge limit l f)
    (hx : ∀ d, x.pendingEdge = some d → passed d.time limit = true → d.before limit f = false) :
    IsNextEdge limit (l ++ [x]) f := by
  obtain ⟨earlier, e, later, rfl, he, hpassed, hearlier, hlater⟩ := h
  refine ⟨earlier, e, later ++ [x], by simp, he, hpassed, hearlier, fun y hy d hd hreached => ?_⟩
  rcases List.mem_append.mp hy with hy | hy
  · exact hlater y hy d hd hreached
  · obtain rfl := List.mem_singleton.mp hy
    have hbefore : ¬_ := fun h => Bool.false_ne_true ((hx d hd hreached).symm.trans (PendingEdge.before_iff.mpr h))
    omega

/-- One more entry, whose edge is taken earlier than the one found. -/
theorem IsNextEdge.replace (h : IsNextEdge limit l f) (hd : x.pendingEdge = some d) (hpassed : passed d.time limit = true)
    (hbefore : d.before limit f = true) : IsNextEdge limit (l ++ [x]) d := by
  obtain ⟨earlier, e, later, rfl, he, -, hearlier, hlater⟩ := h
  have hfirst := PendingEdge.before_iff.mp hbefore
  refine ⟨earlier ++ e :: later, x, [], rfl, hd, hpassed, fun y hy d' hd' hreached => ?_, fun _ h => nomatch h⟩
  rcases List.mem_append.mp hy with hy | hy
  · have hafter := hearlier y hy d' hd' hreached
    omega
  · rcases List.mem_cons.mp hy with rfl | hy
    · rw [he] at hd'
      cases hd'
      omega
    · have hafter := hlater y hy d' hd' hreached
      omega

/-- The pass over the entries finds the next edge, or finds that none is reached. -/
theorem foldl_earlierEdge (limit : Time) (l : List Entry) :
    (l.foldl (earlierEdge limit) none = none → ∀ x ∈ l, ∀ d, x.pendingEdge = some d → passed d.time limit = false) ∧
      ∀ d, l.foldl (earlierEdge limit) none = some d → IsNextEdge limit l d := by
  induction l using List.reverseRecOn with
  | nil => exact ⟨fun _ _ hx => absurd hx List.not_mem_nil, fun d h => absurd h (Option.some_ne_none d).symm⟩
  | append_singleton l x ih =>
    obtain ⟨hnone, hsome⟩ := ih
    rw [List.foldl_append, List.foldl_cons, List.foldl_nil]
    by_cases hx : ∀ d, x.pendingEdge = some d → passed d.time limit = false
    · rw [earlierEdge_skip hx]
      refine ⟨fun h y hy d hd => ?_, fun d h => (hsome d h).keep fun d hd hreached => ?_⟩
      · rcases List.mem_append.mp hy with hy | hy
        · exact hnone h y hy d hd
        · obtain rfl := List.mem_singleton.mp hy
          exact hx d hd
      · rw [hx d hd] at hreached
        cases hreached
    · push Not at hx
      obtain ⟨d, hd, hreached⟩ := hx
      rw [ne_eq, Bool.not_eq_false] at hreached
      cases hfound : l.foldl (earlierEdge limit) none with
      | none =>
        rw [earlierEdge_first hd hreached]
        refine ⟨nofun, fun d' h => ?_⟩
        cases h
        refine ⟨l, x, [], rfl, hd, hreached, fun y hy d' hd' hpassed => ?_, fun _ h => nomatch h⟩
        rw [hnone hfound y hy d' hd'] at hpassed
        cases hpassed
      | some f =>
        rw [earlierEdge_found hd hreached]
        cases hbefore : d.before limit f with
        | true =>
          rw [if_pos rfl]
          refine ⟨nofun, fun d' h => ?_⟩
          cases h
          exact (hsome f hfound).replace hd hreached hbefore
        | false =>
          rw [if_neg Bool.false_ne_true]
          refine ⟨nofun, fun d' h => ?_⟩
          cases h
          refine (hsome f hfound).keep fun d' hd' _ => ?_
          rw [hd] at hd'
          cases hd'
          exact hbefore

end

theorem nextDueEdge_none {s : State} {limit : Time} (h : s.nextDueEdge limit = none) :
    ∀ e ∈ s.table, ∀ d, e.pendingEdge = some d → passed d.time limit = false := (foldl_earlierEdge limit s.table).1 h

/-- Settles O33: the pass over the table keeps the edge that is taken first. -/
theorem edgesAreTakenInTimeAndKindOrder : Obligations.EdgesAreTakenInTimeAndKindOrder := fun s limit d h =>
  (foldl_earlierEdge limit s.table).2 d h

/-- A row of an edge that is next due takes it. -/
theorem takeDueEdge_due {s : State} {i : Index} {kind : EdgeKind} {x : Time}
    (h : s.nextDueEdge s.now = some { index := i, kind := kind, time := x }) :
    takeDueEdge i kind s = takeEdge { index := i, kind := kind, time := x } s := by
  simp only [takeDueEdge, State.dueEdgeOf, h, Option.filter_some, beq_self_eq_true, Bool.and_self, if_true]

/-! ### A run that is over (R113, R117, R120) -/

section
variable {e : Entry} {o : EntryOutcome} {x : Time} {s : State} {p : EventPart}

theorem finishRun_departs (h : e.event = none ∨ ∃ p, e.event = some p ∧ p.fires = 1) :
    finishRun e o x s = depart e o s := by
  rcases h with h | ⟨p, hp, hfires⟩
  · exact finishRun_absolute o x s h
  · exact finishRun_lastFire o x s hp hfires

/-- An EVENT entry as it returns to ARMED at this time, one fire used. -/
def Entry.rearmed (e : Entry) (p : EventPart) (x : Time) : Entry :=
  { e with
    state := .armed, active := false, nextEdge := none, aged := false
    train := e.train.map fun tr => { tr with followingStart := none }
    event := some { p with fires := if p.fires = 0 then 0 else p.fires - 1, armTime := x } }

theorem Entry.expiredAt_iff (hp : e.event = some p) : e.expiredAt x = true ↔
    p.expiryReached = true ∨ ∃ y, p.expiry = some y ∧ passed y x = true := by
  simp only [Entry.expiredAt, hp, Bool.or_eq_true]
  cases p.expiry <;> simp

theorem finishRun_expires (hp : e.event = some p) (hfires : p.fires ≠ 1)
    (h : p.expiryReached = true ∨ ∃ y, p.expiry = some y ∧ passed y x = true) :
    finishRun e o x s = depart e .expired s := by
  rw [finishRun_rearms o x s hp hfires, returnToArmed, 
    if_pos ((Entry.expiredAt_iff (p := { p with fires := firesAfter p.fires }) rfl).mpr h)]
  rfl

theorem finishRun_returns (hp : e.event = some p) (hfires : p.fires ≠ 1) (hreached : p.expiryReached = false)
    (hahead : ∀ y, p.expiry = some y → passed y x = false) : finishRun e o x s = replaceEntry (e.rearmed p x) s := by
  rw [finishRun_rearms o x s hp hfires, returnToArmed, if_neg]
  · rfl
  · rw [Entry.expiredAt_iff (p := { p with fires := firesAfter p.fires }) rfl]
    rintro (h | ⟨y, hy, hpassed⟩)
    · rw [hreached] at h
      cases h
    · rw [hahead y hy] at hpassed
      cases hpassed

theorem entryAt_replaceEntry_of {i : Index} {e' : Entry} (h : s.entryAt i = some e) (hindex : e'.index = i) (j : Index) :
    (replaceEntry e' s).entryAt j = if j = i then some e' else s.entryAt j := by
  subst hindex
  rw [entryAt_replaceEntry]
  by_cases hj : j = e'.index
  · rw [if_pos hj, if_pos hj, hj, h]
    rfl
  · rw [if_neg hj, if_neg hj]

/-- Whatever a finished run comes to, every other entry stays. -/
theorem entryAt_finishRun_of_ne {j : Index} (hj : j ≠ e.index) : (finishRun e o x s).entryAt j = s.entryAt j := by
  unfold finishRun
  split
  · rw [entryAt_depart, if_neg hj]
  · split
    · rw [entryAt_depart, if_neg hj]
    · unfold returnToArmed
      split
      · rw [entryAt_depart]
        exact if_neg hj
      · rw [entryAt_replaceEntry]
        exact if_neg hj

end

/-- What a finished run comes to where it runs on a state that reports as `s` does. -/
theorem finishRun_spec {e : Entry} (o : EntryOutcome) (x : Time) {s u : State} (hreports : SameReports s u) {i : Index}
    (hi : u.entryAt i = some e) :
    (e.event = none ∨ (∃ p, e.event = some p ∧ p.fires = 1) → (finishRun e o x u).entryAt i = none ∧
      (finishRun e o x u).host = (produceResult e o s).host ∧
      (finishRun e o x u).exchange = (produceResult e o s).exchange) ∧
    ∀ p, e.event = some p → p.fires ≠ 1 →
      ((p.expiryReached = true ∨ ∃ y, p.expiry = some y ∧ passed y x = true) → (finishRun e o x u).entryAt i = none ∧
        (finishRun e o x u).host = (produceResult e .expired s).host ∧
        (finishRun e o x u).exchange = (produceResult e .expired s).exchange) ∧
      (p.expiryReached = false → (∀ y, p.expiry = some y → passed y x = false) → (finishRun e o x u).host = s.host ∧
        (finishRun e o x u).exchange = s.exchange ∧ (finishRun e o x u).entryAt i = some (e.rearmed p x)) := by
  have hindex := State.entryAt_index hi
  have hdeparts : ∀ o', (depart e o' u).entryAt i = none ∧ (depart e o' u).host = (produceResult e o' s).host ∧
      (depart e o' u).exchange = (produceResult e o' s).exchange := fun o' => by
    have hsame := (produceResult_sameReports e o' hreports).trans (depart_sameReports e o' u)
    rw [entryAt_depart, hindex]
    exact ⟨if_pos rfl, hsame.host, hsame.exchange⟩
  refine ⟨fun h => ?_, fun p hp hfires => ⟨fun h => ?_, fun hreached hahead => ?_⟩⟩
  · rw [finishRun_departs h]
    exact hdeparts o
  · rw [finishRun_expires hp hfires h]
    exact hdeparts .expired
  · rw [finishRun_returns hp hfires hreached hahead, entryAt_replaceEntry_of (e' := e.rearmed p x) hi hindex,
      if_pos rfl]
    exact ⟨hreports.host, hreports.exchange, rfl⟩

/-! ### Starts (R116, R117, R138 to R141) -/

/-- Settles O35, by the owner of the entry's channel. -/
theorem startEdgeIsJudgedByTheChannel : Obligations.StartEdgeIsJudgedByTheChannel := by
  refine ⟨fun s i x h => congrArg Host.Outcome.next (takeDueEdge_due h), fun s t i x e he ht => ?_⟩
  have hindex := State.entryAt_index he
  refine ⟨fun hfree => ?_, fun o howner hpolite => ?_, fun o howner hother hpreempt => ?_⟩
  · rw [requestStart_free x he hfree] at ht
    subst ht
    refine ⟨(entryAt_grantStart x hindex he i).trans (if_pos rfl),
      fun j hj => (entryAt_grantStart x hindex he j).trans (if_neg hj), ?_,
      fun n hn => (channel_grantStart e x s n).trans (if_neg hn), changes_grantStart e x s⟩
    rw [channel_grantStart, if_pos rfl, hindex]
  · rw [requestStart_refused x he howner hpolite] at ht
    subst ht
    obtain ⟨hleaves, hstays⟩ := finishRun_spec .collided x (.refl s) he
    exact ⟨hleaves, hstays, fun j hj => entryAt_finishRun_of_ne (hindex ▸ hj), changes_finishRun e .collided x s⟩
  · have hall := changes_requestStart i x s
    rw [requestStart_preempts x he howner hpreempt] at ht hall
    subst ht
    have hkept : (preemptOwner o s).entryAt i = some e := by
      rw [entryAt_preemptOwner, if_neg (Ne.symm hother), he]
    have hchannels : ∀ c, (preemptOwner o s).channel c = s.channel c :=
      State.channel_congr (changes_preemptOwner o s).channels_eq
    refine ⟨?_, (entryAt_grantStart x hindex hkept i).trans (if_pos rfl), fun owner hentry => ?_, fun j hj hjo => ?_, ?_,
      fun n hn => ?_, hall⟩
    · rw [entryAt_grantStart x hindex hkept, if_neg hother, entryAt_preemptOwner, if_pos rfl]
    · have hgrant := changes_grantStart e x (preemptOwner o s)
      have hleft : preemptOwner o s = depart owner .preempted s := by simp only [preemptOwner, hentry]
      rw [hgrant.host_eq, hgrant.exchange_eq, hleft]
      exact ⟨(depart_sameReports owner .preempted s).host, (depart_sameReports owner .preempted s).exchange⟩
    · rw [entryAt_grantStart x hindex hkept, if_neg hj, entryAt_preemptOwner, if_neg hjo]
    · rw [channel_grantStart, if_pos rfl, hchannels, hindex]
    · rw [channel_grantStart, if_neg hn, hchannels]

/-! ### Phases (R116, R119, R142, R145) -/

section
variable {s : State} {i : Index} {e : Entry}

theorem startPhase_entryAt (x : Time) (he : s.entryAt i = some e) (j : Index) :
    (startPhase i x s).entryAt j = if j = i then some (e.startedAt x) else s.entryAt j := by
  rw [startPhase_of x he]
  exact entryAt_replaceEntry_of (e' := e.startedAt x) he (State.entryAt_index (e := e) he) j

end

/-- Settles O36: what a start sets, the end between two phases, and the next phase start. -/
theorem trainRunsPhaseByPhase : Obligations.TrainRunsPhaseByPhase := by
  refine ⟨fun e x => ⟨rfl, fun h => if_pos h, fun h => if_neg h, fun h => ?_, fun tr htrain => ?_⟩,
    fun s t i e tr x y he htrain hfollowing ht => ?_, fun s i x h => congrArg Host.Outcome.next (takeDueEdge_due h),
    fun s t i e x he ht => ?_⟩
  · rw [Entry.startedAt, h]
    rfl
  · have hstarted : (e.startedAt x).train = some (tr.startAt x) := by
      rw [Entry.startedAt, htrain]
      rfl
    rw [hstarted, TrainPart.startAt]
    refine ⟨fun h => ?_, fun h hlast => ?_, fun h hmore => ?_⟩
    · rw [if_pos h]
    · rw [if_neg h, if_pos (by rw [hlast]; decide)]
    · rw [if_neg h, if_neg fun hle => by
        have hle := BitVec.le_def.mp hle
        have hone : (1 : BitVec 16).toNat = 1 := rfl
        omega]
  · have hnext : e.followingStart = some y := by
      rw [Entry.followingStart, htrain]
      exact hfollowing
    rw [takeEnd_betweenPhases x he hnext] at ht
    subst ht
    have hentry : ∀ j, (setPhase e.channel .inactive (replaceEntry (e.betweenPhases y) s)).entryAt j =
        if j = i then some (e.betweenPhases y) else s.entryAt j :=
      entryAt_replaceEntry_of (e' := e.betweenPhases y) he (State.entryAt_index (e := e) he)
    refine ⟨?_, fun j hj => (hentry j).trans (if_neg hj), ?_, fun n hn => ?_,
      (changes_replaceEntry _ s).then (changes_setPhase _ _ _)⟩
    · rw [hentry, if_pos rfl, Entry.betweenPhases, htrain]
      rfl
    · rw [channel_setPhase, if_pos rfl]
      rfl
    · rw [channel_setPhase, if_neg hn]
      rfl
  · have hall := changes_startPhase i x s
    have hentry := startPhase_entryAt x he
    rw [← ht] at hall hentry
    rw [startPhase_of x he] at ht
    refine ⟨(hentry i).trans (if_pos rfl), fun j hj => (hentry j).trans (if_neg hj), ?_, fun n hn => ?_, hall⟩
    · rw [ht, channel_setPhase, if_pos rfl]
      rfl
    · rw [ht, channel_setPhase, if_neg hn]
      rfl

/-! ### Closing ends (R118, R120, R145) -/

/-- Settles O37: the channel is released, and the run is finished on the state so reached. -/
theorem closingEndCompletesTheRun : Obligations.ClosingEndCompletesTheRun := by
  refine ⟨fun s i x h => congrArg Host.Outcome.next (takeDueEdge_due h), fun s t i x e he htrain howner ht => ?_⟩
  have hindex := State.entryAt_index he
  have hlast : e.followingStart = none := by
    unfold Entry.followingStart
    cases htr : e.train with
    | none => rfl
    | some tr => exact htrain tr htr
  have hall := changes_takeEnd i x s
  rw [takeEnd_closes x he hlast] at ht hall
  subst ht
  have hrelease := changes_releaseChannel e.channel e.index s
  have hkept : (releaseChannel e.channel e.index s).entryAt i = some e := by
    rw [State.entryAt, hrelease.table_eq]
    exact he
  obtain ⟨hleaves, hstays⟩ := finishRun_spec .completed x (.of_changes hrelease) hkept
  have hchannel : ∀ n, (finishRun e .completed x (releaseChannel e.channel e.index s)).channel n =
      if e.channel = n ∧ (s.channel n).owner = some e.index then { s.channel n with owner := none, phase := .inactive }
      else s.channel n := fun n => by
    rw [State.channel_congr (changes_finishRun e .completed x _).channels_eq, releaseChannel_channel]
  refine ⟨?_, fun n hn => (hchannel n).trans (if_neg fun h => hn h.1.symm), fun j hj => ?_, hleaves, hstays, hall⟩
  · rw [hchannel, if_pos ⟨rfl, hindex ▸ howner⟩]
  · rw [entryAt_finishRun_of_ne (hindex ▸ hj), State.entryAt, hrelease.table_eq]
    rfl

/-! ### What time brings (R114, R115, R124) -/

theorem entryAt_whereDue (due : Entry → Bool) {f : Entry → Entry} (hf : ∀ e, (f e).index = e.index) (s : State) (j : Index) :
    (whereDue due f s).entryAt j = (s.entryAt j).map fun e => if due e = true then f e else e := by
  unfold whereDue State.entryAt
  rw [State.setTable_table, List.find?_map]
  refine congrArg _ (congrArg (List.find? · s.table) (funext fun e => ?_))
  have hindex : (if due e = true then f e else e).index = e.index := by
    split
    · exact hf e
    · rfl
  exact congrArg (· == j) hindex

/-- What a note of one entry changes: that entry, where the note is due. -/
theorem entryAt_noteAt {i : Index} {due : Entry → Bool} {f : Entry → Entry} (hf : ∀ e, (f e).index = e.index) {s : State}
    {e : Entry} (he : s.entryAt i = some e) :
    (noteAt i due f s).entryAt i = some (if due e = true then f e else e) ∧
      ∀ j, j ≠ i → (noteAt i due f s).entryAt j = s.entryAt j := by
  constructor
  · rw [noteAt, entryAt_whereDue _ hf, he, Option.map_some, State.entryAt_index he, beq_self_eq_true, Bool.true_and]
  · intro j hj
    rw [noteAt, entryAt_whereDue _ hf]
    cases hentry : s.entryAt j with
    | none => rfl
    | some x =>
      rw [Option.map_some, State.entryAt_index hentry, beq_eq_false_iff_ne.mpr hj]
      rfl

section
variable {e : Entry} {now : Time} {p : EventPart}

/-- The ageing of an ARMED entry's arm time, where it is due or has been done (R114). -/
theorem Entry.ageArmTime_armed (hstate : e.state = .armed) (hp : e.event = some p) :
    (if e.armTimeDue now = true then e.ageArmTime now else e) =
      if atOrAfter now (p.armTime + BitVec.ofNat 32 (2 ^ 30)) = true then
        { e with event := some { p with armTime := now - BitVec.ofNat 32 (2 ^ 30) } }
      else e := by
  have hdue : e.armTimeDue now = (atOrAfter now (p.armTime + BitVec.ofNat 32 (2 ^ 30)) &&
      p.armTime != now - BitVec.ofNat 32 (2 ^ 30)) := by
    simp only [Entry.armTimeDue, hstate, hp]
    rfl
  rw [hdue]
  by_cases haged : atOrAfter now (p.armTime + BitVec.ofNat 32 (2 ^ 30)) = true
  · rw [if_pos haged, haged, Bool.true_and]
    by_cases hdone : p.armTime = now - BitVec.ofNat 32 (2 ^ 30)
    · rw [if_neg (by simp [hdone]), ← hdone, ← hp]
    · rw [if_pos (bne_iff_ne.mpr hdone), Entry.ageArmTime, hp]
      rfl
  · rw [if_neg haged, if_neg fun h => haged (Bool.and_elim_left h)]

theorem Entry.armTimeDue_unarmed (hstate : e.state ≠ .armed) : e.armTimeDue now = false := by
  unfold Entry.armTimeDue
  split
  · rename_i harmed _
    exact absurd harmed hstate
  · rfl

theorem Entry.holdToAge_eq : e.holdToAge now = (!e.aged && (decide (e.state = .running ∧ e.nextEdge = none) &&
    e.lastStart.any fun x => atOrAfter now (x + BitVec.ofNat 32 (2 ^ 30)))) := by
  unfold Entry.holdToAge
  split
  · rename_i hstate hedge hstart
    rw [decide_eq_true ⟨hstate, hedge⟩, hstart, Option.any_some, Bool.true_and]
    rfl
  · rename_i hother
    have hnone : (decide (e.state = .running ∧ e.nextEdge = none) &&
        e.lastStart.any fun x => atOrAfter now (x + BitVec.ofNat 32 (2 ^ 30))) = false := by
      cases hstart : e.lastStart with
      | none => rw [Option.any_none, Bool.and_false]
      | some x => rw [decide_eq_false fun h => hother x h.1 h.2 hstart, Bool.false_and]
    rw [hnone, Bool.and_false]

/-- The ageing of a hold: a RUNNING entry with no end edge (R124). -/
theorem Entry.noteAged_eq : (if e.holdToAge now = true then e.noteAged else e) = { e with
    aged := e.aged || (decide (e.state = .running ∧ e.nextEdge = none) &&
      e.lastStart.any fun x => atOrAfter now (x + BitVec.ofNat 32 (2 ^ 30))) } := by
  rw [Entry.holdToAge_eq]
  generalize (decide (e.state = .running ∧ e.nextEdge = none) &&
    e.lastStart.any fun x => atOrAfter now (x + BitVec.ofNat 32 (2 ^ 30))) = due
  cases haged : e.aged with
  | true => rw [Bool.not_true, Bool.false_and, if_neg Bool.false_ne_true, Bool.true_or, ← haged]
  | false =>
    rw [Bool.not_false, Bool.true_and, Bool.false_or]
    cases due with
    | true => rfl
    | false => rw [if_neg Bool.false_ne_true, ← haged]

theorem Entry.expiryToNote_some (hstate : e.state ≠ .armed) (hp : e.event = some p) :
    e.expiryToNote now = (!p.expiryReached && p.expiry.any fun x => passed x now) := by
  have hany : (match p.expiry with | none => false | some x => passed x now) = p.expiry.any fun x => passed x now := by
    cases p.expiry <;> rfl
  rw [← hany]
  unfold Entry.expiryToNote
  rw [hp]
  cases hs : e.state with
  | armed => exact absurd hs hstate
  | scheduled => rfl
  | running => rfl

/-- The note of a reached expiry (R115). -/
theorem Entry.noteExpiry_eq (hstate : e.state ≠ .armed) : (if e.expiryToNote now = true then e.noteExpiry else e) = { e with
    event := e.event.map fun p =>
      { p with expiryReached := p.expiryReached || p.expiry.any fun x => passed x now } } := by
  cases hp : e.event with
  | none =>
    have hnever : e.expiryToNote now = false := by
      unfold Entry.expiryToNote
      rw [hp]
      cases e.state <;> rfl
    rw [hnever, if_neg Bool.false_ne_true, Option.map_none, ← hp]
  | some p =>
    rw [Entry.expiryToNote_some hstate hp, Option.map_some]
    generalize (p.expiry.any fun x => passed x now) = due
    cases hreached : p.expiryReached with
    | true => rw [Bool.not_true, Bool.false_and, if_neg Bool.false_ne_true, Bool.true_or, ← hreached, ← hp]
    | false =>
      rw [Bool.not_false, Bool.true_and, Bool.false_or]
      cases due with
      | true => rw [if_pos rfl, Entry.noteExpiry, hp]; rfl
      | false => rw [if_neg Bool.false_ne_true, ← hreached, ← hp]

end

/-- Settles O38: an expiry departs, and each note is due or has been made. -/
theorem timeReachesTheEntries : Obligations.TimeReachesTheEntries := by
  refine ⟨fun s i x e hdue he => ?_, fun s i e p he hstate hp haged => ?_, fun s i e x he hstate hedge hstart haged => ?_,
    fun s i e p x he hstate hp hexpiry hpassed => ?_⟩
  · have hindex := State.entryAt_index he
    have htake : takeExpiry i s = depart e .expired s := by simp only [takeExpiry, he]
    have hreports := depart_sameReports e .expired s
    refine ⟨takeExpiry i s, congrArg Host.Outcome.next (takeDueEdge_due hdue), rfl, ?_⟩
    rw [htake]
    refine ⟨by rw [entryAt_depart, if_pos hindex.symm], fun j hj => by rw [entryAt_depart, if_neg (hindex ▸ hj)],
      fun hsilent => ?_, fun hreport hlocal => ?_, fun hreport hpeer => ?_, changes_depart e .expired s⟩
    · rw [produceResult_silent hsilent] at hreports
      exact ⟨hreports.host, hreports.exchange⟩
    · rw [produceResult_local hreport rfl hlocal] at hreports
      exact ⟨hreports.exchange.trans (queueNotice_exchange _ s), hreports.host⟩
    · rw [produceResult_peer hreport rfl hpeer] at hreports
      refine ⟨hreports.host.trans (changes_queueReplyItem _ s).host_eq, hreports.exchange.trans ?_⟩
      unfold queueReplyItem
      by_cases hroom : s.exchange.replyQueue.length < 16
      · rw [if_pos hroom, if_pos hroom]
        rfl
      · rw [if_neg hroom, if_neg hroom]
  · obtain ⟨hself, hother⟩ := entryAt_noteAt (f := Entry.ageArmTime s.now) (due := Entry.armTimeDue s.now) (fun _ => rfl) he
    refine ⟨_, rfl, hself.trans ?_, hother, changes_whereDue _ _ s⟩
    rw [Entry.ageArmTime_armed hstate hp, if_pos haged]
  · obtain ⟨hself, hother⟩ := entryAt_noteAt (f := Entry.noteAged) (due := Entry.holdToAge s.now) (fun _ => rfl) he
    refine ⟨_, rfl, hself.trans ?_, hother, changes_whereDue _ _ s⟩
    rw [Entry.noteAged_eq, decide_eq_true ⟨hstate, hedge⟩, hstart, Option.any_some, haged, Bool.and_self, Bool.or_true]
  · obtain ⟨hself, hother⟩ := entryAt_noteAt (f := Entry.noteExpiry) (due := Entry.expiryToNote s.now) (fun _ => rfl) he
    refine ⟨_, rfl, hself.trans ?_, hother, changes_whereDue _ _ s⟩
    rw [Entry.noteExpiry_eq hstate, hp, Option.map_some, hexpiry, Option.any_some, hpassed, Bool.or_true, ← hexpiry]

end Sys2Proof.Machine
end

