-- ==== Sys2Proof/Proofs/Matches.lean ====
section
/-! Events at the Order Table (R111 to R113), AMEND and CANCEL (R122 to R126), and a step of line time (R14, R15). -/

namespace Sys2Proof.Machine

-- One thread for the whole file: its many small proofs would otherwise each take a thread's memory.
set_option Elab.async false

/-! ### An entry meets an event (R111 to R113) -/

section
variable {s : State} {ev : Event} {i : Index} {e : Entry} {p : EventPart}

theorem meetEvent_armed (he : s.entryAt i = some e) (hstate : e.state = .armed) (hp : e.event = some p) :
    meetEvent ev i s = if p.matchesEvent ev = true then matchEntry e p ev s else s := by
  simp only [meetEvent, he, hstate, hp]

theorem meetEvent_unarmed (h : ∀ e, s.entryAt i = some e → e.state ≠ .armed) : meetEvent ev i s = s := by
  unfold meetEvent
  split
  · rfl
  · rename_i e he
    split
    · rename_i harmed _
      exact absurd harmed (h e he)
    · rfl

theorem TriggerEdge.admits_iff {t : TriggerEdge} {x : Edge} : t.admits x = true ↔
    t = .either ∨ (t = .rise ∧ x = .rise) ∨ (t = .fall ∧ x = .fall) := by
  cases t <;> cases x <;> decide

theorem EventPart.matchesEvent_iff : p.matchesEvent ev = true ↔
    p.triggerStation = ev.station ∧ p.triggerInput = ev.input ∧
      (p.triggerEdge = .either ∨ (p.triggerEdge = .rise ∧ ev.edge = .rise) ∨ (p.triggerEdge = .fall ∧ ev.edge = .fall)) ∧
      (ev.stamp - p.armTime).toNat < 2 ^ 31 := by
  rw [EventPart.matchesEvent, Bool.and_eq_true, Bool.and_eq_true, Bool.and_eq_true, beq_iff_eq, beq_iff_eq,
    TriggerEdge.admits_iff, atOrAfter, decide_eq_true_eq, and_assoc, and_assoc]

theorem dueAhead_iff {due now : Time} :
    dueAhead due now = true ↔ 0 < (due - now).toNat ∧ (due - now).toNat ≤ 2 ^ 24 := by
  have hdiffers : due ≠ now ↔ 0 < (due - now).toNat := by bv_omega
  rw [dueAhead, afterTime, atOrAfter, Bool.and_eq_true, Bool.and_eq_true, decide_eq_true_eq, decide_eq_true_eq, bne_iff_ne,
    hdiffers]
  change _ ∧ (due - now).toNat ≤ 2 ^ 24 ↔ _
  omega

end

/-- Settles O39: an entry that the event does not meet stays, and one that it meets goes by its due time. -/
theorem eventMeetsTheWatchingEntries : Obligations.EventMeetsTheWatchingEntries := by
  refine ⟨fun s ev => ⟨rfl, changes_matchEvent ev s⟩, fun s ev i h => meetEvent_unarmed h, ?_⟩
  intro s t ev i e p due he hstate hp hdue ht
  have hindex := State.entryAt_index he
  rw [meetEvent_armed he hstate hp] at ht
  refine ⟨fun hmismatch => ?_, fun hstation hinput hedge htime => ?_⟩
  · rw [if_neg] at ht
    · exact ht
    · rw [EventPart.matchesEvent_iff]
      rintro ⟨hstation, hinput, hedge, htime⟩
      rcases hmismatch with h | h | ⟨h, h'⟩ | ⟨h, h'⟩ | h
      · exact h hstation
      · exact h hinput
      · simp [h, h'] at hedge
      · simp [h, h'] at hedge
      · omega
  · rw [if_pos (EventPart.matchesEvent_iff.mpr ⟨hstation, hinput, hedge, htime⟩), matchEntry, ← hdue] at ht
    refine ⟨fun hahead hnear => ?_, fun hpassed => ?_⟩
    · rw [if_pos (dueAhead_iff.mpr ⟨hahead, hnear⟩)] at ht
      subst ht
      have hentry : ∀ j, (scheduleEntry e due s).entryAt j = if j = i then some (e.scheduledAt due) else s.entryAt j :=
        entryAt_replaceEntry_of (e' := e.scheduledAt due) he (State.entryAt_index (e := e) he)
      exact ⟨(hentry i).trans (if_pos rfl), fun j hj => (hentry j).trans (if_neg hj), changes_replaceEntry _ s⟩
    · rw [if_neg fun h => by
        obtain ⟨hahead, hnear⟩ := dueAhead_iff.mp h
        omega] at ht
      refine ⟨fun hpolicy => ?_, fun hpolicy => ?_, fun hpolicy => ?_⟩
      · rw [ht, lateMatch, hpolicy]
      · rw [lateMatch, hpolicy] at ht
        dsimp only at ht
        subst ht
        obtain ⟨hleaves, hstays⟩ := finishRun_spec .late s.now (.refl s) he
        refine ⟨fun hfires => hleaves (.inr ⟨p, hp, hfires⟩), fun hfires hexpired => (hstays p hp hfires).1 hexpired,
          fun hfires hreached hahead => ?_, fun j hj => entryAt_finishRun_of_ne (hindex ▸ hj), changes_finishRun e .late _ s⟩
        obtain ⟨hhost, hexchange, hentry⟩ := (hstays p hp hfires).2 hreached hahead
        refine ⟨hhost, hexchange, hentry.trans ?_⟩
        rw [Entry.rearmed, ← hstate]
      · rw [lateMatch, hpolicy] at ht
        dsimp only at ht
        have hentry : ∀ j, (replaceEntry e.withFullCount s).entryAt j = if j = i then some e.withFullCount else s.entryAt j :=
          entryAt_replaceEntry_of (e' := e.withFullCount) he (State.entryAt_index (e := e) he)
        exact ⟨_, hindex ▸ ht, (hentry i).trans (if_pos rfl), fun j hj => (hentry j).trans (if_neg hj),
          changes_replaceEntry _ s⟩

/-! ### AMEND (R122 to R125) -/

section
variable {s : State} {e : Entry} {delta : BitVec 24}

theorem amendEntry_armed (hstate : e.state = .armed) : amendEntry e delta s = amendArmed e delta s := by
  simp only [amendEntry, hstate]

theorem amendEntry_scheduled {x : Time} (hstate : e.state = .scheduled) (hedge : e.nextEdge = some x) :
    amendEntry e delta s =
      if passed (x + deltaTicks delta) s.now = true then
        requestStart e.index s.now (replaceEntry { e with nextEdge := some (x + deltaTicks delta) } s)
      else replaceEntry { e with nextEdge := some (x + deltaTicks delta) } s := by
  simp only [amendEntry, hstate, amendScheduled, hedge]

theorem amendEntry_pulse (hstate : e.state = .running) (htrain : e.train = none) :
    amendEntry e delta s = amendPulse e delta s := by
  simp only [amendEntry, hstate, htrain, Option.isSome_none, Bool.false_eq_true, if_false]

theorem amendEntry_train {tr : TrainPart} (hstate : e.state = .running) (htrain : e.train = some tr) :
    amendEntry e delta s = amendTrain e delta s := by
  simp only [amendEntry, hstate, htrain, Option.isSome_some, if_true]

/-- The end that an AMEND gives a PULSE or a hold. -/
theorem amendPulse_moves {newEnd : Time} (h : (∃ x, e.nextEdge = some x ∧ newEnd = x + deltaTicks delta) ∨
    (e.nextEdge = none ∧ e.aged = false ∧ 0 < delta.toInt ∧ ∃ x, e.lastStart = some x ∧ newEnd = x + deltaTicks delta)) :
    amendPulse e delta s =
      if passed newEnd s.now = true then takeEnd e.index s.now s else replaceEntry { e with nextEdge := some newEnd } s := by
  rcases h with ⟨x, hedge, rfl⟩ | ⟨hedge, haged, hdelta, x, hstart, rfl⟩
  · simp only [amendPulse, hedge]
  · have hend : e.holdEnd delta = some (x + deltaTicks delta) := by
      rw [Entry.holdEnd, haged, decide_eq_false (Int.not_le.mpr hdelta), Bool.or_false, if_neg Bool.false_ne_true, hstart]
      rfl
    simp only [amendPulse, hedge, hend]

theorem amendPulse_ends (hedge : e.nextEdge = none) (h : e.aged = true ∨ delta.toInt ≤ 0) :
    amendPulse e delta s = takeEnd e.index s.now s := by
  have hend : e.holdEnd delta = none := if_pos (by
    rw [Bool.or_eq_true, decide_eq_true_eq]
    exact h)
  simp only [amendPulse, hedge, hend]

theorem shiftedTrain_eq {tr : TrainPart} {x : Time} (htrain : e.train = some tr) (hedge : e.nextEdge = some x) :
    e.shiftedTrain delta = { e with
      nextEdge := some (x + deltaTicks delta)
      train := some { tr with followingStart := tr.followingStart.map fun y => y + deltaTicks delta } } := by
  rw [Entry.shiftedTrain, htrain, hedge]
  rfl

theorem amendTrain_ahead {x : Time} (hedge : e.nextEdge = some x) (h : passed (x + deltaTicks delta) s.now = false) :
    amendTrain e delta s = replaceEntry (e.shiftedTrain delta) s := by
  have hnext : (e.shiftedTrain delta).nextEdge = some (x + deltaTicks delta) := by
    rw [Entry.shiftedTrain, hedge]
    rfl
  simp only [amendTrain, hnext, h, Bool.false_eq_true, if_false]

theorem amendTrain_passed {x : Time} (hedge : e.nextEdge = some x) (h : passed (x + deltaTicks delta) s.now = true) :
    amendTrain e delta s =
      if e.active = true then
        startPhaseIfPassed e.index (takeEnd e.index s.now (replaceEntry (e.shiftedTrain delta) s))
      else startPhase e.index s.now (replaceEntry (e.shiftedTrain delta) s) := by
  have hnext : (e.shiftedTrain delta).nextEdge = some (x + deltaTicks delta) := by
    rw [Entry.shiftedTrain, hedge]
    rfl
  simp only [amendTrain, hnext, h, if_true]

theorem startPhaseIfPassed_between {i : Index} {x : Time} (he : s.entryAt i = some e) (hstate : e.state = .running)
    (hactive : e.active = false) (hedge : e.nextEdge = some x) :
    startPhaseIfPassed i s = if passed x s.now = true then startPhase i s.now s else s := by
  simp only [startPhaseIfPassed, he, hstate, hactive, hedge]

theorem startPhaseIfPassed_other {i : Index} (h : ∀ e, s.entryAt i = some e → e.state ≠ .running) :
    startPhaseIfPassed i s = s := by
  unfold startPhaseIfPassed
  split
  · rename_i e he
    split
    · rename_i hrunning _ _
      exact absurd hrunning (h e he)
    · rfl
  · rfl

/-- A finished run leaves no RUNNING entry at its index. -/
theorem finishRun_not_running {i : Index} (o : EntryOutcome) (x : Time) (he : s.entryAt i = some e) :
    ∀ y, (finishRun e o x s).entryAt i = some y → y.state ≠ .running := by
  have hindex := State.entryAt_index he
  have hgone : ∀ o' y, (depart e o' s).entryAt i = some y → y.state ≠ .running := fun o' y hy => by
    rw [entryAt_depart, if_pos hindex.symm] at hy
    cases hy
  intro y hy
  cases hp : e.event with
  | none =>
    rw [finishRun_absolute o x s hp] at hy
    exact hgone o y hy
  | some p =>
    by_cases hfires : p.fires = 1
    · rw [finishRun_lastFire o x s hp hfires] at hy
      exact hgone o y hy
    · rw [finishRun_rearms o x s hp hfires, returnToArmed] at hy
      split at hy
      · exact hgone .expired y hy
      · rw [entryAt_replaceEntry_of he (by exact hindex), if_pos rfl] at hy
        cases hy
        exact nofun

theorem entryAt_leave (e : Entry) (o : EntryOutcome) (s : State) (j : Index) :
    (leave e o s).entryAt j = if j = e.index then none else s.entryAt j := by
  rw [leave, entryAt_depart, State.entryAt, (changes_releaseChannel e.channel e.index s).table_eq]
  rfl

end

/-- Settles O40, by the state of the subject. -/
theorem amendMovesEdgesAndCancelRemoves : Obligations.AmendMovesEdgesAndCancelRemoves := by
  constructor
  · intro s t e delta δ he ht hδ
    subst hδ
    have hreplaced : ∀ e' : Entry, e'.index = e.index → ∀ j,
        (replaceEntry e' s).entryAt j = if j = e.index then some e' else s.entryAt j := fun e' h =>
      entryAt_replaceEntry_of he h
    refine ⟨fun p hstate hp => ?_, fun x hstate hedge => ?_, fun newEnd hstate htrain hmoves => ⟨fun hpassed => ?_,
      fun hahead => ?_⟩, fun hstate htrain hedge hends => ?_, fun tr x hstate htrain hedge => ?_⟩
    · have hamended : t = replaceEntry { e with event := some { p with delay := p.delay + delta } } s := by
        rw [ht, amendEntry_armed hstate, amendArmed, hp]
        rfl
      subst hamended
      exact ⟨(hreplaced _ (by rfl) _).trans (if_pos rfl), fun j hj => (hreplaced _ (by rfl) j).trans (if_neg hj),
        changes_replaceEntry _ s⟩
    · rw [amendEntry_scheduled hstate hedge] at ht
      refine ⟨_, (hreplaced { e with nextEdge := some (x + deltaTicks delta) } rfl _).trans (if_pos rfl),
        fun j hj => (hreplaced _ (by rfl) j).trans (if_neg hj), changes_replaceEntry _ s, fun hahead => ?_, fun hpassed => ?_⟩
      · exact ht.trans (if_neg fun h => Bool.false_ne_true (hahead.symm.trans h))
      · exact ht.trans (if_pos hpassed)
    · rw [ht, amendEntry_pulse hstate htrain, amendPulse_moves hmoves, if_pos hpassed]
    · have hamended : t = replaceEntry { e with nextEdge := some newEnd } s := by
        rw [ht, amendEntry_pulse hstate htrain, amendPulse_moves hmoves, hahead, if_neg Bool.false_ne_true]
      subst hamended
      exact ⟨(hreplaced _ (by rfl) _).trans (if_pos rfl), fun j hj => (hreplaced _ (by rfl) j).trans (if_neg hj),
        changes_replaceEntry _ s⟩
    · rw [ht, amendEntry_pulse hstate htrain, amendPulse_ends hedge hends]
    · rw [amendEntry_train hstate htrain] at ht
      have hshifted := shiftedTrain_eq (delta := delta) htrain hedge
      have hmoved := hreplaced (e.shiftedTrain delta) rfl
      have hself : (replaceEntry (e.shiftedTrain delta) s).entryAt e.index = some (e.shiftedTrain delta) :=
        (hmoved _).trans (if_pos rfl)
      refine ⟨replaceEntry (e.shiftedTrain delta) s, hself.trans (congrArg some hshifted),
        fun j hj => (hmoved j).trans (if_neg hj), changes_replaceEntry _ s, fun hahead => ?_,
        fun hpassed => ⟨fun hidle => ?_, fun hactive hlast => ?_, fun y hactive hfollowing => ?_⟩⟩
      · rw [ht, amendTrain_ahead hedge hahead]
      · rw [ht, amendTrain_passed hedge hpassed, hidle, if_neg Bool.false_ne_true]
      · have hnone : (e.shiftedTrain delta).followingStart = none := by
          rw [hshifted, Entry.followingStart, hlast]
          rfl
        rw [ht, amendTrain_passed hedge hpassed, if_pos hactive, takeEnd_closes _ hself hnone]
        refine startPhaseIfPassed_other (finishRun_not_running _ _ ?_)
        rw [State.entryAt, (changes_releaseChannel _ _ _).table_eq]
        exact hself
      · have hnext : (e.shiftedTrain delta).followingStart = some (y + deltaTicks delta) := by
          rw [hshifted, Entry.followingStart, hfollowing]
          rfl
        rw [ht, amendTrain_passed hedge hpassed, if_pos hactive]
        have hend : (takeEnd e.index s.now (replaceEntry (e.shiftedTrain delta) s)).entryAt e.index =
            some ((e.shiftedTrain delta).betweenPhases (y + deltaTicks delta)) := by
          rw [takeEnd_betweenPhases _ hself hnext]
          exact (entryAt_replaceEntry_of (e' := (e.shiftedTrain delta).betweenPhases (y + deltaTicks delta)) hself rfl _).trans
            (if_pos rfl)
        have hnow : (takeEnd e.index s.now (replaceEntry (e.shiftedTrain delta) s)).now = s.now :=
          congrArg CycleUnit.lineTime (changes_takeEnd _ _ _).cycle_eq
        rw [startPhaseIfPassed_between hend hstate rfl rfl, hnow]
        rfl
  · intro s e he
    have hchannel := leave_channel e .cancelled s
    have hreports := leave_sameReports e .cancelled s
    refine ⟨(entryAt_leave e _ s _).trans (if_pos rfl), fun j hj => (entryAt_leave e _ s j).trans (if_neg hj),
      fun howner => ⟨(hchannel _).trans (if_pos ⟨rfl, howner⟩), fun n hn => (hchannel n).trans (if_neg fun h => hn h.1.symm)⟩,
      fun hother => ?_, hreports.host, hreports.exchange, changes_cancelEntry e s⟩
    rw [cancelEntry, leave, releaseChannel_other hother, depart_channels]

end Sys2Proof.Machine
end

