-- ==== Sys2Proof/Proofs/TableSteps.lean ====
section
/-! A step of line time at the table (R14, R15, R129): the edges reached are taken one after another, none is left, and what
the table notes by time. -/

namespace Sys2Proof.Machine

-- One thread for the whole file: its many small proofs would otherwise each take a thread's memory.
set_option Elab.async false

/-! ### How much of a pass an entry has still to take -/

/-- The ticks from a pending edge that is reached to the limit, that of the limit counted. -/
def Entry.work (limit : Time) (e : Entry) : Nat :=
  match e.pendingEdge with
  | none => 0
  | some d => if passed d.time limit = true then (limit - d.time).toNat + 1 else 0

section
variable {limit x y : Time} {e : Entry} {d : PendingEdge}

theorem Entry.work_none (h : e.pendingEdge = none) : e.work limit = 0 := by
  simp only [Entry.work, h]

theorem Entry.work_some (h : e.pendingEdge = some d) :
    e.work limit = if passed d.time limit = true then (limit - d.time).toNat + 1 else 0 := by
  simp only [Entry.work, h]

theorem passed_iff {x now : Time} : passed x now = true ↔ (x - now).toNat = 0 ∨ 2 ^ 31 ≤ (x - now).toNat := by
  have hdiffers : x ≠ now ↔ (x - now).toNat ≠ 0 := by bv_omega
  rw [passed, Bool.not_eq_true', ← Bool.not_eq_true, afterTime, atOrAfter, Bool.and_eq_true, decide_eq_true_eq,
    bne_iff_ne, hdiffers]
  omega

theorem afterTime_iff {x y : Time} : afterTime y x = true ↔ 0 < (y - x).toNat ∧ (y - x).toNat < 2 ^ 31 := by
  have hdiffers : y ≠ x ↔ (y - x).toNat ≠ 0 := by bv_omega
  rw [afterTime, atOrAfter, Bool.and_eq_true, decide_eq_true_eq, bne_iff_ne, hdiffers]
  omega

theorem afterTime_of_not_passed (h : passed y x = false) : afterTime y x = true := by
  rw [passed, Bool.not_eq_false'] at h
  exact h

/-- A time after one near the limit is nearer to it, or not reached. -/
theorem passed_after (hnear : (limit - x).toNat ≤ 32) (hafter : afterTime y x = true) (hpassed : passed y limit = true) :
    (limit - y).toNat < (limit - x).toNat := by
  have hafter := afterTime_iff.mp hafter
  have hpassed := passed_iff.mp hpassed
  bv_omega

theorem Entry.work_lt {e' : Entry} (hd : e.pendingEdge = some d) (hpassed : passed d.time limit = true)
    (hnear : e.work limit ≤ 33) (hafter : ∀ d', e'.pendingEdge = some d' → afterTime d'.time d.time = true) :
    e'.work limit < e.work limit := by
  rw [Entry.work_some hd, if_pos hpassed] at hnear ⊢
  cases hd' : e'.pendingEdge with
  | none =>
    rw [Entry.work_none hd']
    exact Nat.succ_pos _
  | some d' =>
    rw [Entry.work_some hd']
    split
    · rename_i hreached
      have hless := passed_after (by omega) (hafter d' hd') hreached
      omega
    · exact Nat.succ_pos _

/-- An entry whose edges follow one another in time, and whose pending edge is near the limit where it is reached. -/
structure Entry.Orderly (limit : Time) (e : Entry) : Prop where
  train : ∀ t ∈ e.train, 0 < e.width.toNat ∧ e.width.toNat < t.period.toNat
  following : ∀ x y, e.nextEdge = some x → e.followingStart = some y → afterTime y x = true
  near : e.work limit ≤ 33

/-! ### The next edge of an entry whose edge was taken lies later -/

theorem toNat_setWidth (w : BitVec 24) : (w.setWidth 32).toNat = w.toNat := by
  have hbound := w.isLt
  simp only [BitVec.toNat_setWidth]
  omega

theorem add_width_after (w : BitVec 24) (hw : w ≠ 0) : afterTime (x + w.setWidth 32) x = true := by
  rw [afterTime_iff]
  have hpositive : 0 < w.toNat := Nat.pos_of_ne_zero fun h => hw (BitVec.eq_of_toNat_eq h)
  have hwide := toNat_setWidth w
  have hbound := w.isLt
  bv_omega

theorem add_period_after (w p : BitVec 24) (h : w.toNat < p.toNat) :
    afterTime (x + p.setWidth 32) (x + w.setWidth 32) = true := by
  rw [afterTime_iff]
  have hw := toNat_setWidth w
  have hp := toNat_setWidth p
  have hbound := p.isLt
  bv_omega

theorem Entry.startedAt_pendingEdge (hd : (e.startedAt x).pendingEdge = some d) : afterTime d.time x = true := by
  have hedge : (e.startedAt x).pendingEdge = (if e.width = 0 then none else some (x + e.width.setWidth 32)).map fun y =>
    { index := e.index, kind := .finish, time := y } := rfl
  rw [hedge] at hd
  split at hd
  · cases hd
  · rename_i hwidth
    cases hd
    exact add_width_after _ hwidth

theorem TrainPart.startAt_followingStart {tr : TrainPart} (h : (tr.startAt x).followingStart = some y) :
    y = x + tr.period.setWidth 32 := by
  unfold TrainPart.startAt at h
  split at h
  · cases h
    rfl
  · split at h
    · cases h
    · cases h
      rfl

theorem Entry.Orderly.startedAt (h : e.Orderly limit) (hwork : (e.startedAt x).work limit ≤ 33) :
    (e.startedAt x).Orderly limit where
  train := fun t ht => by
    obtain ⟨t', ht', rfl⟩ := Option.mem_map.mp ht
    rw [TrainPart.startAt_period]
    exact h.train t' ht'
  following := fun z y hz hy => by
    have hedge : (e.startedAt x).nextEdge = if e.width = 0 then none else some (x + e.width.setWidth 32) := rfl
    rw [hedge] at hz
    have hz' : z = x + e.width.setWidth 32 := by
      split at hz <;> cases hz
      rfl
    obtain ⟨tr, htr, hfollowing⟩ := Option.bind_eq_some_iff.mp hy
    obtain ⟨tr', htr', rfl⟩ := Option.mem_map.mp htr
    rw [hz', TrainPart.startAt_followingStart hfollowing]
    exact add_period_after _ _ (h.train tr' htr').2
  near := hwork

theorem Entry.Orderly.betweenPhases (h : e.Orderly limit) (hwork : (e.betweenPhases y).work limit ≤ 33) :
    (e.betweenPhases y).Orderly limit where
  train := fun t ht => by
    obtain ⟨t', ht', rfl⟩ := Option.mem_map.mp ht
    exact h.train t' ht'
  following := fun _ z _ hz => by
    obtain ⟨tr, htr, hfollowing⟩ := Option.bind_eq_some_iff.mp hz
    obtain ⟨tr', -, rfl⟩ := Option.mem_map.mp htr
    cases hfollowing
  near := hwork

theorem Entry.Orderly.rearmed {p : EventPart} (h : e.Orderly limit) (hwork : (e.rearmed p x).work limit ≤ 33) :
    (e.rearmed p x).Orderly limit where
  train := fun t ht => by
    obtain ⟨t', ht', rfl⟩ := Option.mem_map.mp ht
    exact h.train t' ht'
  following := nofun
  near := hwork

theorem Entry.rearmed_pendingEdge {p : EventPart} (hahead : ∀ y, p.expiry = some y → passed y x = false)
    (hd : (e.rearmed p x).pendingEdge = some d) : afterTime d.time x = true := by
  have hedge : (e.rearmed p x).pendingEdge = p.expiry.map fun y => { index := e.index, kind := .expiry, time := y } := rfl
  rw [hedge] at hd
  obtain ⟨y, hy, rfl⟩ := Option.map_eq_some_iff.mp hd
  exact afterTime_of_not_passed (hahead y hy)

end

/-! ### What taking an edge does to the table -/

/-- The entry of a taken edge has left, or its next edge lies later; at most another entry has left with it. -/
inductive EdgeTaken (limit : Time) (l : List Entry) (e : Entry) : List Entry → Prop
  | gone : EdgeTaken limit l e (l.filter fun x => x.index != e.index)
  | moved (p : Entry → Bool) (e' : Entry) (hindex : e'.index = e.index) (horderly : e'.Orderly limit)
      (hless : e'.work limit < e.work limit) :
      EdgeTaken limit l e ((l.filter p).map fun x => if x.index = e.index then e' else x)

/-- The entries of a table in a pass up to `limit`. -/
structure OrderlyTable (limit : Time) (l : List Entry) : Prop where
  indices : (l.map fun e => e.index).Nodup
  entries : ∀ e ∈ l, e.Orderly limit

section
variable {limit : Time} {s : State} {e : Entry} {d : PendingEdge}

theorem EdgeTaken.replaced {e' : Entry} {u : State} (htable : u.table = s.table) (hindex : e'.index = e.index)
    (horderly : e'.Orderly limit) (hless : e'.work limit < e.work limit) :
    EdgeTaken limit s.table e (replaceEntry e' u).table := by
  have hmoved := EdgeTaken.moved (l := s.table) (fun _ => true) e' hindex horderly hless
  rw [List.filter_eq_self.mpr fun _ _ => rfl] at hmoved
  rw [replaceEntry, State.setTable_table, htable, hindex]
  exact hmoved

theorem EdgeTaken.departed {u : State} (htable : u.table = s.table) (o : EntryOutcome) :
    EdgeTaken limit s.table e (depart e o u).table := by
  rw [depart_table, htable]
  exact .gone

/-- A run that is over at the time of the edge taken. -/
theorem EdgeTaken.finished {u : State} (htable : u.table = s.table) (he : e.Orderly limit) (hd : e.pendingEdge = some d)
    (hpassed : passed d.time limit = true) (o : EntryOutcome) :
    EdgeTaken limit s.table e (finishRun e o d.time u).table := by
  cases hp : e.event with
  | none =>
    rw [finishRun_absolute o _ u hp]
    exact .departed htable o
  | some p =>
    by_cases hfires : p.fires = 1
    · rw [finishRun_lastFire o _ u hp hfires]
      exact .departed htable o
    · by_cases hexpired : p.expiryReached = true ∨ ∃ y, p.expiry = some y ∧ passed y d.time = true
      · rw [finishRun_expires hp hfires hexpired]
        exact .departed htable .expired
      · rw [not_or, Bool.not_eq_true] at hexpired
        obtain ⟨hreached, hahead⟩ := hexpired
        have hahead : ∀ y, p.expiry = some y → passed y d.time = false := fun y hy =>
          Bool.eq_false_iff.mpr fun h => hahead ⟨y, hy, h⟩
        rw [finishRun_returns hp hfires hreached hahead]
        have hless : (e.rearmed p d.time).work limit < e.work limit :=
          Entry.work_lt hd hpassed he.near fun d' => Entry.rearmed_pendingEdge hahead
        exact .replaced htable rfl (he.rearmed (hless.le.trans he.near)) hless

/-- What a granted start, or a phase start, makes of the entry. -/
theorem EdgeTaken.started (he : e.Orderly limit) (hd : e.pendingEdge = some d) (hpassed : passed d.time limit = true)
    (p : Entry → Bool) : EdgeTaken limit s.table e
      ((s.table.filter p).map fun x => if x.index = e.index then e.startedAt d.time else x) := by
  have hless : (e.startedAt d.time).work limit < e.work limit :=
    Entry.work_lt hd hpassed he.near fun d' => Entry.startedAt_pendingEdge
  exact .moved p _ rfl (he.startedAt (hless.le.trans he.near)) hless

theorem preemptOwner_table (o : Index) (s : State) : ∃ p : Entry → Bool, (preemptOwner o s).table = s.table.filter p := by
  unfold preemptOwner
  split
  · exact ⟨fun _ => true, (List.filter_eq_self.mpr fun _ _ => rfl).symm⟩
  · exact ⟨_, depart_table _ _ s⟩

theorem OrderlyTable.entryAt (h : OrderlyTable limit s.table) (he : e ∈ s.table) : s.entryAt e.index = some e := by
  cases hentry : s.entryAt e.index with
  | none => exact absurd (List.find?_eq_none.mp hentry e he) (by simp)
  | some x =>
    rw [List.inj_on_of_nodup_map h.indices (State.entryAt_mem hentry) he (State.entryAt_index hentry)]

theorem Entry.pendingEdge_index (hd : e.pendingEdge = some d) : d.index = e.index := (Entry.pendingEdge_some hd).1

/-- An end, or a phase start, is of a RUNNING entry's next edge. -/
theorem Entry.pendingEdge_finish (hd : e.pendingEdge = some d) (hkind : d.kind = .finish) : e.nextEdge = some d.time := by
  obtain ⟨-, -, -, -, hrunning⟩ := Entry.pendingEdge_some hd
  rw [Entry.pendingEdge, hrunning hkind] at hd
  obtain ⟨x, hx, rfl⟩ := Option.map_eq_some_iff.mp hd
  exact hx

/-- An edge that its entry has pending is taken. -/
theorem takeEdge_taken (h : OrderlyTable limit s.table) (he : e ∈ s.table) (hd : e.pendingEdge = some d)
    (hpassed : passed d.time limit = true) : EdgeTaken limit s.table e (takeEdge d s).table := by
  have horderly := h.entries e he
  have hentry : s.entryAt d.index = some e := by
    rw [Entry.pendingEdge_index hd]
    exact h.entryAt he
  unfold takeEdge
  split
  · rename_i hkind
    cases hfollowing : e.followingStart with
    | none =>
      rw [takeEnd_closes _ hentry hfollowing]
      exact .finished (changes_releaseChannel _ _ s).table_eq horderly hd hpassed _
    | some y =>
      rw [takeEnd_betweenPhases _ hentry hfollowing, (changes_setPhase _ _ _).table_eq]
      have hless : (e.betweenPhases y).work limit < e.work limit := by
        refine Entry.work_lt hd hpassed horderly.near fun d' hd' => ?_
        have hrunning : e.state = .running := (Entry.pendingEdge_some hd).2.2.2.2 hkind
        have hnext : d'.time = y := by
          rw [Entry.pendingEdge, show (e.betweenPhases y).state = .running from hrunning] at hd'
          cases hd'
          rfl
        rw [hnext]
        exact horderly.following _ y (Entry.pendingEdge_finish hd hkind) hfollowing
      exact .replaced rfl rfl (horderly.betweenPhases (hless.le.trans horderly.near)) hless
  · simp only [takeExpiry, hentry]
    exact .departed rfl _
  · cases howner : (s.channel e.channel).owner with
    | none =>
      rw [requestStart_free _ hentry howner]
      have hstarted := EdgeTaken.started (s := s) horderly hd hpassed (fun _ => true)
      rw [List.filter_eq_self.mpr fun _ _ => rfl] at hstarted
      exact hstarted
    | some o =>
      cases hpreempt : e.preempt with
      | false =>
        rw [requestStart_refused _ hentry howner hpreempt]
        exact .finished rfl horderly hd hpassed _
      | true =>
        rw [requestStart_preempts _ hentry howner hpreempt]
        obtain ⟨p, hp⟩ := preemptOwner_table o s
        have hstarted := EdgeTaken.started (s := s) horderly hd hpassed p
        rw [← hp] at hstarted
        exact hstarted
  · rw [startPhase_of _ hentry]
    have hstarted := EdgeTaken.started (s := s) horderly hd hpassed (fun _ => true)
    rw [List.filter_eq_self.mpr fun _ _ => rfl] at hstarted
    exact hstarted

end

/-! ### The pass ends with no reached edge left -/

section
variable {limit : Time} {l l' : List Entry} {e : Entry}

/-- The work a table has still to do. -/
def tableWork (limit : Time) (l : List Entry) : Nat := (l.map (Entry.work limit)).sum

theorem tableWork_filter (p : Entry → Bool) (l : List Entry) : tableWork limit (l.filter p) ≤ tableWork limit l :=
  (List.filter_sublist.map _).sum_le_sum fun _ _ => Nat.zero_le _

theorem EdgeTaken.orderly (h : EdgeTaken limit l e l') (hl : OrderlyTable limit l) : OrderlyTable limit l' := by
  cases h with
  | gone => exact ⟨hl.indices.sublist (List.filter_sublist.map _), fun x hx => hl.entries x (List.mem_filter.mp hx).1⟩
  | moved p e' hindex horderly hless =>
    constructor
    · rw [List.map_map]
      have hsame : (fun x : Entry => x.index) ∘ (fun x : Entry => if x.index = e.index then e' else x) =
          fun x : Entry => x.index := funext fun x => by
        change (if x.index = e.index then e' else x).index = x.index
        split
        · rename_i h
          exact hindex.trans h.symm
        · rfl
      rw [hsame]
      exact hl.indices.sublist (List.filter_sublist.map _)
    · intro y hy
      obtain ⟨x, hx, rfl⟩ := List.mem_map.mp hy
      split
      · exact horderly
      · exact hl.entries x (List.mem_filter.mp hx).1

theorem tableWork_filter_add {p : Entry → Bool} (he : e ∈ l) (hp : p e = false) :
    tableWork limit (l.filter p) + e.work limit ≤ tableWork limit l := by
  induction l with
  | nil => cases he
  | cons x l ih =>
    have hcons : tableWork limit (x :: l) = x.work limit + tableWork limit l := rfl
    rcases List.mem_cons.mp he with rfl | he
    · rw [List.filter_cons_of_neg (by rw [hp]; exact Bool.false_ne_true), hcons, Nat.add_comm]
      exact Nat.add_le_add_left (tableWork_filter p l) _
    · have hrest := ih he
      by_cases hx : p x = true
      · have hkept : tableWork limit (x :: l.filter p) = x.work limit + tableWork limit (l.filter p) := rfl
        rw [List.filter_cons_of_pos hx, hcons, hkept]
        omega
      · rw [List.filter_cons_of_neg hx, hcons]
        omega

theorem EdgeTaken.work_lt (h : EdgeTaken limit l e l') (hl : OrderlyTable limit l) (he : e ∈ l)
    (hreached : 0 < e.work limit) : tableWork limit l' < tableWork limit l := by
  cases h with
  | gone =>
    have hless := tableWork_filter_add (limit := limit) (p := fun x => x.index != e.index) he (by simp)
    omega
  | moved p e' hindex horderly hless =>
    have hwork : tableWork limit ((l.filter p).map fun x => if x.index = e.index then e' else x) =
        ((l.filter p).map fun x => (if x.index = e.index then e' else x).work limit).sum := by
      rw [tableWork, List.map_map]
      rfl
    have hself : ∀ x ∈ l.filter p, x.index = e.index → x = e := fun x hx =>
      List.inj_on_of_nodup_map hl.indices (List.mem_filter.mp hx).1 he
    have hle : ∀ x ∈ l.filter p, (if x.index = e.index then e' else x).work limit ≤ x.work limit := fun x hx => by
      split
      · rename_i h
        rw [hself x hx h]
        exact hless.le
      · exact le_refl _
    rw [hwork]
    by_cases hp : p e = true
    · refine lt_of_lt_of_le (List.sum_lt_sum _ _ hle ⟨e, List.mem_filter.mpr ⟨he, hp⟩, ?_⟩) (tableWork_filter p l)
      rw [if_pos rfl]
      exact hless
    · have hrest := tableWork_filter_add (limit := limit) he (Bool.not_eq_true _ ▸ hp)
      have hsum := List.sum_le_sum hle
      rw [tableWork] at hrest
      omega

theorem work_pos {d : PendingEdge} (hd : e.pendingEdge = some d) (hpassed : passed d.time limit = true) :
    0 < e.work limit := by
  rw [Entry.work_some hd, if_pos hpassed]
  exact Nat.succ_pos _

/-- With fuel for the work of the table, the pass ends with no reached edge left. -/
theorem takeEdges_none_left (fuel : Nat) {s : State} (hs : OrderlyTable limit s.table)
    (hfuel : tableWork limit s.table ≤ fuel) : (takeEdges limit fuel s).nextDueEdge limit = none := by
  induction fuel generalizing s with
  | zero =>
    cases hnext : s.nextDueEdge limit with
    | none => exact hnext
    | some d =>
      obtain ⟨⟨e, he, hd⟩, hpassed⟩ := State.nextDueEdge_spec hnext
      have hle : e.work limit ≤ tableWork limit s.table := List.le_sum_of_mem (List.mem_map.mpr ⟨e, he, rfl⟩)
      have hpos := work_pos hd hpassed
      omega
  | succ fuel ih =>
    cases hnext : s.nextDueEdge limit with
    | none => simp only [takeEdges, hnext]
    | some d =>
      obtain ⟨⟨e, he, hd⟩, hpassed⟩ := State.nextDueEdge_spec hnext
      have htaken := takeEdge_taken hs he hd hpassed
      have hless := htaken.work_lt hs he (work_pos hd hpassed)
      simp only [takeEdges, hnext]
      exact ih (htaken.orderly hs) (by omega)

end

/-- A state, and those after it. -/
def statesFrom (s : State) (f : Nat → State) : Nat → State
  | 0 => s
  | m + 1 => f m

/-- The pass takes next due edges one after another. -/
theorem takeEdges_run (limit : Time) (fuel : Nat) (s : State) : ∃ (n : Nat) (f : Nat → State), f 0 = s ∧
    (∀ m, m < n → ∃ d, (f m).nextDueEdge limit = some d ∧ f (m + 1) = takeEdge d (f m)) ∧ takeEdges limit fuel s = f n := by
  induction fuel generalizing s with
  | zero => exact ⟨0, fun _ => s, rfl, fun _ h => absurd h (Nat.not_lt_zero _), rfl⟩
  | succ fuel ih =>
    cases hnext : s.nextDueEdge limit with
    | none => exact ⟨0, fun _ => s, rfl, fun _ h => absurd h (Nat.not_lt_zero _), by simp only [takeEdges, hnext]⟩
    | some d =>
      obtain ⟨n, f, hfirst, hsteps, hlast⟩ := ih (takeEdge d s)
      refine ⟨n + 1, statesFrom s f, rfl, fun m hm => ?_, by simp only [takeEdges, hnext]; exact hlast⟩
      cases m with
      | zero => exact ⟨d, hnext, hfirst⟩
      | succ m => exact hsteps m (Nat.lt_of_succ_lt_succ hm)

/-- The table before a step of at most 32 ticks, where no edge before the old line time was left untaken. -/
theorem orderlyTable_of {v σ : Time} {s : State} (hpositive : 0 < σ.toInt) (hsmall : σ.toInt ≤ 32) (htable : TableOk s)
    (hleft : ∀ e ∈ s.table, ∀ d, e.pendingEdge = some d → passed d.time v = true → d.time = v)
    (hfollowing : ∀ e ∈ s.table, ∀ x y, e.nextEdge = some x → e.followingStart = some y → afterTime y x = true) :
    OrderlyTable (v + σ) s.table ∧ ∀ e ∈ s.table, e.work (v + σ) ≤ σ.toInt.natAbs + 1 := by
  obtain ⟨hindices, -, hok⟩ := htable
  have hσ : σ.toNat = σ.toInt.natAbs ∧ σ.toNat ≤ 32 := by
    rw [BitVec.toInt_eq_toNat_cond] at *
    split at hpositive <;> omega
  have hwork : ∀ e ∈ s.table, e.work (v + σ) ≤ σ.toInt.natAbs + 1 := fun e he => by
    cases hd : e.pendingEdge with
    | none =>
      rw [Entry.work_none hd]
      exact Nat.zero_le _
    | some d =>
      rw [Entry.work_some hd, ← hσ.1]
      have hlimit : v + σ - v = σ := by bv_omega
      split
      · rename_i hreached
        by_cases hold : passed d.time v = true
        · rw [hleft e he d hd hold, hlimit]
        · have hafter := afterTime_of_not_passed (Bool.not_eq_true _ ▸ hold)
          have hless := passed_after (limit := v + σ) (by rw [hlimit]; exact hσ.2) hafter hreached
          rw [hlimit] at hless
          omega
      · exact Nat.zero_le _
  refine ⟨⟨hindices, fun e he => ⟨(hok e he).2.2.2.2.2, hfollowing e he, ?_⟩⟩, hwork⟩
  have hbound := hwork e he
  omega

theorem tableWork_le {limit : Time} {l : List Entry} {n : Nat} (h : ∀ e ∈ l, e.work limit ≤ n) :
    tableWork limit l ≤ l.length * n := by
  have hle := List.sum_le_card_nsmul (l.map (Entry.work limit)) n fun x hx => by
    obtain ⟨e, he, rfl⟩ := List.mem_map.mp hx
    exact h e he
  rwa [List.length_map, smul_eq_mul] at hle

/-! ### The edges left at the old line time (R15, R110) -/

section
variable {v : Time} {s : State}

/-- The pending edges of a time, in acceptance order. -/
def State.pendingAt (s : State) (v : Time) : List PendingEdge :=
  (s.table.filterMap Entry.pendingEdge).filter fun d => d.time == v

theorem edgesAt_eq (v : Time) (s : State) : s.edgesAt v =
    ((s.pendingAt v).filter fun d => d.kind.rank == 0) ++ ((s.pendingAt v).filter fun d => d.kind.rank == 1) ++
      (s.pendingAt v).filter fun d => d.kind.rank == 2 := by
  simp only [State.edgesAt, State.pendingAt, List.flatMap_cons, List.flatMap_nil, List.append_nil, List.append_assoc]

theorem EdgeKind.rank_cases (k : EdgeKind) : k.rank = 0 ∨ k.rank = 1 ∨ k.rank = 2 := by
  cases k <;> decide

theorem mem_edgesAt {d : PendingEdge} : d ∈ s.edgesAt v ↔ d.time = v ∧ ∃ e ∈ s.table, e.pendingEdge = some d := by
  have hrank := EdgeKind.rank_cases d.kind
  rw [edgesAt_eq, List.mem_append, List.mem_append, List.mem_filter, List.mem_filter, List.mem_filter, beq_iff_eq,
    beq_iff_eq, beq_iff_eq, ← and_or_left, ← and_or_left, or_assoc, and_iff_left hrank, State.pendingAt, List.mem_filter,
    List.mem_filterMap, beq_iff_eq, and_comm]

theorem filter_rank_filter (l : List PendingEdge) (a b : Nat) :
    ((l.filter fun d => d.kind.rank == a).filter fun d => d.kind.rank == b) =
      if a = b then l.filter fun d => d.kind.rank == b else [] := by
  rw [List.filter_filter]
  split
  · rename_i h
    rw [h]
    exact List.filter_congr fun d _ => Bool.and_self _
  · rename_i h
    refine List.filter_eq_nil_iff.mpr fun d _ hd => h ?_
    rw [Bool.and_eq_true, beq_iff_eq, beq_iff_eq] at hd
    exact hd.2.symm.trans hd.1

theorem edgesAt_filter (rank : Nat) : ((s.edgesAt v).filter fun d => d.kind.rank == rank) =
    (s.pendingAt v).filter fun d => d.kind.rank == rank := by
  rw [edgesAt_eq, List.filter_append, List.filter_append, filter_rank_filter, filter_rank_filter, filter_rank_filter]
  by_cases h0 : 0 = rank
  · subst h0
    simp
  · by_cases h1 : 1 = rank
    · subst h1
      simp
    · by_cases h2 : 2 = rank
      · subst h2
        simp
      · rw [if_neg h0, if_neg h1, if_neg h2]
        refine (List.filter_eq_nil_iff.mpr fun d _ hd => ?_).symm
        have hrank := EdgeKind.rank_cases d.kind
        rw [beq_iff_eq] at hd
        omega

theorem edgesAt_sorted : (s.edgesAt v).Pairwise fun a b => a.kind.rank ≤ b.kind.rank := by
  have hconst : ∀ a : Nat, ((s.pendingAt v).filter fun d => d.kind.rank == a).Pairwise fun a b => a.kind.rank ≤ b.kind.rank :=
    fun a => List.pairwise_iff_forall_sublist.mpr fun {x y} h => by
      have hx := (List.mem_filter.mp (h.subset List.mem_cons_self)).2
      have hy := (List.mem_filter.mp (h.subset (List.mem_cons_of_mem _ List.mem_cons_self))).2
      rw [beq_iff_eq] at hx hy
      omega
  rw [edgesAt_eq, List.pairwise_append, List.pairwise_append]
  refine ⟨⟨hconst 0, hconst 1, fun x hx y hy => ?_⟩, hconst 2, fun x hx y hy => ?_⟩
  · have hx := (List.mem_filter.mp hx).2
    rw [beq_iff_eq] at hx
    omega
  · have hy := (List.mem_filter.mp hy).2
    rw [beq_iff_eq] at hy
    have hrank := EdgeKind.rank_cases x.kind
    omega

end

/-! ### What the table notes by time, entry by entry (R114, R115, R124) -/

section
variable {now : Time} {s : State} {i : Index} {e : Entry}

theorem entryAt_ageArmTimes (now : Time) (he : s.entryAt i = some e) :
    (ageArmTimes now s).entryAt i = some (if e.armTimeDue now = true then e.ageArmTime now else e) := by
  rw [ageArmTimes, entryAt_whereDue _ (f := Entry.ageArmTime now) fun _ => rfl, he]
  rfl

/-- The notes of an entry that are no ageing of its arm time. -/
def Entry.noted (now : Time) (e : Entry) : Entry :=
  let e := if e.expiryToNote now = true then e.noteExpiry else e
  if e.holdToAge now = true then e.noteAged else e

theorem entryAt_noteTimes (now : Time) (he : s.entryAt i = some e) :
    (noteTimes now s).entryAt i =
      some (if (e.noted now).armTimeDue now = true then (e.noted now).ageArmTime now else e.noted now) := by
  have hnoted : (whereDue (Entry.holdToAge now) Entry.noteAged
      (whereDue (Entry.expiryToNote now) Entry.noteExpiry s)).entryAt i = some (e.noted now) := by
    rw [entryAt_whereDue _ (f := Entry.noteAged) fun _ => rfl, entryAt_whereDue _ (f := Entry.noteExpiry) fun _ => rfl, he]
    rfl
  exact entryAt_ageArmTimes now hnoted

theorem Entry.noted_armed (hstate : e.state = .armed) : e.noted now = e := by
  have hexpiry : e.expiryToNote now = false := by
    simp only [Entry.expiryToNote, hstate]
  have hhold : e.holdToAge now = false := by
    simp only [Entry.holdToAge, hstate]
  simp only [Entry.noted, hexpiry, hhold, Bool.false_eq_true, if_false]

theorem Entry.noted_unarmed (hstate : e.state ≠ .armed) : e.noted now = { e with
    aged := e.aged || (decide (e.state = .running ∧ e.nextEdge = none) &&
      e.lastStart.any fun x => atOrAfter now (x + BitVec.ofNat 32 (2 ^ 30)))
    event := e.event.map fun p => { p with expiryReached := p.expiryReached || p.expiry.any fun x => passed x now } } := by
  unfold Entry.noted
  rw [Entry.noteExpiry_eq hstate]
  exact Entry.noteAged_eq

end

/-- Settles O17: the pass of a positive step with its fuel, the edges left before a negative one, and the notes. -/
theorem stepTakesTheReachedEdgesInOrder : Obligations.StepTakesTheReachedEdgesInOrder := by
  refine ⟨fun v σ left s hpositive hsmall => ?_, fun v σ left s hnegative => ?_,
    fun v s => ⟨fun d => mem_edgesAt, edgesAt_sorted, fun rank => ?_⟩, fun s i x => ⟨rfl, rfl, rfl, rfl⟩,
    fun now s i e he => ⟨fun p hstate hp => ?_, fun hstate => ?_, changes_noteTimes now s, changes_ageArmTimes now s⟩⟩
  · obtain ⟨n, f, hfirst, hsteps, hlast⟩ := takeEdges_run (v + σ) (edgeFuel s σ) s
    refine ⟨n, f, hfirst, hsteps, by rw [tableStep_forward left s hpositive, hlast], fun htable hleft hfollowing => ?_⟩
    obtain ⟨horderly, hwork⟩ := orderlyTable_of hpositive hsmall htable hleft hfollowing
    rw [← hlast]
    refine takeEdges_none_left _ horderly ((tableWork_le hwork).trans (Nat.mul_le_mul_left _ ?_))
    omega
  · rw [tableStep_back left s hnegative.le]
    rfl
  · rw [edgesAt_filter, State.pendingAt, List.filter_filter]
    exact List.filter_congr fun d _ => Bool.and_comm _ _
  · rw [entryAt_noteTimes now he, Entry.noted_armed hstate, entryAt_ageArmTimes now he, Entry.ageArmTime_armed hstate hp]
    refine ⟨rfl, ?_⟩
    split <;> rfl
  · have harmed : ∀ x : Entry, x.state = e.state → x.armTimeDue now = false := fun x hx =>
      Entry.armTimeDue_unarmed (hx ▸ hstate)
    have hnoted : e.noted now = _ := Entry.noted_unarmed hstate
    have hstate' : (e.noted now).state = e.state := (congrArg Entry.state hnoted :)
    rw [entryAt_noteTimes now he, harmed _ hstate', hnoted, entryAt_ageArmTimes now he, harmed e rfl]
    exact ⟨rfl, rfl⟩

end Sys2Proof.Machine
end

