-- ==== Sys2Proof/Proofs/OwnFrame.lean ====
section
/-! The own frame on the line (R30 to R34, R38, R160) and marks (R7, R8, R32, R48). -/

namespace Sys2Proof.Machine

-- One thread for the whole file: its many small proofs would otherwise each take a thread's memory.
set_option Elab.async false

/-! ### A collided own slot (R33) -/

section
variable {s : State}

/-- The own slot judged collided, counted and noticed, before what a second collision does. -/
def countCollision (n : Nat) (s : State) : State :=
  collisionNotice ((s.setLine { s.line with ownSlot := .collided }).setLink { s.link with collisionCount := n + 1 })

theorem judgeCollided_first (s : State) : judgeCollided 0 s = countCollision 0 s := rfl

theorem judgeCollided_second {n : Nat} (hn : 1 ≤ n) (s : State) :
    judgeCollided n s = enterListen .collision none 0 (countCollision n s) :=
  if_pos (Nat.succ_le_succ hn)

theorem changes_countCollision (n : Nat) (s : State) : Changes [.link, .line, .host] s (countCollision n s) :=
  ((changes_setLine s _).then (ds := [.link, .line]) (changes_setLink _ _)).then (changes_queueNotice _ _)

theorem countCollision_link (n : Nat) (s : State) :
    (countCollision n s).link = { s.link with collisionCount := n + 1 } := queueNotice_link _ _

theorem countCollision_line (n : Nat) (s : State) :
    (countCollision n s).line = { s.line with ownSlot := .collided } := queueNotice_line _ _

theorem countCollision_host (n : Nat) {s u : State} (hnow : s.now = u.now) (hhost : s.host = u.host) :
    (countCollision n s).host = (queueNotice
      { kind := .collision, time := u.now, station := none, number := none, code := 0, value := none } u).host := by
  rw [← hnow]
  exact queueNotice_host_congr _ hhost

/-- The second collision in a row sends a transmitting station to LISTEN (R33, R34). -/
theorem judgeCollided_listens {n : Nat} (hn : 1 ≤ n) (htransmits : s.link.state.transmits = true) :
    (judgeCollided n s).link = { s.link with
        state := .listen, listenTimer := some s.listenTime, announced := false, newCountdown := 0, confirmationCount := 0,
        silenceCount := 0, collisionCount := 0 } ∧
      (judgeCollided n s).cycle =
        { s.cycle with running := false, slotIndex := none, slotZeroAwaited := false, samples := [] } ∧
      (judgeCollided n s).line = { s.line with frame := none, ownSlot := .unjudged, ending := none } ∧
      ∀ k, (judgeCollided n s).peer k = { s.peer k with slotNote := none } := by
  have hcount := changes_countCollision n s
  rw [judgeCollided_second hn, enterListen_link, enterListen_cycle, enterListen_line, countCollision_link,
    countCollision_line, hcount.cycle_eq, listenTime_congr hcount.straps_eq, if_pos htransmits]
  refine ⟨rfl, rfl, rfl, fun k => ?_⟩
  rw [enterListen_peer, State.peer, hcount.members_eq]
  rfl

theorem judgeCollided_host {n : Nat} (hn : 1 ≤ n) {u : State} (hnow : s.now = u.now) (hhost : s.host = u.host) :
    (judgeCollided n s).host = (queueNotice
      { kind := .link, time := u.now, station := none, number := none, code := 0x19, value := none }
      (queueNotice { kind := .collision, time := u.now, station := none, number := none, code := 0, value := none }
        u)).host := by
  have hcount := countCollision_host n hnow hhost
  have hlater : (countCollision n s).now = (queueNotice
      { kind := .collision, time := u.now, station := none, number := none, code := 0, value := none } u).now := by
    rw [State.now, (changes_countCollision n s).cycle_eq, State.now, queueNotice_cycle]
    exact hnow
  have hlisten := enterListen_host (c := 0x19) .collision none 0 hlater hcount (by decide)
  rw [judgeCollided_second hn, hlisten, State.now, queueNotice_cycle]
  rfl

end

/-! ### The own frame goes out (R30, R38) -/

theorem lde_high {s : State} {f : OwnFrame} (hframe : s.line.frame = some f) (hout : f.remaining.isSome = true) :
    s.lde = .high := by
  rw [State.lde, State.isSending, hframe]
  exact if_pos hout

theorem isSending_without {s : State} (hframe : s.line.frame = none) : s.isSending = false := by
  simp only [State.isSending, hframe]

theorem lineHalfBits_without {s : State} (hframe : s.line.frame = none) : s.lineHalfBits = [] ∧ s.lde = .low := by
  constructor
  · simp only [State.lineHalfBits, hframe]
  · rw [State.lde, isSending_without hframe]
    rfl

theorem lineHalfBits_of_frame {s : State} {f : OwnFrame} (hframe : s.line.frame = some f) :
    s.lineHalfBits = if f.remaining.isSome = true then frameHalfBits f.content else [] := by
  simp only [State.lineHalfBits, hframe]

theorem byteHalfBits_length (b : Byte) : (byteHalfBits b).length = 16 := by
  have hpair : ∀ x : Bool, (bitHalves x).length = 2 := fun x => by cases x <;> rfl
  simp only [byteHalfBits, List.flatMap_cons, List.flatMap_nil, List.length_append, hpair, List.length_nil]

theorem frameHalfBits_length (content : List Byte) : (frameHalfBits content).length = 2 * (8 + 8 * content.length) := by
  have hbytes : (content.flatMap byteHalfBits).length = 16 * content.length := by
    induction content with
    | nil => rfl
    | cons b bs ih =>
      rw [List.flatMap_cons, List.length_append, byteHalfBits_length, ih, List.length_cons]
      omega
  rw [frameHalfBits, List.length_append, hbytes]
  change 16 + 16 * content.length = _
  omega

theorem byteHalfBits_eq : byteHalfBits = fun b : Byte => [7, 6, 5, 4, 3, 2, 1, 0].flatMap fun i =>
    if b.getLsbD i = true then [.low, .high] else [.high, .low] := by
  have hpair : ∀ x : Bool, bitHalves x = if x = true then [.low, .high] else [.high, .low] := fun x => by cases x <;> rfl
  funext b
  simp only [byteHalfBits, hpair]

/-! ### The frame ends (R30 to R33, R160, R163) -/

/-- The state of a frame end before the slot is judged. -/
def frameSent (f : OwnFrame) (s : State) : State :=
  ((s.setLine { s.line with frame := none }).setExchange { s.exchange with
      requests := s.exchange.requests.map fun r =>
        if r.number ∈ f.requests then r.wentOut s.cycle.cycleNumber else r }).setLink
    (s.link.afterFrame f.carriesNew)

theorem endFrame_eq (f : OwnFrame) (differs : Bool) (s : State) :
    endFrame f differs s =
      if (differs || decide (s.line.ownSlot = .foreignMark)) = true then
        judgeCollided s.link.collisionCount (frameSent f s)
      else judgeClean (frameSent f s) := by
  unfold endFrame
  dsimp only
  rw [reportSent_eq]
  rfl

theorem RequestRecord.wentOut_eq (c : CycleNumber) (r : RequestRecord) : r.wentOut c =
    { r with sent := true, deadline := some (c + 2), sendLimit := some (r.sendLimit.getD (c + 8)) } := by
  unfold RequestRecord.wentOut
  cases r.sendLimit <;> rfl

theorem changes_frameSent (f : OwnFrame) (s : State) : Changes [.link, .line, .exchange] s (frameSent f s) :=
  ((changes_setLine s _).then (ds := [.line, .exchange]) (changes_setExchange _ _)).then (changes_setLink _ _)

theorem frameSent_exchange (f : OwnFrame) (s : State) : (frameSent f s).exchange = { s.exchange with
    requests := s.exchange.requests.map fun r =>
      if r.number ∈ f.requests then
        { r with sent := true, deadline := some (s.cycle.cycleNumber + 2),
                 sendLimit := some (r.sendLimit.getD (s.cycle.cycleNumber + 8)) }
      else r } := by
  simp only [← RequestRecord.wentOut_eq]
  rfl

theorem exec_frameEnd {s : State} {f : OwnFrame} (markDiffers : Bool) (readBack : List Byte) (hframe : s.line.frame = some f)
    (hout : f.remaining = some 0) :
    exec (.frameEnd markDiffers readBack) s = .next (endFrame f (readBackDiffers f markDiffers readBack) s) := by
  have hdue : s.frameEndDue = some f := by
    simp only [State.frameEndDue, hframe, hout, if_true]
  simp only [exec, execFrameEnd, hdue]

/-- Settles O19: the send instant, and the frame end that is judged clean. -/
theorem ownFrameGoesOutAndEndsClean : Obligations.OwnFrameGoesOutAndEndsClean := by
  refine ⟨fun s f hframe hremaining htransmits hrunning hawaited hslot hpassed => ?_, fun s => lineHalfBits_without,
    fun s f hframe hout hforeign => ?_⟩
  · have hdue : s.sendDue = true := by
      have htime : passed (s.markDue s.cycle.cycleStart s.own.val) s.now = true := hpassed
      simp [State.sendDue, hframe, htransmits, hrunning, hawaited, hslot, hremaining, htime]
    have hexec : exec .sendInstant s = .next (startSending f s) := by
      simp only [exec, execSendInstant, hframe, hdue, if_true]
    have hgoes : (startSending f s).line.frame = some { f with
        remaining := some (Config.ticksOfBits s.straps.rate (8 + 8 * f.content.length)) } := rfl
    have hbits := (lineHalfBits_of_frame hgoes).trans (if_pos rfl)
    refine ⟨_, hexec, rfl, lde_high hgoes rfl, hbits.trans ?_, ?_, ?_, changes_setLine _ _⟩
    · rw [frameHalfBits, byteHalfBits_eq]
      rfl
    · rw [hbits, frameHalfBits_length]
    · rw [lineHalfBits_of_frame hframe, hremaining]
      rfl
  · have hclean : endFrame f (readBackDiffers f false f.content) s = judgeClean (frameSent f s) := by
      rw [endFrame_eq, if_neg]
      simp [readBackDiffers, hforeign]
    refine ⟨_, exec_frameEnd false f.content hframe hout, ?_⟩
    rw [hclean]
    have hnone : (judgeClean (frameSent f s)).line.frame = none := rfl
    exact ⟨rfl, rfl, frameSent_exchange f s, (lineHalfBits_without hnone).2, (lineHalfBits_without hnone).1,
      ((changes_frameSent f s).then (ds := [.link, .line, .exchange]) (changes_setLine _ _)).then (changes_setLink _ _)⟩

/-- Settles O20: a second collision goes to LISTEN, a first does not. -/
theorem collidedFrameEnd : Obligations.CollidedFrameEnd := by
  intro s f markDiffers readBack hframe hout htransmits hcollided
  have hsent := changes_frameSent f s
  have hjudged : endFrame f (readBackDiffers f markDiffers readBack) s = judgeCollided s.link.collisionCount (frameSent f s) := by
    rw [endFrame_eq, if_pos]
    rcases hcollided with h | h | h <;> simp [readBackDiffers, h]
  have hnow : (frameSent f s).now = s.now := rfl
  refine ⟨_, exec_frameEnd markDiffers readBack hframe hout, ?_⟩
  rw [hjudged]
  have hexchange := (changes_judgeCollided s.link.collisionCount (frameSent f s)).exchange_eq.trans (frameSent_exchange f s)
  refine ⟨?_, hexchange, fun hfirst => ?_, fun hsecond => ?_⟩
  · rcases Nat.eq_zero_or_pos s.link.collisionCount with h | h
    · rw [h, judgeCollided_first, countCollision_line]
      rfl
    · rw [judgeCollided_second h, enterListen_line]
  · rw [hfirst, judgeCollided_first, countCollision_link, countCollision_line]
    exact ⟨rfl, rfl, countCollision_host 0 hnow rfl, hsent.then (changes_countCollision 0 _)⟩
  · obtain ⟨hlink, hcycle, hline, hpeer⟩ := judgeCollided_listens (s := frameSent f s) hsecond htransmits
    exact ⟨hlink, hcycle, hline, hpeer, judgeCollided_host hsecond hnow rfl,
      hsent.then (ds := [.cycle, .link, .line, .members, .exchange, .host]) (changes_judgeCollided _ _)⟩

/-! ### Where a mark lies (R8) -/

/-- The cycle and slot of a mark, by how far it lies after the cycle start; `detectMark_gridded` says that the model takes it. -/
def markPlace (s : State) (mark : Time) : Attribution :=
  if 2 ^ 31 ≤ (mark - s.cycle.cycleStart).toNat then ⟨s.cycle.cycleStart, s.cycle.cycleNumber, 0⟩
  else if (mark - s.cycle.cycleStart).toNat < s.cycleLength then
    ⟨s.cycle.cycleStart, s.cycle.cycleNumber, Fin.ofNat 16 ((mark - s.cycle.cycleStart).toNat / s.slotLength)⟩
  else ⟨s.cycle.cycleStart + BitVec.ofNat 32 (s.stationCount * s.slotLength), s.cycle.cycleNumber + 1, 0⟩

section
variable {s : State} {mark : Time}

theorem markPlace_inSlot {k : Station} (hk : k.val < s.stationCount)
    (hfrom : k.val * s.slotLength ≤ (mark - s.cycle.cycleStart).toNat)
    (hto : (mark - s.cycle.cycleStart).toNat < (k.val + 1) * s.slotLength) :
    markPlace s mark = ⟨s.cycle.cycleStart, s.cycle.cycleNumber, k⟩ := by
  have hslots : (k.val + 1) * s.slotLength ≤ s.cycleLength := Nat.mul_le_mul_right _ hk
  have hcycle := s.cycleLength_le
  have hdiv : (mark - s.cycle.cycleStart).toNat / s.slotLength = k.val := Nat.div_eq_of_lt_le hfrom hto
  have hk' : Fin.ofNat 16 k.val = k := Fin.ext (Nat.mod_eq_of_lt k.isLt)
  rw [markPlace, if_neg (by omega), if_pos (by omega), hdiv, hk']

theorem markPlace_before (h : 2 ^ 31 ≤ (mark - s.cycle.cycleStart).toNat) :
    markPlace s mark = ⟨s.cycle.cycleStart, s.cycle.cycleNumber, 0⟩ := by
  rw [markPlace, if_pos h]

theorem markPlace_after (hfrom : s.stationCount * s.slotLength ≤ (mark - s.cycle.cycleStart).toNat)
    (hto : (mark - s.cycle.cycleStart).toNat < 2 ^ 31) : markPlace s mark =
      ⟨s.cycle.cycleStart + BitVec.ofNat 32 (s.stationCount * s.slotLength), s.cycle.cycleNumber + 1, 0⟩ := by
  rw [markPlace, if_neg (Nat.not_le.mpr hto), State.cycleLength, if_neg (Nat.not_lt.mpr hfrom)]

end

/-! ### A mark (R7, R32, R48) -/

section
variable {s : State} (hon : s.link.state ≠ .off) (hreception : s.line.reception = none) (hlde : s.lde = .low)
include hon hreception hlde

theorem mark_heard : (!s.link.state.receives || s.line.reception.isSome || s.isSending) = false := by
  have hreceives : s.link.state.receives = true := by
    cases hstate : s.link.state with
    | off => exact absurd hstate hon
    | listen => rfl
    | integrate => rfl
    | coldstart => rfl
    | synced => rfl
  have hsending : s.isSending = false := by
    rw [State.lde] at hlde
    cases hsending : s.isSending with
    | false => rfl
    | true =>
      rw [hsending, if_pos rfl] at hlde
      cases hlde
  rw [hreceives, hreception, hsending]
  rfl

theorem detectMark_ungridded (hrunning : s.cycle.running = false) : detectMark s = startReception none s := by
  rw [detectMark, if_neg (by rw [mark_heard hon hreception hlde]; exact Bool.false_ne_true), if_pos (by rw [hrunning]; rfl)]

theorem detectMark_gridded (hrunning : s.cycle.running = true) :
    detectMark s =
      if (markPlace s s.now).slot = s.own then
        if s.link.state.transmits = true then foreignMark s else startReception (some (markPlace s s.now)) (foreignMark s)
      else startReception (some (markPlace s s.now)) s := by
  rw [detectMark, if_neg (by rw [mark_heard hon hreception hlde]; exact Bool.false_ne_true),
    if_neg (by rw [hrunning]; exact Bool.false_ne_true)]
  rfl

end

theorem foreignMark_unjudged {s : State} (h : s.line.ownSlot = .unjudged) :
    foreignMark s = s.setLine { s.line with ownSlot := .foreignMark } := by
  simp only [foreignMark, h]

theorem foreignMark_clean {s : State} {n : Nat} (h : s.line.ownSlot = .clean n) : foreignMark s = judgeCollided n s := by
  simp only [foreignMark, h]

theorem foreignMark_judged {s : State} (h : s.line.ownSlot = .foreignMark ∨ s.line.ownSlot = .collided) :
    foreignMark s = s := by
  rcases h with h | h <;> simp only [foreignMark, h]

/-- Settles O21: the attribution by the mark's time, and what the own slot of INTEGRATE notes besides. -/
theorem markStartsAReception : Obligations.MarkStartsAReception := by
  intro s hon hreception hlde
  refine ⟨fun hrunning => congrArg Host.Outcome.next (detectMark_ungridded hon hreception hlde hrunning),
    fun a hrunning ha => ?_⟩
  have hplace : markPlace s s.now = a := by
    rcases ha with ⟨k, rfl, hk, hfrom, hto⟩ | ⟨rfl, hbefore⟩ | ⟨rfl, hfrom, hto⟩
    · exact markPlace_inSlot hk hfrom hto
    · exact markPlace_before hbefore
    · exact markPlace_after hfrom hto
  have hmark := detectMark_gridded hon hreception hlde hrunning
  rw [hplace] at hmark
  refine ⟨fun hslot => congrArg Host.Outcome.next (hmark.trans (if_neg hslot)), fun hslot hstate hclean =>
    congrArg Host.Outcome.next ?_⟩
  rw [hmark, if_pos hslot, if_neg (by rw [hstate]; exact Bool.false_ne_true)]
  by_cases hunjudged : s.line.ownSlot = .unjudged
  · rw [foreignMark_unjudged hunjudged, if_pos hunjudged]
    rfl
  · have hjudged : s.line.ownSlot = .foreignMark ∨ s.line.ownSlot = .collided := by
      cases h : s.line.ownSlot with
      | unjudged => exact absurd h hunjudged
      | foreignMark => exact .inl rfl
      | clean n => exact absurd h (hclean n)
      | collided => exact .inr rfl
    rw [foreignMark_judged hjudged, if_neg hunjudged]
    rfl

/-- Settles O22, by what was known of the own slot. -/
theorem foreignMarkInTheOwnSlot : Obligations.ForeignMarkInTheOwnSlot := by
  intro s htransmits hreception hlde hrunning hwhere
  have hon : s.link.state ≠ .off := fun h => by
    rw [h] at htransmits
    cases htransmits
  have hslot : (markPlace s s.now).slot = s.own := by
    rcases hwhere with ⟨hown, hfrom, hto⟩ | ⟨hown, hfrom⟩
    · rw [markPlace_inSlot hown hfrom hto]
    · rcases Nat.lt_or_ge (s.now - s.cycle.cycleStart).toNat (2 ^ 31) with hto | hbefore
      · rw [markPlace_after hfrom hto, hown]
      · rw [markPlace_before hbefore, hown]
  have hmark : detectMark s = foreignMark s := by
    rw [detectMark_gridded hon hreception hlde hrunning, if_pos hslot, if_pos htransmits]
  refine ⟨_, congrArg Host.Outcome.next hmark, foreignMark_unjudged, foreignMark_judged, fun hclean => ?_, fun hclean => ?_⟩
  · rw [foreignMark_clean hclean, judgeCollided_first]
    exact ⟨countCollision_link 0 s, countCollision_line 0 s, countCollision_host 0 rfl rfl, changes_countCollision 0 s⟩
  · rw [foreignMark_clean hclean]
    obtain ⟨hlink, hcycle, -, -⟩ := judgeCollided_listens (n := 1) (s := s) (le_refl _) htransmits
    exact ⟨hlink, congrArg CycleUnit.running hcycle, judgeCollided_host (le_refl _) rfl rfl, changes_judgeCollided 1 s⟩

end Sys2Proof.Machine
end

