-- ==== Sys2Proof/Proofs/Receptions.lean ====
section
/-! A frame whose checks end (R21, R27, R48 to R51, R56, R59). -/

namespace Sys2Proof.Machine

-- One thread for the whole file: its many small proofs would otherwise each take a thread's memory.
set_option Elab.async false

/-! ### Which check a frame meets -/

section
variable {s : State} {received : List Byte} {r : Reception} {a : Attribution}

theorem exec_frameChecksEnd (received : List Byte) (s : State) :
    exec (.frameChecksEnd received) s = .next (endReception received s) := rfl

theorem endReception_some (hr : s.line.reception = some r) :
    endReception received s = settleFrame r (readReception received) (abandonReception s) := by
  simp only [endReception, hr]

theorem endReception_listen (hr : s.line.reception = some r) (hstate : s.link.state = .listen) :
    endReception received s = checkListenFrame (readReception received) r.markTime (abandonReception s) :=
  (endReception_some hr).trans (if_pos hstate)

theorem endReception_ungridded (hr : s.line.reception = some r) (hstate : s.link.state ≠ .listen)
    (hrunning : s.cycle.running = false) : endReception received s = abandonReception s := by
  refine (endReception_some hr).trans ((if_neg hstate).trans (if_neg ?_))
  exact fun h => Bool.false_ne_true (hrunning.symm.trans h)

theorem endReception_own {mark : Time} (hr : s.line.reception = some { markTime := mark, attribution := some a })
    (hstate : s.link.state ≠ .listen) (hrunning : s.cycle.running = true) (hslot : a.slot = s.own) :
    endReception received s = checkOwnSlotFrame (readReception received) (abandonReception s) :=
  (endReception_some hr).trans ((if_neg hstate).trans ((if_pos hrunning).trans (if_pos hslot)))

theorem endReception_other {mark : Time} (hr : s.line.reception = some { markTime := mark, attribution := some a })
    (hstate : s.link.state ≠ .listen) (hrunning : s.cycle.running = true) (hslot : a.slot ≠ s.own) :
    endReception received s = checkFrame (readReception received) mark a (abandonReception s) :=
  (endReception_some hr).trans ((if_neg hstate).trans ((if_pos hrunning).trans (if_neg hslot)))

end

/-! ### Discarded frames (R20, R21, R49, R59) -/

section
variable {s : State} {k : Station}

theorem countCheckError_other (hk : k ≠ s.own) : countCheckError k s =
    s.setPeer k { s.peer k with checkErrors := min 65535 ((s.peer k).checkErrors + 1) } := if_neg hk

theorem countIntrusion_other (hk : k ≠ s.own) : countIntrusion k s =
    queueNotice { kind := .intrusion, time := s.now, station := some k, number := none, code := 0, value := none }
      (s.setPeer k { s.peer k with intrusions := min 65535 ((s.peer k).intrusions + 1) }) := if_neg hk

end

/-- Settles O23: the counts of the slot's owner, and the restarted timer. -/
theorem discardedFramesAreCountedOrRestartTheTimer : Obligations.DiscardedFramesAreCountedOrRestartTheTimer := by
  refine ⟨fun s received mark a hr hstate hrunning hslot => ⟨fun hfails => ?_, fun h items hintact hstation => ?_⟩,
    fun s received r hr hstate hfails => ?_⟩
  · have hcheck : checkFrame (readReception received) mark a (abandonReception s) =
        countCheckError a.slot (abandonReception s) := by
      rcases hfails with h | h | ⟨x, h, hstation⟩
      · rw [h]
        rfl
      · rw [h]
        rfl
      · rw [h]
        exact if_neg (not_not.mpr hstation)
    rw [exec_frameChecksEnd, endReception_other hr hstate hrunning hslot, hcheck,
      countCheckError_other (s := abandonReception s) hslot]
    exact ⟨_, rfl, rfl, State.peer_setPeer_self _ _ _, fun j hj => State.peer_setPeer_of_ne _ _ hj,
      (changes_abandonReception s).then (changes_setPeer _ _ _)⟩
  · have hcheck : checkFrame (readReception received) mark a (abandonReception s) =
        countIntrusion a.slot (abandonReception s) := by
      rw [hintact]
      exact if_pos hstation
    rw [exec_frameChecksEnd, endReception_other hr hstate hrunning hslot, hcheck,
      countIntrusion_other (s := abandonReception s) hslot]
    have hpeer : ∀ (n : Notice) (u : State) j, (queueNotice n u).peer j = u.peer j := fun n u j => by
      rw [State.peer, queueNotice_members]
      rfl
    refine ⟨_, rfl, queueNotice_line _ _, ?_, fun j hj => ?_, queueNotice_host_congr _ rfl,
      ((changes_abandonReception s).then (ds := [.line, .members]) (changes_setPeer _ _ _)).then (changes_queueNotice _ _)⟩
    · rw [hpeer, State.peer_setPeer_self]
      rfl
    · rw [hpeer, State.peer_setPeer_of_ne _ _ hj]
      rfl
  · have hcheck : checkListenFrame (readReception received) r.markTime (abandonReception s) =
        restartListenTimer (abandonReception s) := by
      rcases hfails with h | h | ⟨x, h⟩ | ⟨x, items, h, hnumber⟩
      · rw [h]
        rfl
      · rw [h]
        rfl
      · rw [h]
        rfl
      · rw [h]
        cases items with
        | none => rfl
        | some items => exact if_pos hnumber
    rw [exec_frameChecksEnd, endReception_listen hr hstate, hcheck]
    exact ⟨_, rfl, rfl, rfl, (changes_abandonReception s).then (changes_setLink _ _)⟩

/-! ### Frames in the own slot, and frames set apart (R24, R48, R50, R105) -/

theorem checkOwnSlotFrame_ends {s : State} {h : Header} {items : List Item} (hstate : s.link.state = .integrate)
    (hstation : h.station = s.own) : checkOwnSlotFrame (.intact h (some items)) s = enterListen .ownSlot none 0 s :=
  if_pos ⟨hstate, hstation, rfl⟩

theorem LinePort.without_receptions {l : LinePort} (hreception : l.reception = none) (hending : l.ending = none) :
    { l with reception := none, ending := none } = l := by
  cases l
  cases hreception
  cases hending
  rfl

/-- Settles O24: the own slot of INTEGRATE, the frames that only leave the buffer, and the frame set apart. -/
theorem ownSlotFramesAndFramesSetApart : Obligations.OwnSlotFramesAndFramesSetApart := by
  refine ⟨fun s received mark a hr hrunning hslot => ⟨fun h items hstate hintact hstation => ?_, fun hstate hother => ?_⟩,
    fun s received r hr hrunning hstate => ?_, fun s received hr => ?_⟩
  · have hon : s.link.state ≠ .listen := by
      rw [hstate]
      decide
    rw [exec_frameChecksEnd, endReception_own hr hon hrunning hslot, hintact,
      checkOwnSlotFrame_ends (s := abandonReception s) hstate hstation]
    refine ⟨_, rfl, ?_, enterListen_cycle _ _ _ _, enterListen_line _ _ _ _, fun j => enterListen_peer _ _ _ _ j,
      enterListen_host _ _ _ rfl rfl (by decide),
      (changes_abandonReception s).then (ds := [.cycle, .link, .line, .members, .host]) (changes_enterListen _ _ _ _)⟩
    rw [enterListen_link, if_neg]
    · rfl
    · change ¬s.link.state.transmits = true
      rw [hstate]
      exact Bool.false_ne_true
  · have hcheck : checkOwnSlotFrame (readReception received) (abandonReception s) = abandonReception s := by
      unfold checkOwnSlotFrame
      split
      · rfl
      · rfl
      · rename_i x items hintact
        refine if_neg fun ⟨hintegrate, hstation, hitems⟩ => ?_
        rcases hother with h | h | h | ⟨y, h⟩ | ⟨y, items', h, hne⟩
        · exact h hintegrate
        · rw [hintact] at h
          cases h
        · rw [hintact] at h
          cases h
        · rw [hintact] at h
          cases h
          cases hitems
        · rw [hintact] at h
          cases h
          exact hne hstation
    rw [exec_frameChecksEnd, endReception_own hr hstate hrunning hslot, hcheck]
    rfl
  · rw [exec_frameChecksEnd, endReception_ungridded hr hstate hrunning]
    rfl
  · cases hending : s.line.ending with
    | none =>
      have hsame : s.setLine { s.line with reception := none, ending := none } = s :=
        congrArg s.setLine (LinePort.without_receptions hr hending)
      have hnothing : endReception received s = s := by
        simp only [endReception, hr, hending]
      rw [hsame]
      exact ⟨rfl, fun _ => congrArg Host.Outcome.next hnothing⟩
    | some r =>
      refine ⟨?_, nofun⟩
      have hapart : endReception received s =
          settleFrame r (readReception received) (s.setLine { s.line with ending := none }) := by
        simp only [endReception, hr, hending]
      rw [exec_frameChecksEnd, exec_frameChecksEnd, hapart,
        endReception_some (s := s.setLine { s.line with reception := some r, ending := none }) rfl, abandonReception, ← hr]
      rfl

/-! ### Valid frames of the slot's owner (R8 to R10, R27, R51, R56) -/

section
variable {s : State} {h : Header} {items : List Item} {mark : Time} {a : Attribution} {d : Int}

theorem checkFrame_valid (hstation : h.station = a.slot) :
    checkFrame (.intact h (some items)) mark a s = handFrame h items mark a s := if_neg (not_not.mpr hstation)

theorem handFrame_within (hd : s.deviation mark a = d) (hwithin : inWindow d a h.cycleNumber = true) :
    handFrame h items mark a s = takeItems h.station items
      (reportFrame h.station true d h.isNew (enterSample h.station d a s)) := by
  subst hd
  exact if_pos hwithin

theorem handFrame_without (hd : s.deviation mark a = d) (hwithin : inWindow d a h.cycleNumber = false) :
    handFrame h items mark a s = yieldTo h (reportFrame h.station false d h.isNew s) := by
  subst hd
  exact if_neg fun h => Bool.false_ne_true (hwithin.symm.trans h)

theorem enterSample_eq (k : Station) (d : Int) (a : Attribution) (s : State) :
    enterSample k d a s = s.setCycle { s.cycle with samples :=
      if a.cycleStart = s.cycle.cycleStart ∧ a.cycleNumber = s.cycle.cycleNumber ∧ ∀ x ∈ s.cycle.samples, x.station ≠ k then
        s.cycle.samples ++ [{ station := k, deviation := d }]
      else s.cycle.samples } := by
  have hnew : (s.cycle.samples.any fun x => x.station == k) = false ↔ ∀ x ∈ s.cycle.samples, x.station ≠ k := by
    simp only [List.any_eq_false, beq_iff_eq, ne_eq]
  unfold enterSample
  simp only [hnew]
  split <;> rfl

theorem PeerRecord.noteFrame_within (r : PeerRecord) (d : Int) :
    r.noteFrame true d = { r with slotNote := some (r.slotNote.getD d) } := by
  unfold PeerRecord.noteFrame
  rw [if_pos rfl]
  cases r.slotNote <;> rfl

end

/-- Settles O25: each part of the handing on, by name. -/
theorem inWindowFrameIsHandedOn : Obligations.InWindowFrameIsHandedOn := by
  intro s received mark a h items d hr hstate hrunning hslot hintact hstation hd hlow hhigh hnumber
  have hwithin : inWindow d a h.cycleNumber = true := inWindow_iff.mpr ⟨⟨hlow, hhigh⟩, hnumber⟩
  rw [exec_frameChecksEnd, endReception_other hr hstate hrunning hslot, hintact, checkFrame_valid hstation,
    handFrame_within (s := abandonReception s) hd.symm hwithin, enterSample_eq, reportFrame, PeerRecord.noteFrame_within, hstation]
  rfl

/-- Settles O26: the classification and restart detection, and then what a COLDSTART station does. -/
theorem outOfWindowFrameIsNotObeyed : Obligations.OutOfWindowFrameIsNotObeyed := by
  intro s v received mark a h items d hr hstate hrunning hslot hintact hstation hd hout hv
  have hwithin : inWindow d a h.cycleNumber = false := by
    rw [Bool.eq_false_iff]
    intro hin
    obtain ⟨⟨hlow, hhigh⟩, hnumber⟩ := inWindow_iff.mp hin
    have hwindow : Config.syncWindow = 32 := rfl
    rw [hwindow] at hlow hhigh
    rcases hout with h | h | h
    · omega
    · omega
    · exact h hnumber
  have hreport : reportFrame h.station false d h.isNew (abandonReception s) = v := by
    rw [hv, hstation]
    rfl
  have hend : exec (.frameChecksEnd received) s = .next (yieldTo h v) := by
    rw [exec_frameChecksEnd, endReception_other hr hstate hrunning hslot, hintact, checkFrame_valid hstation,
      handFrame_without (s := abandonReception s) hd.symm hwithin, hreport]
  have hchanges : Changes [.line, .members, .exchange, .table, .channels, .host] s v := by
    rw [← hreport]
    exact (changes_abandonReception s).then (changes_reportFrame _ _ _ _ _)
  have hlink := hchanges.link_eq
  have hown : v.own = s.own := congrArg Straps.id hchanges.straps_eq
  have hline : v.line = { s.line with reception := none } := by
    rw [← hreport]
    exact (changes_reportFrame _ _ _ _ _).line_eq
  rw [hend]
  refine ⟨fun hstays => congrArg Host.Outcome.next (if_neg ?_), fun hcold hyields => ?_⟩
  · rw [hlink, hown]
    rintro ⟨hcold, hyields⟩
    rcases hstays with h | ⟨hflag, hlower⟩
    · exact h hcold
    · rcases hyields with h | h
      · rw [hflag] at h
        cases h
      · exact absurd h (Fin.lt_asymm hlower)
  · have hyield : yieldTo h v = enterListen .yield (some h.station) v.cycleLength v :=
      if_pos ⟨by rw [hlink]; exact hcold, by rw [hown]; exact hyields⟩
    rw [hyield]
    have htransmits : v.link.state.transmits = true := by
      rw [hlink, hcold]
      rfl
    have hnow : v.now = s.now := now_of_changes hchanges
    have hlength : v.cycleLength = s.cycleLength := by
      rw [State.cycleLength, State.stationCount, State.slotLength, hchanges.straps_eq]
      rfl
    refine ⟨_, rfl, ?_, ?_, ?_, fun j => enterListen_peer _ _ _ _ j, ?_, changes_enterListen _ _ _ _⟩
    · rw [enterListen_link, if_pos htransmits, hlink, listenTime_congr hchanges.straps_eq, hlength]
    · rw [enterListen_cycle, hchanges.cycle_eq]
    · rw [enterListen_line, hline]
    · rw [← hnow]
      exact enterListen_host _ _ _ rfl rfl (by decide)

end Sys2Proof.Machine
end

