-- ==== Sys2Proof/Proofs/Adoption.lean ====
section
/-! Adoption (R22, R23, R130, R191) and the items of a frame (R52, R53, R81, R82, R104). -/

namespace Sys2Proof.Machine

-- One thread for the whole file: its many small proofs would otherwise each take a thread's memory.
set_option Elab.async false

/-! ### The items of a frame -/

section
variable {s : State} {k : Station}

theorem checkGap_none {n : EventNumber} (h : ∀ x, (s.peer k).expectedEvent = some x → x = n) : checkGap k n s = s := by
  unfold checkGap
  split
  · rfl
  · rename_i x hx
    exact if_pos (h x hx)

theorem checkGap_gap {n x : EventNumber} (hx : (s.peer k).expectedEvent = some x) (hne : x ≠ n) : checkGap k n s =
    queueNotice { kind := .gap, time := s.now, station := some k, number := none, code := 0,
                  value := some ((n - x).setWidth 32) } s := by
  simp only [checkGap, hx, hne, if_false]
  rfl

theorem checkGap_peer (n : EventNumber) (j : Station) : (checkGap k n s).peer j = s.peer j := by
  rw [State.peer, (changes_checkGap k n s).members_eq]
  rfl

theorem takeReply_other {n : RequestNumber} {code : ReplyCode} (h : ∀ r, s.requestNumbered n = some r → r.target ≠ k) :
    takeReply k n code s = s := by
  unfold takeReply
  split
  · rfl
  · rename_i r hr
    exact if_neg (h r hr)

theorem removeRequest_fields (n : RequestNumber) (s : State) : (removeRequest n s).exchange = { s.exchange with
    requests := s.exchange.requests.filter fun x => x.number != n
    sendQueue := s.exchange.sendQueue.filter fun i => i.requestNumber != some n } := by
  simp only [removeRequest, State.setExchange_exchange, SendItem.not_isCopyOf]

end

/-- Settles O29, item by item. -/
theorem itemsOfAPeerAreTakenInOrder : Obligations.ItemsOfAPeerAreTakenInOrder := by
  intro s k
  refine ⟨rfl, fun _ _ => rfl, fun i edge n stamp => ?_, fun n code t ht => ⟨fun r hr htarget => ?_, fun hother => ?_⟩,
    fun n o lastStart => ?_, fun other hother => ⟨fun n r => if_neg hother, fun n code => if_neg hother,
      fun n o lastStart => if_neg hother⟩⟩
  · have hgap := changes_checkGap k n s
    have hset := changes_setPeer (checkGap k n s) k { (checkGap k n s).peer k with expectedEvent := some (n + 1) }
    refine ⟨(checkGap k n s).setPeer k { (checkGap k n s).peer k with expectedEvent := some (n + 1) }, rfl, ?_,
      fun j hj => ?_, fun hexpected => ?_, fun x hx hne => ?_, hgap.then hset⟩
    · rw [State.peer_setPeer_self, checkGap_peer]
    · rw [State.peer_setPeer_of_ne _ _ hj, checkGap_peer]
    · rw [hset.host_eq, checkGap_none hexpected]
    · rw [hset.host_eq, checkGap_gap hx hne]
  · have hmatched : t =
        queueNotice (s.noticeNow .answered (some k) (some n) (code.code.setWidth 8) none) (removeRequest n s) := by
      rw [ht]
      exact (if_pos rfl).trans (takeReply_matched code hr htarget)
    rw [hmatched]
    exact ⟨(queueNotice_exchange _ _).trans (removeRequest_fields n s), queueNotice_host_congr _ rfl,
      (changes_removeRequest n s).then (changes_queueNotice _ _)⟩
  · rw [ht]
    exact (if_pos rfl).trans (takeReply_other hother)
  · exact if_pos rfl

/-! ### The table at the step of an adoption (R23, R130) -/

theorem abandonTable_sameReports (s : State) :
    SameReports (s.table.foldl (fun u e => produceResult e .timebaseStep u) s) (abandonTable s) :=
  foldl_sameReports (fun e _ u h => (produceResult_sameReports e _ h).trans (leave_sameReports e _ u)) _ (.refl s)

theorem abandonTable_eq (s : State) :
    abandonTable s = leaveEach (s.table.filter fun _ => true) (fun e s => leave e .timebaseStep s) s := by
  rw [List.filter_eq_self.mpr fun _ _ => rfl]
  rfl

theorem abandonTable_table {s : State} (h : TableOk s) : (abandonTable s).table = [] := by
  rw [abandonTable_eq, leaveEach_filter_table (fun e s => leave_table e _ s) h.1]
  exact List.filter_eq_nil_iff.mpr fun _ _ => Bool.false_ne_true

theorem abandonTable_channel {s : State} (h : OrdersOk s) (c : ChannelNumber) :
    (abandonTable s).channel c = { s.channel c with owner := none, phase := .inactive } := by
  rw [abandonTable_eq, leaveEach_filter_channel (fun e s c => leave_channel e _ s c) h]
  split
  · rfl
  · rename_i hnone
    obtain ⟨-, -, howned, hfree⟩ := h
    have howner : (s.channel c).owner = none := by
      cases hc : (s.channel c).owner with
      | none => rfl
      | some i =>
        obtain ⟨e, he, -, hrunning, hchannel⟩ := howned c i hc
        exact absurd ⟨e, he, rfl, hrunning, hchannel⟩ hnone
    rw [← howner, ← hfree c howner]

section
variable {v σ : Time} {left : List PendingEdge} {s : State}

theorem adoptionStep_zero : adoptionStep v 0 left s = s := rfl

theorem adoptionStep_small (hσ : σ ≠ 0) (hsmall : σ.toInt.natAbs ≤ 32) : adoptionStep v σ left s = tableStep v σ left s :=
  (if_neg (Nat.not_lt.mpr hsmall)).trans (if_neg hσ)

theorem adoptionStep_large (hlarge : 32 < σ.toInt.natAbs) : adoptionStep v σ left s = abandonTable s := if_pos hlarge

end

/-! ### The grid of an adoption (R22) -/

section
variable (h : Header) (mark : Time) (s : State)

theorem adoptGrid_exchange : (adoptGrid h mark s).exchange =
    (moveCycles (h.cycleNumber - s.cycle.cycleNumber) s).exchange := by
  have hstepped := changes_takeStep (s.adoptionOf h mark) s
  have hnumber : (takeStep (s.adoptionOf h mark) s).cycle.cycleNumber = s.cycle.cycleNumber :=
    (congrArg CycleUnit.cycleNumber (takeStep_cycle (s.adoptionOf h mark) s) :)
  have hmoved : (adoptGrid h mark s).exchange =
      (moveCycles (h.cycleNumber - (takeStep (s.adoptionOf h mark) s).cycle.cycleNumber)
        (takeStep (s.adoptionOf h mark) s)).exchange := rfl
  rw [hmoved, hnumber, moveCycles, State.setExchange_exchange, hstepped.exchange_eq]
  rfl

theorem adoptGrid_table : (adoptGrid h mark s).table =
    (ageArmTimes (s.now + s.adoptionOf h mark) (noteTimes s.now s)).table := rfl

theorem adoptGrid_host : (adoptGrid h mark s).host = s.host := (changes_adoptGrid h mark s).host_eq

end

theorem linkNotice_of {r : LinkReason} (k : Option Station) {s : State} {x : Time} {l : LinkState} {c : BitVec 8}
    (hnow : s.now = x) (hstate : s.link.state = l) (hcode : nibbles l.code r.code = c) :
    linkNotice r k s =
      queueNotice { kind := .link, time := x, station := k, number := none, code := c, value := none } s := by
  unfold linkNotice
  rw [State.noticeNow, hnow, hstate, hcode]

/-- The LINK notice of an adoption stands before the step, and STEP after it, both at the stepped line time. -/
theorem adopt_notices (h : Header) (items : List Item) (mark : Time) (s : State) :
    adopt h items mark s = queueBehind (adoptHeard h items (adoptGrid h mark s)).host.notices
      (adoptHeard h items (adoptGrid h mark s)).host.lost
      (queueNotice
        { kind := .step, time := s.now + s.adoptionOf h mark, station := none, number := none, code := 0,
          value := some (s.adoptionOf h mark) }
        (adoptionStep s.now (s.adoptionOf h mark) (s.edgesAt s.now)
          (queueNotice
            { kind := .link, time := s.now + s.adoptionOf h mark, station := some h.station, number := none,
              code := 0x21, value := none }
            ((adoptHeard h items (adoptGrid h mark s)).setHost s.host)))) := by
  have hheard : Changes Block.ofMembers (adoptGrid h mark s) ((adoptHeard h items (adoptGrid h mark s)).setHost s.host) :=
    ((changes_setHost _ _).then (ds := Block.ofMembers) (changes_handOn_within h items 0 _)).then (changes_setHost _ _)
  have hnow : ((adoptHeard h items (adoptGrid h mark s)).setHost s.host).now = s.now + s.adoptionOf h mark :=
    (congrArg CycleUnit.lineTime (hheard.cycle_eq.trans (adoptGrid_cycle h mark s)) :)
  have hstate : ((adoptHeard h items (adoptGrid h mark s)).setHost s.host).link.state = .integrate :=
    (congrArg LinkUnit.state (hheard.link_eq.trans (adoptGrid_link h mark s)) :)
  rw [adopt_eq]
  dsimp only
  rw [adoptGrid_host, linkNotice_of (c := 0x21) _ hnow hstate (by decide), State.noticeNow,
    now_of_changes ((changes_queueNotice _ _).then (ds := Block.ofEntries) (changes_adoptionStep _ _ _ _)), hnow]

/-- Settles O27: `g` is the adopted grid, and `heard` the frame handed on in it. -/
theorem adoptionTakesTheSendersTiming : Obligations.AdoptionTakesTheSendersTiming := by
  refine ⟨fun s received r h items σ shift hr hstate hintact hstation hown hσ hshift => ?_,
    fun v σ left s t ht => ⟨fun hzero => ?_, fun hnonzero hsmall => ?_, fun hlarge htable hchannels => ?_⟩,
    fun notices lost s t hlength ht => ?_⟩
  · let u := abandonReception s
    have hu : Changes [.line] s u := changes_abandonReception s
    have hadopted : σ = u.adoptionOf h r.markTime := hσ
    have hexec : exec (.frameChecksEnd received) s = .next (adopt h items r.markTime u) := by
      rw [exec_frameChecksEnd, endReception_listen hr hstate, hintact]
      exact congrArg Host.Outcome.next (if_neg (not_or.mpr ⟨Nat.not_le.mpr hstation, hown⟩))
    have hexchange : (adoptGrid h r.markTime u).exchange = (moveCycles shift s).exchange := by
      rw [adoptGrid_exchange, hshift]
      rfl
    have hpeer : (adoptGrid h r.markTime u).peer h.station = s.peer h.station := by
      rw [State.peer, (changes_adoptGrid h r.markTime u).members_eq]
      rfl
    refine ⟨adoptGrid h r.markTime u, adoptHeard h items (adoptGrid h r.markTime u), ?_, adoptGrid_link h r.markTime u,
      adoptGrid_line h r.markTime u, ?_, fun k => ?_, ?_, hu.then (changes_adoptGrid h r.markTime u), ?_, ?_⟩
    · rw [adoptGrid_cycle, hadopted]
      rfl
    · rw [hexchange]
      rfl
    · rw [State.cacheOf, hexchange]
      exact get_mapVector _ _ _
    · rw [adoptGrid_table, hadopted]
      rfl
    · rw [adoptHeard, handOn]
      dsimp only
      rw [if_pos rfl, reportFrame, PeerRecord.noteFrame_within, adoptGrid_host]
      change takeItems h.station items (detectRestart h.station h.isNew (((adoptGrid h r.markTime u).setHost _).setPeer h.station
        { (adoptGrid h r.markTime u).peer h.station with
          slotNote := some (((adoptGrid h r.markTime u).peer h.station).slotNote.getD 0) })) = _
      rw [hpeer]
      rfl
    · rw [hexec, adopt_notices, hadopted]
      rfl
  · rw [ht, hzero, adoptionStep_zero]
  · rw [ht, adoptionStep_small hnonzero hsmall]
  · have hall := changes_adoptionStep v σ left s
    rw [← ht] at hall
    rw [adoptionStep_large hlarge] at ht
    have hreports := abandonTable_sameReports s
    rw [← ht] at hreports
    exact ⟨hreports.host, hreports.exchange, ht ▸ abandonTable_table htable,
      fun c => ht ▸ abandonTable_channel ⟨htable, hchannels⟩ c, hall⟩
  · subst ht
    exact ⟨queueBehind_notices notices lost hlength, queueBehind_lost notices lost hlength, changes_queueBehind notices lost s⟩

end Sys2Proof.Machine
end

