-- ==== Sys2Proof/Proofs/PinsAndEvents.lean ====
section
/-! The pins and the events made here (R71 to R78, R182). -/

namespace Sys2Proof.Machine

-- One thread for the whole file: its many small proofs would otherwise each take a thread's memory.
set_option Elab.async false

/-! ### Samples and recognition (R71, R72) -/

section
variable {s : State} {p : Pin}

theorem exec_pinTransition (level : Level) (hreset : s.inReset = false) : exec (.pinTransition p level) s =
    .next ((recogniseIfDue p s).setPin p (((recogniseIfDue p s).pin p).sample level (recogniseIfDue p s).now)) :=
  if_neg fun h => Bool.false_ne_true (hreset.symm.trans h)

theorem recogniseIfDue_of_not (h : (s.pin p).recognised = false) : recogniseIfDue p s = s :=
  if_neg fun hdue => Bool.false_ne_true (h.symm.trans hdue)

theorem recogniseIfDue_of (h : (s.pin p).recognised = true) : recogniseIfDue p s = recognise p s := if_pos h

theorem PinRecord.settle_recognised (r : PinRecord) : r.settle.recognised = false := rfl

theorem recogniseIfDue_done (p : Pin) (s : State) : ((recogniseIfDue p s).pin p).recognised = false := by
  rw [recogniseIfDue_pin]
  split
  · exact PinRecord.settle_recognised _
  · rename_i h
    exact Bool.eq_false_iff.mpr fun hdue => h ⟨rfl, hdue⟩

theorem recogniseIfDue_inReset (p : Pin) (s : State) : (recogniseIfDue p s).inReset = s.inReset :=
  (changes_recogniseIfDue p s).inReset_eq

theorem PinRecord.sample_ends {r : PinRecord} {level : Level} {now : Time} (h : level = r.settled) :
    r.sample level now = { r with level := level, hold := none } := if_pos h

theorem PinRecord.sample_starts {r : PinRecord} {level : Level} {now : Time} (h : level ≠ r.settled) (hhold : r.hold = none) :
    r.sample level now = { r with level := level, hold := some { start := now, count := 0 } } := by
  rw [PinRecord.sample, if_neg h, hhold]

theorem PinRecord.sample_leaves {r : PinRecord} {level : Level} {now : Time} (h : level ≠ r.settled) (hhold : r.hold ≠ none) :
    r.sample level now = { r with level := level } := by
  obtain ⟨x, hx⟩ := Option.ne_none_iff_exists'.mp hhold
  simp only [PinRecord.sample, if_neg h, hx]

end

/-- Settles O30: a recognition that is due comes first, and the sample is judged on the record it leaves. -/
theorem pinSampleStartsOrEndsAHold : Obligations.PinSampleStartsOrEndsAHold := by
  refine ⟨fun s p level hreset hdue => ?_, fun s u p level hreset hu => ?_, fun s p level hreset => if_pos hreset⟩
  · rw [exec_pinTransition level hreset, recogniseIfDue_of_not hdue]
    have hpin : ∀ q, (s.setPin p ((s.pin p).sample level s.now)).pin q =
      if q = p then (s.pin p).sample level s.now else s.pin q := fun q => State.pin_setPin s p q _
    refine ⟨_, rfl, fun hlevel => ?_, fun hlevel hhold => ?_, fun hlevel hhold => ?_, fun q hq => (hpin q).trans (if_neg hq),
      rfl, rfl, changes_setPin s p _⟩
    · rw [hpin, if_pos rfl, PinRecord.sample_ends hlevel]
    · rw [hpin, if_pos rfl, PinRecord.sample_starts hlevel hhold]
    · rw [hpin, if_pos rfl, PinRecord.sample_leaves hlevel hhold]
  · obtain rfl : recogniseIfDue p s = u := Host.Outcome.next.inj hu
    have hdone := recogniseIfDue_done p s
    refine ⟨hdone, ?_⟩
    rw [exec_pinTransition level hreset,
      exec_pinTransition (s := recogniseIfDue p s) level ((recogniseIfDue_inReset p s).trans hreset),
      recogniseIfDue_of_not hdone]

/-! ### An event made here (R75 to R78) -/

theorem sendQueue_tableBlind (q : List SendItem) : TableBlind fun s => s.exchange.sendQueue = q where
  table h hs := by rw [h.exchange_eq]; exact hs
  drive _ _ _ hs := hs
  result {s} e o hs := by
    unfold produceResult
    split
    · split
      · rw [queueNotice_exchange]
        exact hs
      · unfold queueReplyItem
        split
        · exact hs
        · exact hs
    · exact hs

theorem matchEvent_sendQueue (ev : Event) (s : State) :
    (matchEvent ev s).exchange.sendQueue = s.exchange.sendQueue :=
  (sendQueue_tableBlind s.exchange.sendQueue).matchEvent ev rfl

section
variable {s : State} {i : Input} {edge : Edge} {stamp : Time}

theorem numbering_silent (h : (s.inputRecord i).broadcast = false ∨ s.link.state.transmits = false) :
    s.numbering i = { number := none, queued := false } := by
  unfold State.numbering
  refine if_neg fun hboth => ?_
  obtain ⟨hbroadcast, htransmits⟩ := (Bool.and_eq_true _ _).mp hboth
  rcases h with h | h
  · exact Bool.false_ne_true (h.symm.trans hbroadcast)
  · exact Bool.false_ne_true (h.symm.trans htransmits)

theorem numbering_sent (hbroadcast : (s.inputRecord i).broadcast = true) (htransmits : s.link.state.transmits = true) :
    s.numbering i = { number := some s.capture.eventNumber, queued := decide (s.exchange.sendQueue.length < 24) } := by
  unfold State.numbering
  rw [hbroadcast, htransmits]
  rfl

theorem sendEvent_silent (h : s.numbering i = { number := none, queued := false }) : sendEvent i edge stamp s = s := by
  simp only [sendEvent, h]

theorem sendEvent_queued {n : EventNumber} (h : s.numbering i = { number := some n, queued := true }) :
    sendEvent i edge stamp s = (s.setCapture { s.capture with eventNumber := n + 1 }).setExchange
      { s.exchange with sendQueue := s.exchange.sendQueue ++ [.event i edge n stamp] } := by
  simp only [sendEvent, h, if_true]
  rfl

theorem sendEvent_dropped {n : EventNumber} (h : s.numbering i = { number := some n, queued := false }) :
    sendEvent i edge stamp s = queueNotice
      { kind := .dropped, time := s.now, station := none, number := some (n.setWidth 12), code := BitVec.ofNat 8 i.val,
        value := none }
      (s.setCapture { s.capture with eventNumber := n + 1 }) := by
  simp only [sendEvent, h, Bool.false_eq_true, if_false]
  rfl

/-- The state of an event that is recorded and matched, before the line. -/
def eventMatched (i : Input) (edge : Edge) (stamp : Time) (s : State) : State :=
  matchEvent { station := s.own, input := i, edge := edge, stamp := stamp }
    (s.setInputRecord i { s.inputRecord i with
      lastStamp := some stamp, lastEdge := some edge, edgeCount := (s.inputRecord i).edgeCount + 1 })

theorem makeEvent_eq (i : Input) (edge : Edge) (stamp : Time) (s : State) :
    makeEvent i edge stamp s = sendEvent i edge stamp (eventMatched i edge stamp s) := rfl

theorem eventMatched_capture (i : Input) (edge : Edge) (stamp : Time) (s : State) :
    (eventMatched i edge stamp s).capture = (s.setInputRecord i { s.inputRecord i with
      lastStamp := some stamp, lastEdge := some edge, edgeCount := (s.inputRecord i).edgeCount + 1 }).capture :=
  (changes_matchEvent _ _).capture_eq

theorem eventMatched_sendQueue (i : Input) (edge : Edge) (stamp : Time) (s : State) :
    (eventMatched i edge stamp s).exchange.sendQueue = s.exchange.sendQueue := matchEvent_sendQueue _ _

/-- What the event will be numbered is fixed before it is matched. -/
theorem eventMatched_numbering (i : Input) (edge : Edge) (stamp : Time) (s : State) :
    (eventMatched i edge stamp s).numbering i = s.numbering i := by
  have hrecord : (eventMatched i edge stamp s).inputRecord i = { s.inputRecord i with
      lastStamp := some stamp, lastEdge := some edge, edgeCount := (s.inputRecord i).edgeCount + 1 } := by
    rw [State.inputRecord, eventMatched_capture]
    exact (State.inputRecord_setInputRecord s i i _).trans (if_pos rfl)
  have hlink : (eventMatched i edge stamp s).link = s.link := (changes_matchEvent _ _).link_eq
  unfold State.numbering State.sendRoom
  rw [hrecord, hlink, eventMatched_capture, eventMatched_sendQueue]
  rfl

theorem makeEvent_silent (h : (s.inputRecord i).broadcast = false ∨ s.link.state.transmits = false) :
    makeEvent i edge stamp s = eventMatched i edge stamp s := by
  rw [makeEvent_eq]
  exact sendEvent_silent ((eventMatched_numbering i edge stamp s).trans (numbering_silent h))

variable (hbroadcast : (s.inputRecord i).broadcast = true) (htransmits : s.link.state.transmits = true)
include hbroadcast htransmits

theorem makeEvent_queued (hroom : s.exchange.sendQueue.length < 24) :
    makeEvent i edge stamp s =
      ((eventMatched i edge stamp s).setCapture { (eventMatched i edge stamp s).capture with
          eventNumber := s.capture.eventNumber + 1 }).setExchange
        { (eventMatched i edge stamp s).exchange with
          sendQueue := s.exchange.sendQueue ++ [.event i edge s.capture.eventNumber stamp] } := by
  have hnumbering := (eventMatched_numbering i edge stamp s).trans (numbering_sent hbroadcast htransmits)
  rw [decide_eq_true hroom] at hnumbering
  rw [makeEvent_eq, sendEvent_queued hnumbering, eventMatched_sendQueue]

theorem makeEvent_dropped (hfull : 24 ≤ s.exchange.sendQueue.length) :
    makeEvent i edge stamp s = queueNotice
      { kind := .dropped, time := s.now, station := none, number := some (s.capture.eventNumber.setWidth 12),
        code := BitVec.ofNat 8 i.val, value := none }
      ((eventMatched i edge stamp s).setCapture { (eventMatched i edge stamp s).capture with
        eventNumber := s.capture.eventNumber + 1 }) := by
  have hnumbering := (eventMatched_numbering i edge stamp s).trans (numbering_sent hbroadcast htransmits)
  rw [decide_eq_false (Nat.not_lt.mpr hfull)] at hnumbering
  have hmatched : Changes (.capture :: Block.ofEntries) s (eventMatched i edge stamp s) := (changes_setInputRecord s i _).then (changes_matchEvent _ _)
  have hnow : (eventMatched i edge stamp s).now = s.now := now_of_changes hmatched
  rw [makeEvent_eq, sendEvent_dropped hnumbering, hnow]

end

/-! ### A recognised edge (R72, R73) -/

section
variable {r : PinRecord}

theorem PinRecord.newEdge_eq (r : PinRecord) : r.newEdge = if r.settled = .low then .rise else .fall := by
  unfold PinRecord.newEdge
  cases r.settled <;> rfl

theorem PinRecord.settle_eq (r : PinRecord) :
    r.settle = { r with settled := if r.settled = .low then .high else .low, hold := none } := by
  unfold PinRecord.settle
  cases r.settled <;> rfl

theorem EdgeSelect.selects_iff {e : EdgeSelect} {x : Edge} :
    e.selects x = true ↔ e = .both ∨ (e = .rise ∧ x = .rise) ∨ (e = .fall ∧ x = .fall) := by
  cases e <;> cases x <;> decide

theorem EdgeSelect.not_selects_iff {e : EdgeSelect} {x : Edge} :
    e.selects x = false ↔ e = .none ∨ (e = .rise ∧ x = .fall) ∨ (e = .fall ∧ x = .rise) := by
  cases e <;> cases x <;> decide

theorem PinRecord.recognised_of {h : Hold} (hhold : r.hold = some h) (hcount : r.filter.toNat ≤ h.count) :
    r.recognised = true := by
  simp only [PinRecord.recognised, hhold, hcount, decide_true]

end

/-- Settles O31: the recognition settles the pin, and a selected edge is an event made on that state. -/
theorem recognisedEdgeIsAnEventWhereSelected : Obligations.RecognisedEdgeIsAnEventWhereSelected := by
  intro s u p h edge stamp hhold hcount hedge hstamp hu
  rw [← PinRecord.settle_eq] at hu
  rw [← PinRecord.newEdge_eq] at hedge
  have hexec : exec (.edgeRecognised p) s =
      .next (if (s.pin p).edgeSelect.selects edge = true then makeEvent (inputOfPin p) edge stamp u else u) := by
    rw [hedge, hstamp, hu]
    exact congrArg Host.Outcome.next (recogniseIfDue_of (PinRecord.recognised_of hhold hcount))
  refine ⟨fun hunselected => ?_, fun hselected x hx => ?_⟩
  · rw [hexec, EdgeSelect.not_selects_iff.mpr hunselected, if_neg Bool.false_ne_true]
  · rw [if_pos (EdgeSelect.selects_iff.mpr hselected)] at hexec
    have hmatched : x = eventMatched (inputOfPin p) edge stamp u := by
      rw [hx, hu]
      rfl
    rw [hexec, hmatched]
    have hsame : Changes [.capture] s u := hu ▸ changes_setPin s p _
    have hrecord : u.inputRecord (inputOfPin p) = s.inputRecord (inputOfPin p) := by
      rw [hu, State.inputRecord_setPin]
    have hnumber : u.capture.eventNumber = s.capture.eventNumber := by
      rw [hu]
      rfl
    rw [← hrecord, ← hsame.link_eq, ← hsame.exchange_eq, ← hnumber, ← now_of_changes hsame]
    exact ⟨fun hsilent => congrArg Host.Outcome.next (makeEvent_silent hsilent), fun hbroadcast htransmits =>
      ⟨fun hroom => congrArg Host.Outcome.next (makeEvent_queued hbroadcast htransmits hroom),
        fun hfull => congrArg Host.Outcome.next (makeEvent_dropped hbroadcast htransmits hfull)⟩⟩

/-! ### MARK (R74, R182) -/

theorem markInput_hostMark {s : State} {i : Input} (hi : 8 ≤ i.val) (more : List Byte) :
    markInput (BitVec.ofNat 8 i.val :: more) s =
      accept 0x06 (markBytes s.now (s.numbering i)) (makeEvent i .rise s.now s) := by
  have hvalue : (BitVec.ofNat 8 i.val).toNat = i.val := by
    have hbound := i.isLt
    rw [BitVec.toNat_ofNat]
    omega
  have hmark : 8 ≤ (BitVec.ofNat 8 i.val).toNat ∧ (BitVec.ofNat 8 i.val).toNat < 16 := by
    rw [hvalue]
    exact ⟨hi, i.isLt⟩
  have hinput : (⟨(BitVec.ofNat 8 i.val).toNat, hmark.2⟩ : Input) = i := Fin.ext hvalue
  simp only [markInput]
  rw [dif_pos hmark, hinput]

theorem hold_eq (response : List Byte) (s : State) :
    hold response s = s.setHost { s.host with held := response } := rfl

theorem flagByte_none : flagByte false false false false false false false false = 0x00 := by decide
theorem flagByte_first : flagByte true false false false false false false false = 0x80 := by decide
theorem flagByte_firstTwo : flagByte true true false false false false false false = 0xC0 := by decide

section
variable (stamp : Time) (n : EventNumber)

theorem markResponse_silent :
    respond 0x06 .ok (markBytes stamp { number := none, queued := false }) =
      [0x06, 0x00] ++ bytes32 stamp ++ [0x00, 0x00] :=
  congrArg (fun x => [0x06, 0x00] ++ (bytes32 stamp ++ [0x00, x])) flagByte_none

theorem markResponse_queued :
    respond 0x06 .ok (markBytes stamp { number := some n, queued := true }) =
      [0x06, 0x00] ++ bytes32 stamp ++ [n, 0xC0] :=
  congrArg (fun x => [0x06, 0x00] ++ (bytes32 stamp ++ [n, x])) flagByte_firstTwo

theorem markResponse_dropped :
    respond 0x06 .ok (markBytes stamp { number := some n, queued := false }) =
      [0x06, 0x00] ++ bytes32 stamp ++ [n, 0x80] :=
  congrArg (fun x => [0x06, 0x00] ++ (bytes32 stamp ++ [n, x])) flagByte_first

end

/-- Settles O32: the event is made on the state with CSn high, and the response says what was numbered. -/
theorem markMakesANumberedEvent : Obligations.MarkMakesANumberedEvent := by
  intro s x y i more htakes hi hx hy
  have hmatched : x = eventMatched i .rise s.now (riseCsn s) := by
    rw [hx]
    rfl
  have hexec : exec (.mark (BitVec.ofNat 8 i.val :: more)) s =
      .next (hold (respond 0x06 .ok (markBytes s.now ((riseCsn s).numbering i))) (makeEvent i .rise s.now (riseCsn s))) :=
    congrArg Host.Outcome.next (takeCommand_accepted htakes (markInput_hostMark hi more))
  refine ⟨fun hsilent => ?_, fun hbroadcast htransmits => ⟨fun hroom => ?_, fun hfull => ⟨_, rfl, ?_⟩⟩⟩
  · rw [hexec, numbering_silent (s := riseCsn s) hsilent, makeEvent_silent (s := riseCsn s) hsilent, ← hmatched,
      markResponse_silent, hold_eq]
  · have hqueued : decide ((riseCsn s).exchange.sendQueue.length < 24) = true := decide_eq_true hroom
    rw [hexec, numbering_sent (s := riseCsn s) hbroadcast htransmits,
      makeEvent_queued (s := riseCsn s) hbroadcast htransmits hroom, ← hmatched, hqueued, markResponse_queued, hold_eq, hy]
    rfl
  · have hdropped : decide ((riseCsn s).exchange.sendQueue.length < 24) = false := decide_eq_false (Nat.not_lt.mpr hfull)
    rw [hexec, numbering_sent (s := riseCsn s) hbroadcast htransmits,
      makeEvent_dropped (s := riseCsn s) hbroadcast htransmits hfull, ← hmatched, hdropped, markResponse_dropped, hold_eq, hy]
    rfl

end Sys2Proof.Machine
end

