-- ==== Sys2Proof/Proofs/HostReads.lean ====
section
/-! The transactions and the reads of the host port (R172 to R174, R183 to R185). -/

namespace Sys2Proof.Machine

-- One thread for the whole file: its many small proofs would otherwise each take a thread's memory.
set_option Elab.async false

/-! ### What a taken command leaves -/

section
variable {s t : State} {code : Byte} {why : ResponseCode} {bytes : List Byte} {command : State → Answered}

/-- The state in which CSn has risen on a command and this response is held. -/
def answered (response : List Byte) (s : State) : State :=
  s.setHost { s.host with transaction := .idle, held := response }

theorem takeCommand_read (htakes : s.takesCommands = true) (hread : command (riseCsn s) = accept code bytes (riseCsn s)) :
    takeCommand command s = answered ([code, 0x00] ++ bytes) s := takeCommand_accepted htakes hread

theorem respond_refused (hwhy : why ≠ .ok) : respond code why bytes = [code, why.byte] := by
  cases why with
  | ok => exact absurd rfl hwhy
  | state => rfl
  | arg => rfl
  | full => rfl
  | limit => rfl

theorem takeCommand_refusedFor (hwhy : why ≠ .ok) (htakes : s.takesCommands = true)
    (hrefused : command (riseCsn s) = refuse code why (riseCsn s)) :
    takeCommand command s = answered [code, why.byte] s := by
  rw [takeCommand_refused htakes hrefused, respond_refused hwhy]
  rfl

theorem takeCommand_arg (htakes : s.takesCommands = true) (hrefused : command (riseCsn s) = refuse code .arg (riseCsn s)) :
    takeCommand command s = answered [code, 0x02] s := takeCommand_refusedFor (why := .arg) nofun htakes hrefused

theorem takeCommand_state (htakes : s.takesCommands = true)
    (hrefused : command (riseCsn s) = refuse code .state (riseCsn s)) :
    takeCommand command s = answered [code, 0x01] s := takeCommand_refusedFor (why := .state) nofun htakes hrefused

end

/-- A command outside a live transaction. -/
theorem exec_not_taken {s : State} (h : s.takesCommands = false) (c : Instr) (hc : c.isHostCommand = true) :
    exec c s = .next (riseCsn s) := by
  cases c with
  | nop | reset | initPermit _ | initInput _ | initIdle _ | initLead _ | start | stop | submitLocal _ | submitPeer _
  | mark _ | notice | status | peer _ | entry _ | time | capture _ | unknownCommand _ _ =>
    exact congrArg Host.Outcome.next (takeCommand_not_taken _ s h)
  | _ => exact absurd hc Bool.false_ne_true

/-! ### CSn and MISO (R172, R173) -/

section
variable {s : State}

theorem exec_csnFallingEdge (hidle : s.host.transaction = .idle) :
    exec .csnFallingEdge s = .next (s.setHost { s.host with transaction := if s.inReset then .barred else .live }) := by
  refine congrArg Host.Outcome.next ?_
  simp only [fallCsn, hidle]

theorem misoDriven_iff : s.misoDriven = true ↔ s.inReset = false ∧ s.host.transaction ≠ .idle := by
  rw [State.misoDriven, Bool.and_eq_true, Bool.not_eq_true', decide_eq_true_iff]

theorem misoByte_held {before more : List Byte} {b : Byte} (h : s.host.held = before ++ b :: more) :
    s.misoByte before.length = b := by
  rw [State.misoByte, h, List.getD_append_right _ _ _ _ (Nat.le_refl _), Nat.sub_self]
  rfl

theorem misoByte_after {n : Nat} (h : s.host.held.length ≤ n) : s.misoByte n = 0x00 := List.getD_eq_default _ _ h

theorem misoFirstBit_driven {b : Byte} {more : List Byte} (hdriven : s.misoDriven = true) (h : s.host.held = b :: more) :
    s.misoFirstBit = some (b.getLsbD 7) := by
  rw [State.misoFirstBit, if_pos hdriven]
  exact congrArg (fun x : Byte => some (x.getLsbD 7)) (misoByte_held (before := []) h)

end

/-! ### ENTRY and CAPTURE (R184, R185) -/

theorem EntryState.code_eq (x : EntryState) : x.code = if x = .armed then 0 else if x = .scheduled then 1 else 2 := by
  cases x <;> rfl

theorem LatePolicy.code_eq (x : LatePolicy) : x.code = if x = .drop then 0 else if x = .startNow then 1 else 2 := by
  cases x <;> rfl

theorem TriggerEdge.code_eq (x : TriggerEdge) : x.code = if x = .rise then 0 else if x = .fall then 1 else 2 := by
  cases x <;> rfl

theorem EdgeSelect.code_eq (x : EdgeSelect) :
    x.code = if x = .none then 0 else if x = .rise then 1 else if x = .fall then 2 else 3 := by
  cases x <;> rfl

theorem edgeByte_eq (x : Option Edge) : edgeByte x = if x = some .fall then 1 else 0 := by
  rcases x with _ | _ | _ <;> rfl

theorem policyByte_eq (x : Option EventPart) : policyByte x =
    x.elim 0 fun p => if p.latePolicy = .drop then 0 else if p.latePolicy = .startNow then 1 else 2 := by
  cases x with
  | none => rfl
  | some p => exact p.latePolicy.code_eq

theorem followingStart_isSome (e : Entry) : e.followingStart.isSome = e.train.any fun tr => tr.followingStart.isSome := by
  unfold Entry.followingStart
  cases e.train <;> rfl

theorem expiry_isSome (x : Option EventPart) : (x.bind fun p => p.expiry).isSome = x.any fun p => p.expiry.isSome := by
  cases x <;> rfl

theorem trainBytes_eq (x : Option TrainPart) : trainBytes x = x.elim (List.replicate 11 0) fun tr =>
    bytes24 tr.period ++ bytes16 tr.count ++ bytes16 tr.countRemaining ++ bytes32 (tr.followingStart.getD 0) := by
  cases x <;> rfl

theorem eventBytes_eq (x : Option EventPart) : eventBytes x = x.elim (List.replicate 14 0) fun p =>
    [nibbles p.triggerStation p.triggerInput,
      if p.triggerEdge = .rise then 0 else if p.triggerEdge = .fall then 1 else 2] ++
      bytes24 p.delay ++ [p.fires] ++ bytes32 (p.expiry.getD 0) ++ bytes32 p.armTime := by
  cases x with
  | none => rfl
  | some p =>
    rw [Option.elim_some, ← p.triggerEdge.code_eq]
    rfl

/-- The first argument byte of a number in range is that number. -/
theorem toNat_byte {n : Nat} (hn : n ≤ 256) (i : Fin n) : (BitVec.ofNat 8 i.val).toNat = i.val := by
  have hi := i.isLt
  rw [BitVec.toNat_ofNat]
  omega

theorem readEntry_index (i : Index) (more : List Byte) (s : State) :
    readEntry (BitVec.ofNat 8 i.val :: more) s = accept 0x0A (entryBytes (s.entryAt i)) s := by
  have hvalue : (BitVec.ofNat 8 i.val).toNat = i.val := toNat_byte (by decide) i
  have hrange : (BitVec.ofNat 8 i.val).toNat < 48 := lt_of_eq_of_lt hvalue i.isLt
  have hindex : (⟨(BitVec.ofNat 8 i.val).toNat, hrange⟩ : Index) = i := Fin.ext hvalue
  simp only [readEntry]
  rw [dif_pos hrange, hindex]

theorem readCapture_input (i : Input) (more : List Byte) (s : State) :
    readCapture (BitVec.ofNat 8 i.val :: more) s = accept 0x0C (captureBytes s i) s := by
  have hvalue : (BitVec.ofNat 8 i.val).toNat = i.val := toNat_byte (by decide) i
  have hrange : (BitVec.ofNat 8 i.val).toNat < 16 := lt_of_eq_of_lt hvalue i.isLt
  have hinput : (⟨(BitVec.ofNat 8 i.val).toNat, hrange⟩ : Input) = i := Fin.ext hvalue
  simp only [readCapture]
  rw [dif_pos hrange, hinput]

theorem pinOfInput_inputOfPin (p : Pin) : pinOfInput (inputOfPin p) = some p := dif_pos p.isLt

theorem pinOfInput_hostMark {i : Input} (h : 8 ≤ i.val) : pinOfInput i = none := dif_neg (Nat.not_lt.mpr h)

theorem captureSetting_pin (s : State) (p : Pin) :
    captureSetting s (inputOfPin p) = [(s.pin p).edgeSelect.code, (s.pin p).filter] := by
  simp only [captureSetting, pinOfInput_inputOfPin]

theorem captureSetting_hostMark (s : State) {i : Input} (h : 8 ≤ i.val) : captureSetting s i = [0x00, 0x00] := by
  simp only [captureSetting, pinOfInput_hostMark h]
  rfl

section
variable {s : State} (htakes : s.takesCommands = true)
include htakes

theorem exec_entry (i : Index) (more : List Byte) :
    exec (.entry (BitVec.ofNat 8 i.val :: more)) s = .next (answered ([0x0A, 0x00] ++ entryBytes (s.entryAt i)) s) :=
  congrArg Host.Outcome.next (takeCommand_read htakes (readEntry_index i more _))

theorem exec_capture (i : Input) (more : List Byte) :
    exec (.capture (BitVec.ofNat 8 i.val :: more)) s = .next (answered ([0x0C, 0x00] ++ captureBytes s i) s) :=
  congrArg Host.Outcome.next (takeCommand_read htakes (readCapture_input i more _))

end

/-- Settles O45: each read answers its bytes, which are rearranged into the layouts of R175. -/
theorem transactionsOpenCloseAndRead : Obligations.TransactionsOpenCloseAndRead := by
  refine ⟨fun s => ⟨fun hidle hout => ?_, fun hidle hreset => ?_, rfl, fun c hc h => exec_not_taken h c hc, misoDriven_iff,
    fun before b more h => misoByte_held h, fun n h => misoByte_after h, fun h => if_neg (Bool.eq_false_iff.mp h),
    fun b more hdriven h => misoFirstBit_driven hdriven h⟩, fun s htakes => ⟨?_, ?_, ?_, fun i more =>
      ⟨fun hnone => ?_, fun e fixed train event he hfixed htrain hevent => ?_⟩, fun i more record hrecord =>
      ⟨fun p hp => ?_, fun hmark => ?_⟩⟩⟩
  · rw [exec_csnFallingEdge hidle, hout]
    rfl
  · rw [exec_csnFallingEdge hidle, hreset]
    rfl
  · exact congrArg Host.Outcome.next (takeCommand_read (command := accept 0x00 []) htakes rfl)
  · exact congrArg Host.Outcome.next (takeCommand_read (command := readTime) htakes rfl)
  · exact congrArg Host.Outcome.next (takeCommand_read (command := readStatus) htakes rfl)
  · rw [exec_entry htakes, hnone]
    rfl
  · rw [exec_entry htakes, he, hfixed, htrain, hevent, ← trainBytes_eq, ← eventBytes_eq, ← policyByte_eq,
      ← EntryState.code_eq, ← followingStart_isSome, ← expiry_isSome]
    rfl
  · rw [exec_capture htakes, captureBytes, hp, captureSetting_pin, edgeByte_eq, EdgeSelect.code_eq, hrecord, hp]
    simp only [List.append_assoc]
    rfl
  · rw [exec_capture htakes, captureBytes, captureSetting_hostMark s hmark, edgeByte_eq, hrecord]
    simp only [List.append_assoc]
    rfl

end Sys2Proof.Machine
end

