-- ==== Sys2Proof/Proofs/HostSettings.lean ====
section
/-! The settings and the refusals of the host port (R174, R177, R178, R180). -/

namespace Sys2Proof.Machine

-- One thread for the whole file: its many small proofs would otherwise each take a thread's memory.
set_option Elab.async false

/-! ### The levels of a PERMIT section (R175, R177) -/

theorem mapM_ofCode_none {l : List (BitVec 2)} (h : 3#2 ∈ l) : l.mapM PermitLevel.ofCode = none := by
  induction l with
  | nil => exact absurd h List.not_mem_nil
  | cons c l ih =>
    rw [List.mapM_cons]
    rcases List.mem_cons.mp h with rfl | hl
    · rfl
    · rw [ih hl]
      cases PermitLevel.ofCode c <;> rfl

theorem ofCode_legal : ∀ c : BitVec 2, c ≠ 3#2 →
    PermitLevel.ofCode c = some (if c = 0#2 then .deny else if c = 1#2 then .place else .preempt) := by decide

/-- The level of a legal code. -/
def levelOfCode (c : BitVec 2) : PermitLevel := if c = 0#2 then .deny else if c = 1#2 then .place else .preempt

theorem mapM_ofCode_legal {l : List (BitVec 2)} (h : ∀ c ∈ l, c ≠ 3#2) :
    l.mapM PermitLevel.ofCode = some (l.map levelOfCode) := by
  induction l with
  | nil => rfl
  | cons c l ih =>
    rw [List.mapM_cons, ofCode_legal c (h c List.mem_cons_self), ih fun x hx => h x (List.mem_cons_of_mem c hx)]
    rfl

theorem extractLsb'_first (a b c : Byte) (m : Nat) : a.extractLsb' m 2 = (a ++ b ++ c).extractLsb' (8 + 8 + m) 2 := by
  rw [BitVec.extractLsb'_append_eq_of_le (by omega), BitVec.extractLsb'_append_eq_of_le (by omega)]
  congr 1
  omega

theorem extractLsb'_second {m : Nat} (a b c : Byte) (h : m + 2 ≤ 8) :
    b.extractLsb' m 2 = (a ++ b ++ c).extractLsb' (8 + m) 2 := by
  rw [BitVec.extractLsb'_append_eq_of_le (by omega), Nat.add_sub_cancel_left, BitVec.extractLsb'_append_eq_of_add_le h]

theorem extractLsb'_third {m : Nat} (a b c : Byte) (h : m + 2 ≤ 8) :
    c.extractLsb' m 2 = (a ++ b ++ c).extractLsb' m 2 := (BitVec.extractLsb'_append_eq_of_add_le h).symm

/-- The twelve codes of a section are those of its three bytes, channel 0 first. -/
theorem levelsOf_append (a b c : Byte) : levelsOf a ++ levelsOf b ++ levelsOf c =
    (List.finRange 12).map fun n => (a ++ b ++ c).extractLsb' (22 - 2 * n.val) 2 := by
  simp only [levelsOf]
  rw [extractLsb'_first a b c 6, extractLsb'_first a b c 4, extractLsb'_first a b c 2, extractLsb'_first a b c 0,
    extractLsb'_second a b c (m := 6) (by decide), extractLsb'_second a b c (m := 4) (by decide),
    extractLsb'_second a b c (m := 2) (by decide), extractLsb'_second a b c (m := 0) (by decide),
    extractLsb'_third a b c (m := 6) (by decide), extractLsb'_third a b c (m := 4) (by decide),
    extractLsb'_third a b c (m := 2) (by decide), extractLsb'_third a b c (m := 0) (by decide)]
  rfl

theorem permitRow_none {a b c : Byte} (h : ∃ x ∈ [a, b, c], x.extractLsb' 6 2 = 3#2 ∨ x.extractLsb' 4 2 = 3#2 ∨
    x.extractLsb' 2 2 = 3#2 ∨ x.extractLsb' 0 2 = 3#2) : permitRow a b c = none := by
  obtain ⟨x, hx, hcode⟩ := h
  have hlevel : 3#2 ∈ levelsOf x := by
    rcases hcode with h | h | h | h <;> simp [levelsOf, h]
  refine mapM_ofCode_none ?_
  rcases List.mem_cons.mp hx with rfl | hx
  · simp [hlevel]
  · rcases List.mem_cons.mp hx with rfl | hx
    · simp [hlevel]
    · obtain rfl := List.mem_singleton.mp hx
      simp [hlevel]

theorem permitRow_legal {a b c : Byte} (h : ∀ n : ChannelNumber, (a ++ b ++ c).extractLsb' (22 - 2 * n.val) 2 ≠ 3#2) :
    permitRow a b c =
      some ((List.finRange 12).map fun n => levelOfCode ((a ++ b ++ c).extractLsb' (22 - 2 * n.val) 2)) := by
  rw [permitRow, levelsOf_append, mapM_ofCode_legal, List.map_map]
  · rfl
  · intro c hc
    obtain ⟨n, -, rfl⟩ := List.mem_map.mp hc
    exact h n

theorem foldl_setIfInBounds_get {α : Type} {m : Nat} (l : List α) (k : Nat) (row : Vector α m) (i : Nat) (hi : i < m) :
    ((l.zipIdx k).foldl (fun row x => row.setIfInBounds x.2 x.1) row)[i] =
      if k ≤ i then l.getD (i - k) row[i] else row[i] := by
  induction l generalizing k row with
  | nil => simp
  | cons x l ih =>
    rw [List.zipIdx_cons, List.foldl_cons, ih, Vector.getElem_setIfInBounds]
    rcases Nat.lt_trichotomy i k with h | rfl | h
    · rw [if_neg (by omega), if_neg (by omega), if_neg (by omega)]
    · rw [if_neg (by omega), if_pos rfl, if_pos (Nat.le_refl _), Nat.sub_self]
      rfl
    · rw [if_pos (show k + 1 ≤ i by omega), if_neg (show ¬k = i by omega), if_pos (show k ≤ i by omega), show i - k = i - (k + 1) + 1 by omega]
      rfl

theorem rowOf_get (f : ChannelNumber → PermitLevel) (n : ChannelNumber) : (rowOf ((List.finRange 12).map f)).get n = f n := by
  rw [rowOf, Vector.get_eq_getElem, foldl_setIfInBounds_get, if_pos (Nat.zero_le _)]
  simp

/-! ### Refusals (R174, R177, R180) -/

section
variable {s : State}

theorem initPermitSection_short {args : List Byte} (h : args.length < 4) : initPermitSection args s = refuse 0x02 .arg s := by
  rcases args with _ | ⟨k, _ | ⟨a, _ | ⟨b, _ | ⟨c, more⟩⟩⟩⟩
  · rfl
  · rfl
  · rfl
  · rfl
  · simp only [List.length_cons] at h
    omega

theorem initInputSection_short {args : List Byte} (h : args.length < 3) : initInputSection args s = refuse 0x02 .arg s := by
  rcases args with _ | ⟨i, _ | ⟨setting, _ | ⟨filter, more⟩⟩⟩
  · rfl
  · rfl
  · rfl
  · simp only [List.length_cons] at h
    omega

theorem initIdleSection_short {args : List Byte} (h : args.length < 2) : initIdleSection args s = refuse 0x02 .arg s := by
  rcases args with _ | ⟨a, _ | ⟨b, more⟩⟩
  · rfl
  · rfl
  · simp only [List.length_cons] at h
    omega

theorem initLeadSection_short {args : List Byte} (h : args.length < 2) : initLeadSection args s = refuse 0x02 .arg s := by
  rcases args with _ | ⟨a, _ | ⟨b, more⟩⟩
  · rfl
  · rfl
  · simp only [List.length_cons] at h
    omega

theorem initPermitSection_malformed {k a b c : Byte} (more : List Byte)
    (h : 16 ≤ k.toNat ∨ k.toNat = s.own.val ∨ permitRow a b c = none) :
    initPermitSection (k :: a :: b :: c :: more) s = refuse 0x02 .arg s := by
  simp only [initPermitSection]
  rcases h with hrange | hown | hrow
  · rw [dif_neg (Nat.not_lt.mpr hrange)]
  · rw [dif_pos (hown ▸ s.own.isLt), if_pos (Fin.ext hown)]
  · rw [hrow]
    split
    · split <;> rfl
    · rfl

theorem initInputSection_malformed {i : Byte} (more : List Byte) (h : 16 ≤ i.toNat) :
    initInputSection (i :: more) s = refuse 0x02 .arg s := by
  rcases more with _ | ⟨setting, _ | ⟨filter, more⟩⟩
  · rfl
  · rfl
  · simp only [initInputSection]
    exact dif_neg (Nat.not_lt.mpr h)

theorem word16_upper (a b : Byte) : (word16 a b).extractLsb' 12 4 = a.extractLsb' 4 4 :=
  BitVec.extractLsb'_append_eq_of_le (by decide)

theorem initIdleSection_malformed {a : Byte} (b : Byte) (more : List Byte) (h : a.extractLsb' 4 4 ≠ 0#4) :
    initIdleSection (a :: b :: more) s = refuse 0x02 .arg s :=
  if_pos (by rw [word16_upper]; exact h)

theorem readEntry_malformed {b : Byte} (more : List Byte) (h : 48 ≤ b.toNat) :
    readEntry (b :: more) s = refuse 0x0A .arg s := dif_neg (Nat.not_lt.mpr h)

theorem readCapture_malformed {b : Byte} (more : List Byte) (h : 16 ≤ b.toNat) :
    readCapture (b :: more) s = refuse 0x0C .arg s := dif_neg (Nat.not_lt.mpr h)

theorem markInput_malformed {b : Byte} (more : List Byte) (h : b.toNat < 8 ∨ 16 ≤ b.toNat) :
    markInput (b :: more) s = refuse 0x06 .arg s := by
  refine dif_neg fun hrange => ?_
  obtain ⟨hlow, hhigh⟩ := hrange
  omega

theorem submit_malformed {item : List Byte} (h : parseSubmit item = none) : submit item s = refuse 0x05 .arg s := by
  simp only [submit, h]

end

/-- Settles O47: each malformed command is refused before anything else is looked at. -/
theorem malformedCommandsAreRefused : Obligations.MalformedCommandsAreRefused := by
  intro s htakes
  have hrefused : ∀ {code : Byte} {command : State → Answered}, command (riseCsn s) = refuse code .arg (riseCsn s) →
      Host.Outcome.next (takeCommand command s) = (.next (answered [code, 0x02] s) : Host.Outcome State Fault Refusal) :=
    fun h => congrArg Host.Outcome.next (takeCommand_arg htakes h)
  refine ⟨fun code args => hrefused (command := refuse code .arg) rfl, fun u hu => ?_,
    hrefused (command := markInput []) rfl, hrefused (command := readPeer []) rfl, hrefused (command := readEntry []) rfl,
    hrefused (command := readCapture []) rfl, fun b more h => hrefused (readEntry_malformed more h),
    fun b more h => hrefused (readCapture_malformed more h), fun b more h => hrefused (markInput_malformed more h),
    fun item h => ⟨hrefused (submit_malformed h), hrefused (submit_malformed h)⟩⟩
  rw [hu]
  refine ⟨fun args h => hrefused (initPermitSection_short h), fun k a b c more h => hrefused (initPermitSection_malformed more ?_),
    fun args h => hrefused (initInputSection_short h), fun i more h => hrefused (initInputSection_malformed more h),
    fun args h => ⟨hrefused (initIdleSection_short h), hrefused (initLeadSection_short h)⟩,
    fun a b more h => hrefused (initIdleSection_malformed b more h)⟩
  exact h.imp id (Or.imp id permitRow_none)

/-! ### START (R19, R20, R178) -/

section
variable {s : State}

theorem legalStraps_iff : s.legalStraps = true ↔ 2 ≤ s.stationCount ∧ s.own.val < s.stationCount := by
  rw [State.legalStraps, Bool.and_eq_true, decide_eq_true_iff, decide_eq_true_iff]

/-- The state START enters LISTEN from. -/
def frozen (s : State) : State := (riseCsn s).setLink { s.link with frozen := true }

variable (htakes : s.takesCommands = true)
include htakes

theorem exec_start_accepted (hoff : s.link.state = .off) (hlegal : s.legalStraps = true) :
    exec .start s = .next (hold [0x03, 0x00] (enterListen .start none 0 (frozen s))) :=
  congrArg Host.Outcome.next (takeCommand_accepted htakes (if_pos ⟨hoff, hlegal⟩))

theorem exec_start_refused (h : ¬(s.link.state = .off ∧ s.legalStraps = true)) :
    exec .start s = .next (answered [0x03, 0x01] s) :=
  congrArg Host.Outcome.next (takeCommand_state htakes (if_neg h))

end

/-- Settles O49: START enters LISTEN from the state with the configuration frozen. -/
theorem startEntersListen : Obligations.StartEntersListen := by
  intro s htakes
  refine ⟨fun hoff hcount hown => ?_, fun h => exec_start_refused htakes fun hboth => ?_⟩
  · have hchanges := changes_enterListen .start none 0 (frozen s)
    have hlink : (enterListen .start none 0 (frozen s)).link = { s.link with
        state := .listen, frozen := true, listenTimer := some (2 * s.cycleLength + s.own.val * s.slotLength) } := by
      rw [enterListen_link, if_neg]
      · rfl
      · rw [frozen, State.setLink_link, hoff]
        decide
    refine ⟨_, exec_start_accepted htakes hoff (legalStraps_iff.mpr ⟨hcount, hown⟩), hlink, enterListen_now .start none 0 (s := frozen s),
      hchanges.table_eq, hchanges.channels_eq, hchanges.exchange_eq, ?_, ?_⟩
    · have hhost : (enterListen .start none 0 (frozen s)).host = _ :=
        enterListen_host .start none 0 (u := riseCsn s) rfl rfl (c := 0x10) (by decide)
      rw [hold_eq, State.setHost_host, hhost, queueNotice_riseCsn]
      rfl
    · exact (((changes_setHost s _).then (ds := Block.ofListen) (changes_setLink _ _)).then (ds := Block.ofListen)
        hchanges).then (changes_setHost _ _)
  · obtain ⟨hoff, hlegal⟩ := hboth
    obtain ⟨hcount, hown⟩ := legalStraps_iff.mp hlegal
    rcases h with hon | hcount' | hown'
    · exact hon hoff
    · omega
    · omega

end Sys2Proof.Machine
end

