-- ==== Sys2Proof/Proofs/HostInit.lean ====
section
/-! The sections of INIT (R70, R88, R93, R137, R177). -/

namespace Sys2Proof.Machine

-- One thread for the whole file: its many small proofs would otherwise each take a thread's memory.
set_option Elab.async false

/-! ### Each section on a state -/

section
variable {s : State}

theorem initPermitSection_legal {k : Station} {a b c : Byte} (more : List Byte) (hk : k ≠ s.own)
    (h : ∀ n : ChannelNumber, (a ++ b ++ c).extractLsb' (22 - 2 * n.val) 2 ≠ 3#2) :
    initPermitSection (BitVec.ofNat 8 k.val :: a :: b :: c :: more) s =
      if s.link.state = .off then
        accept 0x02 [] (writePermit k (rowOf ((List.finRange 12).map fun n =>
          levelOfCode ((a ++ b ++ c).extractLsb' (22 - 2 * n.val) 2))) s)
      else refuse 0x02 .state s := by
  have hvalue : (BitVec.ofNat 8 k.val).toNat = k.val := toNat_byte (by decide) k
  have hrange : (BitVec.ofNat 8 k.val).toNat < 16 := lt_of_eq_of_lt hvalue k.isLt
  have hstation : (⟨(BitVec.ofNat 8 k.val).toNat, hrange⟩ : Station) = k := Fin.ext hvalue
  simp only [initPermitSection, permitRow_legal h]
  rw [dif_pos hrange, hstation, if_neg hk]

theorem initInputSection_input (i : Input) (setting filter : Byte) (more : List Byte) :
    initInputSection (BitVec.ofNat 8 i.val :: setting :: filter :: more) s =
      if s.link.state = .off then accept 0x02 [] (writeInput i setting filter s) else refuse 0x02 .state s := by
  have hvalue : (BitVec.ofNat 8 i.val).toNat = i.val := toNat_byte (by decide) i
  have hrange : (BitVec.ofNat 8 i.val).toNat < 16 := lt_of_eq_of_lt hvalue i.isLt
  have hinput : (⟨(BitVec.ofNat 8 i.val).toNat, hrange⟩ : Input) = i := Fin.ext hvalue
  simp only [initInputSection]
  rw [dif_pos hrange, hinput]

theorem initIdleSection_legal {a b : Byte} (more : List Byte) (h : (a ++ b).extractLsb' 12 4 = 0#4) :
    initIdleSection (a :: b :: more) s =
      if s.link.state ≠ .off then refuse 0x02 .state s
      else if idleBlocked (a ++ b) s then refuse 0x02 .state s
      else accept 0x02 [] (allChannels.foldl (writeIdle (a ++ b)) s) := if_neg fun hne => hne h

theorem initLeadSection_legal (a b : Byte) (more : List Byte) : initLeadSection (a :: b :: more) s =
    if s.link.state = .off then accept 0x02 [] (s.setExchange { s.exchange with minLead := a ++ b })
    else refuse 0x02 .state s := rfl

/-! ### What the writes leave -/

theorem writePermit_get (k : Station) (row : Vector PermitLevel 12) (s : State) (j : Station) :
    (writePermit k row s).exchange.permit.get j = if j = k then row else s.exchange.permit.get j := by
  simp only [writePermit, State.setExchange_exchange, Vector.get_eq_getElem, Vector.getElem_set, Fin.ext_iff, eq_comm]

theorem writeInput_inputRecord (i : Input) (setting filter : Byte) (s : State) (j : Input) :
    (writeInput i setting filter s).inputRecord j =
      if j = i then { s.inputRecord i with broadcast := setting.getLsbD 5 } else s.inputRecord j := by
  unfold writeInput
  dsimp only
  split
  · rw [State.inputRecord_setInputRecord]
  · rw [State.inputRecord_setPin, State.inputRecord_setInputRecord]

theorem writeInput_hostMark {i : Input} (setting filter : Byte) (s : State) (h : 8 ≤ i.val) :
    writeInput i setting filter s = s.setInputRecord i { s.inputRecord i with broadcast := setting.getLsbD 5 } := by
  simp only [writeInput, pinOfInput_hostMark h]

theorem writeInput_eventNumber (i : Input) (setting filter : Byte) (s : State) :
    (writeInput i setting filter s).capture.eventNumber = s.capture.eventNumber := by
  unfold writeInput
  dsimp only
  split
  · rfl
  · rfl

theorem EdgeSelect.ofCode_eq : ∀ c : BitVec 2, EdgeSelect.ofCode c =
    if c = 0#2 then .none else if c = 1#2 then .rise else if c = 2#2 then .fall else .both := by decide

theorem foldl_writeIdle_channel {levels : BitVec 16} (l : List ChannelNumber) (n : ChannelNumber) :
    (l.foldl (writeIdle levels) s).channel n =
      if n ∈ l then { s.channel n with idle := levelOfBit (levels.getLsbD n.val) } else s.channel n := by
  induction l generalizing s with
  | nil => rfl
  | cons c l ih =>
    have hfirst : (writeIdle levels s c).channel n =
        if n = c then { s.channel c with idle := levelOfBit (levels.getLsbD c.val) } else s.channel n :=
      State.channel_setChannel s c n _
    rw [List.foldl_cons, ih, hfirst]
    by_cases hc : n = c
    · rw [if_pos hc, ← hc, if_pos List.mem_cons_self, ite_self]
    · rw [if_neg hc]
      simp only [List.mem_cons, hc, false_or]

theorem writeIdle_all (levels : BitVec 16) (n : ChannelNumber) : (allChannels.foldl (writeIdle levels) s).channel n =
    { s.channel n with idle := levelOfBit (levels.getLsbD n.val) } := by
  have hn : n ∈ allChannels := List.mem_finRange n
  rw [foldl_writeIdle_channel, if_pos hn]

theorem idleBlocked_iff {levels : BitVec 16} : idleBlocked levels s = true ↔
    ∃ e ∈ s.table, (s.channel e.channel).idle ≠ levelOfBit (levels.getLsbD e.channel.val) := by
  simp only [idleBlocked, List.any_eq_true, bne_iff_ne]

end

/-! ### The sections as commands -/

section
variable {s t : State} {command : State → Answered} (htakes : s.takesCommands = true)
include htakes

theorem takeCommand_written (h : command (riseCsn s) = if s.link.state = .off then accept 0x02 [] t
      else refuse 0x02 .state (riseCsn s)) (hoff : s.link.state = .off) :
    takeCommand command s = hold [0x02, 0x00] t := takeCommand_accepted htakes (h.trans (if_pos hoff))

theorem takeCommand_frozen (h : command (riseCsn s) = if s.link.state = .off then accept 0x02 [] t
      else refuse 0x02 .state (riseCsn s)) (hon : s.link.state ≠ .off) :
    takeCommand command s = answered [0x02, 0x01] s := takeCommand_state htakes (h.trans (if_neg hon))

end

/-- What a write of one block leaves, with the response held. -/
theorem hold_written {s t : State} {b : Block} {response : List Byte} (h : Changes [b] (riseCsn s) t)
    (hb : Block.host ∉ [b] := by decide) :
    (hold response t).host = { s.host with transaction := .idle, held := response } ∧
      Changes [b, .host] s (hold response t) := by
  have hhost : t.host = (riseCsn s).host := h _ hb
  refine ⟨?_, ((changes_setHost s _).then (ds := [b, .host]) h (by simp) (by simp)).then (changes_setHost _ _) (by simp) (by simp)⟩
  rw [hold_eq, State.setHost_host, hhost]
  rfl

/-- Settles O48: each section in OFF is one write on the state with CSn high. -/
theorem initWritesOneSectionInOff : Obligations.InitWritesOneSectionInOff := by
  intro s htakes
  refine ⟨fun hoff => ⟨fun k a b c more code hk hcode hlegal => ?_, fun p setting filter more => ?_,
    fun i setting filter more hi => ?_, fun a b more hform => ?_, fun a b more => ?_⟩, fun hon u hu =>
    ⟨fun k a b c more hk hlegal => ?_, fun i setting filter more => ?_, fun a b more hform => ?_, fun a b more => ?_⟩⟩
  · have hform := initPermitSection_legal (s := riseCsn s) more hk fun n => hcode n ▸ hlegal n
    obtain ⟨hhost, hchanges⟩ := hold_written (response := [0x02, 0x00]) (s := s) (changes_setExchange (riseCsn s) _)
    refine ⟨_, congrArg Host.Outcome.next (takeCommand_written htakes hform hoff), fun n => ?_, fun j hj => ?_, rfl, hhost,
      hchanges⟩
    · refine (congrArg (Vector.get · n) (writePermit_get k _ (riseCsn s) k)).trans ?_
      rw [if_pos rfl, rowOf_get, ← hcode n]
      rfl
    · exact (writePermit_get k _ (riseCsn s) j).trans (if_neg hj)
  · have hform := initInputSection_input (s := riseCsn s) (inputOfPin p) setting filter more
    obtain ⟨hhost, hchanges⟩ := hold_written (response := [0x02, 0x00]) (s := s)
      (changes_writeInput (inputOfPin p) setting filter (riseCsn s))
    refine ⟨_, congrArg Host.Outcome.next (takeCommand_written htakes hform hoff), ?_, fun q hq => ?_, ?_, fun j hj => ?_,
      writeInput_eventNumber _ _ _ _, hhost, hchanges⟩
    · refine (writeInput_pin (inputOfPin p) setting filter (riseCsn s) p).trans ?_
      rw [pinOfInput_inputOfPin, if_pos rfl, EdgeSelect.ofCode_eq]
      rfl
    · refine (writeInput_pin (inputOfPin p) setting filter (riseCsn s) q).trans ?_
      rw [pinOfInput_inputOfPin, if_neg fun h => hq (Option.some.inj h).symm]
      rfl
    · exact (writeInput_inputRecord (inputOfPin p) setting filter (riseCsn s) _).trans (if_pos rfl)
    · exact (writeInput_inputRecord (inputOfPin p) setting filter (riseCsn s) j).trans (if_neg hj)
  · have hform := initInputSection_input (s := riseCsn s) i setting filter more
    obtain ⟨hhost, hchanges⟩ := hold_written (response := [0x02, 0x00]) (s := s)
      (changes_writeInput i setting filter (riseCsn s))
    refine ⟨_, congrArg Host.Outcome.next (takeCommand_written htakes hform hoff), ?_, fun j hj => ?_, ?_,
      writeInput_eventNumber _ _ _ _, hhost, hchanges⟩
    · exact (writeInput_inputRecord i setting filter (riseCsn s) _).trans (if_pos rfl)
    · exact (writeInput_inputRecord i setting filter (riseCsn s) j).trans (if_neg hj)
    · rw [writeInput_hostMark setting filter (riseCsn s) hi]
      rfl
  · have hform := initIdleSection_legal (s := riseCsn s) more hform
    rw [if_neg fun h => h hoff] at hform
    cases hblocked : idleBlocked (a ++ b) (riseCsn s) with
    | true =>
      rw [hblocked, if_pos rfl] at hform
      refine ⟨_, congrArg Host.Outcome.next (takeCommand_state htakes hform), fun hall => ?_, fun _ => rfl⟩
      obtain ⟨e, he, hne⟩ := idleBlocked_iff.mp hblocked
      exact absurd (hall e he) hne
    | false =>
      rw [hblocked, if_neg Bool.false_ne_true] at hform
      obtain ⟨hhost, hchanges⟩ := hold_written (response := [0x02, 0x00]) (s := s)
        (changes_writeIdles (a ++ b) (riseCsn s))
      have hwritten := writeIdle_all (s := riseCsn s) (a ++ b)
      generalize allChannels.foldl (writeIdle (a ++ b)) (riseCsn s) = t at hform hhost hchanges hwritten
      refine ⟨_, congrArg Host.Outcome.next (takeCommand_accepted htakes hform),
        fun _ => ⟨hwritten, hhost, hchanges⟩, fun hsome => ?_⟩
      exact absurd (idleBlocked_iff.mpr hsome) (Bool.eq_false_iff.mp hblocked)
  · obtain ⟨hhost, hchanges⟩ := hold_written (response := [0x02, 0x00]) (s := s)
      (changes_setExchange (riseCsn s) { s.exchange with minLead := a ++ b })
    exact ⟨_, congrArg Host.Outcome.next
      (takeCommand_written htakes (initLeadSection_legal (s := riseCsn s) a b more) hoff), rfl, hhost, hchanges⟩
  · rw [hu]
    exact congrArg Host.Outcome.next
      (takeCommand_frozen htakes (initPermitSection_legal (s := riseCsn s) more hk hlegal) hon)
  · rw [hu]
    exact congrArg Host.Outcome.next
      (takeCommand_frozen htakes (initInputSection_input (s := riseCsn s) i setting filter more) hon)
  · rw [hu]
    exact congrArg Host.Outcome.next
      (takeCommand_state htakes ((initIdleSection_legal (s := riseCsn s) more hform).trans (if_pos hon)))
  · rw [hu]
    exact congrArg Host.Outcome.next (takeCommand_frozen htakes (initLeadSection_legal (s := riseCsn s) a b more) hon)

end Sys2Proof.Machine
end

