-- ==== Sys2Proof/Proofs/Judgements.lean ====
section
/-! The judgement of a request (R86 to R95). -/

namespace Sys2Proof.Machine

-- One thread for the whole file: its many small proofs would otherwise each take a thread's memory.
set_option Elab.async false

/-! ### The subject (R95, R107) -/

section
variable {s : State} {k : Station} {n : RequestNumber}

theorem entryNamed_isSome : (s.entryNamed k n).isSome = true ↔ ∃ x ∈ s.table, x.origin = k ∧ x.number = n := by
  rw [State.entryNamed, List.find?_isSome]
  simp only [Bool.and_eq_true, beq_iff_eq]

theorem entryNamed_eq_none : s.entryNamed k n = none ↔ ∀ x ∈ s.table, ¬(x.origin = k ∧ x.number = n) := by
  rw [State.entryNamed, List.find?_eq_none]
  simp only [Bool.and_eq_true, beq_iff_eq]

theorem entryNamed_eq_some {e : Entry} (h : s.entryNamed k n = some e) : e ∈ s.table ∧ e.origin = k ∧ e.number = n := by
  have hfound := List.find?_some h
  rw [Bool.and_eq_true, beq_iff_eq, beq_iff_eq] at hfound
  exact ⟨List.mem_of_find?_eq_some h, hfound⟩

end

/-! ### An ORDER (R86, R88, R93) -/

section
variable {s : State} {k : Station} {n : RequestNumber} {o : OrderFields}

/-- The conditions of R86 on the fields, those of the basis and those of the train by name. -/
theorem badFields_iff {basis train : Prop}
    (hbasis : basis ↔ ∃ e, o.basis = .event e ∧
      (e.latePolicy = 3 ∨ e.edge = 3 ∨ (s.stationCount ≤ e.station.val ∧ e.station ≠ s.own)))
    (htrain : train ↔ ∃ tr, o.train = some tr ∧
      (o.width = 0 ∨ tr.period.toNat < 2 ∨ tr.period.toNat ≤ o.width.toNat)) :
    badFields s o = true ↔ 12 ≤ o.channel.val ∨ basis ∨ train := by
  rw [badFields, Bool.or_eq_true, Bool.or_eq_true, decide_eq_true_iff, hbasis, htrain, or_assoc]
  refine or_congr Iff.rfl (or_congr ?_ ?_)
  · cases o.basis with
    | absolute due => simp
    | event e => simp [or_assoc]
  · cases o.train with
    | none => simp
    | some tr => simp [or_assoc]

theorem permitted_eq_false {c : ChannelNumber} (hc : c.val = o.channel.val) :
    permitted s k o = false ↔ k ≠ s.own ∧ ((s.exchange.permit.get k).get c = .deny ∨
      ((s.exchange.permit.get k).get c = .place ∧ o.preempt = true)) := by
  have hchannel : o.channelNumber = c := by
    refine Fin.ext ?_
    rw [OrderFields.channelNumber, Fin.val_ofNat, ← hc]
    exact Nat.mod_eq_of_lt c.isLt
  rw [permitted, hchannel, Bool.or_eq_false_iff, decide_eq_false_iff_not]
  refine and_congr Iff.rfl ?_
  cases (s.exchange.permit.get k).get c <;> cases o.preempt <;> decide

theorem judgeOrder_badField (h : badFields s o = true ∨ (s.entryNamed k n).isSome = true) :
    judgeRequest s k n (.order o) = .badField :=
  if_pos ((Bool.or_eq_true _ _).mpr h)

theorem judgeOrder_denied (h : ¬(badFields s o = true ∨ (s.entryNamed k n).isSome = true)) (hpermit : permitted s k o = false) :
    judgeRequest s k n (.order o) = .denied := by
  rw [← Bool.or_eq_true] at h
  refine (if_neg h).trans (if_pos ?_)
  rw [hpermit]
  rfl

section
variable (h : ¬(badFields s o = true ∨ (s.entryNamed k n).isSome = true)) (hpermit : permitted s k o = true)
include h hpermit

theorem judgeOrder_timing {code : ReplyCode} (htiming : judgeTiming s o = some code) :
    judgeRequest s k n (.order o) = code := by
  rw [← Bool.or_eq_true] at h
  simp only [judgeRequest, judgeOrder, if_neg h, hpermit, htiming, Bool.not_true, Bool.false_eq_true, if_false]

theorem judgeOrder_room (htiming : judgeTiming s o = none) :
    judgeRequest s k n (.order o) = if 48 ≤ s.table.length then .full else .accepted := by
  rw [← Bool.or_eq_true] at h
  simp only [judgeRequest, judgeOrder, if_neg h, hpermit, htiming, Bool.not_true, Bool.false_eq_true, if_false]

end

/-! ### Timing (R93, R94) -/

section
variable {d least : Nat}

theorem judgeDistance_late (h : d = 0 ∨ 2 ^ 31 ≤ d ∨ d < least) : judgeDistance d least = some .late := by
  unfold judgeDistance
  by_cases hpassed : d = 0 ∨ 2 ^ 31 ≤ d
  · rw [if_pos hpassed]
  · rw [if_neg hpassed, if_pos (by omega)]

theorem judgeDistance_none (hahead : 0 < d) (hleast : least ≤ d) (hnear : d ≤ 2 ^ 30) : judgeDistance d least = none := by
  unfold judgeDistance
  rw [if_neg (by omega), if_neg (by omega), if_neg (Nat.not_lt.mpr hnear)]

theorem judgeDistance_far (hleast : least ≤ d) (hfar : 2 ^ 30 < d) (hahead : d < 2 ^ 31) :
    judgeDistance d least = some .far := by
  unfold judgeDistance
  rw [if_neg (by omega), if_neg (by omega), if_pos hfar]

end

theorem lead_le_maximum (x : BitVec 16) : x.toNat ≤ 2 ^ 30 := x.isLt.le.trans (by decide)

theorem judgeTiming_absolute {due : Time} (h : o.basis = .absolute due) :
    judgeTiming s o = judgeDistance (due - s.now).toNat s.exchange.minLead.toNat := by
  simp only [judgeTiming, h]

theorem judgeTiming_unlimited {ev : EventFields} (h : o.basis = .event ev) (hexpiry : ev.expiry = none) :
    judgeTiming s o = none := by
  simp only [judgeTiming, h, hexpiry]

theorem judgeTiming_expiry {ev : EventFields} {x : Time} (h : o.basis = .event ev) (hexpiry : ev.expiry = some x) :
    judgeTiming s o = judgeDistance (x - s.now).toNat 0 := by
  simp only [judgeTiming, h, hexpiry]

end

/-! ### An AMEND and a CANCEL (R95) -/

section
variable {s : State} {k : Station} {n subject : RequestNumber} {delta : BitVec 24} {e : Entry}

theorem judgeAmend_armed {p : EventPart} (hstate : e.state = .armed) (hevent : e.event = some p) :
    judgeAmend s e delta =
      if 0 ≤ (p.delay.toNat : Int) + delta.toInt ∧ (p.delay.toNat : Int) + delta.toInt < 2 ^ 24 then .accepted
      else .badField := by
  simp only [judgeAmend, hstate, hevent]
  rfl

theorem judgeAmend_moving (hstate : e.state ≠ .armed) : judgeAmend s e delta =
    if delta ≠ 0 ∧ (e.shiftedEdges delta).any (tooFar s.now) = true then .far else .accepted := by
  unfold judgeAmend
  split
  · rename_i harmed _
    exact absurd harmed hstate
  · rfl

theorem tooFar_iff {now x : Time} : tooFar now x = true ↔ 2 ^ 30 + 2 ^ 24 < (x - now).toNat ∧ (x - now).toNat < 2 ^ 31 := by
  rw [tooFar, Bool.and_eq_true, afterTime_iff, decide_eq_true_iff]
  show (0 < (x - now).toNat ∧ (x - now).toNat < 2 ^ 31) ∧ 2 ^ 30 + 2 ^ 24 < (x - now).toNat ↔ _
  omega

theorem shiftedEdges_any (hstate : e.state ≠ .armed) (f : Time → Bool) : (e.shiftedEdges delta).any f = true ↔
    ∃ x, (e.nextEdge = some x ∨ e.followingStart = some x) ∧ f (x + delta.signExtend 32) = true := by
  have hmoved : e.shiftedEdges delta =
      (e.nextEdge.toList ++ e.followingStart.toList).map fun x => x + delta.signExtend 32 := by
    unfold Entry.shiftedEdges
    split
    · rename_i harmed
      exact absurd harmed hstate
    · rfl
    · rfl
  rw [hmoved, List.any_map, List.any_eq_true]
  simp only [List.mem_append, Option.mem_toList, Function.comp]

theorem judgeAmend_of_named (h : s.entryNamed k subject = some e) :
    judgeRequest s k n (.amend subject delta) = judgeAmend s e delta := by
  simp only [judgeRequest, h]

end

/-- Settles O41: the rows of the judgement, each from the checks before it. -/
theorem requestsAreJudgedInOrder : Obligations.RequestsAreJudgedInOrder := by
  intro s k n
  refine ⟨fun o c bad denied hbad hdenied => ?_, fun o due d hbasis hd => ?_, fun o ev hbasis =>
    ⟨judgeTiming_unlimited hbasis, fun x d hx hd => ?_⟩, fun subject delta => ⟨fun hnone => ?_, fun e he => ?_⟩⟩
  · have hjudged : bad ↔ badFields s o = true ∨ (s.entryNamed k n).isSome = true := by
      rw [hbad, badFields_iff Iff.rfl Iff.rfl, entryNamed_isSome]
      rw [or_assoc, or_assoc]
    rw [hjudged]
    refine ⟨judgeOrder_badField, fun hgood hc => ?_⟩
    rw [hdenied, ← permitted_eq_false hc, Bool.not_eq_false]
    refine ⟨judgeOrder_denied hgood, fun hpermit => ⟨fun code => judgeOrder_timing hgood hpermit, fun htiming hfull => ?_,
      fun htiming hroom => ?_⟩⟩
    · exact (judgeOrder_room hgood hpermit htiming).trans (if_pos hfull)
    · exact (judgeOrder_room hgood hpermit htiming).trans (if_neg (Nat.not_le.mpr hroom))
  · rw [judgeTiming_absolute hbasis, ← hd]
    refine ⟨judgeDistance_late, judgeDistance_none, fun hfar hahead => judgeDistance_far ?_ hfar hahead⟩
    exact (lead_le_maximum s.exchange.minLead).trans hfar.le
  · rw [judgeTiming_expiry hbasis hx, ← hd]
    exact ⟨fun h => judgeDistance_late (h.imp id .inl), fun hahead => judgeDistance_none hahead (Nat.zero_le _),
      judgeDistance_far (Nat.zero_le _)⟩
  · have hunnamed := entryNamed_eq_none.mpr hnone
    simp only [judgeRequest, hunnamed, and_self]
  · obtain ⟨hmem, horigin, hnumber⟩ := entryNamed_eq_some he
    rw [judgeAmend_of_named he]
    refine ⟨hmem, horigin, hnumber, ?_, fun p hstate hevent => ?_, fun far hstate hfar => ?_⟩
    · simp only [judgeRequest, he]
    · rw [judgeAmend_armed hstate hevent]
      refine if_congr (and_congr Iff.rfl ?_) rfl rfl
      omega
    · have hjudged : far ↔ delta ≠ 0 ∧ (e.shiftedEdges delta).any (tooFar s.now) = true := by
        rw [hfar, shiftedEdges_any hstate]
        simp only [tooFar_iff]
      rw [hjudged, judgeAmend_moving hstate]
      exact ⟨fun h => if_pos h, fun h => if_neg h⟩

end Sys2Proof.Machine
end

