-- ==== Sys2Proof/Proofs/Requests.lean ====
section
/-! Requests at their target and at their origin (R85, R89 to R92, R96, R97, R101, R103, R162). -/

namespace Sys2Proof.Machine

-- One thread for the whole file: its many small proofs would otherwise each take a thread's memory.
set_option Elab.async false

/-! ### The place of a new entry (R96, R107) -/

section
variable {s : State}

theorem freeIndex_lowest {i : Index} (h : s.freeIndex = some i) : s.entryAt i = none ∧ ∀ j, j < i → s.entryAt j ≠ none := by
  obtain ⟨hfree, n, hn, hi, hbefore⟩ := List.find?_eq_some_iff_getElem.mp h
  have hvalue : n = i.val := by simpa [allIndices] using congrArg Fin.val hi
  refine ⟨Option.isNone_iff_eq_none.mp hfree, fun j hj hnone => ?_⟩
  have hoccupied := hbefore j.val (hvalue ▸ hj)
  have hindex : allIndices[j.val]'((hvalue ▸ hj : j.val < n).trans hn) = j := by
    simp only [allIndices, List.getElem_finRange]
    rfl
  rw [hindex, hnone] at hoccupied
  exact Bool.false_ne_true hoccupied

theorem freeIndex_of_room (h : s.table.length < 48) : ∃ i, s.freeIndex = some i := by
  refine Option.isSome_iff_exists.mp (List.find?_isSome.mpr ?_)
  by_contra hall
  have hoccupied : ∀ i : Index, ∃ e ∈ s.table, e.index = i := by
    intro i
    by_contra hnot
    refine hall ⟨i, List.mem_finRange i, ?_⟩
    rw [Option.isNone_iff_eq_none, State.entryAt, List.find?_eq_none]
    exact fun e he heq => hnot ⟨e, he, beq_iff_eq.mp heq⟩
  have hsubset : List.finRange 48 ⊆ s.table.map fun e => e.index := fun i _ => List.mem_map.mpr (hoccupied i)
  have hlength := ((List.nodup_finRange 48).subperm hsubset).length_le
  rw [List.length_finRange, List.length_map] at hlength
  omega

variable {k : Station} {n : RequestNumber}

theorem judgeDistance_ne_accepted (d least : Nat) : judgeDistance d least ≠ some .accepted := by
  unfold judgeDistance
  split
  · decide
  · split
    · decide
    · split <;> decide

theorem judgeTiming_ne_accepted (o : OrderFields) : judgeTiming s o ≠ some .accepted := by
  unfold judgeTiming
  split
  · exact judgeDistance_ne_accepted _ _
  · split
    · exact nofun
    · exact judgeDistance_ne_accepted _ _

theorem accepted_order_room {o : OrderFields} (h : judgeRequest s k n (.order o) = .accepted) : s.table.length < 48 := by
  by_contra hfull
  have hroom : 48 ≤ s.table.length := Nat.not_lt.mp hfull
  simp only [judgeRequest, judgeOrder] at h
  split at h
  · cases h
  split at h
  · cases h
  split at h
  · rename_i code htiming
    exact judgeTiming_ne_accepted o (h ▸ htiming)
  · cases h

theorem accepted_amend {subject : RequestNumber} {delta : BitVec 24}
    (h : judgeRequest s k n (.amend subject delta) = .accepted) : ∃ e, s.entryNamed k subject = some e := by
  cases he : s.entryNamed k subject with
  | none => simp only [judgeRequest, he, reduceCtorEq] at h
  | some e => exact ⟨e, rfl⟩

theorem accepted_cancel {subject : RequestNumber} (h : judgeRequest s k n (.cancel subject) = .accepted) :
    ∃ e, s.entryNamed k subject = some e := by
  cases he : s.entryNamed k subject with
  | none => simp only [judgeRequest, he, reduceCtorEq] at h
  | some e => exact ⟨e, rfl⟩

theorem applyRequest_order {i : Index} (o : OrderFields) (h : s.freeIndex = some i) :
    applyRequest k n (.order o) s = s.setTable (s.table ++ [o.newEntry i k n s.now]) := by
  simp only [applyRequest, placeOrder, h]

theorem applyRequest_amend {subject : RequestNumber} {e : Entry} (delta : BitVec 24) (h : s.entryNamed k subject = some e) :
    applyRequest k n (.amend subject delta) s = amendEntry e delta s := by
  simp only [applyRequest, h]

theorem applyRequest_cancel {subject : RequestNumber} {e : Entry} (h : s.entryNamed k subject = some e) :
    applyRequest k n (.cancel subject) s = cancelEntry e s := by
  simp only [applyRequest, h]

end

/-! ### At the target (R89 to R92, R97) -/

section
variable {s : State} {k : Station} {n : RequestNumber} {r : Request} {code : ReplyCode}

theorem takeItem_request : takeItem k (.request s.own n r) s = acceptRequest k n r s := if_pos rfl

theorem answerRequest_eq (hroom : s.exchange.replyQueue.length < 16) : answerRequest k n code s =
    (setCacheOf k (s.cacheOf k ++ [{ number := n, code := code, expiry := s.cycle.cycleNumber + 8 }]) s).setExchange
      { (setCacheOf k (s.cacheOf k ++ [{ number := n, code := code, expiry := s.cycle.cycleNumber + 8 }]) s).exchange with
        replyQueue := s.exchange.replyQueue ++ [.reply k n code] } := queueReplyItem_of_room _ _ hroom

theorem answerRequest_cacheOf (hroom : s.exchange.replyQueue.length < 16) (j : Station) :
    (answerRequest k n code s).cacheOf j =
      if j = k then s.cacheOf k ++ [{ number := n, code := code, expiry := s.cycle.cycleNumber + 8 }] else s.cacheOf j := by
  rw [answerRequest_eq hroom]
  exact State.cacheOf_setCacheOf s k j _

theorem answerRequest_exchange (hroom : s.exchange.replyQueue.length < 16) : (answerRequest k n code s).exchange =
    { s.exchange with
      replyQueue := s.exchange.replyQueue ++ [.reply k n code], cache := (answerRequest k n code s).exchange.cache } := by
  rw [answerRequest_eq hroom]
  rfl

end

/-- Settles O42: the item is ignored, answered from the cache, or answered (w) and then applied to w. -/
theorem requestIsAnsweredFromTheCacheOrTakesEffectOnce : Obligations.RequestIsAnsweredFromTheCacheOrTakesEffectOnce := by
  intro s t k n r ht
  rw [takeItem_request] at ht
  refine ⟨fun h => ht.trans (acceptRequest_ignored k n r s h), fun hannounced hroom => ⟨fun code hcode => ?_,
    fun hnone hcap => ht.trans (acceptRequest_capped r hnone hcap), fun hnone hcap => ?_⟩⟩
  · rw [acceptRequest_cached r hannounced hroom hcode, queueReplyItem_of_room _ _ hroom] at ht
    exact ht ▸ ⟨rfl, changes_setExchange s _⟩
  · rw [acceptRequest_judged r hannounced hroom hnone hcap] at ht
    have hchanges : Changes [.exchange] s (answerRequest k n (judgeRequest s k n r) s) := changes_answerRequest k n _ s
    refine ⟨_, (answerRequest_cacheOf hroom k).trans (if_pos rfl), fun j hj => (answerRequest_cacheOf hroom j).trans (if_neg hj),
      answerRequest_exchange hroom, hchanges, fun hrefused => ht.trans (if_neg hrefused), fun haccepted => ?_⟩
    have happlied : t = applyRequest k n r (answerRequest k n (judgeRequest s k n r) s) := ht.trans (if_pos haccepted)
    have htable := hchanges.table_eq
    have hnow := now_of_changes hchanges
    generalize answerRequest k n (judgeRequest s k n r) s = w at htable hnow happlied
    have hnamed : ∀ subject, w.entryNamed k subject = s.entryNamed k subject := fun subject => by
      rw [State.entryNamed, htable, State.entryNamed]
    refine ⟨fun o ho => ?_, fun subject delta hr => ?_, fun subject hr => ?_⟩
    · obtain ⟨i, hi⟩ := freeIndex_of_room (accepted_order_room (ho ▸ haccepted))
      have hfree : w.freeIndex = some i := by
        rw [← hi, State.freeIndex, State.freeIndex]
        simp only [State.entryAt, htable]
      obtain ⟨hempty, hlowest⟩ := freeIndex_lowest hi
      exact ⟨i, hempty, hlowest, by rw [happlied, ho, applyRequest_order o hfree, htable, hnow]⟩
    · obtain ⟨e, he⟩ := accepted_amend (hr ▸ haccepted)
      exact ⟨e, he, by rw [happlied, hr, applyRequest_amend delta ((hnamed subject).trans he)]⟩
    · obtain ⟨e, he⟩ := accepted_cancel (hr ▸ haccepted)
      exact ⟨e, he, by rw [happlied, hr, applyRequest_cancel ((hnamed subject).trans he)]⟩

end Sys2Proof.Machine
end

