-- ==== Sys2Proof/Proofs/Submissions.lean ====
section
/-! SUBMIT: the number drawn, and the two paths of a request (R85, R101, R103, R162, R180). -/

namespace Sys2Proof.Machine

-- One thread for the whole file: its many small proofs would otherwise each take a thread's memory.
set_option Elab.async false

/-! ### The number drawn (R85) -/

/-- The search passes over taken numbers only. -/
theorem freeNumber_eq (taken : List RequestNumber) (fuel : Nat) (c : RequestNumber) : ∃ m ≤ fuel,
    freeNumber taken fuel c = c + BitVec.ofNat 12 m ∧ ∀ j, j < m → c + BitVec.ofNat 12 j ∈ taken := by
  induction fuel generalizing c with
  | zero => exact ⟨0, Nat.le_refl _, (BitVec.add_zero c).symm, fun j hj => absurd hj (Nat.not_lt_zero j)⟩
  | succ fuel ih =>
    unfold freeNumber
    split
    · rename_i htaken
      have hnext : ∀ j, c + BitVec.ofNat 12 (j + 1) = c + 1 + BitVec.ofNat 12 j := fun j => by
        rw [Nat.add_comm j 1, BitVec.ofNat_add, BitVec.add_assoc]
        rfl
      obtain ⟨m, hm, heq, hpassed⟩ := ih (c + 1)
      refine ⟨m + 1, Nat.succ_le_succ hm, heq.trans (hnext m).symm, fun j hj => ?_⟩
      cases j with
      | zero => exact (BitVec.add_zero c).symm ▸ List.contains_iff_mem.mp htaken
      | succ j => exact (hnext j).symm ▸ hpassed j (Nat.lt_of_succ_lt_succ hj)
    · exact ⟨0, Nat.zero_le _, (BitVec.add_zero c).symm, fun j hj => absurd hj (Nat.not_lt_zero j)⟩

theorem nextNumber_eq {s : State} (h : s.exchange.requests.length ≤ 16) : ∃ m ≤ 16,
    s.nextNumber = s.exchange.counter + BitVec.ofNat 12 m ∧
      ∀ j, j < m → ∃ r ∈ s.exchange.requests, r.number = s.exchange.counter + BitVec.ofNat 12 j := by
  obtain ⟨m, hm, heq, hpassed⟩ := freeNumber_eq (s.exchange.requests.map fun r => r.number)
    (s.exchange.requests.map fun r => r.number).length s.exchange.counter
  rw [List.length_map] at hm
  exact ⟨m, hm.trans h, heq, fun j hj => List.mem_map.mp (hpassed j hj)⟩

theorem nextNumber_free {s : State} (h : s.exchange.requests.length ≤ 16) :
    ∀ r ∈ s.exchange.requests, r.number ≠ s.nextNumber := fun r hr heq =>
  nextNumber_not_mem h (List.mem_map.mpr ⟨r, hr, heq⟩)

/-! ### A local request (R101) -/

section
variable {s : State} {r : Request} {item : List Byte}

theorem judgeRequest_drawNumber (s : State) (k : Station) (n : RequestNumber) (r : Request) :
    judgeRequest (drawNumber (riseCsn s)) k n r = judgeRequest s k n r := by
  cases r with
  | order o => rfl
  | amend subject delta => rfl
  | cancel subject => rfl

theorem submit_local (hitem : parseSubmit item = some (s.own, r)) : submit item s = submitLocally r s := by
  simp only [submit, hitem, if_true]

theorem submit_peer {k : Station} (hitem : parseSubmit item = some (k, r)) (hk : k ≠ s.own) :
    submit item s = submitToPeer k r s := by
  simp only [submit, hitem, if_neg hk]

variable (htakes : s.takesCommands = true) (hitem : parseSubmit item = some (s.own, r))
include htakes hitem

theorem exec_submitLocal_refused (hrefused : judgeRequest s s.own s.nextNumber r ≠ .accepted) :
    exec (.submitLocal item) s = .next (hold ([0x05, 0x00] ++ (number16 s.nextNumber ++
      [codeByte (judgeRequest s s.own s.nextNumber r).code, 0xFF])) (drawNumber (riseCsn s))) := by
  rw [← judgeRequest_drawNumber] at hrefused ⊢
  have hlocal : submit item (riseCsn s) = submitLocally r (riseCsn s) := submit_local (s := riseCsn s) hitem
  exact congrArg Host.Outcome.next (takeCommand_accepted htakes (hlocal.trans (if_neg hrefused)))

theorem exec_submitLocal_accepted {i : Index} (haccepted : judgeRequest s s.own s.nextNumber r = .accepted)
    (hindex : requestIndex (drawNumber (riseCsn s)) s.own r = some i) :
    exec (.submitLocal item) s = .next (hold ([0x05, 0x00] ++ (number16 s.nextNumber ++ [0x00, BitVec.ofNat 8 i.val]))
      (applyRequest s.own s.nextNumber r (drawNumber (riseCsn s)))) := by
  rw [← judgeRequest_drawNumber] at haccepted
  have hlocal : submit item (riseCsn s) = submitLocally r (riseCsn s) := submit_local (s := riseCsn s) hitem
  have hanswer : submitLocally r (riseCsn s) = accept 0x05 (number16 s.nextNumber ++ [0x00, BitVec.ofNat 8 i.val])
      (applyRequest s.own s.nextNumber r (drawNumber (riseCsn s))) := by
    refine (if_pos haccepted).trans ?_
    show accept 0x05 (number16 s.nextNumber ++ [codeByte (judgeRequest (drawNumber (riseCsn s)) s.own s.nextNumber r).code,
      indexByte (requestIndex (drawNumber (riseCsn s)) s.own r)]) _ = _
    rw [haccepted, hindex]
    rfl
  exact congrArg Host.Outcome.next (takeCommand_accepted htakes (hlocal.trans hanswer))

end

/-! ### The entry an ORDER makes (R96, R108) -/

theorem TriggerEdge.ofCode_eq : ∀ c : BitVec 2,
    TriggerEdge.ofCode c = if c = 0 then .rise else if c = 1 then .fall else .either := by decide

theorem LatePolicy.ofCode_eq : ∀ c : BitVec 2,
    LatePolicy.ofCode c = if c = 0 then .drop else if c = 1 then .startNow else .rearm := by decide

section
variable (o : OrderFields) (i : Index) (k : Station) (n : RequestNumber) (now : Time)

theorem newEntry_absolute {due : Time} (h : o.basis = .absolute due) :
    (o.newEntry i k n now).state = .scheduled ∧ (o.newEntry i k n now).nextEdge = some due ∧
      (o.newEntry i k n now).event = none ∧ (o.newEntry i k n now).train = o.train.map fun tr =>
        { period := tr.period, count := tr.count, countRemaining := tr.count, followingStart := none } := by
  simp only [OrderFields.newEntry, TrainFields.part, h, and_self]

theorem newEntry_event {ev : EventFields} (h : o.basis = .event ev) :
    (o.newEntry i k n now).state = .armed ∧ (o.newEntry i k n now).nextEdge = none ∧
      ((o.newEntry i k n now).train = o.train.map fun tr =>
        { period := tr.period, count := tr.count, countRemaining := 0, followingStart := none }) ∧
      (o.newEntry i k n now).event = some
        { triggerStation := ev.station, triggerInput := ev.input
          triggerEdge := if ev.edge = 0 then .rise else if ev.edge = 1 then .fall else .either
          delay := ev.delay, fires := ev.fires, expiry := ev.expiry, expiryReached := false
          latePolicy := if ev.latePolicy = 0 then .drop else if ev.latePolicy = 1 then .startNow else .rearm
          armTime := now } := by
  simp only [OrderFields.newEntry, TrainFields.part, EventFields.part, h, TriggerEdge.ofCode_eq, LatePolicy.ofCode_eq,
    and_self]

theorem newEntry_channel (h : o.channel.val < 12) : (o.newEntry i k n now).channel.val = o.channel.val :=
  Nat.mod_eq_of_lt h

end

/-- Settles O43: the judgement and the effect are those of the state with the number drawn, which differs from `s` in the
counter alone. -/
theorem localRequestIsJudgedAtOnce : Obligations.LocalRequestIsJudgedAtOnce := by
  refine ⟨fun s h => ⟨nextNumber_free h, nextNumber_eq h⟩, fun s u item r head htakes hitem hu hhead =>
    ⟨fun hrefused => ?_, fun haccepted => ⟨fun o ho => ?_, fun subject delta hr => ?_, fun subject hr => ?_⟩⟩,
    fun o i k n now e he => ?_⟩
  · rw [exec_submitLocal_refused htakes hitem hrefused, hhead, List.append_assoc, hu]
    rfl
  · obtain ⟨i, hi⟩ := freeIndex_of_room (accepted_order_room (ho ▸ haccepted))
    obtain ⟨hempty, hlowest⟩ := freeIndex_lowest hi
    refine ⟨i, hempty, hlowest, ?_⟩
    rw [exec_submitLocal_accepted htakes hitem haccepted (i := i) (ho ▸ hi), ho, applyRequest_order (s := drawNumber (riseCsn s)) o hi, hhead,
      List.append_assoc, hu]
    rfl
  · obtain ⟨e, he⟩ := accepted_amend (hr ▸ haccepted)
    refine ⟨e, he, ?_⟩
    have hindex : requestIndex (drawNumber (riseCsn s)) s.own r = some e.index := hr ▸ congrArg (Option.map Entry.index) he
    have hdrawn : drawNumber (riseCsn s) = u := hu.symm
    rw [exec_submitLocal_accepted htakes hitem haccepted hindex, hr, applyRequest_amend (s := drawNumber (riseCsn s)) delta he, hhead,
      List.append_assoc, hdrawn]
    rfl
  · obtain ⟨e, he⟩ := accepted_cancel (hr ▸ haccepted)
    refine ⟨e, he, ?_⟩
    have hindex : requestIndex (drawNumber (riseCsn s)) s.own r = some e.index := hr ▸ congrArg (Option.map Entry.index) he
    have hdrawn : drawNumber (riseCsn s) = u := hu.symm
    rw [exec_submitLocal_accepted htakes hitem haccepted hindex, hr, applyRequest_cancel (s := drawNumber (riseCsn s)) he, hhead,
      List.append_assoc, hdrawn]
    rfl
  · rw [he]
    exact ⟨rfl, rfl, rfl, newEntry_channel o i k n now, rfl, rfl, rfl, rfl, rfl, rfl, rfl,
      fun due => newEntry_absolute o i k n now, fun ev => newEntry_event o i k n now⟩

/-! ### A peer request (R103, R162) -/

section
variable {s : State} {k : Station} {r : Request}

theorem submitToPeer_refused {why : ResponseCode} (h : refusePeerSubmit s k = some why) :
    submitToPeer k r s = refuse 0x05 why s := by
  simp only [submitToPeer, h]

theorem submitToPeer_made (h : refusePeerSubmit s k = none) :
    submitToPeer k r s = accept 0x05 (number16 s.nextNumber) (makeRequest k s.nextNumber r (drawNumber s)) := by
  simp only [submitToPeer, h]

theorem refusePeerSubmit_arg (hrange : s.stationCount ≤ k.val) : refusePeerSubmit s k = some .arg := if_pos hrange

variable (hrange : k.val < s.stationCount)
include hrange

theorem refusePeerSubmit_state (hsilent : s.link.state.transmits = false) : refusePeerSubmit s k = some .state := by
  rw [refusePeerSubmit, if_neg (Nat.not_le.mpr hrange), hsilent]
  rfl

variable (htransmits : s.link.state.transmits = true)
include htransmits

theorem refusePeerSubmit_fullList (hfull : 16 ≤ s.exchange.requests.length) : refusePeerSubmit s k = some .full := by
  rw [refusePeerSubmit, if_neg (Nat.not_le.mpr hrange), htransmits]
  exact if_pos hfull

variable (hlist : s.exchange.requests.length < 16)
include hlist

theorem refusePeerSubmit_limit (hfull : 8 ≤ (s.requestsTo k).length) : refusePeerSubmit s k = some .limit := by
  rw [refusePeerSubmit, if_neg (Nat.not_le.mpr hrange), htransmits]
  exact (if_neg (Nat.not_le.mpr hlist)).trans (if_pos hfull)

variable (htarget : (s.requestsTo k).length < 8)
include htarget

theorem refusePeerSubmit_queue : refusePeerSubmit s k = if s.exchange.sendQueue.length < 24 then none else some .full := by
  rw [refusePeerSubmit, if_neg (Nat.not_le.mpr hrange), htransmits]
  refine ((if_neg (Nat.not_le.mpr hlist)).trans (if_neg (Nat.not_le.mpr htarget))).trans ?_
  unfold State.sendRoom
  by_cases hroom : s.exchange.sendQueue.length < 24
  · rw [if_pos hroom, decide_eq_true hroom]
    rfl
  · rw [if_neg hroom, decide_eq_false hroom]
    rfl

end

theorem submitToPeer_changes (k : Station) (r : Request) (s : State) :
    Changes [.exchange] s (submitToPeer k r s).state := by
  cases h : refusePeerSubmit s k with
  | some why =>
    rw [submitToPeer_refused h]
    exact .refl _ _
  | none =>
    rw [submitToPeer_made h]
    exact (changes_drawNumber s).then (changes_makeRequest k s.nextNumber r _)

/-- Settles O44: the first check that fails answers; else the record is made on the state with the number drawn. -/
theorem peerSubmitMakesARecordAndItsFirstTry : Obligations.PeerSubmitMakesARecordAndItsFirstTry := by
  intro s item k r htakes hitem hk
  have hpath : submit item (riseCsn s) = submitToPeer k r (riseCsn s) := submit_peer (s := riseCsn s) hitem hk
  have htaken := takeCommand_taken (submit item) s htakes
  rw [hpath] at htaken
  have hchanges := submitToPeer_changes k r (riseCsn s)
  have hrefused : ∀ why : ResponseCode, why ≠ .ok → refusePeerSubmit s k = some why →
      (submitToPeer k r (riseCsn s)).state.exchange = s.exchange ∧
        (submitToPeer k r (riseCsn s)).response = [0x05, why.byte] := fun why hwhy h => by
    rw [submitToPeer_refused (s := riseCsn s) h]
    exact ⟨rfl, respond_refused hwhy⟩
  refine ⟨_, congrArg Host.Outcome.next htaken, fun hrange => hrefused .arg nofun (refusePeerSubmit_arg hrange),
    fun hrange hsilent => hrefused .state nofun (refusePeerSubmit_state hrange hsilent), fun hrange htransmits =>
    ⟨fun hfull => hrefused .full nofun (refusePeerSubmit_fullList hrange htransmits hfull),
      fun hlist hfull => hrefused .limit nofun (refusePeerSubmit_limit hrange htransmits hlist hfull),
      fun hlist htarget hfull => hrefused .full nofun
        ((refusePeerSubmit_queue hrange htransmits hlist htarget).trans (if_neg (Nat.not_lt.mpr hfull))),
      fun hlist htarget hroom => ?_⟩, ?_, ?_, ?_⟩
  · have hmade := submitToPeer_made (s := riseCsn s) (r := r)
      ((refusePeerSubmit_queue hrange htransmits hlist htarget).trans (if_pos hroom))
    rw [hmade]
    exact ⟨rfl, rfl, nextNumber_free hlist.le⟩
  · exact (congrArg HostPort.notices hchanges.host_eq :)
  · exact (congrArg HostPort.lost hchanges.host_eq :)
  · exact ((changes_setHost s _).then (ds := [.exchange, .host]) hchanges).then (changes_setHost _ _)

end Sys2Proof.Machine
end

