-- ==== Sys2Proof/Proofs/IdleStation.lean ====
section
/-! The station on an empty queue: what is due, and the tick (R1, R5, R12, R20, R30, R71, R72, R110, R114, R115, R124, R136). -/

namespace Sys2Proof.Machine

-- One thread for the whole file: its many small proofs would otherwise each take a thread's memory.
set_option Elab.async false

/-! ### The tick -/

section
variable {s : State}

theorem tick_inReset (h : s.inReset = true) : tick s = s := if_pos h

theorem tick_eq (h : s.inReset = false) : tick s =
    ((((showLevels s).setCycle { s.cycle with lineTime := s.cycle.lineTime + 1 }).setLink s.link.tick).setLine s.line.tick
      ).setCapture { s.capture with pins := mapVector PinRecord.tick s.capture.pins } :=
  if_neg fun hreset => Bool.false_ne_true (h.symm.trans hreset)

theorem tick_pin (h : s.inReset = false) (p : Pin) : (tick s).pin p = (s.pin p).tick := by
  rw [tick_eq h]
  exact get_mapVector PinRecord.tick s.capture.pins p

theorem tick_out (h : s.inReset = false) (n : ChannelNumber) : (tick s).out n = (s.channel n).out := by
  rw [tick_eq h]
  exact get_mapVector Channel.out s.channels n

theorem Channel.out_inactive {c : Channel} (h : c.phase = .inactive) : c.out = c.idle := by
  simp only [Channel.out, h]

theorem Channel.out_active {c : Channel} (h : c.phase = .active) : c.out ≠ c.idle := by
  simp only [Channel.out, h]
  exact flipLevel_ne c.idle

theorem changes_tick (h : s.inReset = false) : Changes [.cycle, .link, .line, .capture, .outputs] s (tick s) := by
  rw [tick_eq h]
  intro b hb
  cases b with
  | cycle | link | line | capture | outputs => exact absurd (by decide) hb
  | _ => rfl

theorem step_due {c : Instr} (hpending : s.pending = []) (hdue : s.dueRow = some c) : step s = exec c s := by
  simp only [step, hpending, idleStep, hdue]

theorem step_tick (hpending : s.pending = []) (hdue : s.dueRow = none) : step s = .next (tick s) := by
  simp only [step, hpending, idleStep, hdue]

end

/-! ### What the table has due (R110, R114, R115, R124) -/

section
variable {s : State} {e : Entry} {now : Time}

theorem nextDueEdge_exists : (∃ e ∈ s.table, ∃ d, e.pendingEdge = some d ∧ passed d.time now = true) ↔
    ∃ d, s.nextDueEdge now = some d := by
  constructor
  · rintro ⟨e, he, d, hd, hreached⟩
    cases hnext : s.nextDueEdge now with
    | none => exact absurd ((nextDueEdge_none hnext e he d hd).symm.trans hreached) Bool.false_ne_true
    | some d => exact ⟨d, rfl⟩
  · rintro ⟨d, hd⟩
    obtain ⟨⟨e, he, hedge⟩, hreached⟩ := State.nextDueEdge_spec hd
    exact ⟨e, he, d, hedge, hreached⟩

theorem Entry.expiryToNote_iff : e.expiryToNote now = true ↔ e.state ≠ .armed ∧ ∃ p x, e.event = some p ∧
    p.expiryReached = false ∧ p.expiry = some x ∧ passed x now = true := by
  by_cases hstate : e.state = .armed
  · have hnever : e.expiryToNote now = false := by simp only [Entry.expiryToNote, hstate]
    rw [hnever]
    exact ⟨fun h => absurd h Bool.false_ne_true, fun ⟨hne, _⟩ => absurd hstate hne⟩
  · cases hevent : e.event with
    | none =>
      have hnever : e.expiryToNote now = false := by
        unfold Entry.expiryToNote
        rw [hevent]
        cases e.state <;> rfl
      rw [hnever]
      exact ⟨fun h => absurd h Bool.false_ne_true, fun ⟨_, p, _, hp, _⟩ => absurd hp.symm (Option.some_ne_none p)⟩
    | some p =>
      rw [Entry.expiryToNote_some hstate hevent, Bool.and_eq_true, Bool.not_eq_true', Option.any_eq_true]
      exact ⟨fun ⟨hreached, x, hx, hpassed⟩ => ⟨hstate, p, x, rfl, hreached, hx, hpassed⟩,
        fun ⟨_, q, x, hq, hreached, hx, hpassed⟩ => by
          obtain rfl := Option.some.inj hq
          exact ⟨hreached, x, hx, hpassed⟩⟩

theorem Entry.holdToAge_iff : e.holdToAge now = true ↔ e.state = .running ∧ e.nextEdge = none ∧ e.aged = false ∧
    ∃ x, e.lastStart = some x ∧ atOrAfter now (x + BitVec.ofNat 32 (2 ^ 30)) = true := by
  rw [Entry.holdToAge_eq, Bool.and_eq_true, Bool.not_eq_true', Bool.and_eq_true, decide_eq_true_iff, Option.any_eq_true]
  exact ⟨fun ⟨haged, ⟨hstate, hedge⟩, hstart⟩ => ⟨hstate, hedge, haged, hstart⟩,
    fun ⟨hstate, hedge, haged, hstart⟩ => ⟨haged, ⟨hstate, hedge⟩, hstart⟩⟩

theorem Entry.armTimeDue_iff : e.armTimeDue now = true ↔ e.state = .armed ∧ ∃ p, e.event = some p ∧
    atOrAfter now (p.armTime + BitVec.ofNat 32 (2 ^ 30)) = true ∧ p.armTime ≠ now - BitVec.ofNat 32 (2 ^ 30) := by
  unfold Entry.armTimeDue
  split
  · rename_i p hstate hevent
    rw [Bool.and_eq_true, bne_iff_ne]
    refine ⟨fun ⟨hold, hne⟩ => ⟨hstate, p, hevent, hold, hne⟩, fun ⟨_, q, hq, hold, hne⟩ => ?_⟩
    obtain rfl := Option.some.inj (hevent.symm.trans hq)
    exact ⟨hold, hne⟩
  · rename_i hother
    exact ⟨fun h => absurd h Bool.false_ne_true, fun ⟨hstate, p, hp, _⟩ => absurd hp (hother p hstate)⟩

theorem Entry.noteRow_expiry (h : e.expiryToNote now = true) : e.noteRow now = some (.expiryNotedAsReached e.index) :=
  if_pos h

theorem Entry.noteRow_hold (h : ¬e.expiryToNote now = true) (hhold : e.holdToAge now = true) :
    e.noteRow now = some (.holdAged e.index) := (if_neg h).trans (if_pos hhold)

theorem Entry.noteRow_arm (h : ¬e.expiryToNote now = true) (hhold : ¬e.holdToAge now = true)
    (harm : e.armTimeDue now = true) : e.noteRow now = some (.armTimeAgeing e.index) :=
  ((if_neg h).trans (if_neg hhold)).trans (if_pos harm)

theorem Entry.noteRow_eq_none : e.noteRow now = none ↔
    ¬e.expiryToNote now = true ∧ ¬e.holdToAge now = true ∧ ¬e.armTimeDue now = true := by
  unfold Entry.noteRow
  split
  · rename_i h
    exact ⟨fun hnone => absurd hnone (Option.some_ne_none _), fun ⟨hne, _⟩ => absurd h hne⟩
  · rename_i h
    split
    · rename_i hhold
      exact ⟨fun hnone => absurd hnone (Option.some_ne_none _), fun ⟨_, hne, _⟩ => absurd hhold hne⟩
    · rename_i hhold
      split
      · rename_i harm
        exact ⟨fun hnone => absurd hnone (Option.some_ne_none _), fun ⟨_, _, hne⟩ => absurd harm hne⟩
      · rename_i harm
        exact ⟨fun _ => ⟨h, hhold, harm⟩, fun _ => rfl⟩

/-- The note of the first entry that has one. -/
theorem findSome?_noteRow {l earlier later : List Entry} (hl : l = earlier ++ e :: later)
    (hearlier : ∀ x ∈ earlier, x.noteRow now = none) {c : Instr} (he : e.noteRow now = some c) :
    l.findSome? (Entry.noteRow now) = some c := by
  rw [hl, List.findSome?_append, List.findSome?_eq_none_iff.mpr hearlier, Option.none_or, List.findSome?_cons_of_isSome]
  · exact he
  · rw [he]
    rfl

end

/-! ### The pins and the line (R30, R72) -/

section
variable {s : State}

theorem PinRecord.recognised_iff {r : PinRecord} :
    r.recognised = true ↔ ∃ h, r.hold = some h ∧ r.filter.toNat ≤ h.count := by
  cases hhold : r.hold with
  | none =>
    simp only [PinRecord.recognised, hhold]
    exact ⟨fun h => absurd h Bool.false_ne_true, fun ⟨h, hh, _⟩ => absurd hh.symm (Option.some_ne_none h)⟩
  | some h =>
    simp only [PinRecord.recognised, hhold, decide_eq_true_iff]
    exact ⟨fun hcount => ⟨h, rfl, hcount⟩, fun ⟨x, hx, hcount⟩ => Option.some.inj hx ▸ hcount⟩

theorem recognitionDue_lowest {p : Pin} (hp : (s.pin p).recognised = true)
    (hbelow : ∀ q, q < p → ¬(s.pin q).recognised = true) : s.recognitionDue = some (.edgeRecognised p) := by
  have hfirst : (allPins.find? fun p => (s.pin p).recognised) = some p := by
    refine List.find?_eq_some_iff_getElem.mpr ⟨hp, p.val, by simp [allPins], by simp [allPins], fun j hj => ?_⟩
    simp only [allPins, List.getElem_finRange, Bool.not_eq_true']
    exact Bool.eq_false_iff.mpr (hbelow _ hj)
  rw [State.recognitionDue, hfirst, Option.map_some]

theorem recognitionDue_eq_none : s.recognitionDue = none ↔ ¬∃ p, (s.pin p).recognised = true := by
  rw [State.recognitionDue, Option.map_eq_none_iff, List.find?_eq_none]
  exact ⟨fun h ⟨p, hp⟩ => h p (List.mem_finRange p) hp, fun h p _ hp => h ⟨p, hp⟩⟩

theorem frameEndRow_of {f : OwnFrame} (hframe : s.line.frame = some f) (hended : f.remaining = some 0) :
    s.frameEndRow = some (.frameEnd false f.content) := by
  simp only [State.frameEndRow, State.frameEndDue, hframe, hended, if_true, Option.map_some]

theorem frameEndRow_eq_none : s.frameEndRow = none ↔ ¬∃ f, s.line.frame = some f ∧ f.remaining = some 0 := by
  rw [State.frameEndRow, Option.map_eq_none_iff]
  unfold State.frameEndDue
  cases s.line.frame with
  | none => exact ⟨fun _ ⟨f, hf, _⟩ => absurd hf.symm (Option.some_ne_none f), fun _ => rfl⟩
  | some f =>
    dsimp only
    split
    · rename_i hended
      exact ⟨fun h => absurd h (Option.some_ne_none f), fun h => absurd ⟨f, rfl, hended⟩ h⟩
    · rename_i hended
      exact ⟨fun _ ⟨x, hx, hx0⟩ => hended (Option.some.inj hx ▸ hx0), fun _ => rfl⟩

/-! ### The grid (R5, R12, R20, R30) -/

theorem listenDue_iff : s.listenDue = true ↔ s.link.state = .listen ∧ s.link.listenTimer = some 0 := by
  rw [State.listenDue, Bool.and_eq_true, decide_eq_true_iff, decide_eq_true_iff]

theorem cycleEndDue_iff : s.cycleEndDue = true ↔ s.cycle.running = true ∧ s.cycle.slotZeroAwaited = false ∧
    s.cycle.slotIndex = some s.straps.cnt ∧
    passed (s.cycle.cycleStart + BitVec.ofNat 32 (s.stationCount * s.slotLength)) s.now = true := by
  rw [State.cycleEndDue, Bool.and_eq_true, Bool.and_eq_true, Bool.and_eq_true, Bool.not_eq_true', decide_eq_true_iff, and_assoc,
    and_assoc]
  rfl

theorem slotDue_iff : s.slotDue.isSome = true ↔ s.cycle.running = true ∧
    ((s.cycle.slotZeroAwaited = true ∧ passed s.cycle.cycleStart s.now = true) ∨
      (s.cycle.slotZeroAwaited = false ∧ ∃ k : Station, s.cycle.slotIndex = some k ∧ k.val + 1 < s.stationCount ∧
        passed (s.cycle.cycleStart + BitVec.ofNat 32 ((k.val + 1) * s.slotLength)) s.now = true)) := by
  constructor
  · intro h
    obtain ⟨d, hd⟩ := Option.isSome_iff_exists.mp h
    cases d with
    | zero =>
      obtain ⟨hrunning, hzero⟩ := slotDue_zero_iff.mp hd
      exact ⟨hrunning, .inl hzero⟩
    | after k =>
      obtain ⟨hrunning, hawaited, hk⟩ := slotDue_after_iff.mp hd
      exact ⟨hrunning, .inr ⟨hawaited, k, hk⟩⟩
  · rintro ⟨hrunning, hzero | ⟨hawaited, k, hk⟩⟩
    · exact Option.isSome_iff_exists.mpr ⟨_, slotDue_zero_iff.mpr ⟨hrunning, hzero⟩⟩
    · exact Option.isSome_iff_exists.mpr ⟨_, slotDue_after_iff.mpr ⟨hrunning, hawaited, hk⟩⟩

theorem sendDue_iff : s.sendDue = true ↔ ∃ f, s.line.frame = some f ∧ f.remaining = none ∧ s.link.state.transmits = true ∧
    s.cycle.running = true ∧ s.cycle.slotZeroAwaited = false ∧ s.cycle.slotIndex = some s.own ∧
    passed (s.cycle.cycleStart + BitVec.ofNat 32 (s.own.val * s.slotLength) +
      BitVec.ofNat 32 (Config.sendOffset s.straps.rate)) s.now = true := by
  unfold State.sendDue
  cases s.line.frame with
  | none => exact ⟨fun h => absurd h Bool.false_ne_true, fun ⟨f, hf, _⟩ => absurd hf.symm (Option.some_ne_none f)⟩
  | some f =>
    dsimp only
    rw [Bool.and_eq_true, Bool.and_eq_true, Bool.and_eq_true, Bool.and_eq_true, Bool.and_eq_true, Bool.not_eq_true',
      decide_eq_true_iff, Option.isNone_iff_eq_none]
    constructor
    · rintro ⟨⟨⟨⟨⟨htransmits, hrunning⟩, hawaited⟩, hslot⟩, hwaits⟩, hpassed⟩
      exact ⟨f, rfl, hwaits, htransmits, hrunning, hawaited, hslot, hpassed⟩
    · rintro ⟨x, hx, hwaits, htransmits, hrunning, hawaited, hslot, hpassed⟩
      obtain rfl := Option.some.inj hx
      exact ⟨⟨⟨⟨⟨htransmits, hrunning⟩, hawaited⟩, hslot⟩, hwaits⟩, hpassed⟩

theorem gridRow_listen (h : s.listenDue = true) : s.gridRow = some .listenTimerExpiry := if_pos h

theorem gridRow_cycleEnd (h : ¬s.listenDue = true) (hcycle : s.cycleEndDue = true) : s.gridRow = some .cycleEnd :=
  (if_neg h).trans (if_pos hcycle)

theorem gridRow_slot (h : ¬s.listenDue = true) (hcycle : ¬s.cycleEndDue = true) (hslot : s.slotDue.isSome = true) :
    s.gridRow = some (.slotStart .slotEndFirst) := ((if_neg h).trans (if_neg hcycle)).trans (if_pos hslot)

theorem gridRow_send (h : ¬s.listenDue = true) (hcycle : ¬s.cycleEndDue = true) (hslot : ¬s.slotDue.isSome = true)
    (hsend : s.sendDue = true) : s.gridRow = some .sendInstant :=
  (((if_neg h).trans (if_neg hcycle)).trans (if_neg hslot)).trans (if_pos hsend)

theorem gridRow_eq_none : s.gridRow = none ↔
    ¬s.listenDue = true ∧ ¬s.cycleEndDue = true ∧ ¬s.slotDue.isSome = true ∧ ¬s.sendDue = true := by
  constructor
  · intro hnone
    have hlisten : ¬s.listenDue = true := fun h => Option.some_ne_none _ ((gridRow_listen h).symm.trans hnone)
    have hcycle : ¬s.cycleEndDue = true := fun h => Option.some_ne_none _ ((gridRow_cycleEnd hlisten h).symm.trans hnone)
    have hslot : ¬s.slotDue.isSome = true := fun h =>
      Option.some_ne_none _ ((gridRow_slot hlisten hcycle h).symm.trans hnone)
    exact ⟨hlisten, hcycle, hslot, fun h => Option.some_ne_none _ ((gridRow_send hlisten hcycle hslot h).symm.trans hnone)⟩
  · rintro ⟨hlisten, hcycle, hslot, hsend⟩
    exact (((if_neg hlisten).trans (if_neg hcycle)).trans (if_neg hslot)).trans (if_neg hsend)

/-! ### The order of the rows (log entry 4) -/

theorem dueRow_edge {d : PendingEdge} (h : s.nextDueEdge s.now = some d) : s.dueRow = some d.row := by
  rw [State.dueRow, h]
  rfl

variable (hedge : ¬∃ d, s.nextDueEdge s.now = some d)
include hedge

theorem dueRow_note {c : Instr} (h : s.table.findSome? (Entry.noteRow s.now) = some c) : s.dueRow = some c := by
  rw [State.dueRow, Option.eq_none_iff_forall_ne_some.mpr fun d hd => hedge ⟨d, hd⟩, h]
  rfl

/-- Where the table has nothing due. -/
theorem dueRow_after_table (h : ∀ e ∈ s.table, e.noteRow s.now = none) :
    s.dueRow = s.recognitionDue.or (s.frameEndRow.or s.gridRow) := by
  rw [State.dueRow, Option.eq_none_iff_forall_ne_some.mpr fun d hd => hedge ⟨d, hd⟩, List.findSome?_eq_none_iff.mpr h]
  rfl

end

theorem dueRow_eq_none {s : State} : s.dueRow = none ↔ (¬∃ d, s.nextDueEdge s.now = some d) ∧
    (∀ e ∈ s.table, e.noteRow s.now = none) ∧ s.recognitionDue = none ∧ s.frameEndRow = none ∧ s.gridRow = none := by
  rw [State.dueRow, Option.or_eq_none_iff, Option.or_eq_none_iff, Option.or_eq_none_iff, Option.or_eq_none_iff,
    Option.map_eq_none_iff, List.findSome?_eq_none_iff, Option.eq_none_iff_forall_ne_some, not_exists]

/-- The rows of the grid where nothing before them is due. -/
theorem dueRow_grid {s : State} (hedge : ¬∃ d, s.nextDueEdge s.now = some d) (hnotes : ∀ e ∈ s.table, e.noteRow s.now = none)
    (hpins : ¬∃ p, (s.pin p).recognised = true) (hframe : ¬∃ f, s.line.frame = some f ∧ f.remaining = some 0) :
    s.dueRow = s.gridRow := by
  rw [dueRow_after_table hedge hnotes, recognitionDue_eq_none.mpr hpins, frameEndRow_eq_none.mpr hframe, Option.none_or,
    Option.none_or]

theorem PendingEdge.row_of_kind (d : PendingEdge) : (d.kind = .finish → d.row = .endEdge d.index) ∧
    (d.kind = .expiry → d.row = .expiry d.index) ∧ (d.kind = .start → d.row = .startEdge d.index) ∧
    (d.kind = .phase → d.row = .trainPhaseStart d.index) := by
  refine ⟨fun h => ?_, fun h => ?_, fun h => ?_, fun h => ?_⟩
  · simp only [PendingEdge.row, h]
  · simp only [PendingEdge.row, h]
  · simp only [PendingEdge.row, h]
  · simp only [PendingEdge.row, h]

/-- Settles O2: each named condition is the model's own, and the rows come one after another. -/
theorem idleStationTakesWhatIsDueOrTicks : Obligations.IdleStationTakesWhatIsDueOrTicks := by
  refine ⟨fun s hpending => ⟨fun c hc => step_due hpending hc, fun hnone => ⟨fun hreset => ?_, fun hout => ?_⟩⟩, ?_⟩
  · rw [step_tick hpending hnone, tick_inReset hreset]
  · have heq := tick_eq hout
    refine ⟨_, step_tick hpending hnone, ?_, ?_, ?_, tick_pin hout, ?_, ?_, fun n => ⟨fun h => ?_, fun h => ?_⟩,
      changes_tick hout⟩
    · rw [heq]
      rfl
    · rw [heq]
      rfl
    · rw [heq]
      rfl
    · rw [heq]
      rfl
    · rw [heq]
      rfl
    · rw [tick_out hout, Channel.out_inactive h]
    · rw [tick_out hout]
      exact Channel.out_active h
  · intro s edge recognising ending listening cycling slot sending quiet expiring holding ageing recognised hedge hexpiring
      hholding hageing hrecognised hrecognising hending hlistening hcycling hslot hsending hquiet
    obtain rfl : edge = _ := propext (hedge.trans nextDueEdge_exists)
    obtain rfl : expiring = fun e => e.expiryToNote s.now = true :=
      funext fun e => propext ((hexpiring e).trans Entry.expiryToNote_iff.symm)
    obtain rfl : holding = fun e => e.holdToAge s.now = true :=
      funext fun e => propext ((hholding e).trans Entry.holdToAge_iff.symm)
    obtain rfl : ageing = fun e => e.armTimeDue s.now = true :=
      funext fun e => propext ((hageing e).trans Entry.armTimeDue_iff.symm)
    obtain rfl : recognised = fun p => (s.pin p).recognised = true :=
      funext fun p => propext ((hrecognised p).trans PinRecord.recognised_iff.symm)
    obtain rfl : listening = _ := propext (hlistening.trans listenDue_iff.symm)
    obtain rfl : cycling = _ := propext (hcycling.trans cycleEndDue_iff.symm)
    obtain rfl : slot = _ := propext (hslot.trans slotDue_iff.symm)
    obtain rfl : sending = _ := propext (hsending.trans sendDue_iff.symm)
    rw [hquiet, hrecognising, hending]
    have hnotes : (∀ e ∈ s.table, ¬e.expiryToNote s.now = true ∧ ¬e.holdToAge s.now = true ∧ ¬e.armTimeDue s.now = true) ↔
        ∀ e ∈ s.table, e.noteRow s.now = none := forall₂_congr fun e _ => Entry.noteRow_eq_none.symm
    refine ⟨Iff.rfl, fun d hd => ?_, fun hnoEdge earlier e later htable hearlier => ?_, fun hnoEdge hnoNote => ?_,
      fun ⟨hnoEdge, hnoNote, hnoPin, hnoEnd⟩ hlisten => ?_, fun ⟨hnoEdge, hnoNote, hnoPin, hnoEnd⟩ hlisten hcycle => ?_,
      fun ⟨hnoEdge, hnoNote, hnoPin, hnoEnd⟩ hlisten hcycle hslotDue => ?_,
      fun ⟨hnoEdge, hnoNote, hnoPin, hnoEnd⟩ hlisten hcycle hslotDue hsend => ?_, ?_⟩
    · rw [dueRow_edge hd]
      obtain ⟨hfinish, hexpiry, hstart, hphase⟩ := d.row_of_kind
      exact ⟨fun h => congrArg some (hfinish h), fun h => congrArg some (hexpiry h), fun h => congrArg some (hstart h),
        fun h => congrArg some (hphase h)⟩
    · have hnone : ∀ x ∈ earlier, x.noteRow s.now = none := fun x hx => Entry.noteRow_eq_none.mpr (hearlier x hx)
      exact ⟨fun h => dueRow_note hnoEdge (findSome?_noteRow htable hnone (Entry.noteRow_expiry h)),
        fun h hhold => dueRow_note hnoEdge (findSome?_noteRow htable hnone (Entry.noteRow_hold h hhold)),
        fun h hhold harm => dueRow_note hnoEdge (findSome?_noteRow htable hnone (Entry.noteRow_arm h hhold harm))⟩
    · rw [dueRow_after_table hnoEdge (hnotes.mp hnoNote)]
      refine ⟨fun p hp hbelow => ?_, fun hnoPin f hframe hended => ?_⟩
      · rw [recognitionDue_lowest hp hbelow]
        rfl
      · rw [recognitionDue_eq_none.mpr hnoPin, frameEndRow_of hframe hended]
        rfl
    · rw [dueRow_grid hnoEdge (hnotes.mp hnoNote) hnoPin hnoEnd, gridRow_listen hlisten]
    · rw [dueRow_grid hnoEdge (hnotes.mp hnoNote) hnoPin hnoEnd, gridRow_cycleEnd hlisten hcycle]
    · rw [dueRow_grid hnoEdge (hnotes.mp hnoNote) hnoPin hnoEnd, gridRow_slot hlisten hcycle hslotDue]
    · rw [dueRow_grid hnoEdge (hnotes.mp hnoNote) hnoPin hnoEnd, gridRow_send hlisten hcycle hslotDue hsend]
    · rw [dueRow_eq_none, hnotes, recognitionDue_eq_none, frameEndRow_eq_none, gridRow_eq_none]
      simp only [and_assoc]

end Sys2Proof.Machine
end

