-- ==== Sys2Proof/Proofs/HostRowBytes.lean ====
section
/-! The bytes of a transaction and the row they make (R172 to R175). -/

namespace Sys2Proof.Machine

-- One thread for the whole file: its many small proofs would otherwise each take a thread's memory.
set_option Elab.async false

section
variable {own : Station}

/-! ### From a row to its bytes -/

theorem commandOfBytes_above {code : Byte} (h : 0x0D ≤ code.toNat) (args : List Byte) :
    commandOfBytes own (code :: args) = .unknownCommand code args := by
  obtain ⟨m, hm⟩ := Nat.exists_eq_add_of_le' h
  simp only [commandOfBytes, hm]

theorem initRow_above {part : Byte} (h : 5 ≤ part.toNat) (body : List Byte) :
    initRow (part :: body) = .unknownCommand 0x02 (part :: body) := by
  obtain ⟨m, hm⟩ := Nat.exists_eq_add_of_le' h
  simp only [initRow, hm]

/-- The row of an unknown command is the row of the bytes that name no other. -/
theorem commandOfBytes_namesNoRow {code : Byte} {args : List Byte} (h : namesNoRow code args = true) :
    commandOfBytes own (code :: args) = .unknownCommand code args := by
  rcases (Bool.or_eq_true _ _).mp h with hcode | hinit
  · exact commandOfBytes_above (of_decide_eq_true hcode) args
  · obtain ⟨hcode, hargs⟩ := (Bool.and_eq_true _ _).mp hinit
    obtain rfl : code = 0x02 := beq_iff_eq.mp hcode
    cases args with
    | nil => rfl
    | cons part body =>
      rcases (Bool.or_eq_true _ _).mp hargs with hzero | habove
      · obtain rfl : part = 0 := beq_iff_eq.mp hzero
        rfl
      · exact initRow_above (of_decide_eq_true habove) body

/-- The bytes of a well-formed row make that row. -/
theorem commandOfBytes_hostBytes {c : Instr} {bytes : List Byte} (hform : c.wellFormed = true)
    (h : hostBytes own c = some bytes) : commandOfBytes own bytes = c := by
  cases c with
  | submitLocal item =>
    simp only [hostBytes] at h
    split at h
    · rename_i hrow
      obtain rfl := Option.some.inj h
      exact hrow
    · exact absurd h.symm (Option.some_ne_none bytes)
  | submitPeer item =>
    simp only [hostBytes] at h
    split at h
    · rename_i hrow
      obtain rfl := Option.some.inj h
      exact hrow
    · exact absurd h.symm (Option.some_ne_none bytes)
  | unknownCommand code args =>
    obtain rfl := Option.some.inj h
    exact commandOfBytes_namesNoRow hform
  | nop | reset | initPermit args | initInput args | initIdle args | initLead args | start | stop | mark args | notice | status
  | peer args | entry args | time | capture args | emptyTransaction =>
    obtain rfl := Option.some.inj h
    rfl
  | _ => exact absurd h.symm (Option.some_ne_none bytes)

/-! ### From bytes to their row -/

/-- The row is well formed, and the bytes begin with its own. -/
def Spells (own : Station) (bytes : List Byte) (c : Instr) : Prop :=
  c.wellFormed = true ∧ ∃ used unused, hostBytes own c = some used ∧ bytes = used ++ unused

theorem Spells.of_hostBytes {bytes used : List Byte} {c : Instr} (hform : c.wellFormed = true)
    (h : hostBytes own c = some used) (unused : List Byte) (hbytes : bytes = used ++ unused) : Spells own bytes c :=
  ⟨hform, used, unused, h, hbytes⟩

theorem Spells.whole {bytes : List Byte} {c : Instr} (hform : c.wellFormed = true) (h : hostBytes own c = some bytes) :
    Spells own bytes c := .of_hostBytes hform h [] (List.append_nil bytes).symm

theorem spells_initRow (args : List Byte) : Spells own (0x02 :: args) (initRow args) := by
  cases args with
  | nil => exact .whole rfl rfl
  | cons part body =>
    rcases Nat.lt_or_ge part.toNat 5 with hpart | hpart
    · have hvalue : part = BitVec.ofNat 8 part.toNat := by rw [BitVec.ofNat_toNat, BitVec.setWidth_eq]
      generalize part.toNat = n at hpart hvalue
      subst hvalue
      match n, hpart with
      | 0, _ => exact .whole rfl rfl
      | 1, _ => exact .whole rfl rfl
      | 2, _ => exact .whole rfl rfl
      | 3, _ => exact .whole rfl rfl
      | 4, _ => exact .whole rfl rfl
    · rw [initRow_above hpart]
      refine .whole ?_ rfl
      have habove : decide (part.toNat > 4) = true := decide_eq_true hpart
      simp only [Instr.wellFormed, namesNoRow, habove, Bool.or_true, beq_self_eq_true, Bool.and_true]

theorem hostBytes_submitLocal {item : List Byte} (h : submitRow own item = .submitLocal item) :
    hostBytes own (.submitLocal item) = some (0x05 :: item) := if_pos h

theorem hostBytes_submitPeer {item : List Byte} (h : submitRow own item = .submitPeer item) :
    hostBytes own (.submitPeer item) = some (0x05 :: item) := if_pos h

theorem spells_submitRow (item : List Byte) : Spells own (0x05 :: item) (submitRow own item) := by
  cases item with
  | nil =>
    have hrow : submitRow own [] = .submitPeer [] := rfl
    rw [hrow]
    exact .whole rfl (hostBytes_submitPeer hrow)
  | cons b more =>
    by_cases hown : (b.extractLsb' 0 4).toNat = own.val
    · have hrow : submitRow own (b :: more) = .submitLocal (b :: more) := if_pos hown
      rw [hrow]
      exact .whole rfl (hostBytes_submitLocal hrow)
    · have hrow : submitRow own (b :: more) = .submitPeer (b :: more) := if_neg hown
      rw [hrow]
      exact .whole rfl (hostBytes_submitPeer hrow)

theorem spells_commandOfBytes (bytes : List Byte) : Spells own bytes (commandOfBytes own bytes) := by
  cases bytes with
  | nil => exact .whole rfl rfl
  | cons code args =>
    rcases Nat.lt_or_ge code.toNat 0x0D with hcode | hcode
    · have hvalue : code = BitVec.ofNat 8 code.toNat := by rw [BitVec.ofNat_toNat, BitVec.setWidth_eq]
      generalize code.toNat = n at hcode hvalue
      subst hvalue
      match n, hcode with
      | 0x00, _ => exact .of_hostBytes rfl rfl args rfl
      | 0x01, _ => exact .of_hostBytes rfl rfl args rfl
      | 0x02, _ => exact spells_initRow args
      | 0x03, _ => exact .of_hostBytes rfl rfl args rfl
      | 0x04, _ => exact .of_hostBytes rfl rfl args rfl
      | 0x05, _ => exact spells_submitRow args
      | 0x06, _ => exact .whole rfl rfl
      | 0x07, _ => exact .of_hostBytes rfl rfl args rfl
      | 0x08, _ => exact .of_hostBytes rfl rfl args rfl
      | 0x09, _ => exact .whole rfl rfl
      | 0x0A, _ => exact .whole rfl rfl
      | 0x0B, _ => exact .of_hostBytes rfl rfl args rfl
      | 0x0C, _ => exact .whole rfl rfl
    · rw [commandOfBytes_above hcode]
      exact .whole ((Bool.or_eq_true _ _).mpr (.inl (decide_eq_true hcode))) rfl

end

/-- Settles O54: the two directions, by the row and by the code byte. -/
theorem hostBytesSpellTheirRow : Obligations.HostBytesSpellTheirRow := fun _ =>
  ⟨fun _ _ hform h => commandOfBytes_hostBytes hform h, fun bytes => spells_commandOfBytes bytes⟩

end Sys2Proof.Machine
end

