-- ==== Sys2Proof/Proofs/Words.lean ====
section
/-! Words, nibbles and numbers, and the bytes they stand in (R38, R43 to R47). -/

namespace Sys2Proof.Machine

-- One thread for the whole file: its many small proofs would otherwise each take a thread's memory.
set_option Elab.async false

/-! ### Words -/

section
variable (a b c d : Byte)

theorem bytes16_word16 : bytes16 (word16 a b) = [a, b] := by
  have hhigh : (word16 a b).extractLsb' 8 8 = a := BitVec.extractLsb'_append_eq_left
  have hlow : (word16 a b).extractLsb' 0 8 = b := BitVec.extractLsb'_append_eq_right
  rw [bytes16, hhigh, hlow]

theorem bytes24_word24 : bytes24 (word24 a b c) = [a, b, c] := by
  have hhigh : (word24 a b c).extractLsb' 16 8 = a :=
    (BitVec.extractLsb'_append_eq_of_le (by decide)).trans BitVec.extractLsb'_append_eq_left
  have hmiddle : (word24 a b c).extractLsb' 8 8 = b :=
    (BitVec.extractLsb'_append_eq_of_le (by decide)).trans BitVec.extractLsb'_append_eq_right
  have hlow : (word24 a b c).extractLsb' 0 8 = c := BitVec.extractLsb'_append_eq_right
  rw [bytes24, hhigh, hmiddle, hlow]

theorem bytes32_word32 : bytes32 (word32 a b c d) = [a, b, c, d] := by
  have habove : ∀ m, (word32 a b c d).extractLsb' (8 + m) 8 = (word24 a b c).extractLsb' m 8 := fun m =>
    (BitVec.extractLsb'_append_eq_of_le (Nat.le_add_right 8 m)).trans
      (congrArg (fun k => (word24 a b c).extractLsb' k 8) (Nat.add_sub_cancel_left 8 m))
  have hbytes := bytes24_word24 a b c
  rw [bytes24, ← habove, ← habove, ← habove] at hbytes
  have hlow : (word32 a b c d).extractLsb' 0 8 = d := BitVec.extractLsb'_append_eq_right
  rw [bytes32, hlow]
  exact congrArg (· ++ [d]) hbytes

end

theorem word16_extract (x : BitVec 16) : word16 (x.extractLsb' 8 8) (x.extractLsb' 0 8) = x :=
  BitVec.extractLsb'_append_extractLsb' (w := 8) (len := 8)

theorem word24_extract (x : BitVec 24) : word24 (x.extractLsb' 16 8) (x.extractLsb' 8 8) (x.extractLsb' 0 8) = x := by
  have hupper : x.extractLsb' 16 8 ++ x.extractLsb' 8 8 = x.extractLsb' 8 16 :=
    BitVec.extractLsb'_append_extractLsb'_eq_extractLsb' rfl
  rw [word24, hupper]
  exact BitVec.extractLsb'_append_extractLsb' (w := 16) (len := 8)

theorem word32_extract (x : BitVec 32) :
    word32 (x.extractLsb' 24 8) (x.extractLsb' 16 8) (x.extractLsb' 8 8) (x.extractLsb' 0 8) = x := by
  have hupper : x.extractLsb' 24 8 ++ x.extractLsb' 16 8 = x.extractLsb' 16 16 :=
    BitVec.extractLsb'_append_extractLsb'_eq_extractLsb' rfl
  have hmore : x.extractLsb' 16 16 ++ x.extractLsb' 8 8 = x.extractLsb' 8 24 :=
    BitVec.extractLsb'_append_extractLsb'_eq_extractLsb' rfl
  rw [word32, hupper, hmore]
  exact BitVec.extractLsb'_append_extractLsb' (w := 24) (len := 8)

/-! ### Nibbles -/

theorem ofNat_val_ofNat (x : BitVec 4) : BitVec.ofNat 4 (Fin.ofNat 16 x.toNat).val = x := by
  rw [Fin.val_ofNat, Nat.mod_eq_of_lt x.isLt, BitVec.ofNat_toNat, BitVec.setWidth_eq]

theorem ofNat_toNat_val (k : Fin 16) : Fin.ofNat 16 (BitVec.ofNat 4 k.val).toNat = k := by
  refine Fin.ext ?_
  rw [BitVec.toNat_ofNat, Fin.val_ofNat, Nat.mod_mod, Nat.mod_eq_of_lt k.isLt]

theorem nibbles_high_low (b : Byte) : nibbles (highNibble b) (lowNibble b) = b := by
  rw [nibbles, highNibble, lowNibble, ofNat_val_ofNat, ofNat_val_ofNat]
  exact BitVec.extractLsb'_append_extractLsb' (w := 4) (len := 4)

theorem highNibble_nibbles (high low : Fin 16) : highNibble (nibbles high low) = high := by
  have hbits : (nibbles high low).extractLsb' 4 4 = BitVec.ofNat 4 high.val := BitVec.extractLsb'_append_eq_left
  rw [highNibble, hbits, ofNat_toNat_val]

theorem lowNibble_nibbles (high low : Fin 16) : lowNibble (nibbles high low) = low := by
  have hbits : (nibbles high low).extractLsb' 0 4 = BitVec.ofNat 4 low.val := BitVec.extractLsb'_append_eq_right
  rw [lowNibble, hbits, ofNat_toNat_val]

theorem ofNat_lowNibble (b : Byte) : BitVec.ofNat 4 (lowNibble b).val = lowBits b := ofNat_val_ofNat _

/-! ### Numbers with a nibble -/

theorem numberBytes_numberOf (a b : Byte) : numberBytes (numberOf a b) (lowBits b) = [a, b] := by
  have hlow : lowBits b = (word16 a b).extractLsb' 0 4 :=
    (BitVec.extractLsb'_append_eq_of_add_le (xhi := a) (by decide)).symm
  have hword : numberOf a b ++ lowBits b = word16 a b := by
    rw [hlow]
    exact BitVec.extractLsb'_append_extractLsb' (w := 12) (len := 4)
  rw [numberBytes, hword, bytes16_word16]

section
variable (n : RequestNumber) (low : BitVec 4)

theorem numberOf_numberBytes : numberOf ((n ++ low : BitVec 16).extractLsb' 8 8) ((n ++ low : BitVec 16).extractLsb' 0 8) = n := by
  rw [numberOf, word16_extract]
  exact BitVec.extractLsb'_append_eq_left

theorem lowBits_numberBytes : lowBits ((n ++ low : BitVec 16).extractLsb' 0 8) = low := by
  rw [lowBits, BitVec.extractLsb'_extractLsb'_of_le (by decide)]
  exact BitVec.extractLsb'_append_eq_right

theorem lowNibble_numberBytes : lowNibble ((n ++ low : BitVec 16).extractLsb' 0 8) = Fin.ofNat 16 low.toNat :=
  congrArg (fun x : BitVec 4 => Fin.ofNat 16 x.toNat) (lowBits_numberBytes n low)

end

end Sys2Proof.Machine
end

