-- ==== Sys2Proof/Proofs/ItemCodes.lean ====
section
/-! Every item and its bytes (R41 to R47). -/

namespace Sys2Proof.Machine

-- One thread for the whole file: its many small proofs would otherwise each take a thread's memory.
set_option Elab.async false

/-! ### Codes -/

theorem ReplyCode.ofCode_code (x : ReplyCode) : ReplyCode.ofCode x.code = some x := by
  cases x <;> rfl

theorem ReplyCode.ofCode_all : ∀ c : BitVec 4, (ReplyCode.ofCode c).all (fun x => x.code == c) = true := by decide

theorem ReplyCode.code_of_ofCode {c : BitVec 4} {x : ReplyCode} (h : ReplyCode.ofCode c = some x) : x.code = c := by
  have hall := ReplyCode.ofCode_all c
  rw [h] at hall
  exact beq_iff_eq.mp hall

theorem EntryOutcome.ofCode_all : ∀ c : BitVec 4, (EntryOutcome.ofCode c).all (fun x => x.code == c) = true := by decide

theorem EntryOutcome.code_of_ofCode {c : BitVec 4} {x : EntryOutcome} (h : EntryOutcome.ofCode c = some x) : x.code = c := by
  have hall := EntryOutcome.ofCode_all c
  rw [h] at hall
  exact beq_iff_eq.mp hall

theorem EntryOutcome.ofCode_code (x : EntryOutcome) : EntryOutcome.ofCode x.code = some x := by
  cases x <;> rfl

theorem Edge.ofBit_bit (x : Edge) : Edge.ofBit x.bit = x := by
  cases x <;> rfl

theorem Edge.bit_ofBit (x : Bool) : (Edge.ofBit x).bit = x := by
  cases x <;> rfl

/-! ### Bytes of flags -/

section
variable (x : Byte)

theorem extractLsb'_one {w : Nat} (x : BitVec w) (i : Nat) : x.extractLsb' i 1 = bit (x.getLsbD i) := by
  refine BitVec.eq_of_getLsbD_eq fun j hj => ?_
  obtain rfl : j = 0 := by omega
  simp [bit]

/-- A byte whose lower seven bits are 0. -/
theorem byte_of_lower7 (h : x.extractLsb' 0 7 = 0) : bit (x.getLsbD 7) ++ (0 : BitVec 7) = x := by
  rw [← h, ← extractLsb'_one]
  exact BitVec.extractLsb'_append_extractLsb' (w := 1) (len := 7)

/-- A byte whose lower six bits are 0. -/
theorem byte_of_lower6 (h : x.extractLsb' 0 6 = 0) : x.extractLsb' 6 2 ++ (0 : BitVec 6) = x := by
  rw [← h]
  exact BitVec.extractLsb'_append_extractLsb' (w := 2) (len := 6)

end

theorem lower7_of_bit (b : Bool) : (bit b ++ (0 : BitVec 7)).extractLsb' 0 7 = 0 := BitVec.extractLsb'_append_eq_right

theorem getLsbD_bit7 (b : Bool) : (bit b ++ (0 : BitVec 7)).getLsbD 7 = b := by
  cases b <;> decide

theorem lower6_of_edge (e : BitVec 2) : (e ++ (0 : BitVec 6)).extractLsb' 0 6 = 0 := BitVec.extractLsb'_append_eq_right

theorem upper2_of_edge (e : BitVec 2) : (e ++ (0 : BitVec 6)).extractLsb' 6 2 = e := BitVec.extractLsb'_append_eq_left

theorem getLsbD_append_high {v w : Nat} (x : BitVec v) (y : BitVec w) (i : Nat) : (x ++ y).getLsbD (w + i) = x.getLsbD i := by
  rw [BitVec.getLsbD_append, if_neg (by omega), Nat.add_sub_cancel_left]

theorem getLsbD_bit (b : Bool) : (bit b).getLsbD 0 = b := by
  cases b <;> rfl

theorem getLsbD_append_bit {v : Nat} (x : BitVec v) (b : Bool) : (x ++ bit b).getLsbD 0 = b := by
  rw [BitVec.getLsbD_append, if_pos Nat.zero_lt_one]
  cases b <;> rfl

/-- Byte 3 of an ORDER from its fields (R43). -/
def flagsByte (train basis preempt bound report : Bool) (late : BitVec 2) (expiry : Bool) : Byte :=
  bit train ++ bit basis ++ bit preempt ++ bit bound ++ bit report ++ late ++ bit expiry

theorem orderFlags_eq (o : OrderFields) : orderFlags o =
    flagsByte o.train.isSome o.basis.bits.1 o.preempt o.bound o.report o.basis.bits.2.1 o.basis.bits.2.2 := rfl

section
variable (train basis preempt bound report : Bool) (late : BitVec 2) (expiry : Bool)

/-- Bits 7..3, below which stand the late policy and the expiry bit. -/
theorem flagsByte_upper (i : Nat) : (flagsByte train basis preempt bound report late expiry).getLsbD (1 + (2 + i)) =
    (bit train ++ bit basis ++ bit preempt ++ bit bound ++ bit report).getLsbD i :=
  (getLsbD_append_high _ (bit expiry) (2 + i)).trans (getLsbD_append_high _ late i)

theorem flagsByte_train : (flagsByte train basis preempt bound report late expiry).getLsbD 7 = train :=
  (flagsByte_upper _ _ _ _ _ _ _ 4).trans ((getLsbD_append_high _ (bit report) 3).trans
    ((getLsbD_append_high _ (bit bound) 2).trans ((getLsbD_append_high _ (bit preempt) 1).trans
      ((getLsbD_append_high _ (bit basis) 0).trans (getLsbD_bit train)))))

theorem flagsByte_basis : (flagsByte train basis preempt bound report late expiry).getLsbD 6 = basis :=
  (flagsByte_upper _ _ _ _ _ _ _ 3).trans ((getLsbD_append_high _ (bit report) 2).trans
    ((getLsbD_append_high _ (bit bound) 1).trans ((getLsbD_append_high _ (bit preempt) 0).trans (getLsbD_append_bit _ basis))))

theorem flagsByte_preempt : (flagsByte train basis preempt bound report late expiry).getLsbD 5 = preempt :=
  (flagsByte_upper _ _ _ _ _ _ _ 2).trans ((getLsbD_append_high _ (bit report) 1).trans
    ((getLsbD_append_high _ (bit bound) 0).trans (getLsbD_append_bit _ preempt)))

theorem flagsByte_bound : (flagsByte train basis preempt bound report late expiry).getLsbD 4 = bound :=
  (flagsByte_upper _ _ _ _ _ _ _ 1).trans ((getLsbD_append_high _ (bit report) 0).trans (getLsbD_append_bit _ bound))

theorem flagsByte_report : (flagsByte train basis preempt bound report late expiry).getLsbD 3 = report :=
  (flagsByte_upper _ _ _ _ _ _ _ 0).trans (getLsbD_append_bit _ report)

theorem flagsByte_late : (flagsByte train basis preempt bound report late expiry).extractLsb' 1 2 = late :=
  (BitVec.extractLsb'_append_eq_of_le (by decide)).trans BitVec.extractLsb'_append_eq_right

theorem flagsByte_expiry : (flagsByte train basis preempt bound report late expiry).getLsbD 0 = expiry :=
  getLsbD_append_bit _ expiry

end

theorem flagsByte_eq (f : Byte) : flagsByte (f.getLsbD 7) (f.getLsbD 6) (f.getLsbD 5) (f.getLsbD 4) (f.getLsbD 3)
    (f.extractLsb' 1 2) (f.getLsbD 0) = f := by
  simp only [flagsByte, ← extractLsb'_one]
  have h6 : f.extractLsb' 7 1 ++ f.extractLsb' 6 1 = f.extractLsb' 6 2 := BitVec.extractLsb'_append_extractLsb'_eq_extractLsb' rfl
  have h5 : f.extractLsb' 6 2 ++ f.extractLsb' 5 1 = f.extractLsb' 5 3 := BitVec.extractLsb'_append_extractLsb'_eq_extractLsb' rfl
  have h4 : f.extractLsb' 5 3 ++ f.extractLsb' 4 1 = f.extractLsb' 4 4 := BitVec.extractLsb'_append_extractLsb'_eq_extractLsb' rfl
  have h3 : f.extractLsb' 4 4 ++ f.extractLsb' 3 1 = f.extractLsb' 3 5 := BitVec.extractLsb'_append_extractLsb'_eq_extractLsb' rfl
  have h1 : f.extractLsb' 3 5 ++ f.extractLsb' 1 2 = f.extractLsb' 1 7 := BitVec.extractLsb'_append_extractLsb'_eq_extractLsb' rfl
  rw [h6, h5, h4, h3, h1]
  exact BitVec.extractLsb'_append_extractLsb' (w := 7) (len := 1)

/-- Bits 2..0 of byte 3 are 0 exactly where its late policy and its expiry bit are. -/
theorem lower3_iff (f : Byte) : f.extractLsb' 0 3 = 0 ↔ f.extractLsb' 1 2 = 0 ∧ f.getLsbD 0 = false := by
  have hsplit : f.extractLsb' 1 2 ++ bit (f.getLsbD 0) = f.extractLsb' 0 3 := by
    rw [← extractLsb'_one]
    exact BitVec.extractLsb'_append_extractLsb'_eq_extractLsb' rfl
  rw [← hsplit]
  generalize f.extractLsb' 1 2 = late
  generalize f.getLsbD 0 = expiry
  revert late expiry
  decide

end Sys2Proof.Machine
end

