-- ==== Sys2Proof/Proofs/Items.lean ====
section
/-! The parse of an item takes exactly the item's bytes (R41 to R47). -/

namespace Sys2Proof.Machine

-- One thread for the whole file: its many small proofs would otherwise each take a thread's memory.
set_option Elab.async false

/-! ### The parts of an ORDER (R44) -/

section
variable {bs rest : List Byte}

theorem parseTrain_iff {present : Bool} {train : Option TrainFields} :
    parseTrain present bs = some (train, rest) ↔ present = train.isSome ∧ bs = encodeTrain train ++ rest := by
  constructor
  · intro h
    unfold parseTrain at h
    split at h
    · rename_i hpresent
      split at h
      · cases h
        refine ⟨hpresent, ?_⟩
        rw [encodeTrain, bytes24_word24, bytes16_word16]
        rfl
      · cases h
    · rename_i habsent
      cases h
      exact ⟨Bool.eq_false_iff.mpr habsent, rfl⟩
  · rintro ⟨rfl, rfl⟩
    cases train with
    | none => rfl
    | some tr =>
      show some (some (TrainFields.mk (word24 _ _ _) (word16 _ _)), rest) = _
      rw [word24_extract, word16_extract]

theorem parseExpiry_iff {present : Bool} {expiry : Option Time} :
    parseExpiry present bs = some (expiry, rest) ↔ present = expiry.isSome ∧ bs = encodeExpiry expiry ++ rest := by
  constructor
  · intro h
    unfold parseExpiry at h
    split at h
    · rename_i hpresent
      split at h
      · cases h
        refine ⟨hpresent, ?_⟩
        rw [encodeExpiry, bytes32_word32]
        rfl
      · cases h
    · rename_i habsent
      cases h
      exact ⟨Bool.eq_false_iff.mpr habsent, rfl⟩
  · rintro ⟨rfl, rfl⟩
    cases expiry with
    | none => rfl
    | some x =>
      show some (some (word32 _ _ _ _), rest) = _
      rw [word32_extract]

theorem parseBasis_iff {flags : Byte} {basis : BasisFields} : parseBasis flags bs = some (basis, rest) ↔
    flags.getLsbD 6 = basis.bits.1 ∧ flags.extractLsb' 1 2 = basis.bits.2.1 ∧ flags.getLsbD 0 = basis.bits.2.2 ∧
      bs = encodeBasis basis ++ rest := by
  constructor
  · intro h
    unfold parseBasis at h
    split at h
    · rename_i hevent
      split at h
      · rename_i who edge d2 d1 d0 fires more
        split at h
        · rename_i hedge
          split at h
          · rename_i expiry after hexpiry
            obtain ⟨hpresent, hmore⟩ := parseExpiry_iff.mp hexpiry
            cases h
            refine ⟨hevent, rfl, hpresent, ?_⟩
            rw [encodeBasis, nibbles_high_low, byte_of_lower6 edge hedge, bytes24_word24, hmore]
            simp only [List.append_assoc]
            rfl
          · cases h
        · cases h
      · cases h
    · rename_i habsolute
      split at h
      · rename_i hlower
        obtain ⟨hlate, hexpiry⟩ := (lower3_iff flags).mp hlower
        split at h
        · cases h
          refine ⟨Bool.eq_false_iff.mpr habsolute, hlate, hexpiry, ?_⟩
          rw [encodeBasis, bytes32_word32]
          rfl
        · cases h
      · cases h
  · rintro ⟨hbasis, hlate, hexpiry, rfl⟩
    cases basis with
    | absolute due =>
      have hlower : flags.extractLsb' 0 3 = 0 := (lower3_iff flags).mpr ⟨hlate, hexpiry⟩
      have habsolute : flags.getLsbD 6 = false := hbasis
      unfold parseBasis
      rw [habsolute, if_neg Bool.false_ne_true, if_pos hlower]
      show some (BasisFields.absolute (word32 _ _ _ _), rest) = _
      rw [word32_extract]
    | event e =>
      have hmore : parseExpiry (flags.getLsbD 0) (encodeExpiry e.expiry ++ rest) = some (e.expiry, rest) :=
        parseExpiry_iff.mpr ⟨hexpiry, rfl⟩
      have hbytes : encodeBasis (.event e) ++ rest =
          nibbles e.station e.input :: (e.edge ++ (0 : BitVec 6)) :: e.delay.extractLsb' 16 8 :: e.delay.extractLsb' 8 8 ::
            e.delay.extractLsb' 0 8 :: e.fires :: (encodeExpiry e.expiry ++ rest) := by
        simp only [encodeBasis, bytes24, List.append_assoc]
        rfl
      unfold parseBasis
      rw [hbasis, hbytes]
      simp only [BasisFields.bits, if_true, if_pos (lower6_of_edge e.edge), hmore, highNibble_nibbles, lowNibble_nibbles,
        upper2_of_edge, word24_extract]
      rw [hlate]
      rfl

end

/-! ### After the first byte (R42 to R47) -/

section
variable {k : Fin 16} {bs rest : List Byte} {i : Item}

theorem parseOrder_bytes (h : parseOrder k bs = some (i, rest)) : nibbles 2 k :: bs = encodeItem i ++ rest := by
  unfold parseOrder at h
  split at h
  · rename_i n1 n0 flags w2 w1 w0 more
    split at h
    · rename_i train after htrain
      split at h
      · rename_i basis left hbasis
        obtain ⟨htrainBit, hmore⟩ := parseTrain_iff.mp htrain
        obtain ⟨hbasisBit, hlate, hexpiry, hafter⟩ := parseBasis_iff.mp hbasis
        cases h
        have hflags : orderFlags
            { channel := lowNibble n0
              preempt := flags.getLsbD 5, bound := flags.getLsbD 4, report := flags.getLsbD 3
              width := word24 w2 w1 w0, train := train, basis := basis } = flags := by
          rw [orderFlags_eq]
          simp only [← htrainBit, ← hbasisBit, ← hlate, ← hexpiry]
          exact flagsByte_eq flags
        rw [encodeItem, encodeRequest, ofNat_lowNibble, numberBytes_numberOf, hflags, bytes24_word24, hmore, hafter]
        simp only [List.append_assoc]
        rfl
      · cases h
    · cases h
  · cases h

theorem parseAmend_bytes (h : parseAmend k bs = some (i, rest)) : nibbles 3 k :: bs = encodeItem i ++ rest := by
  unfold parseAmend at h
  split at h
  · rename_i n1 n0 s1 s0 d2 d1 d0 more
    split at h
    · rename_i hlow
      obtain ⟨hn, hs⟩ := hlow
      cases h
      have hnumber := numberBytes_numberOf n1 n0
      have hsubject := numberBytes_numberOf s1 s0
      rw [hn] at hnumber
      rw [hs] at hsubject
      rw [encodeItem, encodeRequest, hnumber, hsubject, bytes24_word24]
      rfl
    · cases h
  · cases h

theorem parseCancel_bytes (h : parseCancel k bs = some (i, rest)) : nibbles 4 k :: bs = encodeItem i ++ rest := by
  unfold parseCancel at h
  split at h
  · rename_i n1 n0 s1 s0 more
    split at h
    · rename_i hlow
      obtain ⟨hn, hs⟩ := hlow
      cases h
      have hnumber := numberBytes_numberOf n1 n0
      have hsubject := numberBytes_numberOf s1 s0
      rw [hn] at hnumber
      rw [hs] at hsubject
      rw [encodeItem, encodeRequest, hnumber, hsubject]
      rfl
    · cases h
  · cases h

theorem parseEvent_bytes (h : parseEvent k bs = some (i, rest)) : nibbles 1 k :: bs = encodeItem i ++ rest := by
  unfold parseEvent at h
  split at h
  · rename_i edge number a b c d more
    split at h
    · rename_i hlower
      cases h
      rw [encodeItem, encodeEvent, Edge.bit_ofBit, byte_of_lower7 edge hlower, bytes32_word32]
      rfl
    · cases h
  · cases h

theorem parseReply_bytes (h : parseReply k bs = some (i, rest)) : nibbles 5 k :: bs = encodeItem i ++ rest := by
  unfold parseReply at h
  split at h
  · rename_i n1 n0 more
    split at h
    · rename_i code hcode
      cases h
      rw [encodeItem, encodeReply, ReplyCode.code_of_ofCode hcode, numberBytes_numberOf]
      rfl
    · cases h
  · cases h

/-- The presence byte and the time of a RESULT, as the two forms of its bytes give them. -/
theorem encodeResult_eq (n : RequestNumber) (o : EntryOutcome) (lastStart : Option Time) : encodeResult k n o lastStart =
    [nibbles 6 k] ++ numberBytes n o.code ++ [bit lastStart.isSome ++ (0 : BitVec 7)] ++ encodeExpiry lastStart := by
  have hpresent : bit true ++ (0 : BitVec 7) = 0x80 := by decide
  have habsent : bit false ++ (0 : BitVec 7) = 0x00 := by decide
  cases lastStart with
  | none =>
    rw [Option.isSome_none, habsent]
    rfl
  | some x =>
    rw [Option.isSome_some, hpresent]
    rfl

theorem parseResult_bytes (h : parseResult k bs = some (i, rest)) : nibbles 6 k :: bs = encodeItem i ++ rest := by
  unfold parseResult at h
  split at h
  · rename_i n1 n0 presence more
    split at h
    · rename_i outcome houtcome
      split at h
      · rename_i hlower
        split at h
        · rename_i lastStart left hstart
          obtain ⟨hpresent, hmore⟩ := parseExpiry_iff.mp hstart
          cases h
          rw [encodeItem, encodeResult_eq, EntryOutcome.code_of_ofCode houtcome, numberBytes_numberOf, ← hpresent,
            byte_of_lower7 presence hlower, hmore]
          simp only [List.append_assoc]
          rfl
        · cases h
      · cases h
    · cases h
  · cases h

end

/-- The bytes of an item that was read. -/
theorem parseItem_bytes {bytes rest : List Byte} {i : Item} (h : parseItem bytes = some (i, rest)) :
    bytes = encodeItem i ++ rest := by
  cases bytes with
  | nil => exact absurd h.symm (Option.some_ne_none _)
  | cons b bs =>
    have hfirst : ∀ kind : Fin 16, (highNibble b).val = kind.val → b = nibbles kind (lowNibble b) := fun kind hkind => by
      rw [← Fin.ext hkind, nibbles_high_low]
    simp only [parseItem] at h
    split at h
    · rename_i hkind
      rw [hfirst 1 hkind]
      exact parseEvent_bytes h
    · rename_i hkind
      rw [hfirst 2 hkind]
      exact parseOrder_bytes h
    · rename_i hkind
      rw [hfirst 3 hkind]
      exact parseAmend_bytes h
    · rename_i hkind
      rw [hfirst 4 hkind]
      exact parseCancel_bytes h
    · rename_i hkind
      rw [hfirst 5 hkind]
      exact parseReply_bytes h
    · rename_i hkind
      rw [hfirst 6 hkind]
      exact parseResult_bytes h
    · cases h

/-! ### An item's bytes are read as that item (R41 to R47) -/

section
variable (k : Fin 16) (rest : List Byte)

/-- The kind in the first byte selects the parse. -/
theorem parseItem_kind (bs : List Byte) : parseItem (nibbles 1 k :: bs) = parseEvent k bs ∧
    parseItem (nibbles 2 k :: bs) = parseOrder k bs ∧ parseItem (nibbles 3 k :: bs) = parseAmend k bs ∧
    parseItem (nibbles 4 k :: bs) = parseCancel k bs ∧ parseItem (nibbles 5 k :: bs) = parseReply k bs ∧
    parseItem (nibbles 6 k :: bs) = parseResult k bs := by
  simp only [parseItem, highNibble_nibbles, lowNibble_nibbles]
  exact ⟨rfl, rfl, rfl, rfl, rfl, rfl⟩

theorem parseEvent_encode (edge : Edge) (number : EventNumber) (stamp : Time) :
    parseEvent k ((bit edge.bit ++ (0 : BitVec 7)) :: number :: (bytes32 stamp ++ rest)) =
      some (.event k edge number stamp, rest) := by
  refine (if_pos (lower7_of_bit edge.bit)).trans ?_
  rw [word32_extract, getLsbD_bit7, Edge.ofBit_bit]
  rfl

theorem parseOrder_encode (n : RequestNumber) (o : OrderFields) :
    parseOrder k (numberBytes n (BitVec.ofNat 4 o.channel.val) ++ (orderFlags o :: (bytes24 o.width ++
      (encodeTrain o.train ++ (encodeBasis o.basis ++ rest))))) = some (.request k n (.order o), rest) := by
  have htrain : parseTrain ((orderFlags o).getLsbD 7) (encodeTrain o.train ++ (encodeBasis o.basis ++ rest)) =
      some (o.train, encodeBasis o.basis ++ rest) := parseTrain_iff.mpr ⟨flagsByte_train _ _ _ _ _ _ _, rfl⟩
  have hbasis : parseBasis (orderFlags o) (encodeBasis o.basis ++ rest) = some (o.basis, rest) :=
    parseBasis_iff.mpr ⟨flagsByte_basis _ _ _ _ _ _ _, flagsByte_late _ _ _ _ _ _ _, flagsByte_expiry _ _ _ _ _ _ _, rfl⟩
  have hpreempt : (orderFlags o).getLsbD 5 = o.preempt := flagsByte_preempt _ _ _ _ _ _ _
  have hbound : (orderFlags o).getLsbD 4 = o.bound := flagsByte_bound _ _ _ _ _ _ _
  have hreport : (orderFlags o).getLsbD 3 = o.report := flagsByte_report _ _ _ _ _ _ _
  simp only [parseOrder, numberBytes, bytes16, bytes24, List.cons_append, List.nil_append, htrain, hbasis,
    numberOf_numberBytes, lowNibble_numberBytes, ofNat_toNat_val, word24_extract, hpreempt, hbound, hreport]

section
variable (n subject : RequestNumber)

theorem parseAmend_encode (delta : BitVec 24) :
    parseAmend k (numberBytes n 0 ++ (numberBytes subject 0 ++ (bytes24 delta ++ rest))) =
      some (.request k n (.amend subject delta), rest) := by
  refine (if_pos ⟨lowBits_numberBytes n 0, lowBits_numberBytes subject 0⟩).trans ?_
  rw [numberOf_numberBytes, numberOf_numberBytes, word24_extract]
  rfl

theorem parseCancel_encode : parseCancel k (numberBytes n 0 ++ (numberBytes subject 0 ++ rest)) =
    some (.request k n (.cancel subject), rest) := by
  refine (if_pos ⟨lowBits_numberBytes n 0, lowBits_numberBytes subject 0⟩).trans ?_
  rw [numberOf_numberBytes, numberOf_numberBytes]
  rfl

theorem parseReply_encode (code : ReplyCode) :
    parseReply k (numberBytes n code.code ++ rest) = some (.reply k n code, rest) := by
  simp only [parseReply, numberBytes, bytes16, List.cons_append, List.nil_append, lowBits_numberBytes,
    ReplyCode.ofCode_code, numberOf_numberBytes]

theorem parseResult_encode (o : EntryOutcome) (lastStart : Option Time) :
    parseResult k (numberBytes n o.code ++ ((bit lastStart.isSome ++ (0 : BitVec 7)) :: (encodeExpiry lastStart ++ rest))) =
      some (.result k n o lastStart, rest) := by
  have hstart : parseExpiry ((bit lastStart.isSome ++ (0 : BitVec 7)).getLsbD 7) (encodeExpiry lastStart ++ rest) =
      some (lastStart, rest) := parseExpiry_iff.mpr ⟨getLsbD_bit7 _, rfl⟩
  simp only [parseResult, numberBytes, bytes16, List.cons_append, List.nil_append, lowBits_numberBytes,
    EntryOutcome.ofCode_code, numberOf_numberBytes, lower7_of_bit, if_true, hstart]

end

end

theorem parseItem_encode (i : Item) (rest : List Byte) : parseItem (encodeItem i ++ rest) = some (i, rest) := by
  cases i with
  | event input edge number stamp =>
    obtain ⟨hevent, -⟩ := parseItem_kind input ((bit edge.bit ++ (0 : BitVec 7)) :: number :: (bytes32 stamp ++ rest))
    exact hevent.trans (parseEvent_encode input rest edge number stamp)
  | request target n r =>
    cases r with
    | order o =>
      have hbytes : encodeItem (.request target n (.order o)) ++ rest = nibbles 2 target ::
          (numberBytes n (BitVec.ofNat 4 o.channel.val) ++ (orderFlags o :: (bytes24 o.width ++
            (encodeTrain o.train ++ (encodeBasis o.basis ++ rest))))) := by
        simp only [encodeItem, encodeRequest, List.append_assoc]
        rfl
      obtain ⟨-, horder, -⟩ := parseItem_kind target (numberBytes n (BitVec.ofNat 4 o.channel.val) ++ (orderFlags o ::
        (bytes24 o.width ++ (encodeTrain o.train ++ (encodeBasis o.basis ++ rest)))))
      rw [hbytes, horder, parseOrder_encode]
    | amend subject delta =>
      obtain ⟨-, -, hamend, -⟩ := parseItem_kind target
        (numberBytes n 0 ++ (numberBytes subject 0 ++ (bytes24 delta ++ rest)))
      exact hamend.trans (parseAmend_encode target rest n subject delta)
    | cancel subject =>
      obtain ⟨-, -, -, hcancel, -⟩ := parseItem_kind target (numberBytes n 0 ++ (numberBytes subject 0 ++ rest))
      exact hcancel.trans (parseCancel_encode target rest n subject)
  | reply origin n code =>
    obtain ⟨-, -, -, -, hreply, -⟩ := parseItem_kind origin (numberBytes n code.code ++ rest)
    exact hreply.trans (parseReply_encode origin rest n code)
  | result origin n o lastStart =>
    obtain ⟨-, -, -, -, -, hresult⟩ := parseItem_kind origin
      (numberBytes n o.code ++ ((bit lastStart.isSome ++ (0 : BitVec 7)) :: (encodeExpiry lastStart ++ rest)))
    rw [encodeItem, encodeResult_eq]
    simp only [List.append_assoc]
    exact hresult.trans (parseResult_encode origin rest n o lastStart)

/-- Settles O52: an item that is read stood in its bytes, and an item's bytes are read as that item. -/
theorem itemsAreReadBackFromTheirBytes : Obligations.ItemsAreReadBackFromTheirBytes := fun _ rest i =>
  ⟨parseItem_bytes, fun h => h ▸ parseItem_encode i rest⟩

end Sys2Proof.Machine
end

