-- ==== Sys2Proof/Proofs/BuiltFrames.lean ====
section
/-! A built frame passes its checks and is read as it was built (R38 to R41, R49). -/

namespace Sys2Proof.Machine

-- One thread for the whole file: its many small proofs would otherwise each take a thread's memory.
set_option Elab.async false

/-! ### The payload (R41) -/

theorem encodeItem_ne_nil (i : Item) : encodeItem i ≠ [] := fun h => by
  have hread := parseItem_encode i []
  rw [h] at hread
  exact Option.some_ne_none _ hread.symm

theorem parseItems_encode {items : List Item} {fuel : Nat} (h : items.length ≤ fuel) :
    parseItems fuel (items.flatMap encodeItem) = some items := by
  induction items generalizing fuel with
  | nil => cases fuel <;> rfl
  | cons i items ih =>
    obtain ⟨fuel, rfl⟩ := Nat.exists_eq_add_of_le' (Nat.zero_lt_of_lt (Nat.lt_of_succ_le h))
    have hfirst := parseItem_encode i (items.flatMap encodeItem)
    rw [List.flatMap_cons]
    cases hbytes : encodeItem i ++ items.flatMap encodeItem with
    | nil => exact absurd (List.append_eq_nil_iff.mp hbytes).1 (encodeItem_ne_nil i)
    | cons b bs =>
      rw [hbytes] at hfirst
      have hrest : parseItems fuel (items.flatMap encodeItem) = some items := ih (Nat.le_of_succ_le_succ h)
      simp only [parseItems, hfirst, hrest]

theorem length_le_flatMap (items : List Item) : items.length ≤ (items.flatMap encodeItem).length := by
  induction items with
  | nil => exact Nat.le_refl _
  | cons i items ih =>
    have hfirst := List.length_pos_iff.mpr (encodeItem_ne_nil i)
    rw [List.flatMap_cons, List.length_append, List.length_cons]
    omega

theorem parsePayload_encode (items : List Item) : parsePayload (items.flatMap encodeItem) = some items :=
  parseItems_encode (length_le_flatMap items)

/-! ### The header (R40) -/

/-- The first byte of a header: the station, the COLDSTART and NEW flags, and two bits of 0. -/
def headerByte (station : Station) (coldstart isNew : Bool) : Byte :=
  BitVec.ofNat 4 station.val ++ bit coldstart ++ bit isNew ++ (0 : BitVec 2)

section
variable (station : Station) (coldstart isNew : Bool)

theorem highNibble_headerByte : highNibble (headerByte station coldstart isNew) = station := by
  have hbits : (headerByte station coldstart isNew).extractLsb' 4 4 = BitVec.ofNat 4 station.val :=
    (BitVec.extractLsb'_append_eq_of_le (by decide)).trans ((BitVec.extractLsb'_append_eq_of_le (by decide)).trans
      BitVec.extractLsb'_append_eq_left)
  rw [highNibble, hbits, ofNat_toNat_val]

theorem coldstart_headerByte : (headerByte station coldstart isNew).getLsbD 3 = coldstart :=
  (getLsbD_append_high _ (0 : BitVec 2) 1).trans ((getLsbD_append_high _ (bit isNew) 0).trans (getLsbD_append_bit _ coldstart))

theorem isNew_headerByte : (headerByte station coldstart isNew).getLsbD 2 = isNew :=
  (getLsbD_append_high _ (0 : BitVec 2) 0).trans (getLsbD_append_bit _ isNew)

theorem clean_headerByte : (headerByte station coldstart isNew).extractLsb' 0 2 = 0 := BitVec.extractLsb'_append_eq_right

end

theorem encodeHeader_eq (h : Header) : encodeHeader h =
    [headerByte h.station h.coldstart h.isNew] ++ bytes16 h.cycleNumber ++ bytes32 h.cycleStart ++ [h.length] := rfl

theorem parseHeader_encode (h : Header) (rest : List Byte) : parseHeader (encodeHeader h ++ rest) = some (h, true, rest) := by
  rw [encodeHeader_eq]
  simp only [parseHeader, bytes16, bytes32, List.cons_append, List.nil_append, highNibble_headerByte, coldstart_headerByte,
    isNew_headerByte, clean_headerByte, word16_extract, word32_extract, decide_true]

/-! ### The checks (R39, R49) -/

/-- A reception of a header, as many bytes as it says, and their frame check. -/
theorem readReception_closed (h : Header) (payload : List Byte) (hmaximum : payload.length ≤ 64)
    (hlength : h.length.toNat = payload.length) :
    readReception (encodeHeader h ++ payload ++ bytes16 (frameCheck (encodeHeader h ++ payload))) =
      .intact h (parsePayload payload) := by
  have hheader := parseHeader_encode h (payload ++ bytes16 (frameCheck (encodeHeader h ++ payload)))
  have htake : (encodeHeader h ++ (payload ++ bytes16 (frameCheck (encodeHeader h ++ payload)))).take Config.headerLength =
      encodeHeader h := List.take_left' rfl
  have hpayload : (payload ++ bytes16 (frameCheck (encodeHeader h ++ payload))).take h.length.toNat = payload :=
    List.take_left' hlength.symm
  have hcheck : (payload ++ bytes16 (frameCheck (encodeHeader h ++ payload))).drop h.length.toNat =
      bytes16 (frameCheck (encodeHeader h ++ payload)) := List.drop_left' hlength.symm
  rw [List.append_assoc]
  simp only [readReception, hheader, htake, hpayload, hcheck]
  rw [if_neg (by rw [hlength]; exact Nat.not_lt.mpr hmaximum)]
  exact if_pos ⟨hlength.symm, rfl⟩

/-- Settles O53: the checks of a closed frame hold, and its payload is read item by item. -/
theorem builtFramePassesTheChecks : Obligations.BuiltFramePassesTheChecks := by
  intro h items hmaximum hlength
  have hvalue : h.length.toNat = (items.flatMap encodeItem).length := by
    rw [hlength, BitVec.toNat_ofNat]
    exact Nat.mod_eq_of_lt (hmaximum.trans_lt (by decide))
  rw [readReception_closed h _ hmaximum hvalue, parsePayload_encode]

end Sys2Proof.Machine
end
